-- ==== Sys2Proof/Word.lean ====
section
/-! DEFINITION. The words of the K24S's registers and of its SPI port. -/

namespace Sys2Proof

/-- One byte of the SPI port (chapter Command Port). -/
abbrev Byte := BitVec 8

/-- A 16-bit quantity: gate serial, gate counter, modulus, check code. -/
abbrev Word16 := BitVec 16

/-- A 32-bit quantity: lo, hi, margin, the value of an observation. -/
abbrev Word32 := BitVec 32

end Sys2Proof
end

