-- ==== Sys2Proof/Config.lean ====
section
/-! DEFINITION. What the K24S fixes once: the numbers of slots, pins, bases and lines, the value sets of its
fields, and the values the spec leaves open (the check code, and numbers that only a change in storage can bring about). -/

namespace Sys2Proof

/-- A slot of the contract table, 0 to 63 (R1). -/
abbrev SlotIx := Fin 64
/-- A signal input and its pin channel, 0 to 23 (R101). -/
abbrev PinIx := Fin 24
/-- A time base, TB0 to TB3 (R84). -/
abbrev BaseIx := Fin 4
/-- A trip line, TRIP0 to TRIP3 (R144). -/
abbrev LineIx := Fin 4

/-- The property a contract measures (R6). -/
inductive Kind where
  | meanPeriod | period | pulse | duty | count | level
  deriving DecidableEq, Repr

/-- The nine contract states (R9). -/
inductive ContractState where
  | arming | conforming | suspect | violated | suspended | held | dormant | done | corrupt
  deriving DecidableEq, Repr

/-- The outcome of a counted observation (R27); VOID is never recorded (R10). -/
inductive Verdict where
  | inWindow | below | above | silent
  deriving DecidableEq, Repr

/-- The phases of a measurement context (R59). -/
inductive Phase where
  | waitGate | opening | counting | closing | sampling
  deriving DecidableEq, Repr

/-- The states of a time base (R85). -/
inductive BaseState where
  | stopped | running | stalled
  deriving DecidableEq, Repr

/-- The device supervision state (R156). -/
inductive Supervision where
  | normal | referenceFault | faultLatched
  deriving DecidableEq, Repr

/-- The Reference Checker's gap timer (R156), of which every rule asks one thing: whether it stands at 4 µs.
`fresh` is the timer started by a power-on reset, with no REFCLK rising edge since; `running` is the timer
restarted by the latest edge and still below 4 µs; `expired` is the timer at 4 µs. -/
inductive GapTimer where
  | fresh | running | expired
  deriving DecidableEq, Repr

/-- The policy of a trip line (R144). -/
inductive Policy where
  | follow | hold
  deriving DecidableEq, Repr

/-- The contract notice kinds (R133). -/
inductive NoticeKind where
  | suspect | recovered | blocked | violated | done | corrupt | retired
  deriving DecidableEq, Repr

/-- The device notice kinds (R135). -/
inductive DeviceKind where
  | resetDone | referenceLost | referenceBack
  deriving DecidableEq, Repr

/-- The frame assembly state of the port (R170). -/
inductive FrameState where
  | idle | receiving
  deriving DecidableEq, Repr

/-- Where VDD stands (R168, R185): below 1.2 V; at 1.2 V or above and below the operating range; in range. -/
inductive Supply where
  | below1V2 | belowRange | inRange
  deriving DecidableEq, Repr

/-- The direction of an edge of the filtered level (R104). -/
inductive EdgeDir where
  | rise | fall
  deriving DecidableEq, Repr

/-- The result codes of a reply (R184). -/
inductive ResultCode where
  | ok | okReplaced | noReply | badCheck | badCommand | badLength | badField | staleHandle | noContract
  | tableFull | pinFull | wrongState | inViolation | stillViolating | hasDependents | tooDeep | timebaseBusy
  | faulted | contributors
  deriving DecidableEq, Repr

/-- The 27 commands of the code table (R184). -/
inductive Command where
  | nop | identify | readStatus | repeatReply | create | amend | suspend | resume | clear | retire | query | list
  | wipeTable | readNotices | ackNotice | setTimebase | startTimebase | stopTimebase | readTimebase | setPin
  | readPins | setTrip | releaseTrip | forceTrip | readTrips | clearFault | resetDevice
  deriving DecidableEq, Repr

/-- A contract handle, slot:generation (R3). -/
structure Handle where
  slot : SlotIx
  generation : Byte
  deriving DecidableEq, Repr

/-- The base-tick count of a time base: its gate serial and gate counter (R61, R88). -/
structure Stamp where
  serial : Word16
  counter : Word16
  deriving DecidableEq, Repr

/-- The fixed fields of a contract record (R6). -/
structure Fixed where
  pin : PinIx
  kind : Kind
  /-- The sense code of R184: RISE or HIGH 1, FALL or LOW 2, BOTH 3, LEVEL 0 (R7). -/
  sense : BitVec 2
  base : BaseIx
  parent : Option Handle
  oneshot : Bool
  latching : Bool
  deriving DecidableEq, Repr

/-- The amendable fields of a contract record (R8). -/
structure Limits where
  lo : Word32
  hi : Word32
  margin : Word32
  tolerance : BitVec 4
  recoveryCount : BitVec 4
  silenceLimit : BitVec 4
  settle : BitVec 3
  /-- Bit n stands for TRIPn (R184). -/
  tripMask : BitVec 4
  /-- Bit 0 SUSPECT, bit 1 RECOVERED, bit 2 BLOCKED (R184). -/
  noticeMask : BitVec 3
  deriving DecidableEq, Repr

/-- What the check code covers: the slot's generation, the fixed fields, the amendable fields, and the presence
and the fields of the staged amendment (R12). -/
structure Covered where
  generation : Byte
  fixed : Fixed
  limits : Limits
  staged : Option Limits
  deriving DecidableEq, Repr

/-- The 16-bit check code over the covered fields (R12, chapter 10). FREE VALUE: the spec gives the code's width
and what it covers, and neither its polynomial nor the order of the fields; see log entry 1. -/
opaque Config.checkCode : Covered → Word16

/-- The position of an edge of a measurement that has no opening timestamp, or one that lies ahead of the edge or more than
1,048,560 ticks behind it. FREE VALUE: only a change in storage brings this about, R61 states no position and R77 rules it
out; its bound is that of the tick accumulator (R59); see log entry 15. -/
opaque Config.unstatedPosition : Option Stamp → Stamp → Fin 1048561

/-- The active ticks of a stay whose exit position lies before its entry mark. FREE VALUE: only a change in storage brings this
about, and R73 and R74 state no difference there; see log entry 15. -/
opaque Config.unstatedStay : Nat → Nat → Fin 1048561

/-- The active-tick accumulator when a stay would take it beyond 1,048,560. FREE VALUE: R59 and R77 keep it at or below that
bound, so that only a change in storage brings this about; see log entry 15. -/
opaque Config.unstatedActive : Nat → Nat → Fin 1048561

/-- The edge or period accumulator when an edge would take it beyond 8,388,608. FREE VALUE: R59 and R78 keep it at or below that
bound, so that only a change in storage brings this about; see log entry 15. -/
opaque Config.unstatedCount : Nat → Fin 8388609

/-- A dependents count decreased from 0 or increased from 63. FREE VALUE: R114 keeps the count from 0 to 63, so that only a
change in storage brings this about; see log entry 15. -/
opaque Config.unstatedDependents : Nat → Fin 64

/-- One covered amendable field and the value it takes, for a change in storage (R164). -/
inductive LimitChange where
  | lo (v : Word32) | hi (v : Word32) | margin (v : Word32) | tolerance (v : BitVec 4)
  | recoveryCount (v : BitVec 4) | silenceLimit (v : BitVec 4) | settle (v : BitVec 3)
  | tripMask (v : BitVec 4) | noticeMask (v : BitVec 3)
  deriving DecidableEq, Repr

/-- One change in storage of a covered field or of the stored check code (R164, R12): the field that changes and
the value it holds afterwards. -/
inductive StorageFault where
  | generation (v : Byte)
  | pin (v : PinIx) | kind (v : Kind) | sense (v : BitVec 2) | base (v : BaseIx) | parent (v : Option Handle)
  | oneshot (v : Bool) | latching (v : Bool)
  /-- An amendable field in force. -/
  | inForce (c : LimitChange)
  /-- A field of a staged amendment that is present. -/
  | staged (c : LimitChange)
  /-- The presence of the staged amendment; with an absent one that becomes present, the fields that its storage then shows. -/
  | stagedPresence (v : Option Limits)
  | checkCode (v : Word16)
  deriving DecidableEq, Repr

end Sys2Proof
end

