-- ==== Sys2Proof/Syntax.lean ====
section
/-! DEFINITION. The commands of the block: one constructor of `Instr` for each row of spec/opcode_table.json,
with the operands of the row. A row that is a command of the port carries the frame's tag and its number of FFh fill
bytes (R171), and its operand bytes as they stand in the frame (R184), so that every value the host can send is a
term. A row that is an event names the thing it happens to. -/

namespace Sys2Proof

/-- What every command frame carries beside its operands (R171): the tag, and the number of whole FFh fill bytes
after the CRC byte. -/
structure Frame where
  tag : Byte
  fill : Nat
  deriving DecidableEq, Repr

/-- A handle as it stands in a frame: slot index, then generation (R184). -/
structure HandleBytes where
  slot : Byte
  generation : Byte
  deriving DecidableEq, Repr

/-- The nine amendable fields as they stand in a frame, fields 7 to 15 of CREATE and AMEND (R13, R122). -/
structure LimitBytes where
  lo : Word32
  hi : Word32
  margin : Word32
  tolerance : Byte
  recoveryCount : Byte
  silenceLimit : Byte
  settle : Byte
  tripMask : Byte
  noticeMask : Byte
  deriving DecidableEq, Repr

/-- The 25 operand bytes of CREATE (R13, R184). -/
structure CreateBytes where
  pin : Byte
  kind : Byte
  sense : Byte
  base : Byte
  flags : Byte
  parent : HandleBytes
  limits : LimitBytes
  deriving DecidableEq, Repr

/-- The 21 operand bytes of AMEND (R122, R184). -/
structure AmendBytes where
  handle : HandleBytes
  mode : Byte
  limits : LimitBytes
  deriving DecidableEq, Repr

/-- The commands and events of the K24S, one constructor for each row of the table. -/
inductive Instr where
  -- Commands of the port: a frame that passes R173, at the rising edge of CS# that ends it.
  | nop (f : Frame)
  | identify (f : Frame)
  | readStatus (f : Frame)
  | repeatReply (f : Frame)
  | create (f : Frame) (o : CreateBytes)
  | amend (f : Frame) (o : AmendBytes)
  | suspend (f : Frame) (h : HandleBytes)
  | resume (f : Frame) (h : HandleBytes)
  | clear (f : Frame) (h : HandleBytes)
  | retire (f : Frame) (h : HandleBytes) (options : Byte)
  | query (f : Frame) (h : HandleBytes) (options : Byte)
  | list (f : Frame)
  | wipeTable (f : Frame)
  | readNotices (f : Frame)
  | ackNotice (f : Frame) (h : HandleBytes) (kinds : Byte)
  | setTimebase (f : Frame) (base tap : Byte) (modulus : Word16)
  | startTimebase (f : Frame) (base : Byte)
  | stopTimebase (f : Frame) (base : Byte)
  | readTimebase (f : Frame) (base : Byte)
  | setPin (f : Frame) (pin setting : Byte)
  | readPins (f : Frame)
  | setTrip (f : Frame) (line policy : Byte)
  | releaseTrip (f : Frame) (line : Byte)
  | forceTrip (f : Frame) (line : Byte)
  | readTrips (f : Frame)
  | clearFault (f : Frame)
  | resetDevice (f : Frame)
  -- Frames as such.
  | frameBegin
  | emptyFrame
  | frameRefused (bytes : List Byte)
  -- Signal inputs.
  | firstSample (levels : BitVec 24)
  | edgeProduced (pin : PinIx)
  -- Time bases and measuring contexts.
  | gateBoundary (base : BaseIx)
  | edgeTaken (slot : SlotIx)
  | boundaryTaken (slot : SlotIx)
  | silenceLimit (slot : SlotIx)
  | observationTaken (h : Handle)
  -- Reference Checker. `postFirst`: the REFERENCE_LOST posting reaches the queue before the stop notice's
  -- postings (true) or after them (false); R159 fixes no order, so the event names the one that happens.
  | referenceLoss (postFirst : Bool)
  | referenceReturn
  -- Table integrity.
  | storageChange (slot : SlotIx) (fault : StorageFault)
  | scrubberVisit
  | mismatchReport (h : Handle)
  -- Resets.
  | powerOnReset
  | resetInput
  | resetRelease
  -- REFCLK rising edges as each block sees them, and the supply.
  | pinSample (pin : PinIx) (level : Bool)
  | baseTickEnd (base : BaseIx)
  | goodPeriod
  | vddAt1V2 (rising : Bool)
  deriving DecidableEq, Repr

end Sys2Proof
end

