-- ==== Sys2Proof/Decode.lean ====
section
/-! DEFINITION. The command that a word spells by the bits of spec/opcode_table.json. -/

namespace Sys2Proof

set_option linter.unusedVariables false in
/-- The command that a word spells by the table's bits. No row of the table gives bits: a command of the K24S is a frame of
bytes with a CRC, or an event, and neither is a word. So no word spells a command. -/
def decodeTableWord (nbits w : Nat) : Option Instr := none

end Sys2Proof
end

