-- ==== Sys2Proof/Machine/State.lean ====
section
/-! DEFINITION. The state of the K24S as plain data: every register, set, queue, flag and pin the spec names, with
the value each has right after reset, and the queue of commands that wait. -/

namespace Sys2Proof.Machine

/-- One event handed to a measurement context and not yet taken (R60, R76): an edge of its pin with its stamp
against the contract's time base, or a gate boundary of its time base with its serial. -/
inductive ContextEvent where
  | edge (dir : EdgeDir) (stamp : Stamp)
  | boundary (serial : Word16)
  deriving DecidableEq, Repr

/-- The measurement context of a LIVE contract (R59). -/
structure Context where
  phase : Phase
  opening : Option Stamp
  /-- Tick accumulator. -/
  ticks : Nat
  /-- Edge or period accumulator; the entry mark for DUTY. -/
  count : Nat
  /-- Active-tick accumulator. -/
  active : Nat
  /-- Silence count. -/
  silence : Nat
  /-- Events handed to the context and not yet taken, in the order in which they fell. -/
  inbox : List ContextEvent
  deriving DecidableEq, Repr

/-- The context at WAIT_GATE: accumulators and silence count 0, no opening timestamp, nothing handed (R59). -/
def Context.initial : Context :=
  { phase := .waitGate, opening := none, ticks := 0, count := 0, active := 0, silence := 0, inbox := [] }

/-- The last observation of a record: outcome, value unless SILENT, gate serial (R10). -/
structure LastObservation where
  verdict : Verdict
  value : Option Word32
  serial : Word16
  deriving DecidableEq, Repr

/-- The statistics of a record (R10). -/
structure Statistics where
  observations : Nat
  outOfWindow : Nat
  minValue : Option Word32
  maxValue : Option Word32
  deriving DecidableEq, Repr

/-- The empty values of the statistics (R10). -/
def Statistics.empty : Statistics := { observations := 0, outOfWindow := 0, minValue := none, maxValue := none }

/-- The record of a LIVE contract: fixed (R6), amendable (R8) and dynamic (R9) fields. -/
structure Record where
  fixed : Fixed
  limits : Limits
  state : ContractState
  suspended : Bool
  strikes : Nat
  recoveryRun : Nat
  recovered : Bool
  settleRemaining : Nat
  dependents : Nat
  context : Context
  last : Option LastObservation
  stats : Statistics
  staged : Option Limits
  checkCode : Word16
  deriving DecidableEq, Repr

/-- The slot state, with the record of a LIVE slot (R1). -/
inductive SlotBody where
  | free
  | live (r : Record)
  | draining
  deriving DecidableEq, Repr

/-- One slot of the contract table (R1, R2). -/
structure Slot where
  generation : Byte
  body : SlotBody
  deriving DecidableEq, Repr

/-- A time base (R84), with its tick divider: the REFCLK rising edges counted in the present base tick (R83), the edge that
ends the tick among them. -/
structure TimeBase where
  tap : Fin 8
  modulus : Word16
  state : BaseState
  counter : Word16
  serial : Word16
  divider : Nat
  subscribers : List SlotIx
  deriving DecidableEq, Repr

/-- A pin channel (R101). -/
structure PinChannel where
  raw : Bool
  filter : Fin 8
  runCount : Nat
  level : Bool
  initialized : Bool
  /-- Whether the channel has yet to take its one sample of the latest REFCLK rising edge (R102): the model's own field
  (log entry 7). -/
  due : Bool
  subscribers : List SlotIx
  deriving DecidableEq, Repr

/-- A trip line (R144). -/
structure TripLine where
  policy : Policy
  held : Bool
  forced : Bool
  contributors : List SlotIx
  deriving DecidableEq, Repr

/-- An entry of the notice queue (R132): a contract entry with a set of contract kinds, or the device entry with a set
of device kinds. The bits of a set are those of R184. -/
inductive NoticeEntry where
  | contract (slot : SlotIx) (generation : Byte) (kinds : BitVec 7)
  | device (kinds : BitVec 3)
  deriving DecidableEq, Repr

/-- An observation formed and not yet taken (R26). -/
structure Observation where
  handle : Handle
  value : Option Word32
  serial : Word16
  deriving DecidableEq, Repr

/-- The Reference Checker (R156). -/
structure RefChecker where
  supervision : Supervision
  gap : GapTimer
  goodPeriods : Nat
  deriving DecidableEq, Repr

/-- The Table Scrubber (R165), with the mismatch reports it has handed on and the Table Controller has not yet
taken (R166). -/
structure Scrubber where
  position : SlotIx
  reports : List Handle
  deriving DecidableEq, Repr

/-- A reply without its CRC-8, which is a function of it (R175). -/
structure Reply where
  result : ResultCode
  tag : Byte
  /-- The echo command code: a byte, since a refusal echoes the first byte received whatever it is (R173). -/
  code : Byte
  payload : List Byte
  deriving DecidableEq, Repr

/-- The Command Port (R170, R176, R178). -/
structure Port where
  frame : FrameState
  /-- The level of CS#: true is low. -/
  csLow : Bool
  /-- The inbound byte count of the frame, kept from its end to the start of the next. It counts each whole byte on the lines
  (PortLines.take); a command of the queue is a whole frame and sets it at the frame's end (log entry 11). -/
  rxCount : Nat
  /-- The outbound stream set up at the start of the frame; FFh follows its last byte. -/
  outbound : List Byte
  /-- The reply buffer. -/
  reply : Option Reply
  deriving DecidableEq, Repr

/-- The state of the K24S. -/
structure State where
  slots : Vector Slot 64
  bases : Vector TimeBase 4
  pins : Vector PinChannel 24
  trips : Vector TripLine 4
  /-- The notice queue, head first (R132). -/
  notices : List NoticeEntry
  /-- The pending observations, in the order in which they were formed (R26). -/
  observations : List Observation
  ref : RefChecker
  scrub : Scrubber
  port : Port
  supply : Supply
  /-- Whether the part is in device reset (R168). -/
  inReset : Bool
  /-- The commands that wait, first in, first out: the model's own field. -/
  pending : List Instr
  deriving DecidableEq, Repr

/-- No command of the K24S stops the part: the spec names no fault that does, so there is no fault. -/
inductive Fault where
  deriving DecidableEq, Repr

/-- The reasons for which a command has no outcome. -/
inductive Refusal where
  /-- A command whose meaning has not been written; no arm of exec answers it. Safe. -/
  | notModelled (mnemonic : String)
  deriving DecidableEq, Repr

/-- A slot after a device reset: FREE with generation 0 (R25). -/
def Slot.atReset : Slot := { generation := 0, body := .free }

/-- A time base after a device reset (R84). The divider's value is a DESIGN CHOICE (log entry 2); every entry into
RUNNING restarts it. -/
def TimeBase.atReset : TimeBase :=
  { tap := 0, modulus := 1000, state := .stopped, counter := 0, serial := 0, divider := 0, subscribers := [] }

/-- A pin channel after a device reset (R101). The raw sample's value is a DESIGN CHOICE (log entry 2), as is that no sample is
due (log entry 7). -/
def PinChannel.atReset : PinChannel :=
  { raw := false, filter := 2, runCount := 0, level := false, initialized := false, due := false,
    subscribers := [] }

/-- A trip line after a device reset: the start hold (R144, R155). -/
def TripLine.atReset : TripLine := { policy := .follow, held := true, forced := false, contributors := [] }

/-- The notice queue after a device reset: the device entry with RESET_DONE (R138). -/
def noticesAtReset : List NoticeEntry := [.device 1#3]

/-- The machine right after the release of a power-on reset within which no REFCLK rising edge has been counted:
the good-period count is 0 (R156), so the supervision state is REFERENCE_FAULT (R163). -/
def State.reset : State :=
  { slots := Vector.replicate 64 Slot.atReset
    bases := Vector.replicate 4 TimeBase.atReset
    pins := Vector.replicate 24 PinChannel.atReset
    trips := Vector.replicate 4 TripLine.atReset
    notices := noticesAtReset
    observations := []
    ref := { supervision := .referenceFault, gap := .fresh, goodPeriods := 0 }
    scrub := { position := 0, reports := [] }
    port := { frame := .idle, csLow := false, rxCount := 0, outbound := [], reply := none }
    supply := .inRange
    inReset := false
    pending := [] }

end Sys2Proof.Machine
end

