-- ==== Sys2Proof/Machine/Codes.lean ====
section
/-! DEFINITION. The wire layouts of chapter 11: byte order, field codes, result codes, command codes, CRC-8. -/

namespace Sys2Proof.Machine

/-- A 16-bit quantity on the port, most significant byte first (chapter 0, section 6). -/
def be16 (w : Word16) : List Byte := [w.extractLsb' 8 8, w.extractLsb' 0 8]

/-- A 32-bit quantity on the port, most significant byte first. -/
def be32 (w : Word32) : List Byte :=
  [w.extractLsb' 24 8, w.extractLsb' 16 8, w.extractLsb' 8 8, w.extractLsb' 0 8]

/-- An optional 32-bit value; absent is FFFFFFFFh (R184). -/
def be32Opt : Option Word32 → List Byte
  | some w => be32 w
  | none => [0xFF, 0xFF, 0xFF, 0xFF]

/-- A number in one byte of a payload. -/
def byteOf (n : Nat) : Byte := BitVec.ofNat 8 n

/-- A flag in bit n of a byte. -/
def flagBit (b : Bool) (n : Nat) : Byte := if b then 1#8 <<< n else 0

/-- A number that is a slot index, a pin, a base or a line when it is in range (R3, R90, R107, R149). -/
def indexOf (n : Nat) (b : Byte) : Option (Fin n) := if h : b.toNat < n then some ⟨b.toNat, h⟩ else none

/-- A slot index in one byte. -/
def slotByte (i : SlotIx) : Byte := byteOf i.val

/-- A handle on the port; an absent one is FFh 00h (R184). -/
def handleBytes : Option Handle → List Byte
  | some h => [slotByte h.slot, h.generation]
  | none => [0xFF, 0x00]

/-- The state codes ARMING 01h to CORRUPT 09h (R184). -/
def stateCode : ContractState → Byte
  | .arming => 0x01 | .conforming => 0x02 | .suspect => 0x03 | .violated => 0x04 | .suspended => 0x05
  | .held => 0x06 | .dormant => 0x07 | .done => 0x08 | .corrupt => 0x09

/-- The state code of a slot as LIST shows it (R24, R184). -/
def slotCode : SlotBody → Byte
  | .free => 0x00
  | .live r => stateCode r.state
  | .draining => 0x0A

/-- The codes of the device supervision state (R184). -/
def supervisionCode : Supervision → Byte
  | .normal => 0x10 | .referenceFault => 0x11 | .faultLatched => 0x12

/-- The codes of the time-base states (R184). -/
def baseStateCode : BaseState → Byte
  | .stopped => 0x00 | .running => 0x01 | .stalled => 0x02

/-- The kind codes (R184). -/
def kindCode : Kind → Byte
  | .meanPeriod => 0x00 | .period => 0x01 | .pulse => 0x02 | .duty => 0x03 | .count => 0x04 | .level => 0x05

/-- The kind of a kind code, if it is one (R13 field 2). -/
def kindOfCode (b : Byte) : Option Kind :=
  if b = 0x00 then some .meanPeriod else if b = 0x01 then some .period else if b = 0x02 then some .pulse
  else if b = 0x03 then some .duty else if b = 0x04 then some .count else if b = 0x05 then some .level else none

/-- The outcome codes; an absent last observation is 00h (R184). -/
def verdictCode : Verdict → Byte
  | .inWindow => 0x01 | .below => 0x02 | .above => 0x03 | .silent => 0x04

/-- The phase codes (R184). -/
def phaseCode : Phase → Byte
  | .waitGate => 0x00 | .opening => 0x01 | .counting => 0x02 | .closing => 0x03 | .sampling => 0x04

/-- The trip policy codes (R184). -/
def policyCode : Policy → Byte
  | .follow => 0x00 | .hold => 0x01

/-- The policy of a policy code, if it is one (R149). -/
def policyOfCode (b : Byte) : Option Policy :=
  if b = 0x00 then some .follow else if b = 0x01 then some .hold else none

/-- The bit of a contract notice kind (R184). -/
def noticeBit : NoticeKind → BitVec 7
  | .suspect => 0x01 | .recovered => 0x02 | .blocked => 0x04 | .violated => 0x08 | .done => 0x10
  | .corrupt => 0x20 | .retired => 0x40

/-- The bit of a device notice kind (R184). -/
def deviceBit : DeviceKind → BitVec 3
  | .resetDone => 0x1 | .referenceLost => 0x2 | .referenceBack => 0x4

/-- The result codes (R184). -/
def resultByte : ResultCode → Byte
  | .ok => 0x00 | .okReplaced => 0x01 | .noReply => 0x02 | .badCheck => 0x10 | .badCommand => 0x11
  | .badLength => 0x12 | .badField => 0x13 | .staleHandle => 0x20 | .noContract => 0x21 | .tableFull => 0x22
  | .pinFull => 0x23 | .wrongState => 0x24 | .inViolation => 0x25 | .stillViolating => 0x26
  | .hasDependents => 0x27 | .tooDeep => 0x28 | .timebaseBusy => 0x29 | .faulted => 0x2A | .contributors => 0x2B

/-- The command codes (R184). -/
def commandByte : Command → Byte
  | .nop => 0x00 | .identify => 0x01 | .readStatus => 0x02 | .repeatReply => 0x03 | .create => 0x08
  | .amend => 0x09 | .suspend => 0x0A | .resume => 0x0B | .clear => 0x0C | .retire => 0x0D | .query => 0x0E
  | .list => 0x0F | .wipeTable => 0x10 | .readNotices => 0x18 | .ackNotice => 0x19 | .setTimebase => 0x20
  | .startTimebase => 0x21 | .stopTimebase => 0x22 | .readTimebase => 0x23 | .setPin => 0x28 | .readPins => 0x29
  | .setTrip => 0x30 | .releaseTrip => 0x31 | .forceTrip => 0x32 | .readTrips => 0x33 | .clearFault => 0x38
  | .resetDevice => 0x3F

/-- The commands of the code table, in its order (R184). -/
def allCommands : List Command :=
  [.nop, .identify, .readStatus, .repeatReply, .create, .amend, .suspend, .resume, .clear, .retire, .query, .list,
   .wipeTable, .readNotices, .ackNotice, .setTimebase, .startTimebase, .stopTimebase, .readTimebase, .setPin,
   .readPins, .setTrip, .releaseTrip, .forceTrip, .readTrips, .clearFault, .resetDevice]

/-- The command of a command code, if the code is in the table (R173). -/
def commandOfByte (b : Byte) : Option Command := allCommands.find? (fun c => commandByte c == b)

/-- The operand count of a command (R184). -/
def operandCount : Command → Nat
  | .create => 25 | .amend => 21
  | .suspend => 2 | .resume => 2 | .clear => 2
  | .retire => 3 | .query => 3 | .ackNotice => 3
  | .setTimebase => 4
  | .startTimebase => 1 | .stopTimebase => 1 | .readTimebase => 1
  | .setPin => 2 | .setTrip => 2 | .releaseTrip => 1 | .forceTrip => 1
  | .nop => 0 | .identify => 0 | .readStatus => 0 | .repeatReply => 0 | .list => 0 | .wipeTable => 0
  | .readNotices => 0 | .readPins => 0 | .readTrips => 0 | .clearFault => 0 | .resetDevice => 0

/-- The length of a command: 3 plus its operand count (R171). -/
def commandLength (c : Command) : Nat := 3 + operandCount c

/-- One shift of the CRC register: polynomial 07h, most significant bit first (R172). -/
def crcShift (c : Byte) : Byte := if c.msb then (c <<< 1) ^^^ 0x07 else c <<< 1

/-- One byte into the CRC register (R172). -/
def crcByte (c b : Byte) : Byte :=
  crcShift (crcShift (crcShift (crcShift (crcShift (crcShift (crcShift (crcShift (c ^^^ b))))))))

/-- The CRC-8 of the port over a list of bytes, initial value FFh (R172). -/
def crc8 (bs : List Byte) : Byte := bs.foldl crcByte 0xFF

/-- The bytes a reply covers with its CRC: result code, echo tag, echo command code, payload (R175). -/
def Reply.body (r : Reply) : List Byte := resultByte r.result :: r.tag :: r.code :: r.payload

/-- A reply as it is sent: its body and the CRC-8 over it (R175). -/
def Reply.bytes (r : Reply) : List Byte := r.body ++ [crc8 r.body]

/-- The eighteen bytes of a set of amendable fields (R184). -/
def limitsBytes (a : Limits) : List Byte :=
  be32 a.lo ++ be32 a.hi ++ be32 a.margin ++
    [a.tolerance.setWidth 8, a.recoveryCount.setWidth 8, a.silenceLimit.setWidth 8, a.settle.setWidth 8,
     a.tripMask.setWidth 8, a.noticeMask.setWidth 8]

end Sys2Proof.Machine
end

