-- ==== Sys2Proof/Machine/SlotSet.lean ====
section
/-! DEFINITION. Sets of slot indices (subscriber sets, contributor sets): lists in strictly ascending order, so that
a set holds no duplicates and equal sets are equal data. -/

namespace Sys2Proof.Machine

/-- The canonical form of a set of slots. -/
def SlotSet.Canonical (l : List SlotIx) : Prop := l.Pairwise (· < ·)

/-- A slot joins a set; a member stays a member once. -/
def SlotSet.insert (i : SlotIx) : List SlotIx → List SlotIx
  | [] => [i]
  | j :: t => if i < j then i :: j :: t else if i = j then j :: t else j :: SlotSet.insert i t

/-- A slot leaves a set. -/
def SlotSet.erase (i : SlotIx) (l : List SlotIx) : List SlotIx := l.filter (fun j => j ≠ i)

/-- All slots, in ascending order. -/
def allSlots : List SlotIx := List.finRange 64
/-- All time bases, in ascending order. -/
def allBases : List BaseIx := List.finRange 4
/-- All pins, in ascending order. -/
def allPins : List PinIx := List.finRange 24
/-- All trip lines, in ascending order. -/
def allLines : List LineIx := List.finRange 4

end Sys2Proof.Machine
end

