-- ==== Sys2Proof/Machine/Ops.lean ====
section
/-! DEFINITION. The named operations over the K24S's state that the commands and events share: records, subscriber and
contributor sets, notice postings, abandonment, and the transitions of the contract state machine with their
cascades. -/

namespace Sys2Proof.Machine

/-! ## Reading and writing slots, bases, pins and lines -/

/-- Write one slot. -/
def State.setSlot (s : State) (i : SlotIx) (x : Slot) : State := { s with slots := s.slots.set i.val x i.isLt }

/-- Write one time base. -/
def State.setBase (s : State) (b : BaseIx) (x : TimeBase) : State := { s with bases := s.bases.set b.val x b.isLt }

/-- Write one pin channel. -/
def State.setChannel (s : State) (p : PinIx) (x : PinChannel) : State := { s with pins := s.pins.set p.val x p.isLt }

/-- Write one trip line. -/
def State.setLine (s : State) (l : LineIx) (x : TripLine) : State := { s with trips := s.trips.set l.val x l.isLt }

/-- The record of a slot, when the slot is LIVE (R1). -/
def State.recordAt (s : State) (i : SlotIx) : Option Record :=
  match s.slots[i].body with
  | .live r => some r
  | _ => none

/-- Change the record of a LIVE slot; a slot that is not LIVE holds none (R1). -/
def State.mapRecord (s : State) (i : SlotIx) (f : Record → Record) : State :=
  match s.slots[i].body with
  | .live r => s.setSlot i { generation := s.slots[i].generation, body := .live (f r) }
  | _ => s

/-- The contract a handle names: the slot is LIVE and its generation is the handle's (R3). -/
def State.contractAt (s : State) (h : Handle) : Option Record :=
  if s.slots[h.slot].generation = h.generation then s.recordAt h.slot else none

/-- The current handle of a slot. -/
def State.handleOf (s : State) (i : SlotIx) : Handle := { slot := i, generation := s.slots[i].generation }

/-- The check code over a record's covered fields (R12). -/
def Record.freshCode (r : Record) (g : Byte) : Word16 :=
  Config.checkCode { generation := g, fixed := r.fixed, limits := r.limits, staged := r.staged }

/-- Recompute the stored check code as part of a change to a covered field (R12). -/
def Record.recode (r : Record) (g : Byte) : Record := { r with checkCode := r.freshCode g }

/-! ## Conditions of a contract -/

/-- Healthy: CONFORMING or SUSPECT (R32). -/
def isHealthy : ContractState → Bool
  | .conforming => true
  | .suspect => true
  | _ => false

/-- The measuring states ARMING, CONFORMING and SUSPECT (section 2.2). -/
def isMeasuring : ContractState → Bool
  | .arming => true
  | .conforming => true
  | .suspect => true
  | _ => false

/-- The blocked states SUSPENDED, HELD and DORMANT (section 2.6). -/
def isBlocked : ContractState → Bool
  | .suspended => true
  | .held => true
  | .dormant => true
  | _ => false

/-- Whether the contract's time base is RUNNING. -/
def State.baseRunning (s : State) (r : Record) : Bool := decide (s.bases[r.fixed.base].state = .running)

/-- Whether the contract names no parent, or a parent that is healthy (R44, R115). A parent handle that names no
LIVE contract, which only a change in storage can bring about, names no healthy parent (log entry 9). -/
def State.parentAllows (s : State) (r : Record) : Bool :=
  match r.fixed.parent with
  | none => true
  | some h =>
    match s.contractAt h with
    | some p => isHealthy p.state
    | none => false

/-- Frozen: VIOLATED, with a time base that is not RUNNING or a parent that is not healthy (R31). The base and the parent are
those that the record holds, so a change in storage can freeze a contract with no notice and no abandonment (log entry 17). -/
def State.frozen (s : State) (r : Record) : Bool :=
  decide (r.state = .violated) && !(s.baseRunning r && s.parentAllows r)

/-- Whether a contract measures: ARMING, CONFORMING, SUSPECT, or VIOLATED and not frozen (R31). -/
def State.measures (s : State) (r : Record) : Bool :=
  isMeasuring r.state || (decide (r.state = .violated) && !s.frozen r)

/-- The state that the blocking recomputation gives a contract (R44). -/
def State.blockingResult (s : State) (r : Record) : ContractState :=
  if r.suspended then .suspended
  else if !s.baseRunning r then .held
  else if !s.parentAllows r then .dormant
  else .arming

/-- Whether the contract in slot d names the contract in slot i as its parent (R112, R114). The parent field as stored decides,
whatever the dependents count of the contract in slot i (log entry 16). -/
def State.dependsOn (s : State) (d i : SlotIx) : Bool :=
  match s.recordAt d with
  | some r => decide (r.fixed.parent = some (s.handleOf i))
  | none => false

/-! ## The notice queue -/

/-- Whether an entry is the entry of a slot. -/
def NoticeEntry.isOf (i : SlotIx) : NoticeEntry → Bool
  | .contract j _ _ => decide (j = i)
  | .device _ => false

/-- Whether an entry is the device entry. -/
def NoticeEntry.isDevice : NoticeEntry → Bool
  | .contract _ _ _ => false
  | .device _ => true

/-- Add kinds to the entry of a slot, or let a new entry join the tail (R134). -/
def addContractKinds (i : SlotIx) (g : Byte) (k : BitVec 7) : List NoticeEntry → List NoticeEntry
  | [] => [.contract i g k]
  | .contract j g' ks :: t =>
    if j = i then .contract j g' (ks ||| k) :: t else .contract j g' ks :: addContractKinds i g k t
  | .device ks :: t => .device ks :: addContractKinds i g k t

/-- Add kinds to the device entry, or let a new device entry join the tail (R135). -/
def addDeviceKinds (k : BitVec 3) : List NoticeEntry → List NoticeEntry
  | [] => [.device k]
  | .device ks :: t => .device (ks ||| k) :: t
  | .contract j g ks :: t => .contract j g ks :: addDeviceKinds k t

/-- Whether the queue holds an entry for a slot. -/
def State.hasEntry (s : State) (i : SlotIx) : Bool := s.notices.any (NoticeEntry.isOf i)

/-- A posting of a contract kind for a slot, with the slot's current generation (R57, R134). -/
def State.post (s : State) (i : SlotIx) (k : NoticeKind) : State :=
  { s with notices := addContractKinds i s.slots[i].generation (noticeBit k) s.notices }

/-- A posting of an optional kind, made when the kind is in the notice mask (R57). -/
def State.postMasked (s : State) (i : SlotIx) (k : NoticeKind) (mask : BitVec 3) : State :=
  if mask.setWidth 7 &&& noticeBit k = 0 then s else s.post i k

/-- A posting of a device kind (R135). -/
def State.postDevice (s : State) (k : DeviceKind) : State := { s with notices := addDeviceKinds (deviceBit k) s.notices }

/-! ## Contributor sets -/

/-- A line with a slot joined to its set; under HOLD a set that was empty sets the held flag (R147, R148). -/
def TripLine.join (t : TripLine) (i : SlotIx) : TripLine :=
  { t with
    contributors := SlotSet.insert i t.contributors
    held := t.held || (decide (t.policy = .hold) && t.contributors.isEmpty) }

/-- A line with a slot gone from its set (R147). -/
def TripLine.leave (t : TripLine) (i : SlotIx) : TripLine := { t with contributors := SlotSet.erase i t.contributors }

/-- A slot joins the set of one line. -/
def State.joinLine (s : State) (l : LineIx) (i : SlotIx) : State := s.setLine l (s.trips[l].join i)

/-- A slot leaves the set of one line. -/
def State.leaveLine (s : State) (l : LineIx) (i : SlotIx) : State := s.setLine l (s.trips[l].leave i)

/-- A slot joins the set of each line of a mask, in ascending line order (R147). -/
def State.joinMask (s : State) (i : SlotIx) (mask : BitVec 4) : State :=
  allLines.foldl (fun s l => if mask.getLsbD l.val then s.joinLine l i else s) s

/-- A slot leaves the set of each line of a mask, in ascending line order (R147). -/
def State.leaveMask (s : State) (i : SlotIx) (mask : BitVec 4) : State :=
  allLines.foldl (fun s l => if mask.getLsbD l.val then s.leaveLine l i else s) s

/-- A slot leaves the lines that an old mask holds and a new mask does not, and joins those that the new mask holds
and the old does not (R127). -/
def State.changeMask (s : State) (i : SlotIx) (old new : BitVec 4) : State :=
  allLines.foldl
    (fun s l =>
      if old.getLsbD l.val && !new.getLsbD l.val then s.leaveLine l i
      else if !old.getLsbD l.val && new.getLsbD l.val then s.joinLine l i
      else s) s

/-! ## Subscriber sets -/

/-- A slot joins the subscriber set of a time base (R89). -/
def State.subscribeBase (s : State) (b : BaseIx) (i : SlotIx) : State :=
  s.setBase b { s.bases[b] with subscribers := SlotSet.insert i s.bases[b].subscribers }

/-- A slot joins the subscriber set of a pin (R106). -/
def State.subscribePin (s : State) (p : PinIx) (i : SlotIx) : State :=
  s.setChannel p { s.pins[p] with subscribers := SlotSet.insert i s.pins[p].subscribers }

/-- A slot leaves the subscriber set of its time base: the one set it is in (R89; log entry 9). -/
def State.unsubscribeBases (s : State) (i : SlotIx) : State :=
  allBases.foldl (fun s b => s.setBase b { s.bases[b] with subscribers := SlotSet.erase i s.bases[b].subscribers }) s

/-- A slot leaves the subscriber set of its pin: the one set it is in (R106; log entry 9). -/
def State.unsubscribePins (s : State) (i : SlotIx) : State :=
  allPins.foldl (fun s p => s.setChannel p { s.pins[p] with subscribers := SlotSet.erase i s.pins[p].subscribers }) s

/-! ## Abandoning a measurement, and the contract transitions -/

/-- Abandon the measurement of the contract in a slot: its pending observations are withdrawn and its context stands
at WAIT_GATE with nothing handed to it (R54; log entry 6). DESIGN CHOICE: the observations withdrawn are those that carry the
slot's current handle; one that carries an older generation, which only a change in storage leaves pending, stays (log
entry 21). -/
def State.abandon (s : State) (i : SlotIx) : State :=
  { s with observations := s.observations.filter (fun o => o.handle ≠ s.handleOf i) }.mapRecord i
    (fun r => { r with context := Context.initial })

/-- Apply a staged amendment: its values become the fields in force, the amendment becomes absent, the check code is
recomputed, and the contributor sets of a VIOLATED contract follow the changed trip mask (R126, R127). -/
def State.applyStaged (s : State) (i : SlotIx) : State :=
  match s.recordAt i with
  | none => s
  | some r =>
    match r.staged with
    | none => s
    | some a =>
      let s' := s.mapRecord i (fun r => ({ r with limits := a, staged := none } : Record).recode s.slots[i].generation)
      if r.state = .violated then s'.changeMask i r.limits.tripMask a.tripMask else s'

/-- The contract's own part of an entry into SUSPENDED, HELD or DORMANT (R45): a measurement is abandoned and strikes
are 0, and entry into HELD or DORMANT posts BLOCKED when the mask asks. -/
def State.setAside (s : State) (i : SlotIx) (target : ContractState) : State :=
  match s.recordAt i with
  | none => s
  | some r =>
    let s1 := if isMeasuring r.state then (s.abandon i).mapRecord i (fun r => { r with strikes := 0 }) else s
    let s2 := s1.mapRecord i (fun r => { r with state := target })
    if target = .suspended then s2 else s2.postMasked i .blocked r.limits.noticeMask

/-- What the cascade from a parent become unhealthy does to one dependent, given what carries the cascade on below
it (R116). -/
def State.setAsideDependent (below : State → SlotIx → State) (s : State) (d : SlotIx) : State :=
  match s.recordAt d with
  | none => s
  | some r =>
    if isMeasuring r.state then
      let s' := s.setAside d .dormant
      if isHealthy r.state then below s' d else s'
    else if r.state = .violated ∧ s.baseRunning r = true then s.abandon d
    else s

/-- The cascade to the dependents of a contract that has become unhealthy: ascending slots, depth first (R116, R118).
The fuel bounds the depth; each level down is a contract that this claim has made unhealthy, so the number of slots
is always enough. Who depends is read from the parent fields, and the dependents count is not read (log entry 16). -/
def State.cascadeDown : Nat → State → SlotIx → State
  | 0, s, _ => s
  | fuel + 1, s, i =>
    allSlots.foldl (fun s d => if s.dependsOn d i then s.setAsideDependent (State.cascadeDown fuel) d else s) s

/-- The cascade of a health change to unhealthy, when the state before was healthy (R32). It goes to each contract that names this
one (R116), also when a change in storage has left the dependents count at 0 (log entry 16). -/
def State.becameUnhealthy (s : State) (before : ContractState) (i : SlotIx) : State :=
  if isHealthy before then s.cascadeDown 64 i else s

/-- Entry into SUSPENDED, HELD or DORMANT (R45): the contract's own part, then its dependents. -/
def State.enterBlocked (s : State) (i : SlotIx) (target : ContractState) : State :=
  match s.recordAt i with
  | none => s
  | some r => (s.setAside i target).becameUnhealthy r.state i

/-- The contract's own part of an entry into ARMING (R46). -/
def State.rearm (s : State) (i : SlotIx) : State :=
  (s.applyStaged i).mapRecord i (fun r =>
    { r with
      settleRemaining := r.limits.settle.toNat
      strikes := 0
      context := Context.initial
      state := .arming })

/-- Entry into ARMING (R46): the contract's own part, then its dependents. -/
def State.enterArming (s : State) (i : SlotIx) : State :=
  match s.recordAt i with
  | none => s
  | some r => (s.rearm i).becameUnhealthy r.state i

/-- The blocking recomputation of a contract in a measuring or a blocked state (R44). -/
def State.recompute (s : State) (i : SlotIx) : State :=
  match s.recordAt i with
  | none => s
  | some r =>
    if isMeasuring r.state || isBlocked r.state then
      let target := s.blockingResult r
      if target = .arming then (if isMeasuring r.state then s else s.enterArming i)
      else if r.state = target then s
      else s.enterBlocked i target
    else s

/-- Set a context to WAIT_GATE at an unfreezing (R50). -/
def State.unfreeze (s : State) (i : SlotIx) : State := s.mapRecord i (fun r => { r with context := Context.initial })

/-- What the cascade from a parent become healthy does to one dependent (R117). -/
def State.takeUpDependent (s : State) (d : SlotIx) : State :=
  match s.recordAt d with
  | none => s
  | some r =>
    if r.state = .dormant then s.recompute d
    else if r.state = .violated ∧ s.baseRunning r = true then s.unfreeze d
    else s

/-- The cascade to the dependents of a contract that has become healthy, in ascending slot order (R117, R118; log entry 16). -/
def State.cascadeUp (s : State) (i : SlotIx) : State :=
  allSlots.foldl (fun s d => if s.dependsOn d i then s.takeUpDependent d else s) s

/-- The cascade of a health change to healthy, when the state before was unhealthy (R32). It goes to each contract that names this
one (R117), also when a change in storage has left the dependents count at 0 (log entry 16). -/
def State.becameHealthy (s : State) (before : ContractState) (i : SlotIx) : State :=
  if isHealthy before then s else s.cascadeUp i

/-! ## Stop and run notices -/

/-- What a stop notice does to one subscriber (R49, R50). Membership of the set decides who is reached, and a VIOLATED member
loses its measurement, whichever base its record then names (log entry 17). -/
def State.stopSubscriber (s : State) (i : SlotIx) : State :=
  match s.recordAt i with
  | none => s
  | some r =>
    if isMeasuring r.state || decide (r.state = .dormant) then s.recompute i
    else if r.state = .violated then s.abandon i
    else s

/-- What a run notice does to one subscriber (R49, R50). Membership of the set decides who is reached, and the recomputation reads
the base that the record then names (log entry 17). -/
def State.runSubscriber (s : State) (i : SlotIx) : State :=
  match s.recordAt i with
  | none => s
  | some r =>
    if r.state = .held then s.recompute i
    else if r.state = .violated ∧ s.parentAllows r = true then s.unfreeze i
    else s

/-- The union of the subscriber sets of the named bases, in ascending slot order (R94). -/
def State.subscribersOf (s : State) (named : BaseIx → Bool) : List SlotIx :=
  allSlots.filter (fun i => allBases.any (fun b => named b && s.bases[b].subscribers.contains i))

/-- A stop notice naming bases (R94). -/
def State.stopNotice (s : State) (named : BaseIx → Bool) : State :=
  (s.subscribersOf named).foldl State.stopSubscriber s

/-- A run notice naming bases (R94). -/
def State.runNotice (s : State) (named : BaseIx → Bool) : State :=
  (s.subscribersOf named).foldl State.runSubscriber s

/-! ## Device reset -/

/-- Every block at its reset values, the Reference Checker and the supply left as they are (R25, R84, R101, R138,
R155, R165, R178). The level of CS# is the host's and stays. A mismatch report handed on and not yet taken is discarded (log
entry 19). -/
def State.resetBlocks (s : State) : State :=
  { s with
    slots := Vector.replicate 64 Slot.atReset
    bases := Vector.replicate 4 TimeBase.atReset
    pins := Vector.replicate 24 PinChannel.atReset
    trips := Vector.replicate 4 TripLine.atReset
    notices := noticesAtReset
    observations := []
    scrub := { position := 0, reports := [] }
    port := { frame := .idle, csLow := s.port.csLow, rxCount := 0, outbound := [], reply := none } }

/-- The part enters device reset (R168). -/
def State.enterReset (s : State) : State := { s.resetBlocks with inReset := true }

/-! ## The end of a frame -/

/-- A rising edge of CS#. In reset the port ignores it (R169), and with no frame begun it ends none (R170); in
RECEIVING it ends the frame, whose whole bytes number `rx`, and the port acts on what it received. -/
def State.endFrame (s : State) (rx : Nat) (act : State → State) : State :=
  if s.inReset then { s with port := { s.port with csLow := false } }
  else
    match s.port.frame with
    | .idle => { s with port := { s.port with csLow := false } }
    | .receiving => act { s with port := { s.port with frame := .idle, csLow := false, rxCount := rx } }

/-- Put a reply into the reply buffer (R174). -/
def State.setReply (s : State) (r : Reply) : State := { s with port := { s.port with reply := some r } }

/-- What the owning block forms when it takes a command: the state after it, the result code and the payload
(R174). -/
structure Answer where
  state : State
  result : ResultCode
  payload : List Byte
  deriving DecidableEq, Repr

/-- A refusal: no state changes (chapter 0, section 6), and the reply carries the result code and its payload. -/
def refuse (s : State) (r : ResultCode) (payload : List Byte := []) : Answer :=
  { state := s, result := r, payload := payload }

/-- A command taken with OK. -/
def ok (s : State) (payload : List Byte := []) : Answer := { state := s, result := .ok, payload := payload }

/-- A frame that passes R173 is taken: the owning block carries the command out whole and the reply, with the echo tag
and the echo command code, replaces the reply buffer (R174). -/
def State.serve (s : State) (c : Command) (f : Frame) (block : State → Answer) : State :=
  s.endFrame (commandLength c + f.fill) (fun s =>
    let a := block s
    a.state.setReply { result := a.result, tag := f.tag, code := commandByte c, payload := a.payload })

/-- An event inside the part: while the part is in reset none is taken (R168). -/
def State.whileOperating (s : State) (act : State → State) : State := if s.inReset then s else act s

end Sys2Proof.Machine
end

