-- ==== Sys2Proof/Machine/Flags.lean ====
section
/-! DEFINITION. What the part shows of its state: assertion of the TRIP lines and ALERT#, the levels driven on the open-drain
outputs, the summary status byte, the outbound bytes of a frame, and the counts and line bytes of the payloads. -/

namespace Sys2Proof.Machine

/-- The fault term of the four lines (R151). -/
def State.faultTerm (s : State) : Bool := decide (s.ref.supervision ≠ .normal)

/-- A TRIP line is asserted: contributors, held flag, forced flag or fault term (R145). -/
def State.lineAsserted (s : State) (l : LineIx) : Bool :=
  !s.trips[l].contributors.isEmpty || s.trips[l].held || s.trips[l].forced || s.faultTerm

/-- At least one of the four lines is asserted (R177). -/
def State.anyLineAsserted (s : State) : Bool := allLines.any s.lineAsserted

/-- ALERT# is asserted: the notice queue is not empty (R136). -/
def State.alertAsserted (s : State) : Bool := !s.notices.isEmpty

/-- The part drives a TRIP line low: never below 1.2 V, always in reset above it, else as R145 gives (R185, R168). -/
def State.tripDrivenLow (s : State) (l : LineIx) : Bool :=
  decide (s.supply ≠ .below1V2) && (s.inReset || s.lineAsserted l)

/-- The part drives ALERT# low (R185, R168, R136). -/
def State.alertDrivenLow (s : State) : Bool := decide (s.supply ≠ .below1V2) && (s.inReset || s.alertAsserted)

/-- The part drives SDO: only while CS# is low and the part is not in reset (R169), and never below 1.2 V (R185). With no
frame begun it drives it too (log entry 25). -/
def State.sdoDriven (s : State) : Bool := decide (s.supply ≠ .below1V2) && s.port.csLow && !s.inReset

/-- The summary status byte (R177). -/
def State.summaryStatus (s : State) : Byte :=
  flagBit s.alertAsserted 7 ||| flagBit s.anyLineAsserted 6 ||| flagBit s.faultTerm 5 |||
    flagBit s.port.reply.isSome 4 ||| 0x0A

/-- The outbound stream of a frame that begins now: the summary status byte, then the buffered reply (R176). -/
def State.outboundStream (s : State) : List Byte :=
  s.summaryStatus :: (match s.port.reply with | some r => r.bytes | none => [])

/-- Byte k of what the port sends in a frame: the stream, then FFh (R176). -/
def State.outboundByte (s : State) (k : Nat) : Byte := s.port.outbound.getD k 0xFF

/-- The whole bytes the port has sent in the frame whose inbound byte count stands in the port (R169, R176). -/
def State.sentBytes (s : State) : List Byte := (List.range s.port.rxCount).map s.outboundByte

/-- The trip line byte (R184). -/
def State.lineByte (s : State) (l : LineIx) : Byte :=
  policyCode s.trips[l].policy ||| flagBit s.trips[l].held 1 ||| flagBit s.trips[l].forced 2 |||
    flagBit (s.lineAsserted l) 3

/-- The lowest contributing slot, FFh when the set is empty (R147, R184). -/
def lowestSlotByte : List SlotIx → Byte
  | [] => 0xFF
  | i :: _ => slotByte i

/-- The asserted lines as a set: bit n for TRIPn (R181, R184). -/
def State.assertedLines (s : State) : Byte :=
  allLines.foldl (fun acc l => acc ||| flagBit (s.lineAsserted l) l.val) 0

/-- The states of the four bases, two bits each (R184). -/
def State.baseStates (s : State) : Byte :=
  allBases.foldl (fun acc b => acc ||| (baseStateCode s.bases[b].state <<< (2 * b.val))) 0

/-- A set of bases: bit n for TBn (R184). -/
def baseSetByte (named : BaseIx → Bool) : Byte := allBases.foldl (fun acc b => acc ||| flagBit (named b) b.val) 0

/-- A slot body that is LIVE. -/
def SlotBody.isLive : SlotBody → Bool
  | .live _ => true
  | _ => false

/-- The number of LIVE slots (R1). -/
def State.liveCount (s : State) : Nat := allSlots.countP (fun i => s.slots[i].body.isLive)
/-- The number of DRAINING slots (R1). -/
def State.drainingCount (s : State) : Nat := allSlots.countP (fun i => decide (s.slots[i].body = .draining))
/-- The number of FREE slots (R1). -/
def State.freeCount (s : State) : Nat := allSlots.countP (fun i => decide (s.slots[i].body = .free))

/-- The filtered levels as a 24-bit number, bit n for pin n (R184). -/
def State.pinLevels (s : State) : BitVec 24 :=
  allPins.foldl (fun acc p => acc ||| (if s.pins[p].level then 1#24 <<< p.val else 0)) 0

end Sys2Proof.Machine
end

