-- ==== Sys2Proof/Machine/Frames.lean ====
section
/-! DEFINITION. Frames as bytes (R170 to R173, R184): the refusals of R173, the frame of a command, and the command of a
frame that R173 does not refuse. -/

namespace Sys2Proof.Machine

/-- The result code with which R173 refuses the bytes of a frame, if it refuses them. No bytes are no frame (R170). -/
def frameRefusal (bytes : List Byte) : Option ResultCode :=
  match bytes with
  | [] => none
  | code :: _ =>
    let len := match commandOfByte code with | some c => commandLength c | none => 3
    if bytes.length < 3 then some .badLength
    else if bytes.length < len then some .badLength
    else if bytes.getD (len - 1) 0 ≠ crc8 (bytes.take (len - 1)) then some .badCheck
    else if (commandOfByte code).isNone then some .badCommand
    else if (bytes.drop len).any (fun b => decide (b ≠ 0xFF)) then some .badLength
    else none

/-- The operand bytes of the amendable fields, fields 7 to 15 (R184). -/
def limitOperands (a : LimitBytes) : List Byte :=
  be32 a.lo ++ be32 a.hi ++ be32 a.margin ++
    [a.tolerance, a.recoveryCount, a.silenceLimit, a.settle, a.tripMask, a.noticeMask]

/-- The command code, the tag and fill, and the operand bytes of a command of the port (R184); an event has none. -/
def frameParts : Instr → Option (Command × Frame × List Byte)
  | .nop f => some (.nop, f, [])
  | .identify f => some (.identify, f, [])
  | .readStatus f => some (.readStatus, f, [])
  | .repeatReply f => some (.repeatReply, f, [])
  | .create f o =>
    some (.create, f,
      [o.pin, o.kind, o.sense, o.base, o.flags, o.parent.slot, o.parent.generation] ++ limitOperands o.limits)
  | .amend f o => some (.amend, f, [o.handle.slot, o.handle.generation, o.mode] ++ limitOperands o.limits)
  | .suspend f h => some (.suspend, f, [h.slot, h.generation])
  | .resume f h => some (.resume, f, [h.slot, h.generation])
  | .clear f h => some (.clear, f, [h.slot, h.generation])
  | .retire f h x => some (.retire, f, [h.slot, h.generation, x])
  | .query f h x => some (.query, f, [h.slot, h.generation, x])
  | .list f => some (.list, f, [])
  | .wipeTable f => some (.wipeTable, f, [])
  | .readNotices f => some (.readNotices, f, [])
  | .ackNotice f h x => some (.ackNotice, f, [h.slot, h.generation, x])
  | .setTimebase f b t m => some (.setTimebase, f, [b, t] ++ be16 m)
  | .startTimebase f b => some (.startTimebase, f, [b])
  | .stopTimebase f b => some (.stopTimebase, f, [b])
  | .readTimebase f b => some (.readTimebase, f, [b])
  | .setPin f p n => some (.setPin, f, [p, n])
  | .readPins f => some (.readPins, f, [])
  | .setTrip f l p => some (.setTrip, f, [l, p])
  | .releaseTrip f l => some (.releaseTrip, f, [l])
  | .forceTrip f l => some (.forceTrip, f, [l])
  | .readTrips f => some (.readTrips, f, [])
  | .clearFault f => some (.clearFault, f, [])
  | .resetDevice f => some (.resetDevice, f, [])
  | .frameBegin | .emptyFrame | .frameRefused _ | .firstSample _ | .edgeProduced _ | .gateBoundary _ | .edgeTaken _
  | .boundaryTaken _ | .silenceLimit _ | .observationTaken _ | .referenceLoss _ | .referenceReturn
  | .storageChange _ _ | .scrubberVisit | .mismatchReport _ | .powerOnReset | .resetInput | .resetRelease
  | .pinSample _ _ | .baseTickEnd _ | .goodPeriod | .vddAt1V2 _ => none

/-- The whole bytes of a command's frame: code, tag, operands, CRC-8, fill (R171, R172). -/
def frameBytes (i : Instr) : Option (List Byte) :=
  match frameParts i with
  | none => none
  | some (c, f, ops) =>
    let body := commandByte c :: f.tag :: ops
    some (body ++ [crc8 body] ++ List.replicate f.fill 0xFF)

/-- Four bytes as a 32-bit quantity, most significant byte first. -/
def word32 (a b c d : Byte) : Word32 := a ++ b ++ c ++ d

/-- Two bytes as a 16-bit quantity, most significant byte first. -/
def word16 (a b : Byte) : Word16 := a ++ b

/-- The amendable fields in the last eighteen operand bytes of CREATE and AMEND (R184). -/
def limitsOfOperands : List Byte → Option LimitBytes
  | [a0, a1, a2, a3, b0, b1, b2, b3, c0, c1, c2, c3, t, r, sl, se, tm, nm] =>
    some
      { lo := word32 a0 a1 a2 a3, hi := word32 b0 b1 b2 b3, margin := word32 c0 c1 c2 c3, tolerance := t
        recoveryCount := r, silenceLimit := sl, settle := se, tripMask := tm, noticeMask := nm }
  | _ => none

/-- A command from its code, its tag and fill, and its operand bytes (R184). -/
def commandOfParts (c : Command) (f : Frame) (ops : List Byte) : Option Instr :=
  match c, ops with
  | .nop, [] => some (.nop f)
  | .identify, [] => some (.identify f)
  | .readStatus, [] => some (.readStatus f)
  | .repeatReply, [] => some (.repeatReply f)
  | .create, p :: k :: x :: b :: fl :: ps :: pg :: t =>
    (limitsOfOperands t).map (fun a =>
      .create f { pin := p, kind := k, sense := x, base := b, flags := fl, parent := ⟨ps, pg⟩, limits := a })
  | .amend, hs :: hg :: m :: t =>
    (limitsOfOperands t).map (fun a => .amend f { handle := ⟨hs, hg⟩, mode := m, limits := a })
  | .suspend, [hs, hg] => some (.suspend f ⟨hs, hg⟩)
  | .resume, [hs, hg] => some (.resume f ⟨hs, hg⟩)
  | .clear, [hs, hg] => some (.clear f ⟨hs, hg⟩)
  | .retire, [hs, hg, x] => some (.retire f ⟨hs, hg⟩ x)
  | .query, [hs, hg, x] => some (.query f ⟨hs, hg⟩ x)
  | .list, [] => some (.list f)
  | .wipeTable, [] => some (.wipeTable f)
  | .readNotices, [] => some (.readNotices f)
  | .ackNotice, [hs, hg, x] => some (.ackNotice f ⟨hs, hg⟩ x)
  | .setTimebase, [b, t, m0, m1] => some (.setTimebase f b t (word16 m0 m1))
  | .startTimebase, [b] => some (.startTimebase f b)
  | .stopTimebase, [b] => some (.stopTimebase f b)
  | .readTimebase, [b] => some (.readTimebase f b)
  | .setPin, [p, n] => some (.setPin f p n)
  | .readPins, [] => some (.readPins f)
  | .setTrip, [l, p] => some (.setTrip f l p)
  | .releaseTrip, [l] => some (.releaseTrip f l)
  | .forceTrip, [l] => some (.forceTrip f l)
  | .readTrips, [] => some (.readTrips f)
  | .clearFault, [] => some (.clearFault f)
  | .resetDevice, [] => some (.resetDevice f)
  | _, _ => none

/-- The step that a rising edge of CS# is, by the whole bytes the frame received: no bytes are an empty frame, bytes that
R173 refuses are a refused frame, and any others are the command they spell. -/
def commandOfFrame (bytes : List Byte) : Option Instr :=
  match bytes with
  | [] => some .emptyFrame
  | [_] => some (.frameRefused bytes)
  | code :: tag :: rest =>
    match frameRefusal bytes, commandOfByte code with
    | none, some c =>
      commandOfParts c { tag := tag, fill := bytes.length - commandLength c } (rest.take (operandCount c))
    | _, _ => some (.frameRefused bytes)

end Sys2Proof.Machine
end

