-- ==== Sys2Proof/Machine/Operands.lean ====
section
/-! DEFINITION. The field checks of the commands: which operand values fail, in which order, and what the operands
mean once they pass (R3, R13, R17, R22, R90, R107, R122, R123, R139, R149, R184). -/

namespace Sys2Proof.Machine

/-- The number of the first field whose check fails, in the order of the list (R13). -/
def firstFailing : List (Byte × Bool) → Option Byte
  | [] => none
  | (n, bad) :: t => if bad then some n else firstFailing t

/-- Whether a sense code is allowed for a kind (R7, R184). -/
def senseAllowed : Kind → Byte → Bool
  | .meanPeriod, b => decide (b = 0x01 ∨ b = 0x02)
  | .period, b => decide (b = 0x01 ∨ b = 0x02)
  | .pulse, b => decide (b = 0x01 ∨ b = 0x02)
  | .duty, b => decide (b = 0x01 ∨ b = 0x02)
  | .count, b => decide (b = 0x01 ∨ b = 0x02 ∨ b = 0x03)
  | .level, b => decide (b = 0x00)

/-- Field 7 against the kind (R13, R123). -/
def loBadForKind (k : Kind) (a : LimitBytes) : Bool := decide (k = .level ∧ a.lo ≠ 0 ∧ a.lo ≠ 1)
/-- Field 8 against field 7 (R13, R122). -/
def hiBelowLo (a : LimitBytes) : Bool := decide (a.hi.toNat < a.lo.toNat)
/-- Field 8 against the kind (R13, R123). -/
def hiBadForKind (k : Kind) (a : LimitBytes) : Bool :=
  decide ((k = .duty ∧ 1000 < a.hi.toNat) ∨ (k = .level ∧ a.hi ≠ 0 ∧ a.hi ≠ 1))
/-- Field 9 against the width of the window (R13, R122). -/
def marginTooWide (a : LimitBytes) : Bool := decide ((a.hi.toNat - a.lo.toNat) / 2 < a.margin.toNat)
/-- Field 9 against the kind (R13, R123). -/
def marginBadForKind (k : Kind) (a : LimitBytes) : Bool := decide (k = .level ∧ a.margin ≠ 0)
/-- Fields 10, 11 and 12: 0 or above 15 (R13, R122). -/
def outside1to15 (b : Byte) : Bool := decide (b = 0 ∨ 15 < b.toNat)
/-- Field 10 or 11 of a oneshot contract: not 1 (R13, R123). -/
def oneshotNot1 (oneshot : Bool) (b : Byte) : Bool := oneshot && decide (b ≠ 1)
/-- Field 13: above 7 (R13, R122). -/
def settleAbove7 (b : Byte) : Bool := decide (7 < b.toNat)
/-- Field 14: a bit outside TRIP0 to TRIP3 (R13, R122). -/
def tripMaskUndefined (b : Byte) : Bool := decide (b &&& 0xF0 ≠ 0)
/-- Field 14 of a oneshot contract: not empty (R13, R123). -/
def oneshotTrips (oneshot : Bool) (b : Byte) : Bool := oneshot && decide (b ≠ 0)
/-- Field 15: a bit outside SUSPECT, RECOVERED and BLOCKED (R13, R122). -/
def noticeMaskUndefined (b : Byte) : Bool := decide (b &&& 0xF8 ≠ 0)

/-- The flags of CREATE (R184). -/
def createOneshot (o : CreateBytes) : Bool := o.flags.getLsbD 0
/-- The latching flag of CREATE. -/
def createLatching (o : CreateBytes) : Bool := o.flags.getLsbD 1
/-- The "start suspended" flag of CREATE. -/
def createSuspended (o : CreateBytes) : Bool := o.flags.getLsbD 2

/-- The field checks of CREATE, in field order (R13). -/
def createChecks (o : CreateBytes) (k : Kind) : List (Byte × Bool) :=
  [(3, !senseAllowed k o.sense),
   (4, decide (3 < o.base.toNat)),
   (5, decide (o.flags &&& 0xF8 ≠ 0) || (createOneshot o && createLatching o)),
   (6, decide (63 < o.parent.slot.toNat ∧ o.parent.slot ≠ 0xFF)),
   (7, loBadForKind k o.limits),
   (8, hiBelowLo o.limits || hiBadForKind k o.limits),
   (9, marginTooWide o.limits || marginBadForKind k o.limits),
   (10, outside1to15 o.limits.tolerance || oneshotNot1 (createOneshot o) o.limits.tolerance),
   (11, outside1to15 o.limits.recoveryCount || oneshotNot1 (createOneshot o) o.limits.recoveryCount),
   (12, outside1to15 o.limits.silenceLimit),
   (13, settleAbove7 o.limits.settle),
   (14, tripMaskUndefined o.limits.tripMask || oneshotTrips (createOneshot o) o.limits.tripMask),
   (15, noticeMaskUndefined o.limits.noticeMask)]

/-- The first field of CREATE that fails, if one does (R13). -/
def createFieldError (o : CreateBytes) : Option Byte :=
  if 23 < o.pin.toNat then some 1
  else
    match kindOfCode o.kind with
    | none => some 2
    | some k => firstFailing (createChecks o k)

/-- The first pass of AMEND over its fields after the handle, in field order (R122). -/
def amendFieldError (o : AmendBytes) : Option Byte :=
  firstFailing
    [(2, decide (o.mode ≠ 0x01 ∧ o.mode ≠ 0x02)),
     (8, hiBelowLo o.limits),
     (9, marginTooWide o.limits),
     (10, outside1to15 o.limits.tolerance),
     (11, outside1to15 o.limits.recoveryCount),
     (12, outside1to15 o.limits.silenceLimit),
     (13, settleAbove7 o.limits.settle),
     (14, tripMaskUndefined o.limits.tripMask),
     (15, noticeMaskUndefined o.limits.noticeMask)]

/-- The second pass of AMEND, against the kind and the oneshot flag stored in the record (R123). -/
def amendRecordError (fx : Fixed) (a : LimitBytes) : Option Byte :=
  firstFailing
    [(7, loBadForKind fx.kind a),
     (8, hiBadForKind fx.kind a),
     (9, marginBadForKind fx.kind a),
     (10, oneshotNot1 fx.oneshot a.tolerance),
     (11, oneshotNot1 fx.oneshot a.recoveryCount),
     (14, oneshotTrips fx.oneshot a.tripMask)]

/-- The amendable fields that checked operand bytes give (R8). -/
def limitsOf (a : LimitBytes) : Limits :=
  { lo := a.lo
    hi := a.hi
    margin := a.margin
    tolerance := a.tolerance.setWidth 4
    recoveryCount := a.recoveryCount.setWidth 4
    silenceLimit := a.silenceLimit.setWidth 4
    settle := a.settle.setWidth 3
    tripMask := a.tripMask.setWidth 4
    noticeMask := a.noticeMask.setWidth 3 }

/-- Field 2 of RETIRE and QUERY: a bit other than the one defined option (R17, R22). -/
def optionsError (options : Byte) : Option Byte := if options &&& 0xFE = 0 then none else some 2

/-- The one defined option of RETIRE and QUERY: FORCE, reset-statistics (R184). -/
def optionSet (options : Byte) : Bool := options.getLsbD 0

/-- The handle checks of the six handle commands (R3): step 1 on the slot index, then the command's other field checks
that need the operands alone, then the generation, then the slot state; then the command goes on with the contract. -/
def withContract (s : State) (h : HandleBytes) (fields : Option Byte) (act : SlotIx → Record → Answer) : Answer :=
  match indexOf 64 h.slot with
  | none => refuse s .badField [1]
  | some i =>
    match fields with
    | some n => refuse s .badField [n]
    | none =>
      if s.slots[i].generation ≠ h.generation then refuse s .staleHandle
      else
        match s.recordAt i with
        | none => refuse s .noContract
        | some r => act i r

/-- Field 1 of the time-base commands: a base number above 3 is refused before any other check (section 4.5). -/
def withBase (s : State) (b : Byte) (act : BaseIx → Answer) : Answer :=
  match indexOf 4 b with
  | none => refuse s .badField [1]
  | some i => act i

/-- Field 1 of the trip commands: a line number above 3 is refused (R149, R150, R152). -/
def withLine (s : State) (l : Byte) (act : LineIx → Answer) : Answer :=
  match indexOf 4 l with
  | none => refuse s .badField [1]
  | some i => act i

end Sys2Proof.Machine
end

