-- ==== Sys2Proof/Machine/CommandPort.lean ====
section
/-! DEFINITION. Chapter Command Port: NOP, IDENTIFY, READ_STATUS, REPEAT, RESET_DEVICE, FRAME_BEGIN, EMPTY_FRAME,
FRAME_REFUSED. -/

namespace Sys2Proof.Machine

/-- NOP (R180). -/
def execNop (f : Frame) (s : State) : Host.Outcome State Fault Refusal := .next (s.serve .nop f (fun s => ok s))

/-- IDENTIFY (R180): part code 4B24h and revision 1. -/
def execIdentify (f : Frame) (s : State) : Host.Outcome State Fault Refusal :=
  .next (s.serve .identify f (fun s => ok s [0x4B, 0x24, 0x01]))

/-- READ_STATUS's payload (R181, R184). -/
def State.statusPayload (s : State) : List Byte :=
  [supervisionCode s.ref.supervision, s.baseStates, s.assertedLines, byteOf s.notices.length,
   byteOf s.liveCount, byteOf s.drainingCount, byteOf s.freeCount]

/-- READ_STATUS (R181). -/
def execReadStatus (f : Frame) (s : State) : Host.Outcome State Fault Refusal :=
  .next (s.serve .readStatus f (fun s => ok s s.statusPayload))

/-- REPEAT (R179): a buffer that holds a reply stays as it stands; an empty one takes NO_REPLY. -/
def execRepeatReply (f : Frame) (s : State) : Host.Outcome State Fault Refusal :=
  .next (s.endFrame (commandLength .repeatReply + f.fill) (fun s =>
    match s.port.reply with
    | some _ => s
    | none => s.setReply { result := .noReply, tag := f.tag, code := commandByte .repeatReply, payload := [] }))

/-- RESET_DEVICE (R182, R168): the part enters reset; the command's own reply is never formed. -/
def execResetDevice (f : Frame) (s : State) : Host.Outcome State Fault Refusal :=
  .next (s.endFrame (commandLength .resetDevice + f.fill) State.enterReset)

/-- FRAME_BEGIN (R170, R176, R177): a falling edge of CS#. With CS# already low there is no edge; in reset the port ignores
it (R169). -/
def execFrameBegin (s : State) : Host.Outcome State Fault Refusal :=
  .next
    (if s.port.csLow then s
     else if s.inReset then { s with port := { s.port with csLow := true } }
     else
       match s.port.frame with
       | .receiving => s
       | .idle =>
         { s with
           port := { s.port with frame := .receiving, csLow := true, rxCount := 0, outbound := s.outboundStream } })

/-- EMPTY_FRAME (R170): no whole byte was received; nothing is taken and the reply buffer is unchanged. -/
def execEmptyFrame (s : State) : Host.Outcome State Fault Refusal := .next (s.endFrame 0 id)

/-- FRAME_REFUSED (R173): the refusal, with the bytes that came as echo code and echo tag, replaces the reply buffer and
nothing else changes. Bytes that R173 does not refuse are no such frame, and the event does not happen (log entry 4). -/
def execFrameRefused (bytes : List Byte) (s : State) : Host.Outcome State Fault Refusal :=
  .next
    (match frameRefusal bytes with
     | none => s
     | some e =>
       s.endFrame bytes.length (fun s =>
         s.setReply { result := e, tag := bytes.getD 1 0, code := bytes.getD 0 0, payload := [] }))

end Sys2Proof.Machine
end

