-- ==== Sys2Proof/Machine/ContractTable.lean ====
section
/-! DEFINITION. The commands of chapter Contract Records: CREATE, RETIRE, QUERY, LIST, WIPE_TABLE. -/

namespace Sys2Proof.Machine

/-! ## CREATE -/

/-- The parent field that the parent operand of CREATE gives: slot index FFh leaves it absent (R4, R112). -/
def parentOf (h : HandleBytes) : Option Handle :=
  if h.slot = 0xFF then none else some { slot := Fin.ofNat 64 h.slot.toNat, generation := h.generation }

/-- The fixed fields that checked operands of CREATE give (R6). -/
def fixedOf (o : CreateBytes) : Fixed :=
  { pin := Fin.ofNat 24 o.pin.toNat
    kind := (kindOfCode o.kind).getD .level
    sense := o.sense.setWidth 2
    base := Fin.ofNat 4 o.base.toNat
    parent := parentOf o.parent
    oneshot := createOneshot o
    latching := createLatching o }

/-- Whether a parent is itself a grandchild: it names a parent that in turn names a parent (R14, R113). DESIGN CHOICE: a chain
that a change in storage has broken, where the handle stored in the parent names no LIVE contract of its generation, ends there,
so that the parent is no grandchild (log entry 20). -/
def State.isGrandchild (s : State) (p : Record) : Bool :=
  match p.fixed.parent with
  | none => false
  | some h =>
    match s.contractAt h with
    | none => false
    | some q => q.fixed.parent.isSome

/-- Relation checks 1 and 2 of CREATE (R14). -/
def createParentError (s : State) (parent : Option Handle) : Option ResultCode :=
  match parent with
  | none => none
  | some h =>
    if s.slots[h.slot].generation ≠ h.generation then some .staleHandle
    else
      match s.recordAt h.slot with
      | none => some .noContract
      | some p =>
        if p.fixed.oneshot = true ∨ p.state = .done ∨ p.state = .corrupt then some .wrongState
        else if s.isGrandchild p then some .tooDeep
        else none

/-- The lowest-numbered FREE slot (R15). -/
def State.lowestFree (s : State) : Option SlotIx := allSlots.find? (fun i => decide (s.slots[i].body = .free))

/-- One dependent more (R114). A count above 63 is a free value (log entry 15). -/
def oneMore (n : Nat) : Nat := if n < 63 then n + 1 else (Config.unstatedDependents n).val

/-- One dependent fewer (R114, R18). A count below 0 is a free value (log entry 15). -/
def oneFewer (n : Nat) : Nat := if 0 < n then n - 1 else (Config.unstatedDependents n).val

/-- Change the dependents count of the parent a record names (R114). A handle that names no LIVE contract of its generation, which
only a change in storage can leave in a record, has no count to change (log entry 18). -/
def State.adjustParent (s : State) (parent : Option Handle) (f : Nat → Nat) : State :=
  match parent with
  | none => s
  | some h =>
    if s.slots[h.slot].generation = h.generation then
      s.mapRecord h.slot (fun r => { r with dependents := f r.dependents })
    else s

/-- The record CREATE writes (R15), with the initial state of R16: the blocking recomputation applied to it. -/
def newRecord (s : State) (o : CreateBytes) (g : Byte) : Record :=
  let r : Record :=
    { fixed := fixedOf o
      limits := limitsOf o.limits
      state := .arming
      suspended := createSuspended o
      strikes := 0
      recoveryRun := 0
      recovered := false
      settleRemaining := (limitsOf o.limits).settle.toNat
      dependents := 0
      context := Context.initial
      last := none
      stats := Statistics.empty
      staged := none
      checkCode := 0 }
  ({ r with state := s.blockingResult r } : Record).recode g

/-- Place a new contract in a FREE slot (R2, R15). -/
def State.place (s : State) (i : SlotIx) (o : CreateBytes) : State :=
  let g := s.slots[i].generation + 1
  let r := newRecord s o g
  (((s.setSlot i { generation := g, body := .live r }).subscribePin r.fixed.pin i).subscribeBase r.fixed.base i).adjustParent
    r.fixed.parent oneMore

/-- What the Table Controller does with CREATE (R13 to R16). -/
def createBlock (o : CreateBytes) (s : State) : Answer :=
  match createFieldError o with
  | some n => refuse s .badField [n]
  | none =>
    match createParentError s (parentOf o.parent) with
    | some e => refuse s e
    | none =>
      if 8 ≤ s.pins[(fixedOf o).pin].subscribers.length then refuse s .pinFull
      else
        match s.lowestFree with
        | none => refuse s .tableFull [byteOf s.drainingCount]
        | some i =>
          let s' := s.place i o
          ok s' [slotByte i, s'.slots[i].generation, slotCode s'.slots[i].body]

/-- CREATE (R13 to R16). -/
def execCreate (f : Frame) (o : CreateBytes) (s : State) : Host.Outcome State Fault Refusal :=
  .next (s.serve .create f (createBlock o))

/-! ## RETIRE -/

/-- The removal of a contract by RETIRE, all but its slot's next state (R18). The observations withdrawn are those of its current
handle (log entry 21). -/
def State.dropContract (s : State) (i : SlotIx) (r : Record) : State :=
  ((((s.abandon i).unsubscribePins i).unsubscribeBases i).leaveMask i 0xF).adjustParent r.fixed.parent oneFewer

/-- RETIRE taken (R18, R19): the slot becomes DRAINING with RETIRED added to its entry, or FREE when it has none. -/
def State.retireContract (s : State) (i : SlotIx) (r : Record) : State :=
  let s1 := s.dropContract i r
  let g := s1.slots[i].generation
  if s1.hasEntry i then (s1.post i .retired).setSlot i { generation := g, body := .draining }
  else s1.setSlot i { generation := g, body := .free }

/-- What the Table Controller does with RETIRE (R17 to R19). -/
def retireBlock (h : HandleBytes) (options : Byte) (s : State) : Answer :=
  withContract s h (optionsError options) (fun i r =>
    if 0 < r.dependents then refuse s .hasDependents [byteOf r.dependents]
    else if (r.state = .violated ∨ r.state = .corrupt) ∧ optionSet options = false then refuse s .inViolation
    else
      let s' := s.retireContract i r
      ok s' [slotCode s'.slots[i].body])

/-- RETIRE (R17 to R19). -/
def execRetire (f : Frame) (h : HandleBytes) (options : Byte) (s : State) : Host.Outcome State Fault Refusal :=
  .next (s.serve .retire f (retireBlock h options))

/-! ## QUERY -/

/-- The flags byte of QUERY (R184). -/
def State.queryFlags (s : State) (r : Record) : Byte :=
  flagBit r.fixed.oneshot 0 ||| flagBit r.fixed.latching 1 ||| flagBit r.suspended 2 ||| flagBit r.recovered 3 |||
    flagBit (s.frozen r) 4 ||| flagBit r.staged.isSome 5

/-- The last observation in a payload (R184). -/
def lastBytes : Option LastObservation → List Byte
  | none => [0x00, 0xFF, 0xFF, 0xFF, 0xFF, 0x00, 0x00]
  | some o => verdictCode o.verdict :: (be32Opt o.value ++ be16 o.serial)

/-- The 71 bytes of QUERY's payload (R22, R184). -/
def State.queryPayload (s : State) (i : SlotIx) (r : Record) : List Byte :=
  [slotByte i, s.slots[i].generation, stateCode r.state,
   byteOf r.fixed.pin.val, kindCode r.fixed.kind, r.fixed.sense.setWidth 8, byteOf r.fixed.base.val, s.queryFlags r] ++
  handleBytes r.fixed.parent ++ limitsBytes r.limits ++
  [byteOf r.strikes, byteOf r.recoveryRun, byteOf r.settleRemaining, byteOf r.dependents,
   phaseCode r.context.phase, byteOf r.context.silence] ++
  lastBytes r.last ++
  be16 (BitVec.ofNat 16 r.stats.observations) ++ be16 (BitVec.ofNat 16 r.stats.outOfWindow) ++
  be32Opt r.stats.minValue ++ be32Opt r.stats.maxValue ++
  (match r.staged with | some a => limitsBytes a | none => List.replicate 18 0x00)

/-- What the Table Controller does with QUERY: the reply first, then the statistics when asked (R22, R23). -/
def queryBlock (h : HandleBytes) (options : Byte) (s : State) : Answer :=
  withContract s h (optionsError options) (fun i r =>
    ok (if optionSet options then s.mapRecord i (fun r => { r with stats := Statistics.empty }) else s)
      (s.queryPayload i r))

/-- QUERY (R22, R23). -/
def execQuery (f : Frame) (h : HandleBytes) (options : Byte) (s : State) : Host.Outcome State Fault Refusal :=
  .next (s.serve .query f (queryBlock h options))

/-! ## LIST -/

/-- The 128 bytes of LIST: state code and generation of each slot (R24). -/
def State.listPayload (s : State) : List Byte :=
  allSlots.flatMap (fun i => [slotCode s.slots[i].body, s.slots[i].generation])

/-- LIST (R24). -/
def execList (f : Frame) (s : State) : Host.Outcome State Fault Refusal :=
  .next (s.serve .list f (fun s => ok s s.listPayload))

/-! ## WIPE_TABLE -/

/-- The table after WIPE_TABLE: every slot FREE with its generation kept (R20). -/
def State.freeAll (s : State) : State :=
  allSlots.foldl (fun s i => s.setSlot i { generation := s.slots[i].generation, body := .free }) s

/-- Every subscriber set emptied (R20, R89, R106). -/
def State.emptySubscribers (s : State) : State :=
  allBases.foldl (fun s b => s.setBase b { s.bases[b] with subscribers := [] })
    (allPins.foldl (fun s p => s.setChannel p { s.pins[p] with subscribers := [] }) s)

/-- Every contributor set emptied, policy and flags kept (R20, R147). -/
def State.emptyContributors (s : State) : State :=
  allLines.foldl (fun s l => s.setLine l { s.trips[l] with contributors := [] }) s

/-- WIPE_TABLE on the state (R20, R142): every measurement is abandoned with its pending observations withdrawn, and the
device entry alone stays in the queue. -/
def State.wipe (s : State) : State :=
  { s.freeAll.emptySubscribers.emptyContributors with
    notices := s.notices.filter NoticeEntry.isDevice
    observations := [] }

/-- WIPE_TABLE (R20, R142). -/
def execWipeTable (f : Frame) (s : State) : Host.Outcome State Fault Refusal :=
  .next (s.serve .wipeTable f (fun s => ok s.wipe [byteOf s.liveCount, byteOf s.drainingCount]))

end Sys2Proof.Machine
end

