-- ==== Sys2Proof/Machine/Integrity.lean ====
section
/-! DEFINITION. The Table Scrubber and the check code (chapter 10): STORAGE_CHANGE, SCRUBBER_VISIT, MISMATCH_REPORT. -/

namespace Sys2Proof.Machine

/-- One amendable field takes another value in storage (R164). -/
def LimitChange.apply (a : Limits) : LimitChange → Limits
  | .lo v => { a with lo := v }
  | .hi v => { a with hi := v }
  | .margin v => { a with margin := v }
  | .tolerance v => { a with tolerance := v }
  | .recoveryCount v => { a with recoveryCount := v }
  | .silenceLimit v => { a with silenceLimit := v }
  | .settle v => { a with settle := v }
  | .tripMask v => { a with tripMask := v }
  | .noticeMask v => { a with noticeMask := v }

/-- One covered field or the stored check code changes in storage, and nothing else (R164). The generation is the
slot's; a field of a staged amendment that is absent does not exist. A presence that is set where the staged amendment is present
already is no change (log entry 4). DESIGN CHOICE: where it was absent, the fields that its storage then shows are those that the
event names (log entry 28). -/
def StorageFault.apply (g : Byte) (r : Record) : StorageFault → Byte × Record
  | .generation v => (v, r)
  | .pin v => (g, { r with fixed := { r.fixed with pin := v } })
  | .kind v => (g, { r with fixed := { r.fixed with kind := v } })
  | .sense v => (g, { r with fixed := { r.fixed with sense := v } })
  | .base v => (g, { r with fixed := { r.fixed with base := v } })
  | .parent v => (g, { r with fixed := { r.fixed with parent := v } })
  | .oneshot v => (g, { r with fixed := { r.fixed with oneshot := v } })
  | .latching v => (g, { r with fixed := { r.fixed with latching := v } })
  | .inForce c => (g, { r with limits := LimitChange.apply r.limits c })
  | .staged c => (g, { r with staged := r.staged.map (fun a => LimitChange.apply a c) })
  | .stagedPresence v => (g, { r with staged := if r.staged.isSome && v.isSome then r.staged else v })
  | .checkCode v => (g, { r with checkCode := v })

/-- STORAGE_CHANGE (R164). -/
def execStorageChange (i : SlotIx) (fault : StorageFault) (s : State) : Host.Outcome State Fault Refusal :=
  .next
    (match s.recordAt i with
     | none => s
     | some r =>
       let x := StorageFault.apply s.slots[i].generation r fault
       s.setSlot i { generation := x.1, body := .live x.2 })

/-- Whether a record's stored check code agrees with the code computed afresh over its fields (R166). -/
def State.codeAgrees (s : State) (i : SlotIx) (r : Record) : Bool :=
  decide (r.checkCode = r.freshCode s.slots[i].generation)

/-- The mismatch report that a visit hands on, if it hands one on (R165, R166). -/
def State.visitReport (s : State) (i : SlotIx) : List Handle :=
  match s.recordAt i with
  | none => []
  | some r => if r.state = .corrupt then [] else if s.codeAgrees i r then [] else [s.handleOf i]

/-- SCRUBBER_VISIT (R165, R166): the visit at the scan position, which then advances by one, wrapping from 63 to 0. -/
def execScrubberVisit (s : State) : Host.Outcome State Fault Refusal :=
  .next (s.whileOperating (fun s =>
    { s with
      scrub := { position := s.scrub.position + 1, reports := s.scrub.reports ++ s.visitReport s.scrub.position } }))

/-- Entry into CORRUPT from any other state (R51). -/
def State.enterCorrupt (s : State) (i : SlotIx) (r : Record) : State :=
  (((((((if s.measures r then s.abandon i else s).unsubscribePins i).unsubscribeBases i).mapRecord i
    (fun r => { r with state := .corrupt })).joinMask i 0xF).post i .corrupt)).becameUnhealthy r.state i

/-- The Table Controller takes a mismatch report (R167). -/
def State.takeReport (s : State) (h : Handle) : State :=
  match s.contractAt h with
  | none => s
  | some r => if r.state = .corrupt then s else s.enterCorrupt h.slot r

/-- MISMATCH_REPORT (R167): a report that the scrubber has handed on. With no such report handed on, none is taken
(log entry 4). -/
def execMismatchReport (h : Handle) (s : State) : Host.Outcome State Fault Refusal :=
  .next (s.whileOperating (fun s =>
    if s.scrub.reports.contains h then
      { s with scrub := { s.scrub with reports := s.scrub.reports.erase h } }.takeReport h
    else s))

end Sys2Proof.Machine
end

