-- ==== Sys2Proof/Machine/Judgement.lean ====
section
/-! DEFINITION. Chapters 2 and 7: the taking of an observation, and the commands SUSPEND, RESUME, CLEAR and AMEND. -/

namespace Sys2Proof.Machine

/-! ## Judging an observation -/

/-- The outcome of an observation that is not VOID, against the window in force (R27). -/
def classify (a : Limits) : Option Word32 → Verdict
  | none => .silent
  | some v => if v.toNat < a.lo.toNat then .below else if a.hi.toNat < v.toNat then .above else .inWindow

/-- Whether the value of an observation is in band (R28). -/
def inBand (a : Limits) : Option Word32 → Bool
  | none => false
  | some v => decide (a.lo.toNat + a.margin.toNat ≤ v.toNat ∧ v.toNat + a.margin.toNat ≤ a.hi.toNat)

/-- The lesser of a value and an optional one (R10). -/
def lesserValue (m : Option Word32) (v : Word32) : Option Word32 :=
  match m with
  | none => some v
  | some w => if v.toNat < w.toNat then some v else some w

/-- The greater of a value and an optional one (R10). -/
def greaterValue (m : Option Word32) (v : Word32) : Option Word32 :=
  match m with
  | none => some v
  | some w => if w.toNat < v.toNat then some v else some w

/-- The statistics after a counted observation (R10). -/
def Statistics.count (st : Statistics) (d : Verdict) (v : Option Word32) : Statistics :=
  { observations := min (st.observations + 1) 65535
    outOfWindow := if d = .inWindow then st.outOfWindow else min (st.outOfWindow + 1) 65535
    minValue := match v with | none => st.minValue | some w => lesserValue st.minValue w
    maxValue := match v with | none => st.maxValue | some w => greaterValue st.maxValue w }

/-- The last observation and the statistics are updated (R10, step 3 of R30). -/
def State.recordObservation (s : State) (i : SlotIx) (d : Verdict) (o : Observation) : State :=
  s.mapRecord i (fun r =>
    { r with last := some { verdict := d, value := o.value, serial := o.serial }, stats := r.stats.count d o.value })

/-- Entry into CONFORMING by judgement from ARMING or SUSPECT (R33, R35): strikes 0, and the cascade of a health
change. -/
def State.enterConforming (s : State) (i : SlotIx) (before : ContractState) : State :=
  (s.mapRecord i (fun r => { r with state := .conforming, strikes := 0 })).becameHealthy before i

/-- Entry into SUSPECT from ARMING or CONFORMING with strikes 1 (R33, R34). -/
def State.enterSuspect (s : State) (i : SlotIx) (before : ContractState) (mask : BitVec 3) : State :=
  ((s.mapRecord i (fun r => { r with state := .suspect, strikes := 1 })).postMasked i .suspect mask).becameHealthy before i

/-- Entry into VIOLATED by judgement (R36). -/
def State.enterViolated (s : State) (i : SlotIx) (before : ContractState) (mask : BitVec 4) : State :=
  (((s.mapRecord i (fun r =>
      { r with state := .violated, strikes := 0, recoveryRun := 0, recovered := false })).joinMask i mask).post i
    .violated).becameUnhealthy before i

/-- Recovery of a non-latching contract to CONFORMING (R38). -/
def State.recover (s : State) (i : SlotIx) (a : Limits) : State :=
  (((s.mapRecord i (fun r => { r with state := .conforming, strikes := 0, recoveryRun := 0 })).leaveMask i
      a.tripMask).postMasked i .recovered a.noticeMask).becameHealthy .violated i

/-- The recovered flag of a latching contract is set (R39). -/
def State.setRecovered (s : State) (i : SlotIx) (a : Limits) : State :=
  (s.mapRecord i (fun r => { r with recovered := true, recoveryRun := 0 })).postMasked i .recovered a.noticeMask

/-- Entry into DONE (R42): the measurement is abandoned, and DONE is posted whatever the mask holds. -/
def State.enterDone (s : State) (i : SlotIx) : State :=
  ((s.abandon i).mapRecord i (fun r => { r with state := .done })).post i .done

/-- An out-of-window observation in ARMING or CONFORMING (R33, R34). -/
def State.firstStrike (s : State) (i : SlotIx) (r : Record) : State :=
  if 2 ≤ r.limits.tolerance.toNat then s.enterSuspect i r.state r.limits.noticeMask
  else s.enterViolated i r.state r.limits.tripMask

/-- The state rule of VIOLATED (R37 to R39). DESIGN CHOICE: a recovered flag that stands in a contract whose latching flag a change in
storage has cleared is read as a latching contract's (log entry 30). -/
def State.judgeViolated (s : State) (i : SlotIx) (r : Record) (d : Verdict) (band : Bool) : State :=
  if d ≠ .inWindow then s.mapRecord i (fun r => { r with recoveryRun := 0, recovered := false })
  else if !band then s.mapRecord i (fun r => { r with recoveryRun := 0 })
  else if r.recovered then s
  else if r.recoveryRun + 1 < r.limits.recoveryCount.toNat then
    s.mapRecord i (fun r => { r with recoveryRun := r.recoveryRun + 1 })
  else if r.fixed.latching then s.setRecovered i r.limits
  else s.recover i r.limits

/-- The state rule of the contract's state, with its consequences (steps 4 and 5 of R30). `r` is the record as it
stands after step 3. DESIGN CHOICE: a contract whose oneshot flag a change in storage has set in CONFORMING, SUSPECT or VIOLATED is
judged by the rule of that state, with its postings and lines (log entry 29). -/
def State.applyStateRule (s : State) (i : SlotIx) (r : Record) (d : Verdict) (band : Bool) : State :=
  match r.state with
  | .arming =>
    if r.fixed.oneshot then s.enterDone i
    else if d = .inWindow then s.enterConforming i .arming
    else s.firstStrike i r
  | .conforming => if d = .inWindow then s else s.firstStrike i r
  | .suspect =>
    if d = .inWindow then s.enterConforming i .suspect
    else if r.limits.tolerance.toNat ≤ r.strikes + 1 then s.enterViolated i .suspect r.limits.tripMask
    else s.mapRecord i (fun r => { r with strikes := r.strikes + 1 })
  | .violated => s.judgeViolated i r d band
  | .suspended => s
  | .held => s
  | .dormant => s
  | .done => s
  | .corrupt => s

/-- A counted observation is taken: the five steps of R30. -/
def State.judge (s : State) (i : SlotIx) (o : Observation) : State :=
  let s1 := s.applyStaged i
  match s1.recordAt i with
  | none => s1
  | some r1 =>
    let d := classify r1.limits o.value
    let s3 := s1.recordObservation i d o
    match s3.recordAt i with
    | none => s3
    | some r3 => s3.applyStateRule i r3 d (inBand r1.limits o.value)

/-- An observation reaches the Table Controller: the generation check (R5), then the state (R26), then the settle rule
(R29), then judgement (R30). -/
def State.takeObservation (s : State) (o : Observation) : State :=
  match s.contractAt o.handle with
  | none => s
  | some r =>
    if !s.measures r then s
    else if r.state = .arming ∧ 0 < r.settleRemaining then
      s.mapRecord o.handle.slot (fun r => { r with settleRemaining := r.settleRemaining - 1 })
    else s.judge o.handle.slot o

/-- The first pending observation of a handle, and the rest (R26). -/
def firstObservation (h : Handle) : List Observation → Option (Observation × List Observation)
  | [] => none
  | o :: t =>
    if o.handle = h then some (o, t)
    else
      match firstObservation h t with
      | none => none
      | some (o', t') => some (o', o :: t')

/-- OBSERVATION_TAKEN (R5, R26, R30): the oldest pending observation of the handle. With none pending, none is
taken (log entry 4). -/
def execObservationTaken (h : Handle) (s : State) : Host.Outcome State Fault Refusal :=
  .next (s.whileOperating (fun s =>
    match firstObservation h s.observations with
    | none => s
    | some (o, rest) => { s with observations := rest }.takeObservation o))

/-! ## SUSPEND, RESUME, CLEAR -/

/-- The state code of a slot after a command, as the reply carries it (R184). -/
def State.stateByte (s : State) (i : SlotIx) : Byte := slotCode s.slots[i].body

/-- What the Table Controller does with SUSPEND (R47). -/
def suspendBlock (h : HandleBytes) (s : State) : Answer :=
  withContract s h none (fun i r =>
    if isMeasuring r.state || decide (r.state = .held) || decide (r.state = .dormant) then
      let s' := (s.mapRecord i (fun r => { r with suspended := true })).enterBlocked i .suspended
      ok s' [s'.stateByte i]
    else if r.state = .violated then refuse s .inViolation
    else refuse s .wrongState)

/-- SUSPEND (R47). -/
def execSuspend (f : Frame) (h : HandleBytes) (s : State) : Host.Outcome State Fault Refusal :=
  .next (s.serve .suspend f (suspendBlock h))

/-- What the Table Controller does with RESUME (R48). -/
def resumeBlock (h : HandleBytes) (s : State) : Answer :=
  withContract s h none (fun i r =>
    if r.state = .suspended then
      let s' := (s.mapRecord i (fun r => { r with suspended := false })).recompute i
      ok s' [s'.stateByte i]
    else refuse s .wrongState)

/-- RESUME (R48). -/
def execResume (f : Frame) (h : HandleBytes) (s : State) : Host.Outcome State Fault Refusal :=
  .next (s.serve .resume f (resumeBlock h))

/-- CLEAR of a VIOLATED contract that is not frozen: CONFORMING (R40). -/
def State.clearToConforming (s : State) (i : SlotIx) (a : Limits) : State :=
  ((s.mapRecord i (fun r =>
      { r with state := .conforming, recovered := false, recoveryRun := 0, strikes := 0 })).leaveMask i
    a.tripMask).becameHealthy .violated i

/-- CLEAR of a frozen contract: HELD when its time base is not RUNNING, otherwise DORMANT (R40). -/
def State.clearFrozen (s : State) (i : SlotIx) (r : Record) : State :=
  let target : ContractState := if s.baseRunning r then .dormant else .held
  (s.mapRecord i (fun r => { r with recovered := false, recoveryRun := 0 })).leaveMask i r.limits.tripMask
    |>.enterBlocked i target

/-- What the Table Controller does with CLEAR (R40). DESIGN CHOICE: a VIOLATED contract whose recovered flag is set is cleared also
where a change in storage has cleared its latching flag (log entry 30). -/
def clearBlock (h : HandleBytes) (s : State) : Answer :=
  withContract s h none (fun i r =>
    if r.state = .violated then
      if !r.recovered then refuse s .stillViolating
      else
        let s' := if s.frozen r then s.clearFrozen i r else s.clearToConforming i r.limits
        ok s' [s'.stateByte i]
    else refuse s .wrongState)

/-- CLEAR (R40). -/
def execClear (f : Frame) (h : HandleBytes) (s : State) : Host.Outcome State Fault Refusal :=
  .next (s.serve .clear f (clearBlock h))

/-! ## AMEND -/

/-- AMEND in staged mode (R124). -/
def State.stage (s : State) (i : SlotIx) (a : Limits) : State :=
  s.mapRecord i (fun r => ({ r with staged := some a } : Record).recode s.slots[i].generation)

/-- The restart of a VIOLATED contract's recovery by SET_PIN or an immediate AMEND (R108, R128): recovery run 0, and a
measurement in flight is abandoned. -/
def State.restartRecovery (s : State) (i : SlotIx) (r : Record) : State :=
  (if s.frozen r then s else s.abandon i).mapRecord i (fun r => { r with recoveryRun := 0 })

/-- AMEND in immediate mode (R128). -/
def State.amendNow (s : State) (i : SlotIx) (r : Record) (a : Limits) : State :=
  let s1 := s.mapRecord i (fun r => ({ r with limits := a, staged := none } : Record).recode s.slots[i].generation)
  if isMeasuring r.state then (s1.abandon i).enterArming i
  else if r.state = .violated then
    (s1.restartRecovery i r).changeMask i r.limits.tripMask a.tripMask
  else s1

/-- What the Table Controller does with AMEND (R122 to R124, R128). -/
def amendBlock (o : AmendBytes) (s : State) : Answer :=
  withContract s o.handle (amendFieldError o) (fun i r =>
    if r.state = .done ∨ r.state = .corrupt then refuse s .wrongState
    else
      match amendRecordError r.fixed o.limits with
      | some n => refuse s .badField [n]
      | none =>
        let a := limitsOf o.limits
        let s' := if o.mode = 0x01 then s.stage i a else s.amendNow i r a
        { state := s', result := if r.staged.isSome then .okReplaced else .ok, payload := [s'.stateByte i] })

/-- AMEND (R122 to R124, R128). -/
def execAmend (f : Frame) (o : AmendBytes) (s : State) : Host.Outcome State Fault Refusal :=
  .next (s.serve .amend f (amendBlock o))

end Sys2Proof.Machine
end

