-- ==== Sys2Proof/Machine/Measurement.lean ====
section
/-! DEFINITION. Chapter Measurement Procedures: EDGE_TAKEN, BOUNDARY_TAKEN and SILENCE_LIMIT. -/

namespace Sys2Proof.Machine

/-! ## Which event a context takes next -/

/-- An edge lies in the base tick of the boundary with a serial: it is stamped (s, 0) (R61, R105). -/
def sameTick (st : Stamp) (serial : Word16) : Bool := decide (st.serial = serial ∧ st.counter = 0)

/-- The first edge handed to a context, and the rest, when the context may take it now: a boundary handed before it is
overtaken only in the edge's own base tick (R60). -/
def nextEdgeEvent : List ContextEvent → Option ((EdgeDir × Stamp) × List ContextEvent)
  | [] => none
  | .edge d st :: t => some ((d, st), t)
  | .boundary n :: t =>
    match nextEdgeEvent t with
    | none => none
    | some ((d, st), t') => if sameTick st n then some ((d, st), .boundary n :: t') else none

/-- The first boundary handed to a context, and the rest, when the context may take it now (R60). -/
def nextBoundaryEvent : List ContextEvent → Option (Word16 × List ContextEvent)
  | [] => none
  | .boundary n :: t => some (n, t)
  | .edge d st :: t =>
    match nextBoundaryEvent t with
    | none => none
    | some (n, t') => if sameTick st n then some (n, .edge d st :: t') else none

/-- The filtered level a LEVEL context samples: before every edge handed to it that it has still to take (R76). -/
def levelSeen (now : Bool) : List ContextEvent → Bool
  | [] => now
  | .edge .rise _ :: _ => false
  | .edge .fall _ :: _ => true
  | .boundary _ :: t => levelSeen now t

/-! ## One event in one phase -/

/-- A context that begins a measurement at a boundary: the accumulators and the silence count 0, no opening
timestamp (R62, R63, R64). -/
def Context.begin (p : Phase) (inbox : List ContextEvent) : Context := { Context.initial with phase := p, inbox := inbox }

/-- The phase in which a measurement of a kind begins (R64). -/
def firstPhase : Kind → Phase
  | .meanPeriod => .opening
  | .period => .opening
  | .pulse => .opening
  | .duty => .opening
  | .count => .counting
  | .level => .sampling

/-- Whether an edge is the qualifying edge, or the edge into the active level, that a sense code names: code 1 names
RISE and HIGH, code 2 names FALL and LOW, code 3 names BOTH (R7, R70, R75). DESIGN CHOICE: the bits are read so also for a
code that R7 does not allow for the kind, which only a change in storage of the sense or the kind leaves: by code 0 no edge
qualifies, and by code 3 both edges do, into the active level of PULSE and DUTY too (log entry 26). -/
def qualifies (sense : BitVec 2) : EdgeDir → Bool
  | .rise => sense.getLsbD 0
  | .fall => sense.getLsbD 1

/-- The number of gate serials from one serial forward to another, modulo 65536 (R61). -/
def serialsForward (c0 c : Word16) : Nat := (c - c0).toNat

/-- The position of an edge: base ticks from the opening edge to it (R61). With no opening edge, with one ahead of it, or with
one further behind it than R77 allows, the position is a free value (log entry 15). -/
def position (modulus : Word16) (opening : Option Stamp) (st : Stamp) : Nat :=
  match opening with
  | none => (Config.unstatedPosition none st).val
  | some o =>
    let ahead := serialsForward o.serial st.serial * modulus.toNat + st.counter.toNat
    if o.counter.toNat ≤ ahead ∧ ahead - o.counter.toNat ≤ 1048560 then ahead - o.counter.toNat
    else (Config.unstatedPosition (some o) st).val

/-- The ticks of one stay at the active level, from its entry mark to its exit (R73, R74). An exit before its mark is a free
value (log entry 15). -/
def stayTicks (mark exit : Nat) : Nat := if mark ≤ exit then exit - mark else (Config.unstatedStay mark exit).val

/-- The active-tick accumulator after a stay (R73, R74). A sum beyond the bound of R59 is a free value (log entry 15). -/
def addActive (active stay : Nat) : Nat :=
  if active + stay ≤ 1048560 then active + stay else (Config.unstatedActive active stay).val

/-- The edge or period accumulator after one more edge (R65, R75). A count beyond the bound of R59 is a free value (log
entry 15). -/
def addEdge (count : Nat) : Nat := if count < 8388608 then count + 1 else (Config.unstatedCount count).val

/-- The 32-bit value of an observation (R26). Every number that the accumulators' bounds of R59 admit fits (R78). -/
def observedValue (v : Nat) : Word32 := BitVec.ofNat 32 v

/-- A context after an event, and the observation the event formed, if it formed one: `some none` is an observation
with no value (R63). -/
abbrev StepResult := Context × Option (Option Word32)

/-- An observation with a value formed at an edge: the context returns to WAIT_GATE (R63). -/
def closeAtEdge (c : Context) (v : Nat) : StepResult :=
  (Context.begin .waitGate c.inbox, some (some (observedValue v)))

/-- The opening edge of a measurement (R65, R68, R70, R72). -/
def openAt (c : Context) (st : Stamp) : Context :=
  { c with phase := .counting, opening := some st, ticks := 0, count := 0, active := 0, silence := 0 }

/-- An edge taken by a context: phase by phase, kind by kind (R64 to R76). A pair of kind and phase that the phase table
does not list, which only a change in storage can bring about, takes the edge without effect (log entry 9). DESIGN CHOICE: an edge
into the active level in COUNTING of PULSE, for which R71 and the phase table give no action and which only a change in storage of
the sense or the pin in mid-pulse brings about, is ignored (log entry 27). DESIGN CHOICE: a value is what the formulas of R61 and
R74 give, also where a change in storage of the sense or the base in mid-measurement takes it above the greatest value of R78 (log
entry 23). -/
def stepEdge (kind : Kind) (sense : BitVec 2) (modulus : Word16) (dir : EdgeDir) (st : Stamp) (c : Context) :
    StepResult :=
  let pos := position modulus c.opening st
  match kind, c.phase with
  | .meanPeriod, .opening => if qualifies sense dir then (openAt c st, none) else (c, none)
  | .meanPeriod, .counting =>
    if qualifies sense dir then ({ c with count := addEdge c.count, ticks := pos }, none) else (c, none)
  | .meanPeriod, .closing =>
    if qualifies sense dir then closeAtEdge c (16 * pos / (c.count + 1)) else (c, none)
  | .period, .opening => if qualifies sense dir then (openAt c st, none) else (c, none)
  | .period, .counting => if qualifies sense dir then closeAtEdge c pos else (c, none)
  | .pulse, .opening => if qualifies sense dir then (openAt c st, none) else (c, none)
  | .pulse, .counting => if qualifies sense dir then (c, none) else closeAtEdge c pos
  | .duty, .opening => if qualifies sense dir then (openAt c st, none) else (c, none)
  | .duty, .counting =>
    if qualifies sense dir then ({ c with count := pos, ticks := pos }, none)
    else ({ c with active := addActive c.active (stayTicks c.count pos), ticks := pos }, none)
  | .duty, .closing =>
    if qualifies sense dir then
      (if pos = 0 then ({ c with count := 0 }, none) else closeAtEdge c (1000 * c.active / pos))
    else ({ c with active := addActive c.active (stayTicks c.count pos), ticks := pos }, none)
  | .count, .counting => if qualifies sense dir then ({ c with count := addEdge c.count }, none) else (c, none)
  | _, _ => (c, none)

/-- Whether a phase waits for an edge (R62). -/
def isWaiting : Kind → Phase → Bool
  | .meanPeriod, .opening => true
  | .meanPeriod, .closing => true
  | .period, .opening => true
  | .period, .counting => true
  | .pulse, .opening => true
  | .pulse, .counting => true
  | .duty, .opening => true
  | .duty, .closing => true
  | _, _ => false

/-- Whether a boundary taken in a waiting phase adds to the silence count: in COUNTING of PERIOD and PULSE the boundary
of the opening edge's own base tick adds nothing (R62). DESIGN CHOICE: with no opening timestamp to compare with, which only a
change in storage of the kind can bring about there, the boundary adds 1 (log entry 22). -/
def addsSilence (c : Context) (serial : Word16) : Bool :=
  match c.phase, c.opening with
  | .counting, some o => decide (o.serial ≠ serial)
  | _, _ => true

/-- Whether a boundary, taken now, brings the silence count to the silence limit (R62). -/
def reachesSilence (kind : Kind) (limit : BitVec 4) (serial : Word16) (c : Context) : Bool :=
  isWaiting kind c.phase && addsSilence c serial && decide (limit.toNat ≤ c.silence + 1)

/-- A gate boundary taken by a context (R62 to R76). `level` is the filtered level a LEVEL context samples. A pair of
kind and phase that the phase table does not list takes the boundary without effect (log entry 9). -/
def stepBoundary (kind : Kind) (limit : BitVec 4) (level : Bool) (serial : Word16) (c : Context) : StepResult :=
  if c.phase = .waitGate then (Context.begin (firstPhase kind) c.inbox, none)
  else if isWaiting kind c.phase then
    if !addsSilence c serial then (c, none)
    else if limit.toNat ≤ c.silence + 1 then (Context.begin .opening c.inbox, some none)
    else ({ c with silence := c.silence + 1 }, none)
  else
    match kind, c.phase with
    | .meanPeriod, .counting => ({ c with phase := .closing, silence := 0 }, none)
    | .duty, .counting => ({ c with phase := .closing, silence := 0 }, none)
    | .count, .counting => (Context.begin .counting c.inbox, some (some (observedValue c.count)))
    | .level, .sampling => (Context.begin .sampling c.inbox, some (some (if level then 1 else 0)))
    | _, _ => (c, none)

/-! ## The events -/

/-- The context and the observation after a taking: the observation is pending, in the order of formation (R26, R63). -/
def State.afterStep (s : State) (i : SlotIx) (serial : Word16) (x : StepResult) : State :=
  let s' := s.mapRecord i (fun r => { r with context := x.1 })
  match x.2 with
  | none => s'
  | some v =>
    { s' with observations := s.observations ++ [{ handle := s.handleOf i, value := v, serial := serial }] }

/-- A measuring context takes the next edge of its pin (R60). -/
def State.takeEdge (s : State) (i : SlotIx) : State :=
  match s.recordAt i with
  | none => s
  | some r =>
    if !s.measures r then s
    else
      match nextEdgeEvent r.context.inbox with
      | none => s
      | some ((d, st), rest) =>
        s.afterStep i st.serial
          (stepEdge r.fixed.kind r.fixed.sense s.bases[r.fixed.base].modulus d st { r.context with inbox := rest })

/-- A measuring context takes the next boundary of its time base (R60), if `when` holds of the boundary and the context. -/
def State.takeBoundary (s : State) (i : SlotIx) (when : Record → Word16 → Bool) : State :=
  match s.recordAt i with
  | none => s
  | some r =>
    if !s.measures r then s
    else
      match nextBoundaryEvent r.context.inbox with
      | none => s
      | some (n, rest) =>
        if when r n then
          s.afterStep i n
            (stepBoundary r.fixed.kind r.limits.silenceLimit (levelSeen s.pins[r.fixed.pin].level r.context.inbox) n
              { r.context with inbox := rest })
        else s

/-- EDGE_TAKEN (R60, R64 to R76). -/
def execEdgeTaken (i : SlotIx) (s : State) : Host.Outcome State Fault Refusal :=
  .next (s.whileOperating (fun s => s.takeEdge i))

/-- BOUNDARY_TAKEN (R60, R62 to R76). A boundary that brings the silence count to the limit ends the measurement
here as it does in SILENCE_LIMIT, which names that case. -/
def execBoundaryTaken (i : SlotIx) (s : State) : Host.Outcome State Fault Refusal :=
  .next (s.whileOperating (fun s => s.takeBoundary i (fun _ _ => true)))

/-- SILENCE_LIMIT (R62): the boundary that brings the silence count to the silence limit. -/
def execSilenceLimit (i : SlotIx) (s : State) : Host.Outcome State Fault Refusal :=
  .next (s.whileOperating (fun s =>
    s.takeBoundary i (fun r n => reachesSilence r.fixed.kind r.limits.silenceLimit n r.context)))

end Sys2Proof.Machine
end

