-- ==== Sys2Proof/Machine/Notices.lean ====
section
/-! DEFINITION. Chapter Notices and the Alert Line: READ_NOTICES and ACK_NOTICE. -/

namespace Sys2Proof.Machine

/-! ## READ_NOTICES -/

/-- The four bytes of an entry: slot, generation, kinds, present state of the owner (R137, R184). -/
def State.entryBytes (s : State) : NoticeEntry → List Byte
  | .contract i g ks => [slotByte i, g, ks.setWidth 8, slotCode s.slots[i].body]
  | .device ks => [0xFF, 0x00, ks.setWidth 8, supervisionCode s.ref.supervision]

/-- READ_NOTICES's payload: the number of entries, then the first eight at most (R137). -/
def State.noticesPayload (s : State) : List Byte :=
  byteOf s.notices.length :: (s.notices.take 8).flatMap s.entryBytes

/-- READ_NOTICES (R137). -/
def execReadNotices (f : Frame) (s : State) : Host.Outcome State Fault Refusal :=
  .next (s.serve .readNotices f (fun s => ok s s.noticesPayload))

/-! ## ACK_NOTICE -/

/-- The kinds of a slot's entry, if it has one. -/
def contractKinds (i : SlotIx) : List NoticeEntry → Option (BitVec 7)
  | [] => none
  | .contract j _ ks :: t => if j = i then some ks else contractKinds i t
  | .device _ :: t => contractKinds i t

/-- The kinds of the device entry, if it is in the queue. -/
def deviceKinds : List NoticeEntry → Option (BitVec 3)
  | [] => none
  | .device ks :: _ => some ks
  | .contract _ _ _ :: t => deviceKinds t

/-- Leave a slot's entry with a set of kinds; an entry whose set is empty leaves the queue (R140). -/
def leaveContractKinds (i : SlotIx) (left : BitVec 7) : List NoticeEntry → List NoticeEntry
  | [] => []
  | .contract j g ks :: t =>
    if j = i then (if left = 0 then t else .contract j g left :: t)
    else .contract j g ks :: leaveContractKinds i left t
  | .device ks :: t => .device ks :: leaveContractKinds i left t

/-- Leave the device entry with a set of kinds; an entry whose set is empty leaves the queue (R140). -/
def leaveDeviceKinds (left : BitVec 3) : List NoticeEntry → List NoticeEntry
  | [] => []
  | .device _ :: t => if left = 0 then t else .device left :: t
  | .contract j g ks :: t => .contract j g ks :: leaveDeviceKinds left t

/-- The emptied entry of a DRAINING slot releases the slot (R141). -/
def State.releaseSlot (s : State) (i : SlotIx) : State :=
  if s.slots[i].body = .draining then s.setSlot i { generation := s.slots[i].generation, body := .free } else s

/-- ACK_NOTICE taken for a slot's entry (R140, R141). -/
def State.ackContract (s : State) (i : SlotIx) (left : BitVec 7) : State :=
  let s' := { s with notices := leaveContractKinds i left s.notices }
  if left = 0 then s'.releaseSlot i else s'

/-- What the Notice Queue does with ACK_NOTICE of the device entry (R139, R140). -/
def ackDeviceBlock (kinds : Byte) (s : State) : Answer :=
  if kinds &&& 0xF8 ≠ 0 then refuse s .badField [2]
  else
    match deviceKinds s.notices with
    | none => refuse s .noContract
    | some ks =>
      let left := ks &&& ~~~(kinds.setWidth 3)
      ok { s with notices := leaveDeviceKinds left s.notices }
        [left.setWidth 8, supervisionCode s.ref.supervision]

/-- What the Notice Queue does with ACK_NOTICE (R139 to R141). -/
def ackNoticeBlock (h : HandleBytes) (kinds : Byte) (s : State) : Answer :=
  if h.slot = 0xFF then ackDeviceBlock kinds s
  else
    match indexOf 64 h.slot with
    | none => refuse s .badField [1]
    | some i =>
      if kinds &&& 0x80 ≠ 0 then refuse s .badField [2]
      else if s.slots[i].generation ≠ h.generation then refuse s .staleHandle
      else
        match contractKinds i s.notices with
        | none => refuse s .noContract
        | some ks =>
          let left := ks &&& ~~~(kinds.setWidth 7)
          let s' := s.ackContract i left
          ok s' [left.setWidth 8, slotCode s'.slots[i].body]

/-- ACK_NOTICE (R139 to R141). -/
def execAckNotice (f : Frame) (h : HandleBytes) (kinds : Byte) (s : State) : Host.Outcome State Fault Refusal :=
  .next (s.serve .ackNotice f (ackNoticeBlock h kinds))

end Sys2Proof.Machine
end

