-- ==== Sys2Proof/Machine/TimeBases.lean ====
section
/-! DEFINITION. Chapter Time Bases: SET_TIMEBASE, START_TIMEBASE, STOP_TIMEBASE, READ_TIMEBASE, and the events
BASE_TICK_END and GATE_BOUNDARY. -/

namespace Sys2Proof.Machine

/-- SET_TIMEBASE's fields 2 and 3 (R90). -/
def setTimebaseError (tap : Byte) (modulus : Word16) : Option Byte :=
  firstFailing [(2, decide (7 < tap.toNat)), (3, decide (modulus.toNat < 16))]

/-- What the Time Base Unit does with SET_TIMEBASE (R90). -/
def setTimebaseBlock (base tap : Byte) (modulus : Word16) (s : State) : Answer :=
  withBase s base (fun b =>
    match setTimebaseError tap modulus with
    | some n => refuse s .badField [n]
    | none =>
      if s.bases[b].state = .stopped then
        ok (s.setBase b { s.bases[b] with tap := Fin.ofNat 8 tap.toNat, modulus := modulus })
      else refuse s .timebaseBusy)

/-- SET_TIMEBASE (R90). -/
def execSetTimebase (f : Frame) (base tap : Byte) (modulus : Word16) (s : State) : Host.Outcome State Fault Refusal :=
  .next (s.serve .setTimebase f (setTimebaseBlock base tap modulus))

/-- START_TIMEBASE taken (R91, R94): RUNNING with counter, serial and divider 0, then the run notice. -/
def State.startBase (s : State) (b : BaseIx) : State :=
  (s.setBase b { s.bases[b] with state := .running, counter := 0, serial := 0, divider := 0 }).runNotice
    (fun c => decide (c = b))

/-- What the Time Base Unit does with START_TIMEBASE (R91). -/
def startTimebaseBlock (base : Byte) (s : State) : Answer :=
  withBase s base (fun b =>
    if s.bases[b].state ≠ .stopped then refuse s .wrongState
    else if s.ref.supervision ≠ .normal then refuse s .faulted
    else ok (s.startBase b))

/-- START_TIMEBASE (R91). -/
def execStartTimebase (f : Frame) (base : Byte) (s : State) : Host.Outcome State Fault Refusal :=
  .next (s.serve .startTimebase f (startTimebaseBlock base))

/-- STOP_TIMEBASE taken (R92, R94): STOPPED, and the stop notice when the base was RUNNING. -/
def State.stopBase (s : State) (b : BaseIx) : State :=
  let s' := s.setBase b { s.bases[b] with state := .stopped }
  if s.bases[b].state = .running then s'.stopNotice (fun c => decide (c = b)) else s'

/-- What the Time Base Unit does with STOP_TIMEBASE (R92). -/
def stopTimebaseBlock (base : Byte) (s : State) : Answer :=
  withBase s base (fun b =>
    if s.bases[b].state = .stopped then refuse s .wrongState
    else ok (s.stopBase b) [baseStateCode s.bases[b].state])

/-- STOP_TIMEBASE (R92). -/
def execStopTimebase (f : Frame) (base : Byte) (s : State) : Host.Outcome State Fault Refusal :=
  .next (s.serve .stopTimebase f (stopTimebaseBlock base))

/-- READ_TIMEBASE's payload (R93, R184). -/
def TimeBase.payload (t : TimeBase) : List Byte :=
  byteOf t.tap.val :: (be16 t.modulus ++ [baseStateCode t.state] ++ be16 t.serial ++ [byteOf t.subscribers.length])

/-- READ_TIMEBASE (R93). -/
def execReadTimebase (f : Frame) (base : Byte) (s : State) : Host.Outcome State Fault Refusal :=
  .next (s.serve .readTimebase f (fun s => withBase s base (fun b => ok s s.bases[b].payload)))

/-! ## Base ticks and boundaries -/

/-- The present base tick of a RUNNING base ends with the latest REFCLK rising edge: the divider has counted the 2^tap edges
of the tick (R83). -/
def TimeBase.tickDue (t : TimeBase) : Bool := decide (t.state = .running ∧ 2 ^ t.tap.val ≤ t.divider)

/-- A base has yet to count a tick that the latest REFCLK rising edge ends. -/
def State.anyTickDue (s : State) : Bool := allBases.any (fun b => s.bases[b].tickDue)

/-- A block has yet to take its part of the latest REFCLK rising edge: a base has a tick to count, or a pin channel a sample
to take. Until none has, there is no further edge and no loss (log entry 7). -/
def State.edgeOutstanding (s : State) : Bool := s.anyTickDue || allPins.any (fun p => s.pins[p].due)

/-- Give an event to the contexts of the measuring members of a subscriber set (R87, R104). -/
def State.handOn (s : State) (members : List SlotIx) (ev : Record → ContextEvent) : State :=
  members.foldl
    (fun s i =>
      match s.recordAt i with
      | none => s
      | some r =>
        if s.measures r then
          s.mapRecord i (fun r => { r with context := { r.context with inbox := r.context.inbox ++ [ev r] } })
        else s) s

/-- BASE_TICK_END (R83, R86): at the 2^tap-th edge of the tick the gate counter of a RUNNING base increases by one, short of
the modulus, and the divider begins the next tick. -/
def execBaseTickEnd (b : BaseIx) (s : State) : Host.Outcome State Fault Refusal :=
  .next (s.whileOperating (fun s =>
    let t := s.bases[b]
    if t.tickDue ∧ t.counter.toNat + 1 < t.modulus.toNat then
      s.setBase b { t with counter := t.counter + 1, divider := 0 }
    else s))

/-- GATE_BOUNDARY (R83, R86, R87): at the 2^tap-th edge of the tick the counter returns to 0, the serial advances, and the
boundary is handed to the measuring subscribers. -/
def execGateBoundary (b : BaseIx) (s : State) : Host.Outcome State Fault Refusal :=
  .next (s.whileOperating (fun s =>
    let t := s.bases[b]
    if t.tickDue ∧ t.modulus.toNat ≤ t.counter.toNat + 1 then
      (s.setBase b { t with counter := 0, serial := t.serial + 1, divider := 0 }).handOn t.subscribers
        (fun _ => .boundary (t.serial + 1))
    else s))

end Sys2Proof.Machine
end

