-- ==== Sys2Proof/Machine/Reference.lean ====
section
/-! DEFINITION. The Reference Checker (chapter 10): CLEAR_FAULT, REFERENCE_LOSS, REFERENCE_RETURN, GOOD_PERIOD. -/

namespace Sys2Proof.Machine

/-- Set the device supervision state. -/
def State.setSupervision (s : State) (v : Supervision) : State := { s with ref := { s.ref with supervision := v } }

/-! ## CLEAR_FAULT -/

/-- A STALLED base resumes: RUNNING, counter 0, serial kept, divider restarted (R99). -/
def TimeBase.resume (t : TimeBase) : TimeBase :=
  if t.state = .stalled then { t with state := .running, counter := 0, divider := 0 } else t

/-- CLEAR_FAULT taken (R161): NORMAL, the stalled bases resume, and one run notice names them. -/
def State.clearFaultTaken (s : State) : State :=
  (allBases.foldl (fun s b => s.setBase b s.bases[b].resume) (s.setSupervision .normal)).runNotice
    (fun b => decide (s.bases[b].state = .stalled))

/-- What the Reference Checker does with CLEAR_FAULT (R161). -/
def clearFaultBlock (s : State) : Answer :=
  match s.ref.supervision with
  | .faultLatched => ok s.clearFaultTaken [baseSetByte (fun b => decide (s.bases[b].state = .stalled))]
  | .referenceFault => refuse s .faulted
  | .normal => refuse s .wrongState

/-- CLEAR_FAULT (R161). -/
def execClearFault (f : Frame) (s : State) : Host.Outcome State Fault Refusal :=
  .next (s.serve .clearFault f clearFaultBlock)

/-! ## Loss and return -/

/-- The gap timer reaches 4 µs: the good-period count is set to 0 (R156). -/
def RefChecker.expire (c : RefChecker) : RefChecker := { c with gap := .expired, goodPeriods := 0 }

/-- A RUNNING base stalls, counter and serial kept (R97). -/
def TimeBase.stall (t : TimeBase) : TimeBase := if t.state = .running then { t with state := .stalled } else t

/-- A HOLD line's held flag is set by a loss (R148, R151). -/
def TripLine.lose (t : TripLine) : TripLine := if t.policy = .hold then { t with held := true } else t

/-- The three parts of a loss handed on (R159): the bases stall and one stop notice names them, HOLD lines are held, and
REFERENCE_LOST is posted, before or after the postings of the stop notice. -/
def State.handOnLoss (s : State) (postFirst : Bool) : State :=
  let named : BaseIx → Bool := fun b => decide (s.bases[b].state = .running)
  let s1 := allLines.foldl (fun s l => s.setLine l s.trips[l].lose) (s.setSupervision .referenceFault)
  let s2 := allBases.foldl (fun s b => s.setBase b s.bases[b].stall) s1
  if postFirst then (s2.postDevice .referenceLost).stopNotice named
  else (s2.stopNotice named).postDevice .referenceLost

/-- REFERENCE_LOSS (R156, R157, R159). In reset, and in REFERENCE_FAULT, nothing is handed on (R163, R157). The gap timer
reaches 4 µs only after every block has taken its part of the latest edge (R97; log entry 7). -/
def execReferenceLoss (postFirst : Bool) (s : State) : Host.Outcome State Fault Refusal :=
  .next
    (let s' := { s with ref := s.ref.expire }
     if s.inReset then s'
     else if s.edgeOutstanding then s
     else if s.ref.supervision = .referenceFault then s'
     else s'.handOnLoss postFirst)

/-- A REFCLK rising edge at the Reference Checker (R156): the gap timer restarts, and an edge that ends a period shorter
than 4 µs counts it, up to 1024; the first edge after a power-on reset or after a gap of 4 µs adds nothing. -/
def RefChecker.edge (c : RefChecker) : RefChecker :=
  match c.gap with
  | .running => { c with goodPeriods := min (c.goodPeriods + 1) 1024 }
  | .fresh => { c with gap := .running }
  | .expired => { c with gap := .running }

/-- A REFCLK rising edge advances the tick divider of a RUNNING base (R83). -/
def TimeBase.countEdge (t : TimeBase) : TimeBase :=
  if t.state = .running then { t with divider := t.divider + 1 } else t

/-- A REFCLK rising edge makes one sample due (R102). -/
def PinChannel.seeEdge (c : PinChannel) : PinChannel := { c with due := true }

/-- A REFCLK rising edge at every block that counts or samples on it: the tick dividers (R83), the pin channels (R102) and the
Reference Checker (R156). -/
def State.edgeArrives (s : State) : State :=
  let s1 := allBases.foldl (fun s b => s.setBase b s.bases[b].countEdge) s
  let s2 := allPins.foldl (fun s p => s.setChannel p s.pins[p].seeEdge) s1
  { s2 with ref := s.ref.edge }

/-- The detection of a return, at a count of 1024 in REFERENCE_FAULT (R158, R160). -/
def State.detectReturn (s : State) : State :=
  if s.ref.supervision = .referenceFault ∧ s.ref.goodPeriods = 1024 then
    (s.setSupervision .faultLatched).postDevice .referenceBack
  else s

/-- A REFCLK rising edge. In reset the Reference Checker alone counts it and no return is detected (R156, R163); out of reset it
follows the parts that every block takes of the edge before it (log entry 7). DESIGN CHOICE: the checker counts in reset also
while VDD is below 1.2 V, and the rise of VDD through 1.2 V keeps the count (log entry 24). -/
def State.refclkEdge (s : State) : State :=
  if s.inReset then { s with ref := s.ref.edge }
  else if s.edgeOutstanding then s
  else s.edgeArrives.detectReturn

/-- GOOD_PERIOD (R156, R83, R158): a REFCLK rising edge. The one that brings the count to 1024 in REFERENCE_FAULT is a return, as
REFERENCE_RETURN is, which names that case (log entry 8). -/
def execGoodPeriod (s : State) : Host.Outcome State Fault Refusal := .next s.refclkEdge

/-- REFERENCE_RETURN (R158, R160): the REFCLK rising edge at which the good-period count reaches 1024 in REFERENCE_FAULT. No
return is detected in reset (R163). -/
def execReferenceReturn (s : State) : Host.Outcome State Fault Refusal :=
  .next (s.whileOperating (fun s =>
    if s.ref.supervision = .referenceFault ∧ s.ref.edge.goodPeriods = 1024 then s.refclkEdge else s))

end Sys2Proof.Machine
end

