-- ==== Sys2Proof/Machine/Resets.lean ====
section
/-! DEFINITION. Device reset and the supply: POWER_ON_RESET, RESET_INPUT, RESET_RELEASE, VDD_AT_1V2. -/

namespace Sys2Proof.Machine

/-- POWER_ON_RESET (R168, R156): VDD is below its operating range; the gap timer and the good-period count restart and
the part is held in reset. -/
def execPowerOnReset (s : State) : Host.Outcome State Fault Refusal :=
  .next
    { s.enterReset with
      supply := if s.supply = .inRange then .belowRange else s.supply
      ref := { s.ref with gap := .fresh, goodPeriods := 0 } }

/-- RESET_INPUT (R168): RESET# held low for 1 µs. The gap timer and the good-period count run on (R156). -/
def execResetInput (s : State) : Host.Outcome State Fault Refusal := .next s.enterReset

/-- The supervision state at the release of a device reset (R163). -/
def supervisionAtRelease (goodPeriods : Nat) : Supervision := if goodPeriods = 1024 then .normal else .referenceFault

/-- RESET_RELEASE (R163, R168): every block at its reset values, the supervision state from the good-period count, and
VDD within its operating range. A part that is not in reset, or whose VDD is below 1.2 V, is not released. -/
def execResetRelease (s : State) : Host.Outcome State Fault Refusal :=
  .next
    (if s.inReset = true ∧ s.supply ≠ .below1V2 then
       { s.resetBlocks with
         inReset := false
         supply := .inRange
         ref := { s.ref with supervision := supervisionAtRelease s.ref.goodPeriods } }
     else s)

/-- VDD_AT_1V2 (R185): VDD rises through 1.2 V, or falls below it on its way down from below the operating range. The Reference
Checker's count and gap timer are kept (log entry 24). -/
def execVddAt1V2 (rising : Bool) (s : State) : Host.Outcome State Fault Refusal :=
  .next
    (if rising = true ∧ s.supply = .below1V2 then { s with supply := .belowRange }
     else if rising = false ∧ s.supply = .belowRange then { s with supply := .below1V2 }
     else s)

end Sys2Proof.Machine
end

