-- ==== Sys2Proof/Machine/SignalInputs.lean ====
section
/-! DEFINITION. Chapter Signal Inputs: SET_PIN, READ_PINS, and the events FIRST_SAMPLE, PIN_SAMPLE and
EDGE_PRODUCED. -/

namespace Sys2Proof.Machine

/-! ## SET_PIN -/

/-- What SET_PIN does to one member of the pin's subscriber set (R108). -/
def State.restartMember (s : State) (i : SlotIx) : State :=
  match s.recordAt i with
  | none => s
  | some r =>
    if isMeasuring r.state then (s.abandon i).enterArming i
    else if r.state = .violated then s.restartRecovery i r
    else s

/-- SET_PIN taken (R107, R108). -/
def State.setFilter (s : State) (p : PinIx) (setting : Fin 8) : State :=
  s.pins[p].subscribers.foldl State.restartMember
    (s.setChannel p { s.pins[p] with filter := setting, runCount := 0 })

/-- What the Input Front End does with SET_PIN (R107). -/
def setPinBlock (pin setting : Byte) (s : State) : Answer :=
  match indexOf 24 pin with
  | none => refuse s .badField [1]
  | some p =>
    match indexOf 8 setting with
    | none => refuse s .badField [2]
    | some n => ok (s.setFilter p n) [byteOf s.pins[p].subscribers.length]

/-- SET_PIN (R107, R108). -/
def execSetPin (f : Frame) (pin setting : Byte) (s : State) : Host.Outcome State Fault Refusal :=
  .next (s.serve .setPin f (setPinBlock pin setting))

/-! ## READ_PINS -/

/-- READ_PINS's payload (R110, R184). -/
def State.pinsPayload (s : State) : List Byte :=
  [s.pinLevels.extractLsb' 16 8, s.pinLevels.extractLsb' 8 8, s.pinLevels.extractLsb' 0 8] ++
    allPins.map (fun p => byteOf s.pins[p].subscribers.length)

/-- READ_PINS (R110). -/
def execReadPins (f : Frame) (s : State) : Host.Outcome State Fault Refusal :=
  .next (s.serve .readPins f (fun s => ok s s.pinsPayload))

/-! ## Samples and edges -/

/-- A channel at the first REFCLK rising edge after a reset: its level and its flag are set, its run count stays 0
(R103). An initialized channel has had its first sample, and a channel with no sample due has seen no edge (log entry 4). -/
def PinChannel.firstSample (c : PinChannel) (level : Bool) : PinChannel :=
  if c.due && !c.initialized then
    { c with raw := level, level := level, initialized := true, runCount := 0, due := false }
  else c

/-- FIRST_SAMPLE (R103). -/
def execFirstSample (levels : BitVec 24) (s : State) : Host.Outcome State Fault Refusal :=
  .next (s.whileOperating (fun s =>
    allPins.foldl (fun s p => s.setChannel p (s.pins[p].firstSample (levels.getLsbD p.val))) s))

/-- The sample that an initialized channel has due, when it produces no edge (R102); at the sample that would reach 2^n the
step is EDGE_PRODUCED, and this event does not happen (log entry 4). -/
def PinChannel.sample (c : PinChannel) (level : Bool) : PinChannel :=
  if !(c.due && c.initialized) then c
  else if level = c.level then { c with raw := level, runCount := 0, due := false }
  else if c.runCount + 1 < 2 ^ c.filter.val then { c with raw := level, runCount := c.runCount + 1, due := false }
  else c

/-- PIN_SAMPLE (R102). -/
def execPinSample (p : PinIx) (level : Bool) (s : State) : Host.Outcome State Fault Refusal :=
  .next (s.whileOperating (fun s => s.setChannel p (s.pins[p].sample level)))

/-- The direction of the next edge of a channel: the edges of one pin alternate (R104). -/
def PinChannel.nextEdge (c : PinChannel) : EdgeDir := if c.level then .fall else .rise

/-- The base-tick count of a time base (R88). -/
def TimeBase.stamp (t : TimeBase) : Stamp := { serial := t.serial, counter := t.counter }

/-- EDGE_PRODUCED (R102, R104, R105): with the sample due the run count reaches 2^n, the filtered level takes the sample's
value, and the edge is handed to the measuring subscribers, each with the stamp of its own time base. It follows the ticks
that the same REFCLK edge ends, so that the stamp is the count after them (R105; log entry 7). -/
def execEdgeProduced (p : PinIx) (s : State) : Host.Outcome State Fault Refusal :=
  .next (s.whileOperating (fun s =>
    let c := s.pins[p]
    if c.due = true ∧ c.initialized = true ∧ 2 ^ c.filter.val ≤ c.runCount + 1 ∧ s.anyTickDue = false then
      (s.setChannel p { c with raw := !c.level, level := !c.level, runCount := 0, due := false }).handOn c.subscribers
        (fun r => .edge c.nextEdge s.bases[r.fixed.base].stamp)
    else s))

end Sys2Proof.Machine
end

