-- ==== Sys2Proof/Machine/TripOutputs.lean ====
section
/-! DEFINITION. Chapter Trip Outputs: SET_TRIP, RELEASE_TRIP, FORCE_TRIP, READ_TRIPS. -/

namespace Sys2Proof.Machine

/-- What the Trip Unit does with SET_TRIP (R149). -/
def setTripBlock (line policy : Byte) (s : State) : Answer :=
  withLine s line (fun l =>
    match policyOfCode policy with
    | none => refuse s .badField [2]
    | some p =>
      let s' := s.setLine l { s.trips[l] with policy := p }
      ok s' [s'.lineByte l])

/-- SET_TRIP (R149). -/
def execSetTrip (f : Frame) (line policy : Byte) (s : State) : Host.Outcome State Fault Refusal :=
  .next (s.serve .setTrip f (setTripBlock line policy))

/-- What the Trip Unit does with RELEASE_TRIP (R152). -/
def releaseTripBlock (line : Byte) (s : State) : Answer :=
  withLine s line (fun l =>
    if s.ref.supervision ≠ .normal then refuse s .faulted
    else if s.trips[l].contributors ≠ [] then refuse s .contributors [byteOf s.trips[l].contributors.length]
    else
      let s' := s.setLine l { s.trips[l] with held := false, forced := false }
      ok s' [s'.lineByte l])

/-- RELEASE_TRIP (R152). -/
def execReleaseTrip (f : Frame) (line : Byte) (s : State) : Host.Outcome State Fault Refusal :=
  .next (s.serve .releaseTrip f (releaseTripBlock line))

/-- What the Trip Unit does with FORCE_TRIP (R150). -/
def forceTripBlock (line : Byte) (s : State) : Answer :=
  withLine s line (fun l =>
    let s' := s.setLine l { s.trips[l] with forced := true }
    ok s' [s'.lineByte l])

/-- FORCE_TRIP (R150). -/
def execForceTrip (f : Frame) (line : Byte) (s : State) : Host.Outcome State Fault Refusal :=
  .next (s.serve .forceTrip f (forceTripBlock line))

/-- READ_TRIPS's payload (R154, R184). -/
def State.tripsPayload (s : State) : List Byte :=
  allLines.flatMap (fun l =>
    [s.lineByte l, byteOf s.trips[l].contributors.length, lowestSlotByte s.trips[l].contributors])

/-- READ_TRIPS (R154). -/
def execReadTrips (f : Frame) (s : State) : Host.Outcome State Fault Refusal :=
  .next (s.serve .readTrips f (fun s => ok s s.tripsPayload))

end Sys2Proof.Machine
end

