-- ==== Sys2Proof/Machine/Dispatch.lean ====
section
/-! DEFINITION. One arm for each command and event of the K24S. -/

namespace Sys2Proof.Machine

/-- The effect of a command or event on everything but the queue of commands that wait. -/
def exec (i : Instr) (s : State) : Host.Outcome State Fault Refusal :=
  match i with
  | .nop f => Sys2Proof.Machine.execNop f s
  | .identify f => Sys2Proof.Machine.execIdentify f s
  | .readStatus f => Sys2Proof.Machine.execReadStatus f s
  | .repeatReply f => Sys2Proof.Machine.execRepeatReply f s
  | .create f o => Sys2Proof.Machine.execCreate f o s
  | .amend f o => Sys2Proof.Machine.execAmend f o s
  | .suspend f h => Sys2Proof.Machine.execSuspend f h s
  | .resume f h => Sys2Proof.Machine.execResume f h s
  | .clear f h => Sys2Proof.Machine.execClear f h s
  | .retire f h options => Sys2Proof.Machine.execRetire f h options s
  | .query f h options => Sys2Proof.Machine.execQuery f h options s
  | .list f => Sys2Proof.Machine.execList f s
  | .wipeTable f => Sys2Proof.Machine.execWipeTable f s
  | .readNotices f => Sys2Proof.Machine.execReadNotices f s
  | .ackNotice f h kinds => Sys2Proof.Machine.execAckNotice f h kinds s
  | .setTimebase f base tap modulus => Sys2Proof.Machine.execSetTimebase f base tap modulus s
  | .startTimebase f base => Sys2Proof.Machine.execStartTimebase f base s
  | .stopTimebase f base => Sys2Proof.Machine.execStopTimebase f base s
  | .readTimebase f base => Sys2Proof.Machine.execReadTimebase f base s
  | .setPin f pin setting => Sys2Proof.Machine.execSetPin f pin setting s
  | .readPins f => Sys2Proof.Machine.execReadPins f s
  | .setTrip f line policy => Sys2Proof.Machine.execSetTrip f line policy s
  | .releaseTrip f line => Sys2Proof.Machine.execReleaseTrip f line s
  | .forceTrip f line => Sys2Proof.Machine.execForceTrip f line s
  | .readTrips f => Sys2Proof.Machine.execReadTrips f s
  | .clearFault f => Sys2Proof.Machine.execClearFault f s
  | .resetDevice f => Sys2Proof.Machine.execResetDevice f s
  | .frameBegin => Sys2Proof.Machine.execFrameBegin s
  | .emptyFrame => Sys2Proof.Machine.execEmptyFrame s
  | .frameRefused bytes => Sys2Proof.Machine.execFrameRefused bytes s
  | .firstSample levels => Sys2Proof.Machine.execFirstSample levels s
  | .edgeProduced pin => Sys2Proof.Machine.execEdgeProduced pin s
  | .gateBoundary base => Sys2Proof.Machine.execGateBoundary base s
  | .edgeTaken slot => Sys2Proof.Machine.execEdgeTaken slot s
  | .boundaryTaken slot => Sys2Proof.Machine.execBoundaryTaken slot s
  | .silenceLimit slot => Sys2Proof.Machine.execSilenceLimit slot s
  | .observationTaken h => Sys2Proof.Machine.execObservationTaken h s
  | .referenceLoss postFirst => Sys2Proof.Machine.execReferenceLoss postFirst s
  | .referenceReturn => Sys2Proof.Machine.execReferenceReturn s
  | .storageChange slot fault => Sys2Proof.Machine.execStorageChange slot fault s
  | .scrubberVisit => Sys2Proof.Machine.execScrubberVisit s
  | .mismatchReport h => Sys2Proof.Machine.execMismatchReport h s
  | .powerOnReset => Sys2Proof.Machine.execPowerOnReset s
  | .resetInput => Sys2Proof.Machine.execResetInput s
  | .resetRelease => Sys2Proof.Machine.execResetRelease s
  | .pinSample pin level => Sys2Proof.Machine.execPinSample pin level s
  | .baseTickEnd base => Sys2Proof.Machine.execBaseTickEnd base s
  | .goodPeriod => Sys2Proof.Machine.execGoodPeriod s
  | .vddAt1V2 rising => Sys2Proof.Machine.execVddAt1V2 rising s

end Sys2Proof.Machine
end

