-- ==== Sys2Proof/Machine/Lines.lean ====
section
/-! DEFINITION. The lines of the Command Port (R169, R170): what each edge of CS# and SCLK does, the bits taken from SDI and
their bytes, the level of SDO, and the command that the edges of a frame amount to. -/

namespace Sys2Proof.Machine

/-- An edge on a line of the port, a rising edge of SCLK with the level of SDI at it. -/
inductive LineEdge where
  | csFall
  | sclkRise (sdi : Bool)
  | sclkFall
  | csRise
  deriving DecidableEq, Repr

/-- The part with what its lines have done in the present frame: the levels taken from SDI, first one first, and the number of
falling edges of SCLK. They are no part of State, because a command of the queue is a whole frame (log entry 11). -/
structure PortLines where
  part : State
  taken : List Bool
  falls : Nat
  deriving DecidableEq, Repr

/-- Eight levels as a byte, most significant first (R169). -/
def byteOfBits (b7 b6 b5 b4 b3 b2 b1 b0 : Bool) : Byte :=
  flagBit b7 7 ||| flagBit b6 6 ||| flagBit b5 5 ||| flagBit b4 4 ||| flagBit b3 3 ||| flagBit b2 2 ||| flagBit b1 1 |||
    flagBit b0 0

/-- The whole bytes of the levels taken: eight rising edges of SCLK make one (R169), and the bits of a trailing byte that was
not completed are ignored (R170). -/
def bytesOfBits : List Bool → List Byte
  | b7 :: b6 :: b5 :: b4 :: b3 :: b2 :: b1 :: b0 :: t => byteOfBits b7 b6 b5 b4 b3 b2 b1 b0 :: bytesOfBits t
  | _ => []

/-- The levels that send a byte, most significant bit first (R169). -/
def bitsOfByte (b : Byte) : List Bool :=
  [b.getLsbD 7, b.getLsbD 6, b.getLsbD 5, b.getLsbD 4, b.getLsbD 3, b.getLsbD 2, b.getLsbD 1, b.getLsbD 0]

/-- Whether a frame is being received and the part is out of reset, so that the port takes SCLK (R169, R170). -/
def State.takesClock (s : State) : Bool := !s.inReset && decide (s.port.frame = .receiving)

/-- The state after a command; no command of the K24S ends in another outcome. -/
def State.afterCommand (s : State) (c : Instr) : State :=
  match exec c s with
  | .next t => t
  | .fault _ => s
  | .refused _ => s

/-- A rising edge of SCLK while a frame is received: the level of SDI is taken, and the inbound byte count counts the whole bytes
that the levels taken make (R169, R170). -/
def PortLines.take (x : PortLines) (sdi : Bool) : PortLines :=
  let levels := x.taken ++ [sdi]
  { x with
    taken := levels
    part := { x.part with port := { x.part.port with rxCount := (bytesOfBits levels).length } } }

/-- What one edge on the lines does (R169, R170). A falling edge of CS# is FRAME_BEGIN; a rising edge of SCLK takes the level of
SDI, counting whole bytes, and a falling one moves SDO on, each while a frame is being received and not in reset; a rising edge of
CS# is the command that the whole bytes taken spell, EMPTY_FRAME, or FRAME_REFUSED. -/
def PortLines.edge (x : PortLines) : LineEdge → PortLines
  | .csFall =>
    if x.part.port.csLow then x else { part := x.part.afterCommand .frameBegin, taken := [], falls := 0 }
  | .sclkRise sdi => if x.part.takesClock then x.take sdi else x
  | .sclkFall => if x.part.takesClock then { x with falls := x.falls + 1 } else x
  | .csRise =>
    match commandOfFrame (bytesOfBits x.taken) with
    | some c => { part := x.part.afterCommand c, taken := [], falls := 0 }
    | none => x

/-- Bit k of what the port sends in a frame: the outbound stream, then FFh, most significant bit first (R169, R176). -/
def State.outboundBit (s : State) (k : Nat) : Bool := (s.outboundByte (k / 8)).getLsbD (7 - k % 8)

/-- The level of SDO, if the part drives it: the first bit from the falling edge of CS#, and the next after each falling edge of
SCLK (R169). DESIGN CHOICE: with CS# low out of reset and no frame begun, as when CS# is low at the release of a reset, it drives
the bits of the outbound stream as it stands, which after a reset is empty, so FFh (log entry 25). -/
def PortLines.sdo (x : PortLines) : Option Bool :=
  if x.part.sdoDriven then some (x.part.outboundBit x.falls) else none

end Sys2Proof.Machine
end

