-- ==== Sys2Proof/Safety.lean ====
section
/-! DEFINITION. What a sound state of the K24S is: the conditions that the spec says hold of the part at all times, each as a
property of one state, and the words in which the statements speak of a frame and its reply. -/

namespace Sys2Proof

/-! ## Fields that pass the checks -/

/-- The amendable fields are a set that passes the checks of R13 for a kind and a oneshot flag (R8, R123). The bounds on settle,
trip mask and notice mask, and the upper bounds of 15, are those of the fields' own types. -/
def Limits.fit (a : Limits) (k : Kind) (oneshot : Bool) : Prop :=
  a.lo.toNat ≤ a.hi.toNat ∧ a.margin.toNat ≤ (a.hi.toNat - a.lo.toNat) / 2 ∧ 1 ≤ a.tolerance.toNat ∧
    1 ≤ a.recoveryCount.toNat ∧ 1 ≤ a.silenceLimit.toNat ∧ (k = .duty → a.hi.toNat ≤ 1000) ∧
    (k = .level → a.hi.toNat ≤ 1 ∧ a.margin = 0) ∧
    (oneshot = true → a.tolerance = 1 ∧ a.recoveryCount = 1 ∧ a.tripMask = 0)

/-- The fixed fields pass the checks of R13: the sense is one that R7 gives for the kind, and the contract is not both oneshot and
latching. -/
def Fixed.fit (f : Fixed) : Prop :=
  (f.kind = .count → f.sense ≠ 0) ∧ (f.kind = .level → f.sense = 0) ∧
    (f.kind ≠ .count → f.kind ≠ .level → f.sense = 1 ∨ f.sense = 2) ∧ ¬ (f.oneshot = true ∧ f.latching = true)

end Sys2Proof

namespace Sys2Proof.Machine

/-! ## Frames and replies -/

/-- The port is receiving a frame and the part is out of reset, so that a rising edge of CS# ends a frame (R170). -/
def State.receiving (s : State) : Prop := s.inReset = false ∧ s.port.frame = .receiving

/-- A state right after a frame of `rx` whole bytes has ended with a reply: the port alone has changed (R170, R174). -/
def State.replied (s : State) (rx : Nat) (r : Reply) : State :=
  { s with port := { s.port with frame := .idle, csLow := false, rxCount := rx, reply := some r } }

/-- The reply that a state holds after a frame of `rx` whole bytes, and the port as the end of the frame leaves it. -/
def State.answered (s t : State) (rx : Nat) (r : Reply) : Prop :=
  t.port = { s.port with frame := .idle, csLow := false, rxCount := rx, reply := some r }

/-- Everything but the contract table, the pending observations, the notice queue and the trip lines is as it was: what the
Table Controller's own claims leave alone. -/
def State.sameOutsideTable (s t : State) : Prop :=
  t.bases = s.bases ∧ t.pins = s.pins ∧ t.ref = s.ref ∧ t.scrub = s.scrub ∧ t.supply = s.supply ∧
    t.inReset = s.inReset ∧ t.pending = s.pending

/-! ## Sets -/

/-- Every subscriber set and contributor set is in canonical form, so holds no duplicates, and no pin's set has more than 8
members (R89, R106, R146). -/
def State.setsCanonical (s : State) : Prop :=
  (∀ b : BaseIx, SlotSet.Canonical s.bases[b].subscribers) ∧
  (∀ p : PinIx, SlotSet.Canonical s.pins[p].subscribers ∧ s.pins[p].subscribers.length ≤ 8) ∧
  (∀ l : LineIx, SlotSet.Canonical s.trips[l].contributors)

/-- The subscriber sets hold exactly the slots of the LIVE contracts that are not CORRUPT and name the base or the pin
(R89, R106). -/
def State.subscribersExact (s : State) : Prop :=
  (∀ (b : BaseIx) (i : SlotIx), i ∈ s.bases[b].subscribers ↔
    ∃ r, s.recordAt i = some r ∧ r.state ≠ .corrupt ∧ r.fixed.base = b) ∧
  (∀ (p : PinIx) (i : SlotIx), i ∈ s.pins[p].subscribers ↔
    ∃ r, s.recordAt i = some r ∧ r.state ≠ .corrupt ∧ r.fixed.pin = p)

/-- A contract contributes to a line when it is VIOLATED with the line in its trip mask, or CORRUPT (R146). -/
def Record.contributes (r : Record) (l : LineIx) : Prop :=
  (r.state = .violated ∧ r.limits.tripMask.getLsbD l.val = true) ∨ r.state = .corrupt

/-- The contributor sets hold exactly the slots of the contracts that contribute (R146). -/
def State.contributorsExact (s : State) : Prop :=
  ∀ (l : LineIx) (i : SlotIx), i ∈ s.trips[l].contributors ↔ ∃ r, s.recordAt i = some r ∧ r.contributes l

/-! ## The notice queue -/

/-- Whether two entries have different owners. -/
def NoticeEntry.differ : NoticeEntry → NoticeEntry → Prop
  | .contract i _ _, .contract j _ _ => i ≠ j
  | .device _, .device _ => False
  | _, _ => True

/-- An entry that holds at least one kind. -/
def NoticeEntry.nonempty : NoticeEntry → Prop
  | .contract _ _ ks => ks ≠ 0
  | .device ks => ks ≠ 0

/-- At most one entry for each owner, none of them empty; a FREE slot has no entry and a DRAINING slot has one
(R132, R134, R19). -/
def State.noticesSound (s : State) : Prop :=
  s.notices.Pairwise NoticeEntry.differ ∧ (∀ e ∈ s.notices, e.nonempty) ∧
  (∀ i : SlotIx, s.slots[i].body = .free → s.hasEntry i = false) ∧
  (∀ i : SlotIx, s.slots[i].body = .draining → s.hasEntry i = true)

/-- Every entry of a slot carries the slot's generation (R132, R19). -/
def State.entriesCurrent (s : State) : Prop :=
  ∀ (i : SlotIx) (g : Byte) (ks : BitVec 7), .contract i g ks ∈ s.notices → g = s.slots[i].generation

/-! ## The time bases, the checker, reset, the port -/

/-- A base's fields lie in their ranges, no tick takes more than 2^tap REFCLK edges, and it is RUNNING only in NORMAL and STALLED
only outside NORMAL (R83 to R85). -/
def State.basesSound (s : State) : Prop :=
  ∀ b : BaseIx, 16 ≤ s.bases[b].modulus.toNat ∧
    (s.bases[b].state = .running → s.ref.supervision = .normal ∧
      s.bases[b].counter.toNat < s.bases[b].modulus.toNat ∧ s.bases[b].divider ≤ 2 ^ s.bases[b].tap.val) ∧
    (s.bases[b].state = .stalled → s.ref.supervision ≠ .normal)

/-- The good-period count stays at most 1024; outside reset it is 1024 in NORMAL and FAULT_LATCHED and below 1024 in
REFERENCE_FAULT, so that no return goes undetected; and it is 0 while the gap timer stands at 4 µs or has seen no edge since
a power-on reset (R156 to R158, R163). -/
def State.checkerSound (s : State) : Prop :=
  s.ref.goodPeriods ≤ 1024 ∧
  (s.inReset = false → (s.ref.goodPeriods = 1024 ↔ s.ref.supervision ≠ .referenceFault)) ∧
  (s.ref.gap ≠ .running → s.ref.goodPeriods = 0)

/-- While the part is in reset every block but the checker holds its reset values and the port is idle and empty; and a part
whose VDD is not in its operating range is in reset (R168, R138, R155). -/
def State.heldInReset (s : State) : Prop :=
  (s.inReset = true → s = { s.resetBlocks with inReset := true }) ∧ (s.supply ≠ .inRange → s.inReset = true)

/-- A frame is being received only while CS# is low and the part is out of reset (R169, R170). -/
def State.portSound (s : State) : Prop := s.port.frame = .receiving → s.port.csLow = true ∧ s.inReset = false

/-! ## Records -/

/-- The accumulators and the silence count of a context lie in their ranges (R59). -/
def Context.bounded (c : Context) : Prop :=
  c.ticks ≤ 1048560 ∧ c.count ≤ 8388608 ∧ c.active ≤ 1048560 ∧ c.silence ≤ 14

/-- The counters and flags of a record lie in their ranges (R9, R10, R59) and fit its state: strikes stand only in SUSPECT, a
recovery run and a recovered flag only in VIOLATED, and never both (R35 to R39, R45); a CORRUPT record keeps what it had
(R51). -/
def Record.bounded (r : Record) : Prop :=
  r.strikes ≤ 14 ∧ r.recoveryRun ≤ 14 ∧ r.settleRemaining ≤ 7 ∧ r.stats.observations ≤ 65535 ∧
    r.stats.outOfWindow ≤ r.stats.observations ∧ (r.dependents ≤ 63 ∧ r.context.bounded) ∧
    (r.state ≠ .suspect → r.state ≠ .corrupt → r.strikes = 0) ∧
    (r.state ≠ .violated → r.state ≠ .corrupt → r.recoveryRun = 0 ∧ r.recovered = false) ∧
    (r.recovered = true → r.recoveryRun = 0)

/-- The counters of every record lie in their ranges. -/
def State.countersBounded (s : State) : Prop := ∀ i r, s.recordAt i = some r → r.bounded

/-- The fields of every record, with the limits in force and those staged, are sets that pass R13 (R8, R13, R123). -/
def State.limitsFit (s : State) : Prop :=
  ∀ i r, s.recordAt i = some r → r.fixed.fit ∧ r.limits.fit r.fixed.kind r.fixed.oneshot ∧
    ∀ a, r.staged = some a → a.fit r.fixed.kind r.fixed.oneshot

/-- A context fits a kind: its phase is one of the kind's, its silence count is 0 outside the waiting phases, its opening timestamp
is there exactly between the opening edge and the end of the measurement, and the accumulators that the phase or the kind does not
use are 0 (R59, R62). -/
def Context.fit (c : Context) (k : Kind) : Prop :=
  (match k with
   | .meanPeriod => c.phase ≠ .sampling
   | .duty => c.phase ≠ .sampling
   | .period => c.phase = .waitGate ∨ c.phase = .opening ∨ c.phase = .counting
   | .pulse => c.phase = .waitGate ∨ c.phase = .opening ∨ c.phase = .counting
   | .count => c.phase = .waitGate ∨ c.phase = .counting
   | .level => c.phase = .waitGate ∨ c.phase = .sampling) ∧
  (c.phase ≠ .opening → c.phase ≠ .closing → ¬ (c.phase = .counting ∧ (k = .period ∨ k = .pulse)) → c.silence = 0) ∧
  (c.opening = none ↔ c.phase = .waitGate ∨ c.phase = .opening ∨ k = .count ∨ k = .level) ∧
  (c.phase = .waitGate ∨ c.phase = .opening → c.ticks = 0 ∧ c.count = 0 ∧ c.active = 0) ∧
  (k ≠ .duty → c.active = 0) ∧ (k = .period ∨ k = .pulse ∨ k = .level → c.count = 0) ∧
  (k = .count ∨ k = .level → c.ticks = 0)

/-- The context of every record fits its kind. -/
def State.contextsFit (s : State) : Prop := ∀ i r, s.recordAt i = some r → r.context.fit r.fixed.kind

/-- Every record's stored check code agrees with its fields (R12). -/
def State.codesAgree (s : State) : Prop := ∀ i r, s.recordAt i = some r → s.codeAgrees i r = true

/-! ## The contract state machine -/

/-- The number of LIVE contracts that name the contract in a slot as their parent (R114). -/
def State.dependentsOf (s : State) (i : SlotIx) : Nat := allSlots.countP (fun d => s.dependsOn d i)

/-- The relation of parents and dependents: every parent named is LIVE, is not oneshot, and heads at most two contracts
upward; and every dependents count is the number of contracts that name the contract (R112 to R114). -/
def State.treeSound (s : State) : Prop :=
  (∀ i r h, s.recordAt i = some r → r.fixed.parent = some h →
    ∃ p, s.contractAt h = some p ∧ p.fixed.oneshot = false ∧
      ∀ g, p.fixed.parent = some g → ∃ q, s.contractAt g = some q ∧ q.fixed.parent = none) ∧
  (∀ i r, s.recordAt i = some r → r.dependents = s.dependentsOf i)

/-- The suspended flag of a record stands only in SUSPENDED and in CORRUPT (R47). -/
def Record.suspensionFits (r : Record) : Prop := r.suspended = true → r.state = .suspended ∨ r.state = .corrupt

/-- The state of every contract fits its conditions: a measuring or blocked contract stands as the blocking recomputation
gives, and no contract but a SUSPENDED or a CORRUPT one has its suspended flag set (R44, R47). -/
def State.statesFit (s : State) : Prop :=
  ∀ i r, s.recordAt i = some r →
    (isMeasuring r.state = true → s.blockingResult r = .arming) ∧
    (isBlocked r.state = true → s.blockingResult r = r.state) ∧
    r.suspensionFits

/-- A contract that does not measure has no measurement in flight and no pending observation (R31). -/
def State.idleUnlessMeasuring (s : State) : Prop :=
  (∀ i r, s.recordAt i = some r → s.measures r = false → r.context = Context.initial) ∧
  (∀ o ∈ s.observations, ∃ r, s.contractAt o.handle = some r ∧ s.measures r = true)

/-! ## Outputs -/

/-- A TRIP line is released exactly when it has no reason to be asserted (R145). -/
def State.lineReleased (s : State) (l : LineIx) : Prop :=
  s.trips[l].contributors = [] ∧ s.trips[l].held = false ∧ s.trips[l].forced = false ∧ s.ref.supervision = .normal

/-! ## The words of the statements -/

/-- The contract in slot j stands below the contract in slot i in its tree: as a dependent, or as a dependent of a dependent
(R113, R118). -/
def State.below (s : State) (j i : SlotIx) : Prop :=
  s.dependsOn j i = true ∨ ∃ k : SlotIx, s.dependsOn j k = true ∧ s.dependsOn k i = true

/-- The pending observations of a slot, in the order in which they were formed (R26). -/
def State.observationsOf (s : State) (i : SlotIx) : List Observation :=
  s.observations.filter (fun o => decide (o.handle.slot = i))

/-- The owner of an entry of the notice queue: a slot, or the device (R132). -/
def NoticeEntry.owner : NoticeEntry → Option SlotIx
  | .contract i _ _ => some i
  | .device _ => none

/-- The owners of the entries of the notice queue, in the order in which they joined, oldest first (R132). -/
def State.owners (s : State) : List (Option SlotIx) := s.notices.map NoticeEntry.owner

/-- The next command of the queue is one that can take entries out of the notice queue: ACK_NOTICE or WIPE_TABLE (R132). -/
def State.takesEntriesOut (s : State) : Prop :=
  (∃ f h kinds rest, s.pending = .ackNotice f h kinds :: rest) ∨ ∃ f rest, s.pending = .wipeTable f :: rest

/-- A slot stands: its generation and record, the kinds of its entry in the notice queue, and its pending observations are as they
were. -/
def State.stands (s t : State) (j : SlotIx) : Prop :=
  t.slots[j] = s.slots[j] ∧ contractKinds j t.notices = contractKinds j s.notices ∧
    t.observationsOf j = s.observationsOf j

/-- A claim on the contract in slot i has left alone everything but the port, the trip lines, slot i and the slots below it. Every
generation and the kinds of the device entry are kept. -/
def State.onlyBelow (s t : State) (i : SlotIx) : Prop :=
  s.sameOutsideTable t ∧ deviceKinds t.notices = deviceKinds s.notices ∧
  (∀ j : SlotIx, t.slots[j].generation = s.slots[j].generation) ∧
  (∀ j : SlotIx, j ≠ i → ¬ s.below j i → s.stands t j)

/-- A claim on the contract in slot i has left every other slot as it was. -/
def State.onlySlot (s t : State) (i : SlotIx) : Prop :=
  s.sameOutsideTable t ∧ deviceKinds t.notices = deviceKinds s.notices ∧
  t.slots[i].generation = s.slots[i].generation ∧ (∀ j : SlotIx, j ≠ i → s.stands t j)

/-- The entry of a slot holds what it held and, when `k` is not empty, the kinds of `k` (R134). -/
def State.posted (s t : State) (i : SlotIx) (k : BitVec 7) : Prop :=
  contractKinds i t.notices =
    if k = 0 then contractKinds i s.notices else some ((contractKinds i s.notices).getD 0 ||| k)

/-- The bit of an optional notice kind when the notice mask holds it, else none (R57). -/
def askedFor (mask : BitVec 3) (bit : BitVec 7) : BitVec 7 := mask.setWidth 7 &&& bit

/-- No observation of a slot is pending. -/
def State.nonePending (s : State) (i : SlotIx) : Prop := ∀ o ∈ s.observations, o.handle ≠ s.handleOf i

/-- The slots other than i belong to the lines as before, and no line's policy or forced flag has changed. -/
def State.linesOfOthersKept (s t : State) (i : SlotIx) : Prop :=
  ∀ l : LineIx, t.trips[l].policy = s.trips[l].policy ∧ t.trips[l].forced = s.trips[l].forced ∧
    ∀ j : SlotIx, j ≠ i → (j ∈ t.trips[l].contributors ↔ j ∈ s.trips[l].contributors)

/-- The record after an entry into ARMING (R46): the staged amendment in force, settling anew, at WAIT_GATE. The stored
check code is left open. -/
def Record.armedFrom (r : Record) (code : Word16) : Record :=
  { r with
    limits := r.staged.getD r.limits
    staged := none
    checkCode := code
    settleRemaining := (r.staged.getD r.limits).settle.toNat
    strikes := 0
    context := Context.initial
    state := .arming }

/-- The contract in slot i has entered ARMING with no change but those of R46, and its check code agrees with its fields if it
did before. -/
def State.armed (s t : State) (i : SlotIx) (r : Record) : Prop :=
  ∃ r', t.recordAt i = some r' ∧ r' = r.armedFrom r'.checkCode ∧
    (s.codeAgrees i r = true → t.codeAgrees i r' = true)

/-- The record of a contract that entered ARMING and was then made DORMANT in the same claim (R45, R46). -/
def Record.dormantFrom (r : Record) (code : Word16) : Record := { r.armedFrom code with state := .dormant }

/-- The slots on which a command acts of its own accord beside the one that it names: the subscribers of the bases it takes out of
RUNNING (R94) and those of the pin it sets (R108). -/
def State.claims (s : State) (c : Instr) (j : SlotIx) : Prop :=
  match c with
  | .stopTimebase _ base => ∃ b : BaseIx, base.toNat = b.val ∧ j ∈ s.bases[b].subscribers
  | .referenceLoss _ => ∃ b : BaseIx, s.bases[b].state = .running ∧ j ∈ s.bases[b].subscribers
  | .setPin _ pin _ => ∃ p : PinIx, pin.toNat = p.val ∧ j ∈ s.pins[p].subscribers
  | _ => False

/-- A health change of the contract in slot k to unhealthy reaches the contract in slot i (R116): k is healthy and is the parent, or
heads the parent, which is healthy too. -/
def State.reaches (s : State) (k i : SlotIx) : Prop :=
  (∃ q, s.recordAt k = some q ∧ isHealthy q.state = true) ∧
    (s.dependsOn i k = true ∨
      ∃ j : SlotIx, (∃ q, s.recordAt j = some q ∧ isHealthy q.state = true) ∧ s.dependsOn i j = true ∧
        s.dependsOn j k = true)

/-- The direction of the first edge that waits in an inbox, if one does. -/
def firstEdge : List ContextEvent → Option EdgeDir
  | [] => none
  | .edge dir _ :: _ => some dir
  | .boundary _ :: t => firstEdge t

/-- The record of a contract set aside in a blocked state (R45): measurement and strikes gone if it measured. -/
def Record.asideIn (r : Record) (c : ContractState) : Record :=
  { r with
    state := c
    strikes := if isMeasuring r.state then 0 else r.strikes
    context := if isMeasuring r.state then Context.initial else r.context }

end Sys2Proof.Machine

namespace Sys2Proof
open Machine

/-! ### Operand fields -/

/-- The checks on fields 8 to 15 that need the operands alone (R122): whether the field of a number fails. -/
def LimitBytes.setFails (a : LimitBytes) : Nat → Prop
  | 8 => a.hi.toNat < a.lo.toNat
  | 9 => (a.hi.toNat - a.lo.toNat) / 2 < a.margin.toNat
  | 10 => a.tolerance = 0 ∨ 15 < a.tolerance.toNat
  | 11 => a.recoveryCount = 0 ∨ 15 < a.recoveryCount.toNat
  | 12 => a.silenceLimit = 0 ∨ 15 < a.silenceLimit.toNat
  | 13 => 7 < a.settle.toNat
  | 14 => 15 < a.tripMask.toNat
  | 15 => 7 < a.noticeMask.toNat
  | _ => False

/-- The checks on fields 7 to 14 against a kind and a oneshot flag (R123). -/
def LimitBytes.kindFails (a : LimitBytes) (k : Kind) (oneshot : Bool) : Nat → Prop
  | 7 => k = .level ∧ 1 < a.lo.toNat
  | 8 => (k = .duty ∧ 1000 < a.hi.toNat) ∨ (k = .level ∧ 1 < a.hi.toNat)
  | 9 => k = .level ∧ a.margin ≠ 0
  | 10 => oneshot = true ∧ a.tolerance ≠ 1
  | 11 => oneshot = true ∧ a.recoveryCount ≠ 1
  | 14 => oneshot = true ∧ a.tripMask ≠ 0
  | _ => False

/-- The amendable fields are those that the operand bytes spell (R8, R184). -/
def LimitBytes.gives (b : LimitBytes) (a : Limits) : Prop :=
  a.lo = b.lo ∧ a.hi = b.hi ∧ a.margin = b.margin ∧ a.tolerance.setWidth 8 = b.tolerance ∧
    a.recoveryCount.setWidth 8 = b.recoveryCount ∧ a.silenceLimit.setWidth 8 = b.silenceLimit ∧
    a.settle.setWidth 8 = b.settle ∧ a.tripMask.setWidth 8 = b.tripMask ∧ a.noticeMask.setWidth 8 = b.noticeMask

/-- Whether the sense code is one that R7 and R184 give for the kind code. -/
def CreateBytes.senseFits (o : CreateBytes) : Prop :=
  (o.kind.toNat ≤ 3 ∧ (o.sense = 1 ∨ o.sense = 2)) ∨ (o.kind = 4 ∧ 1 ≤ o.sense.toNat ∧ o.sense.toNat ≤ 3) ∨
    (o.kind = 5 ∧ o.sense = 0)

/-- Whether a field of CREATE fails (R13), by its number. -/
def CreateBytes.fieldFails (o : CreateBytes) : Nat → Prop
  | 1 => 23 < o.pin.toNat
  | 2 => 5 < o.kind.toNat
  | 3 => ¬ o.senseFits
  | 4 => 3 < o.base.toNat
  | 5 => 7 < o.flags.toNat ∨ (o.flags.getLsbD 0 = true ∧ o.flags.getLsbD 1 = true)
  | 6 => o.parent.slot ≠ 0xFF ∧ 63 < o.parent.slot.toNat
  | n => o.limits.setFails n ∨ ∃ k : Kind, kindCode k = o.kind ∧ o.limits.kindFails k (o.flags.getLsbD 0) n

/-- Every field of CREATE passes R13. -/
def CreateBytes.passes (o : CreateBytes) : Prop := ∀ n : Fin 16, 1 ≤ n.val → ¬ o.fieldFails n.val

/-- Whether a field of AMEND after the handle fails in the first pass (R122), by its number. -/
def AmendBytes.fieldFails (o : AmendBytes) : Nat → Prop
  | 2 => o.mode ≠ 1 ∧ o.mode ≠ 2
  | n => o.limits.setFails n

/-- The six commands that name one contract by a handle (R3), with the frame and the handle. -/
def Instr.handleCommand : Instr → Option (Frame × HandleBytes)
  | .amend f o => some (f, o.handle)
  | .suspend f h => some (f, h)
  | .resume f h => some (f, h)
  | .clear f h => some (f, h)
  | .retire f h _ => some (f, h)
  | .query f h _ => some (f, h)
  | _ => none

/-- Whether a later field of a handle command fails a check that needs the operands alone (R17, R22, R122). -/
def Instr.laterFieldFails (c : Instr) (n : Nat) : Prop :=
  match c with
  | .amend _ o => o.fieldFails n
  | .retire _ _ x => n = 2 ∧ 1 < x.toNat
  | .query _ _ x => n = 2 ∧ 1 < x.toNat
  | _ => False

end Sys2Proof

namespace Sys2Proof.Machine

/-- The parent operand of CREATE passes relation checks 1 and 2 (R14): no parent, or a LIVE contract of the generation named,
not oneshot, not DONE, not CORRUPT, and not itself a grandchild. -/
def State.parentAccepted (s : State) (o : CreateBytes) : Prop :=
  o.parent.slot = 0xFF ∨
  ∃ i : SlotIx, o.parent.slot.toNat = i.val ∧
    ∃ p, s.contractAt { slot := i, generation := o.parent.generation } = some p ∧
      p.fixed.oneshot = false ∧ p.state ≠ .done ∧ p.state ≠ .corrupt ∧ s.isGrandchild p = false

/-! ### Resets, notices of the bases -/

/-- The reset value of every register and set whose reset value the spec states, the Reference Checker's apart
(R25, R84, R101, R138, R144, R165, R170, R178). -/
def State.blocksAtReset (s : State) : Prop :=
  (∀ i : SlotIx, s.slots[i].generation = 0 ∧ s.slots[i].body = .free) ∧
  (∀ b : BaseIx, s.bases[b].tap = 0 ∧ s.bases[b].modulus = 1000 ∧ s.bases[b].state = .stopped ∧
    s.bases[b].counter = 0 ∧ s.bases[b].serial = 0 ∧ s.bases[b].subscribers = []) ∧
  (∀ p : PinIx, s.pins[p].filter = 2 ∧ s.pins[p].runCount = 0 ∧ s.pins[p].level = false ∧
    s.pins[p].initialized = false ∧ s.pins[p].subscribers = []) ∧
  (∀ l : LineIx, s.trips[l].policy = .follow ∧ s.trips[l].held = true ∧ s.trips[l].forced = false ∧
    s.trips[l].contributors = []) ∧
  s.notices = [.device 1] ∧ s.observations = [] ∧ s.scrub.position = 0 ∧ s.scrub.reports = [] ∧
  s.port.frame = .idle ∧ s.port.reply = none

/-- What a run notice naming bases does to the contract in slot i (R49, R50): a HELD subscriber enters DORMANT, with BLOCKED when
its mask asks, or ARMING; a VIOLATED one whose parent allows is at WAIT_GATE; any other, a SUSPENDED one among them, stands. -/
def State.runReaches (s t : State) (i : SlotIx) (r : Record) : Prop :=
  if r.state = .held then
    if s.parentAllows r = true then s.armed t i r ∧ s.posted t i 0
    else t.recordAt i = some { r with state := .dormant } ∧ s.posted t i (askedFor r.limits.noticeMask 4)
  else if r.state = .violated ∧ s.parentAllows r = true then
    t.recordAt i = some { r with context := Context.initial } ∧ s.posted t i 0
  else s.stands t i

/-- What a stop notice naming bases does to the contract in slot i (R49, R50): a measuring or DORMANT subscriber enters HELD, with
BLOCKED when its mask asks; a VIOLATED one is at WAIT_GATE; any other, a SUSPENDED one among them, stands. -/
def State.stopReaches (s t : State) (i : SlotIx) (r : Record) : Prop :=
  if isMeasuring r.state = true ∨ r.state = .dormant then
    t.recordAt i = some (r.asideIn .held) ∧ s.posted t i (askedFor r.limits.noticeMask 4) ∧
      (isMeasuring r.state = true → t.nonePending i)
  else if r.state = .violated then
    t.recordAt i = some { r with context := Context.initial } ∧ s.posted t i 0 ∧ t.nonePending i
  else s.stands t i

/-- What the cascade from a parent become unhealthy does to the contract in slot d (R116): a measuring one becomes DORMANT, with
BLOCKED when its mask asks; a VIOLATED one on a base that runs freezes; any other stands. -/
def State.cascadeSetsAside (s t : State) (d : SlotIx) (q : Record) : Prop :=
  if isMeasuring q.state = true then
    t.recordAt d = some (q.asideIn .dormant) ∧ s.posted t d (askedFor q.limits.noticeMask 4) ∧ t.nonePending d
  else if q.state = .violated ∧ t.baseRunning q = true then
    t.recordAt d = some { q with context := Context.initial } ∧ s.posted t d 0 ∧ t.nonePending d
  else s.stands t d

/-- What the cascade from a parent become healthy does to the contract in slot d (R117): a DORMANT one enters ARMING; a VIOLATED one
on a base that runs is at WAIT_GATE; any other stands. -/
def State.cascadeTakesUp (s t : State) (d : SlotIx) (q : Record) : Prop :=
  if q.state = .dormant then s.armed t d q ∧ s.posted t d 0
  else if q.state = .violated ∧ s.baseRunning q = true then
    t.recordAt d = some { q with context := Context.initial } ∧ s.posted t d 0
  else s.stands t d

/-- A byte shows a line: policy HOLD, held, forced and asserted in bits 0 to 3 (R184). -/
def State.lineShown (s : State) (l : LineIx) (b : Byte) : Prop :=
  b.getLsbD 0 = decide (s.trips[l].policy = .hold) ∧ b.getLsbD 1 = s.trips[l].held ∧
    b.getLsbD 2 = s.trips[l].forced ∧ (b.getLsbD 3 = true ↔ ¬ s.lineReleased l) ∧ b.toNat < 16

/-- The next command of the queue is not a change in storage (R164). -/
def State.storageHolds (s : State) : Prop :=
  ∀ (i : SlotIx) (x : StorageFault) (rest : List Instr), s.pending ≠ .storageChange i x :: rest

end Sys2Proof.Machine
end

