-- ==== Sys2Proof/WellFormed.lean ====
section
/-! DEFINITION. Which terms of `Instr` stand for something that can happen. -/

namespace Sys2Proof

/-- Every command of the port is well formed with any operand bytes: the owning block checks them. A refused frame is one
that R173 refuses: it has at least one whole byte (R170) and fails a check of R173. -/
def Instr.wellFormed : Instr → Bool
  | .frameRefused bytes => (Machine.frameRefusal bytes).isSome
  | _ => true

end Sys2Proof
end

