-- ==== Sys2Proof/Certificates/Slice0/Obligations.lean ====
section
/-! DEFINITION. The statements about the K24S, for the provers: the step, the invariants that every step keeps, the rules of the
whole machine, and what each command and event does. Where a statement rests on a choice of the model, its docstring
names the log entry. -/

open Sys2Proof Sys2Proof.Machine

/-! ## The step, reset, and the invariants -/

/-- A step carries out the command at the front of the queue on the state with the rest of the queue; on an empty queue the
block idles (log entry 3). -/
def Obligations.StepTakesTheFrontCommand : Prop :=
  (∀ (c : Instr) (rest : List Instr) (s : State),
    s.pending = c :: rest → step s = exec c { s with pending := rest }) ∧
  (∀ s : State, s.pending = [] → step s = .next s)

/-- Every command and event answers a next state in every state, and none touches the commands that wait: no command of the K24S
stops the part. -/
def Obligations.EveryCommandAnswers : Prop :=
  ∀ (c : Instr) (s : State), ∃ t, exec c s = .next t ∧ t.pending = s.pending

/-- The reset values that the spec states (R25, R84, R101, R138, R144, R165, R178), with the lines and ALERT# asserted. The part
starts out of reset, its supply in range, with no good period counted and so in REFERENCE_FAULT (R163; log entry 5). -/
def Obligations.ResetValues : Prop :=
  State.reset.blocksAtReset ∧ State.reset.inReset = false ∧ State.reset.supply = .inRange ∧
  State.reset.ref.goodPeriods = 0 ∧ State.reset.ref.supervision = .referenceFault ∧ State.reset.pending = [] ∧
  (∀ l : LineIx, State.reset.tripDrivenLow l = true) ∧ State.reset.alertDrivenLow = true

/-- Every invariant stated below holds of the state after reset. -/
def Obligations.SoundAtReset : Prop :=
  State.reset.setsCanonical ∧ State.reset.noticesSound ∧ State.reset.basesSound ∧ State.reset.checkerSound ∧
  State.reset.heldInReset ∧ State.reset.portSound ∧ State.reset.countersBounded ∧ State.reset.codesAgree ∧
  State.reset.subscribersExact ∧ State.reset.contributorsExact ∧ State.reset.treeSound ∧ State.reset.statesFit ∧
  State.reset.idleUnlessMeasuring ∧ State.reset.entriesCurrent ∧ State.reset.limitsFit ∧ State.reset.contextsFit

/-- Every step keeps every subscriber set and contributor set free of duplicates and in ascending order, and every pin's set at
most 8 members (R89, R106, R146). -/
def Obligations.SetsStayCanonical : Prop :=
  ∀ s t : State, s.setsCanonical → step s = .next t → t.setsCanonical

/-- Every step keeps the notice queue sound: one entry at most for each owner, no entry empty, no entry for a FREE slot and an
entry for every DRAINING slot; and every step but a change in storage keeps the generation of every entry that of its slot
(R132, R134, R19). Out of reset every entry keeps its place behind those that joined before it: at ACK_NOTICE and WIPE_TABLE entries
only leave, and at every other step new ones only join, at the tail (R132, R134). -/
def Obligations.NoticesStaySound : Prop :=
  ∀ s t : State, step s = .next t →
    (s.noticesSound → t.noticesSound ∧ (s.entriesCurrent → s.storageHolds → t.entriesCurrent)) ∧
    (s.inReset = false → t.inReset = false →
      (s.takesEntriesOut → t.owners.Sublist s.owners) ∧ (¬ s.takesEntriesOut → s.owners <+: t.owners))

/-- Every step keeps the time bases and the Reference Checker sound: a base RUNNING only in NORMAL with its counter below its
modulus and its tick within 2^tap REFCLK edges, a base STALLED only outside NORMAL, and the good-period count at 1024 exactly
when the supervision state is not REFERENCE_FAULT (R83, R85, R86, R156 to R158, R163; log entry 7). -/
def Obligations.BasesAndCheckerStaySound : Prop :=
  ∀ s t : State, s.basesSound → s.checkerSound → step s = .next t → t.basesSound ∧ t.checkerSound

/-- Every step keeps a part in reset at its reset values, a part out of its supply range in reset, and the port receiving only
while CS# is low and the part is out of reset (R168 to R170). That every block stands at its reset values while in reset, and
not from the release alone, is the model's choice (log entry 13), as are the values of the fields for which the spec states none
(log entry 2), that no sample is due in reset (log entry 7), and that no mismatch report outlives the entry into reset (log
entry 19). -/
def Obligations.ResetHoldsThePart : Prop :=
  ∀ s t : State, s.heldInReset → s.portSound → step s = .next t → t.heldInReset ∧ t.portSound

/-- Every step keeps the counters, the flags, the dependents count and the accumulators of every record in their ranges, and the
counters and flags fitting its state (R9, R10, R35, R36, R39, R45, R59). After a change in storage a number that would leave
its range is a free value within it (log entry 15). Every step but a change in storage keeps the fixed fields, the limits in force
and those staged sets that pass R13 (R8, R123), and keeps every context fitting its kind: a phase of the kind, a silence count of 0
outside the waiting phases, an opening timestamp exactly while a measurement is open, and 0 in every accumulator that is not in
use (R59, R62). -/
def Obligations.CountersStayBounded : Prop :=
  ∀ s t : State, step s = .next t →
    (s.countersBounded → t.countersBounded) ∧ (s.limitsFit → s.storageHolds → t.limitsFit) ∧
      (s.contextsFit → s.storageHolds → t.contextsFit)

/-- Every step but a change in storage keeps every record in agreement with its check code (R12, R164). -/
def Obligations.CheckCodesStayInAgreement : Prop :=
  ∀ s t : State, s.codesAgree → s.storageHolds → step s = .next t → t.codesAgree

/-- Every step but a change in storage keeps the subscriber sets exactly the slots of the LIVE contracts that are not CORRUPT and
name the base or pin (R89, R106). -/
def Obligations.SubscribersStayExact : Prop :=
  ∀ s t : State, s.subscribersExact → s.storageHolds → step s = .next t → t.subscribersExact

/-- Every step but a change in storage keeps the contributor sets exactly the slots of the contracts that contribute (R146). -/
def Obligations.ContributorsStayExact : Prop :=
  ∀ s t : State, s.contributorsExact → s.storageHolds → step s = .next t → t.contributorsExact

/-- Every step but a change in storage keeps the relation of parents and dependents sound: parents LIVE and not oneshot, chains
of at most three, every dependents count right (R112 to R114). -/
def Obligations.TreeStaysSound : Prop :=
  ∀ s t : State, s.treeSound → s.storageHolds → step s = .next t → t.treeSound

/-- Every step but a change in storage keeps every contract's state in agreement with its conditions: a measuring contract has a
RUNNING base, no suspension and a healthy parent or none; a blocked contract shows the first of its blocking conditions
(R44, R47). -/
def Obligations.StatesStayFit : Prop :=
  ∀ s t : State, s.statesFit → s.subscribersExact → s.treeSound → s.storageHolds → step s = .next t → t.statesFit

/-- Every step but a change in storage keeps a contract that does not measure, frozen ones among them, at WAIT_GATE with no
pending observation (R31, R54). -/
def Obligations.MeasurementEndsWithMeasuring : Prop :=
  ∀ s t : State, s.idleUnlessMeasuring → s.statesFit → s.subscribersExact → s.treeSound → s.storageHolds →
    step s = .next t → t.idleUnlessMeasuring

/-- Slots move only by their own commands. The generation advances by one at a CREATE into a FREE slot and goes to 0 at a device
reset, and stands at every other step; a slot becomes LIVE only by CREATE from FREE, DRAINING only by RETIRE from LIVE, and
FREE only by RETIRE, ACK_NOTICE, WIPE_TABLE or a reset; and the fixed fields of a contract never change while it is LIVE
(R1, R2, R6). A change in storage is no command. -/
def Obligations.SlotsMoveByTheirCommands : Prop :=
  ∀ (s t : State) (i : SlotIx), s.storageHolds → step s = .next t →
    (t.slots[i].generation = s.slots[i].generation ∨
      (∃ f o rest, s.pending = .create f o :: rest ∧ s.slots[i].body = .free ∧ t.slots[i].body.isLive = true ∧
        t.slots[i].generation = s.slots[i].generation + 1) ∨
      (t.slots[i] = { generation := 0, body := .free } ∧ (s.inReset = true ∨ t.inReset = true))) ∧
    (s.slots[i].body.isLive = false → t.slots[i].body.isLive = true →
      s.slots[i].body = .free ∧ ∃ f o rest, s.pending = .create f o :: rest) ∧
    (s.slots[i].body ≠ .draining → t.slots[i].body = .draining →
      s.slots[i].body.isLive = true ∧ s.hasEntry i = true ∧
        ∃ f h x rest, s.pending = .retire f h x :: rest ∧ h.slot.toNat = i.val) ∧
    (s.slots[i].body ≠ .free → t.slots[i].body = .free →
      (s.inReset = true ∨ t.inReset = true) ∨ (∃ f rest, s.pending = .wipeTable f :: rest) ∨
      (s.slots[i].body.isLive = true ∧ ∃ f h x rest, s.pending = .retire f h x :: rest ∧ h.slot.toNat = i.val) ∨
      (s.slots[i].body = .draining ∧ ∃ f h k rest, s.pending = .ackNotice f h k :: rest ∧ h.slot.toNat = i.val)) ∧
    (∀ r r', s.recordAt i = some r → t.recordAt i = some r' → r'.fixed = r.fixed)

/-- A held flag is cleared by a RELEASE_TRIP that is taken and at no other event; a forced flag by a RELEASE_TRIP that is taken and
by a device reset (R148, R150). -/
def Obligations.HeldFlagEndsByRelease : Prop :=
  ∀ (s t : State) (l : LineIx), step s = .next t →
    (s.trips[l].held = true → t.trips[l].held = false →
      ∃ f b rest, s.pending = .releaseTrip f b :: rest ∧ b.toNat = l.val ∧ s.trips[l].contributors = [] ∧
        s.ref.supervision = .normal) ∧
    (s.trips[l].forced = true → t.trips[l].forced = false →
      (s.inReset = true ∨ t.inReset = true) ∨
      ∃ f b rest, s.pending = .releaseTrip f b :: rest ∧ b.toNat = l.val ∧ s.trips[l].contributors = [] ∧
        s.ref.supervision = .normal)

/-- A contract leaves VIOLATED only through its own completed recovery run, through CLEAR after its recovered flag is set, through
RETIRE with FORCE, WIPE_TABLE or a device reset, or by becoming CORRUPT (R41). That CLEAR goes by the recovered flag alone, where a
change in storage has cleared the latching flag, is the model's choice (log entry 30). -/
def Obligations.ViolationPersists : Prop :=
  ∀ (s t : State) (i : SlotIx) (r : Record), step s = .next t → s.recordAt i = some r → r.state = .violated →
    match t.recordAt i with
    | some r' =>
      r'.state = .violated ∨ (r'.state = .corrupt ∧ ∃ h rest, s.pending = .mismatchReport h :: rest ∧ h.slot = i) ∨
      (r'.state = .conforming ∧ r.fixed.latching = false ∧
        (r.staged.getD r.limits).recoveryCount.toNat ≤ r.recoveryRun + 1 ∧
        ∃ h rest, s.pending = .observationTaken h :: rest ∧ h.slot = i) ∨
      ((r'.state = .conforming ∨ r'.state = .held ∨ r'.state = .dormant) ∧ r.recovered = true ∧
        ∃ f h rest, s.pending = .clear f h :: rest ∧ h.slot.toNat = i.val)
    | none =>
      (∃ f h x rest, s.pending = .retire f h x :: rest ∧ h.slot.toNat = i.val ∧ x.getLsbD 0 = true) ∨
      (∃ f rest, s.pending = .wipeTable f :: rest) ∨ t.inReset = true ∨ s.inReset = true

/-- A refusal changes nothing but the reply buffer: whenever a command of the port, or a frame that R173 refuses, leaves a refusal
in the buffer, the port alone has changed (chapter 0, section 6). -/
def Obligations.RefusalChangesNothing : Prop :=
  ∀ (c : Instr) (s t : State) (r : Reply),
    ((frameParts c).isSome = true ∨ ∃ bytes, c = .frameRefused bytes) → c.wellFormed = true → s.receiving →
    exec c s = .next t → t.port.reply = some r → 0x10 ≤ (resultByte r.result).toNat →
    t = s.replied t.port.rxCount r

/-- Frames and commands agree. The bytes that a command's frame has are the bytes of that command and of no other; and every list
of bytes is the frame of a command, an empty frame, or a frame that R173 refuses (R170 to R173, R184). -/
def Obligations.FrameRoundTrip : Prop :=
  (∀ (c : Instr) (bytes : List Byte), frameBytes c = some bytes → commandOfFrame bytes = some c) ∧
  (∀ bytes : List Byte, ∃ c, commandOfFrame bytes = some c ∧
    (frameBytes c = some bytes ∨ (bytes = [] ∧ c = .emptyFrame) ∨
      (c = .frameRefused bytes ∧ (frameRefusal bytes).isSome = true)))

/-! ## The port -/

/-- FRAME_BEGIN in IDLE begins a frame, with the summary status byte and the buffered reply as its outbound stream; EMPTY_FRAME
ends one and takes nothing; a rising edge of CS# in reset, or with no frame begun, ends none, whatever bytes it follows. In
reset the level of CS# alone is followed, so that a CS# already low at the release begins none (log entry 11). On the lines:
while a frame is received each rising edge of SCLK takes the level of SDI, the inbound byte count going up by one at every eighth,
and each falling one moves SDO on; SCLK is ignored at every other time, a byte is eight levels, most significant first, up to
seven levels more are ignored, and the rising edge of CS# is the command that the whole bytes spell; SDO shows the bits of the
outbound stream, then FFh, and is released with CS# high or in reset (R169, R170, R176, R177). That SDO is driven so with
CS# low and no frame begun is the model's choice (log entry 25). -/
def Obligations.FramesBeginAndEnd : Prop :=
  (∀ s : State, s.inReset = false → s.port.csLow = false → s.port.frame = .idle →
    ∃ st : Byte,
      exec .frameBegin s = .next
        { s with
          port :=
            { s.port with
              frame := .receiving
              csLow := true
              rxCount := 0
              outbound :=
                match s.port.reply with
                | none => [st]
                | some r =>
                  [st, resultByte r.result, r.tag, r.code] ++ r.payload ++
                    [crc8 ([resultByte r.result, r.tag, r.code] ++ r.payload)] } } ∧
      st.getLsbD 7 = decide (s.notices ≠ []) ∧
      (st.getLsbD 6 = true ↔ ∃ l : LineIx, ¬ s.lineReleased l) ∧
      st.getLsbD 5 = decide (s.ref.supervision ≠ .normal) ∧ st.getLsbD 4 = s.port.reply.isSome ∧
      st.extractLsb' 0 4 = 0b1010) ∧
  (∀ s : State, s.receiving →
    exec .emptyFrame s = .next { s with port := { s.port with frame := .idle, csLow := false, rxCount := 0 } }) ∧
  (∀ s : State, s.inReset = true → s.port.csLow = false →
    exec .frameBegin s = .next { s with port := { s.port with csLow := true } }) ∧
  (∀ (c : Instr) (s : State), (s.inReset = true ∨ s.port.frame = .idle) →
    ((frameParts c).isSome = true ∨ c = .emptyFrame ∨
      ∃ bytes, c = .frameRefused bytes ∧ (frameRefusal bytes).isSome = true) →
    exec c s = .next { s with port := { s.port with csLow := false } }) ∧
  (∀ (x : PortLines) (sdi : Bool), x.part.receiving →
    x.edge (.sclkRise sdi) =
      { x with
        taken := x.taken ++ [sdi]
        part := { x.part with port := { x.part.port with rxCount := (x.taken.length + 1) / 8 } } } ∧
    x.edge .sclkFall = { x with falls := x.falls + 1 }) ∧
  (∀ (x : PortLines) (sdi : Bool), ¬ x.part.receiving → x.edge (.sclkRise sdi) = x ∧ x.edge .sclkFall = x) ∧
  (∀ (x : PortLines) (t : State), x.part.port.csLow = false → exec .frameBegin x.part = .next t →
    x.edge .csFall = { part := t, taken := [], falls := 0 }) ∧
  (∀ (x : PortLines) (bytes : List Byte) (unfinished : List Bool) (c : Instr) (t : State),
    x.taken = bytes.flatMap (fun b => [b.getLsbD 7, b.getLsbD 6, b.getLsbD 5, b.getLsbD 4, b.getLsbD 3, b.getLsbD 2,
      b.getLsbD 1, b.getLsbD 0]) ++ unfinished →
    unfinished.length < 8 → commandOfFrame bytes = some c → exec c x.part = .next t →
    x.edge .csRise = { part := t, taken := [], falls := 0 }) ∧
  (∀ x : PortLines,
    (x.part.supply ≠ .below1V2 → x.part.port.csLow = true → x.part.inReset = false →
      x.sdo = some ((x.part.port.outbound.getD (x.falls / 8) 0xFF).getLsbD (7 - x.falls % 8))) ∧
    ((x.part.port.csLow = false ∨ x.part.inReset = true ∨ x.part.supply = .below1V2) → x.sdo = none))

/-- A refused frame: the checks of R173, in their order, each with its result code, echo code and echo tag. `n` is the length that
the first byte names (R171). -/
def Obligations.RefusedFrames : Prop :=
  ∀ s : State, s.receiving →
    (∀ b : Byte, exec (.frameRefused [b]) s = .next (s.replied 1 ⟨.badLength, 0, b, []⟩)) ∧
    (∀ (code tag : Byte) (rest : List Byte) (n : Nat),
      n = (match commandOfByte code with | some c => 3 + operandCount c | none => 3) →
      let bytes := code :: tag :: rest
      let refusedWith := fun e : ResultCode =>
        exec (.frameRefused bytes) s = .next (s.replied bytes.length ⟨e, tag, code, []⟩)
      (bytes.length < n → refusedWith .badLength) ∧
      (n ≤ bytes.length → bytes.getD (n - 1) 0 ≠ crc8 (bytes.take (n - 1)) → refusedWith .badCheck) ∧
      (n ≤ bytes.length → bytes.getD (n - 1) 0 = crc8 (bytes.take (n - 1)) → commandOfByte code = none →
        refusedWith .badCommand) ∧
      (n ≤ bytes.length → bytes.getD (n - 1) 0 = crc8 (bytes.take (n - 1)) → commandOfByte code ≠ none →
        (∃ b ∈ bytes.drop n, b ≠ 0xFF) → refusedWith .badLength))

/-- NOP replies OK with no payload, IDENTIFY the part code 4B24h and the revision 1; neither changes any state but the port's
(R180). -/
def Obligations.NopAndIdentify : Prop :=
  ∀ (f : Frame) (s : State), s.receiving →
    exec (.nop f) s = .next (s.replied (3 + f.fill) ⟨.ok, f.tag, 0x00, []⟩) ∧
    exec (.identify f) s = .next (s.replied (3 + f.fill) ⟨.ok, f.tag, 0x01, [0x4B, 0x24, 0x01]⟩)

/-- READ_STATUS reports the supervision state, the four bases, the asserted lines, the length of the queue and the counts of LIVE,
DRAINING and FREE slots, which add up to 64; LIST reports the state code and the generation of every slot in order.
Neither changes any state but the port's (R181, R24, R184). -/
def Obligations.ReadStatusAndList : Prop :=
  ∀ (f : Frame) (s : State), s.receiving →
    (∃ bases lines live draining free : Byte,
      exec (.readStatus f) s = .next (s.replied (3 + f.fill) ⟨.ok, f.tag, 0x02,
        [supervisionCode s.ref.supervision, bases, lines, BitVec.ofNat 8 s.notices.length, live, draining, free]⟩) ∧
      (∀ b : BaseIx, bases.extractLsb' (2 * b.val) 2 = (baseStateCode s.bases[b].state).setWidth 2) ∧
      lines.toNat < 16 ∧ (∀ l : LineIx, lines.getLsbD l.val = true ↔ ¬ s.lineReleased l) ∧
      live.toNat = allSlots.countP (fun i => s.slots[i].body.isLive) ∧
      draining.toNat = allSlots.countP (fun i => decide (s.slots[i].body = .draining)) ∧
      live.toNat + draining.toNat + free.toNat = 64) ∧
    (∃ payload : List Byte,
      exec (.list f) s = .next (s.replied (3 + f.fill) ⟨.ok, f.tag, 0x0F, payload⟩) ∧ payload.length = 128 ∧
      ∀ i : SlotIx, payload[2 * i.val]? = some (slotCode s.slots[i].body) ∧
        payload[2 * i.val + 1]? = some s.slots[i].generation)

/-- REPEAT keeps the reply that the buffer holds; with an empty buffer it places NO_REPLY there with its own tag (R179). -/
def Obligations.RepeatKeepsTheReply : Prop :=
  ∀ (f : Frame) (s : State), s.receiving →
    (s.port.reply ≠ none → exec (.repeatReply f) s =
      .next { s with port := { s.port with frame := .idle, csLow := false, rxCount := 3 + f.fill } }) ∧
    (s.port.reply = none → exec (.repeatReply f) s = .next (s.replied (3 + f.fill) ⟨.noReply, f.tag, 0x03, []⟩))

/-- RESET_DEVICE, RESET_INPUT and POWER_ON_RESET put the part in reset with every block at its reset values and the reply buffer
empty. The first two leave the Reference Checker and the supply alone; a power-on reset alone restarts the gap timer and
the good-period count, and finds VDD below its range (R25, R156, R168, R178, R182). That the reset values stand from the entry
into reset, that the supervision state is kept until the release, and that VDD stands in one of three places are the model's
choices (log entry 13), as is that a mismatch report handed on is discarded (log entry 19). -/
def Obligations.ResetsBegin : Prop :=
  (∀ (f : Frame) (s : State), s.receiving →
    ∃ t, exec (.resetDevice f) s = .next t ∧ t.blocksAtReset ∧ t.inReset = true ∧ t.port.csLow = false ∧
      t.ref = s.ref ∧ t.supply = s.supply) ∧
  (∀ s : State, ∃ t, exec .resetInput s = .next t ∧ t.blocksAtReset ∧ t.inReset = true ∧
    t.port.csLow = s.port.csLow ∧ t.ref = s.ref ∧ t.supply = s.supply) ∧
  (∀ s : State, ∃ t, exec .powerOnReset s = .next t ∧ t.blocksAtReset ∧ t.inReset = true ∧
    t.port.csLow = s.port.csLow ∧ t.ref = { s.ref with gap := .fresh, goodPeriods := 0 } ∧
    t.supply = (if s.supply = .below1V2 then .below1V2 else .belowRange))

/-- RESET_RELEASE ends a reset with every block at its reset values and the supervision state set from the good-period count, and
changes nothing outside reset or below 1.2 V (log entry 4). VDD_AT_1V2 moves the supply alone. Below 1.2 V the part drives
no output; in reset above it, every TRIP line and ALERT# are driven low and SDO is released; out of reset a TRIP line is driven low
exactly while it has a contributor, is held, is forced, or the checker is not NORMAL, ALERT# exactly while the notice queue is not
empty, and SDO with CS# high not at all (R136, R145, R163, R168, R169, R185). That one flag stands for the three causes of a reset,
that the release puts VDD in range, and that VDD stands in one of three places are the model's choices (log entry 13), as are that
a mismatch report handed on is discarded (log entry 19) and that the good-period count is kept while VDD passes 1.2 V (log entry
24). -/
def Obligations.ReleaseAndSupply : Prop :=
  (∀ s : State, s.inReset = true → s.supply ≠ .below1V2 →
    ∃ t, exec .resetRelease s = .next t ∧ t.blocksAtReset ∧ t.inReset = false ∧ t.supply = .inRange ∧
      t.port.csLow = s.port.csLow ∧
      t.ref = { s.ref with supervision := if s.ref.goodPeriods = 1024 then .normal else .referenceFault }) ∧
  (∀ s : State, (s.inReset = false ∨ s.supply = .below1V2) → exec .resetRelease s = .next s) ∧
  (∀ s : State, s.supply = .below1V2 → exec (.vddAt1V2 true) s = .next { s with supply := .belowRange }) ∧
  (∀ s : State, s.supply = .belowRange → exec (.vddAt1V2 false) s = .next { s with supply := .below1V2 }) ∧
  (∀ s : State, s.supply = .below1V2 →
    (∀ l : LineIx, s.tripDrivenLow l = false) ∧ s.alertDrivenLow = false ∧ s.sdoDriven = false) ∧
  (∀ s : State, s.supply ≠ .below1V2 → s.inReset = true →
    (∀ l : LineIx, s.tripDrivenLow l = true) ∧ s.alertDrivenLow = true ∧ s.sdoDriven = false) ∧
  (∀ s : State, s.supply ≠ .below1V2 → s.inReset = false →
    (∀ l : LineIx, s.tripDrivenLow l = true ↔
      s.trips[l].contributors ≠ [] ∨ s.trips[l].held = true ∨ s.trips[l].forced = true ∨ s.ref.supervision ≠ .normal) ∧
    (s.alertDrivenLow = true ↔ s.notices ≠ []) ∧ (s.port.csLow = false → s.sdoDriven = false))

/-! ## The contract table -/

/-- The handle checks of AMEND, SUSPEND, RESUME, CLEAR, RETIRE and QUERY, in their order: the slot index, the later fields that
need the operands alone, the generation, the slot state (R3, R17, R22, R122). -/
def Obligations.HandleChecks : Prop :=
  ∀ (c : Instr) (f : Frame) (h : HandleBytes) (k : Command) (ops : List Byte) (s : State),
    c.handleCommand = some (f, h) → frameParts c = some (k, f, ops) → s.receiving →
    let refusedWith := fun (e : ResultCode) (payload : List Byte) =>
      exec c s = .next (s.replied (3 + ops.length + f.fill) ⟨e, f.tag, commandByte k, payload⟩)
    (63 < h.slot.toNat → refusedWith .badField [1]) ∧
    (∀ n : Fin 16, h.slot.toNat ≤ 63 → c.laterFieldFails n.val → (∀ m : Fin 16, m < n → ¬ c.laterFieldFails m.val) →
      refusedWith .badField [BitVec.ofNat 8 n.val]) ∧
    (∀ i : SlotIx, h.slot.toNat = i.val → (∀ n : Fin 16, ¬ c.laterFieldFails n.val) →
      s.slots[i].generation ≠ h.generation → refusedWith .staleHandle []) ∧
    (∀ i : SlotIx, h.slot.toNat = i.val → (∀ n : Fin 16, ¬ c.laterFieldFails n.val) →
      s.slots[i].generation = h.generation → s.recordAt i = none → refusedWith .noContract [])

/-- CREATE checks its fifteen fields in order and is refused at the first that fails, with that field's number (R7, R13). -/
def Obligations.CreateFieldChecks : Prop :=
  ∀ (f : Frame) (o : CreateBytes) (s : State) (n : Fin 16), s.receiving → 1 ≤ n.val → o.fieldFails n.val →
    (∀ m : Fin 16, 1 ≤ m.val → m < n → ¬ o.fieldFails m.val) →
    exec (.create f o) s = .next (s.replied (28 + f.fill) ⟨.badField, f.tag, 0x08, [BitVec.ofNat 8 n.val]⟩)

/-- The relation checks of CREATE, in their order, once every field has passed: the parent's generation, slot state and own state;
the depth of the chain; the room on the pin; a FREE slot, with the number of DRAINING slots in the refusal (R14, R113). Where a
change in storage has broken the chain above the parent, the depth is the model's choice (log entry 20). -/
def Obligations.CreateRelationChecks : Prop :=
  ∀ (f : Frame) (o : CreateBytes) (s : State), s.receiving → o.passes →
    let refusedWith := fun (e : ResultCode) (payload : List Byte) =>
      exec (.create f o) s = .next (s.replied (28 + f.fill) ⟨e, f.tag, 0x08, payload⟩)
    (∀ i : SlotIx, o.parent.slot.toNat = i.val →
      (s.slots[i].generation ≠ o.parent.generation → refusedWith .staleHandle []) ∧
      (s.slots[i].generation = o.parent.generation → s.recordAt i = none → refusedWith .noContract []) ∧
      (∀ p, s.slots[i].generation = o.parent.generation → s.recordAt i = some p →
        (p.fixed.oneshot = true ∨ p.state = .done ∨ p.state = .corrupt → refusedWith .wrongState []) ∧
        (p.fixed.oneshot = false → p.state ≠ .done → p.state ≠ .corrupt → s.isGrandchild p = true →
          refusedWith .tooDeep []))) ∧
    (s.parentAccepted o → ∀ p : PinIx, o.pin.toNat = p.val → 8 ≤ s.pins[p].subscribers.length →
      refusedWith .pinFull []) ∧
    (s.parentAccepted o → (∀ p : PinIx, o.pin.toNat = p.val → s.pins[p].subscribers.length < 8) →
      (∀ i : SlotIx, s.slots[i].body ≠ .free) →
      ∃ n : Byte, refusedWith .tableFull [n] ∧
        n.toNat = allSlots.countP (fun i => decide (s.slots[i].body = .draining)))

/-- A CREATE that passes its checks places the contract in the lowest FREE slot with its generation advanced, writes the record
field by field in the initial state of R16, joins the sets of its pin and base, adds one to its parent's dependents count (a free
value above 63, log entry 15), and changes nothing else (R2, R4, R15, R16). The depth of a parent whose chain a change in storage
has broken is the model's choice (log entry 20). -/
def Obligations.CreatePlacesTheContract : Prop :=
  ∀ (f : Frame) (o : CreateBytes) (s : State) (i : SlotIx) (p : PinIx) (b : BaseIx), s.receiving → o.passes →
    s.parentAccepted o → o.pin.toNat = p.val → o.base.toNat = b.val → s.pins[p].subscribers.length < 8 →
    s.slots[i].body = .free → (∀ j : SlotIx, j < i → s.slots[j].body ≠ .free) →
    ∃ t r, exec (.create f o) s = .next t ∧ t.recordAt i = some r ∧
      t.slots[i].generation = s.slots[i].generation + 1 ∧
      s.answered t (28 + f.fill)
        ⟨.ok, f.tag, 0x08, [BitVec.ofNat 8 i.val, s.slots[i].generation + 1, stateCode r.state]⟩ ∧
      -- the record
      r.fixed.pin = p ∧ kindCode r.fixed.kind = o.kind ∧ r.fixed.sense.setWidth 8 = o.sense ∧ r.fixed.base = b ∧
      (o.parent.slot = 0xFF → r.fixed.parent = none) ∧
      (∀ j : SlotIx, o.parent.slot.toNat = j.val → r.fixed.parent = some ⟨j, o.parent.generation⟩) ∧
      r.fixed.oneshot = o.flags.getLsbD 0 ∧ r.fixed.latching = o.flags.getLsbD 1 ∧
      o.limits.gives r.limits ∧
      r.suspended = o.flags.getLsbD 2 ∧ r.strikes = 0 ∧ r.recoveryRun = 0 ∧ r.recovered = false ∧
      r.settleRemaining = r.limits.settle.toNat ∧ r.dependents = 0 ∧ r.context = Context.initial ∧ r.last = none ∧
      r.stats = Statistics.empty ∧ r.staged = none ∧ t.codeAgrees i r = true ∧
      r.state =
        (if o.flags.getLsbD 2 = true then .suspended
         else if s.bases[b].state ≠ .running then .held
         else if s.parentAllows r = false then .dormant
         else .arming) ∧
      -- everything else
      t.pins = s.pins.set p.val { s.pins[p] with subscribers := SlotSet.insert i s.pins[p].subscribers } p.isLt ∧
      t.bases = s.bases.set b.val { s.bases[b] with subscribers := SlotSet.insert i s.bases[b].subscribers } b.isLt ∧
      (∀ j : SlotIx, j ≠ i →
        t.slots[j] =
          match s.recordAt j with
          | some q =>
            if r.fixed.parent = some (s.handleOf j) then
              { generation := s.slots[j].generation, body := .live { q with dependents :=
                if q.dependents < 63 then q.dependents + 1 else (Config.unstatedDependents q.dependents).val } }
            else s.slots[j]
          | none => s.slots[j]) ∧
      t.trips = s.trips ∧ t.notices = s.notices ∧ t.observations = s.observations ∧ t.ref = s.ref ∧
      t.scrub = s.scrub ∧ t.supply = s.supply ∧ t.inReset = s.inReset ∧ t.pending = s.pending

/-- RETIRE is refused while the contract has dependents, and in VIOLATED or CORRUPT without FORCE. Else it is taken: the slot
becomes DRAINING with RETIRED added to its entry, or FREE when it has none; the contract leaves every set and its pending
observations are withdrawn; its parent's dependents count goes down by one (a free value below 0, log entry 15); nothing else
changes (R17 to R19, R53). Where a change in storage has left a parent handle that names no LIVE contract, that no count changes
(log entry 18), and where it has changed the generation, that the observations of the current handle alone are withdrawn (log entry
21), are the model's choices. -/
def Obligations.RetireRemovesTheContract : Prop :=
  ∀ (f : Frame) (h : HandleBytes) (options : Byte) (s : State) (i : SlotIx) (r : Record), s.receiving → s.noticesSound →
    h.slot.toNat = i.val → options.toNat ≤ 1 → s.slots[i].generation = h.generation → s.recordAt i = some r →
    (0 < r.dependents →
      exec (.retire f h options) s =
        .next (s.replied (6 + f.fill) ⟨.hasDependents, f.tag, 0x0D, [BitVec.ofNat 8 r.dependents]⟩)) ∧
    (r.dependents = 0 → (r.state = .violated ∨ r.state = .corrupt) → options = 0 →
      exec (.retire f h options) s = .next (s.replied (6 + f.fill) ⟨.inViolation, f.tag, 0x0D, []⟩)) ∧
    (r.dependents = 0 → (r.state ≠ .violated ∧ r.state ≠ .corrupt ∨ options = 1) →
      ∃ t, exec (.retire f h options) s = .next t ∧
        s.answered t (6 + f.fill) ⟨.ok, f.tag, 0x0D, [if s.hasEntry i then 0x0A else 0x00]⟩ ∧
        t.slots[i] = { generation := s.slots[i].generation, body := if s.hasEntry i then .draining else .free } ∧
        t.notices = s.notices.map (fun e =>
          match e with
          | .contract j g ks => .contract j g (if j = i then ks ||| 0x40 else ks)
          | .device ks => .device ks) ∧
        (∀ b : BaseIx, t.bases[b] = { s.bases[b] with subscribers := s.bases[b].subscribers.filter (· ≠ i) }) ∧
        (∀ p : PinIx, t.pins[p] = { s.pins[p] with subscribers := s.pins[p].subscribers.filter (· ≠ i) }) ∧
        (∀ l : LineIx, t.trips[l] = { s.trips[l] with contributors := s.trips[l].contributors.filter (· ≠ i) }) ∧
        t.observations = s.observations.filter (fun o => o.handle ≠ s.handleOf i) ∧
        (∀ j : SlotIx, j ≠ i →
          t.slots[j] =
            match s.recordAt j with
            | some q =>
              if r.fixed.parent = some (s.handleOf j) then
                { generation := s.slots[j].generation, body := .live { q with dependents :=
                  if 0 < q.dependents then q.dependents - 1 else (Config.unstatedDependents q.dependents).val } }
              else s.slots[j]
            | none => s.slots[j]) ∧
        t.ref = s.ref ∧ t.scrub = s.scrub ∧ t.supply = s.supply ∧ t.inReset = s.inReset ∧ t.pending = s.pending)

/-- QUERY reports the record in 71 bytes as it stands, every number most significant byte first and every code and width as R184
lists them, and, with reset-statistics, then empties the statistics; nothing else changes (R22, R23, R184; chapter 0). -/
def Obligations.QueryReports : Prop :=
  ∀ (f : Frame) (h : HandleBytes) (options : Byte) (s : State) (i : SlotIx) (r : Record), s.receiving →
    h.slot.toNat = i.val → options.toNat ≤ 1 → s.slots[i].generation = h.generation → s.recordAt i = some r →
    let two := fun w : Word16 => ([w.extractLsb' 8 8, w.extractLsb' 0 8] : List Byte)
    let four := fun w : Word32 =>
      ([w.extractLsb' 24 8, w.extractLsb' 16 8, w.extractLsb' 8 8, w.extractLsb' 0 8] : List Byte)
    let fourIf := fun v : Option Word32 =>
      match v with
      | some w => four w
      | none => ([0xFF, 0xFF, 0xFF, 0xFF] : List Byte)
    let limits := fun a : Limits =>
      four a.lo ++ four a.hi ++ four a.margin ++
        ([BitVec.ofNat 8 a.tolerance.toNat, BitVec.ofNat 8 a.recoveryCount.toNat, BitVec.ofNat 8 a.silenceLimit.toNat,
          BitVec.ofNat 8 a.settle.toNat, BitVec.ofNat 8 a.tripMask.toNat, BitVec.ofNat 8 a.noticeMask.toNat] : List Byte)
    let state : Byte :=
      match r.state with
      | .arming => 0x01 | .conforming => 0x02 | .suspect => 0x03 | .violated => 0x04 | .suspended => 0x05
      | .held => 0x06 | .dormant => 0x07 | .done => 0x08 | .corrupt => 0x09
    let kind : Byte :=
      match r.fixed.kind with
      | .meanPeriod => 0x00 | .period => 0x01 | .pulse => 0x02 | .duty => 0x03 | .count => 0x04 | .level => 0x05
    let phase : Byte :=
      match r.context.phase with
      | .waitGate => 0x00 | .opening => 0x01 | .counting => 0x02 | .closing => 0x03 | .sampling => 0x04
    let outcome := fun d : Verdict =>
      match d with
      | .inWindow => (0x01 : Byte) | .below => 0x02 | .above => 0x03 | .silent => 0x04
    ∃ p : List Byte,
      exec (.query f h options) s = .next
        ((if options = 1 then s.setSlot i ⟨s.slots[i].generation, .live { r with stats := Statistics.empty }⟩ else s).replied
          (6 + f.fill) ⟨.ok, f.tag, 0x0E, p⟩) ∧
      p.length = 71 ∧
      p.take 7 = [h.slot, h.generation, state, BitVec.ofNat 8 r.fixed.pin.val, kind,
        BitVec.ofNat 8 r.fixed.sense.toNat, BitVec.ofNat 8 r.fixed.base.val] ∧
      (∃ flags : Byte, p[7]? = some flags ∧ flags.getLsbD 0 = r.fixed.oneshot ∧ flags.getLsbD 1 = r.fixed.latching ∧
        flags.getLsbD 2 = r.suspended ∧ flags.getLsbD 3 = r.recovered ∧
        (flags.getLsbD 4 = true ↔ r.state = .violated ∧ (s.baseRunning r = false ∨ s.parentAllows r = false)) ∧
        flags.getLsbD 5 = r.staged.isSome ∧ flags.toNat < 64) ∧
      (p.drop 8).take 2 =
        (match r.fixed.parent with
         | some g => [BitVec.ofNat 8 g.slot.val, g.generation]
         | none => [0xFF, 0x00]) ∧
      (p.drop 10).take 18 = limits r.limits ∧
      (p.drop 28).take 6 = [BitVec.ofNat 8 r.strikes, BitVec.ofNat 8 r.recoveryRun, BitVec.ofNat 8 r.settleRemaining,
        BitVec.ofNat 8 r.dependents, phase, BitVec.ofNat 8 r.context.silence] ∧
      (p.drop 34).take 7 =
        (match r.last with
         | none => [0x00, 0xFF, 0xFF, 0xFF, 0xFF, 0x00, 0x00]
         | some o => outcome o.verdict :: (fourIf o.value ++ two o.serial)) ∧
      (p.drop 41).take 12 =
        two (BitVec.ofNat 16 r.stats.observations) ++ two (BitVec.ofNat 16 r.stats.outOfWindow) ++
          fourIf r.stats.minValue ++ fourIf r.stats.maxValue ∧
      p.drop 53 = (match r.staged with | some a => limits a | none => List.replicate 18 0x00)

/-- WIPE_TABLE frees every slot with its generation kept, empties every subscriber set and contributor set, leaves the device
entry alone in the queue and withdraws every pending observation; filters, bases, policies and flags stand; the reply
counts the slots that were LIVE and DRAINING (R20, R142, R53). -/
def Obligations.WipeEmptiesTheTable : Prop :=
  ∀ (f : Frame) (s : State), s.receiving →
    ∃ (t : State) (live draining : Byte), exec (.wipeTable f) s = .next t ∧
      s.answered t (3 + f.fill) ⟨.ok, f.tag, 0x10, [live, draining]⟩ ∧
      live.toNat = allSlots.countP (fun i => s.slots[i].body.isLive) ∧
      draining.toNat = allSlots.countP (fun i => decide (s.slots[i].body = .draining)) ∧
      (∀ i : SlotIx, t.slots[i] = { generation := s.slots[i].generation, body := .free }) ∧
      (∀ b : BaseIx, t.bases[b] = { s.bases[b] with subscribers := [] }) ∧
      (∀ p : PinIx, t.pins[p] = { s.pins[p] with subscribers := [] }) ∧
      (∀ l : LineIx, t.trips[l] = { s.trips[l] with contributors := [] }) ∧
      t.notices = s.notices.filter (fun e => match e with | .device _ => true | .contract _ _ _ => false) ∧
      t.observations = [] ∧ t.ref = s.ref ∧ t.scrub = s.scrub ∧ t.supply = s.supply ∧ t.inReset = s.inReset ∧
      t.pending = s.pending

/-! ## Judgement -/

/-- OBSERVATION_TAKEN takes the oldest pending observation of the handle. One that names no LIVE contract of its generation, or a
contract that does not measure, is discarded and changes nothing; one taken while the contract settles in ARMING is VOID
and takes one from settle remaining (R5, R26, R29). With none pending, none is taken (log entry 4). -/
def Obligations.ObservationsDiscardedOrVoid : Prop :=
  ∀ (h : Handle) (s : State), s.inReset = false →
    ((∀ o ∈ s.observations, o.handle ≠ h) → exec (.observationTaken h) s = .next s) ∧
    (∀ (older newer : List Observation) (o : Observation), s.observations = older ++ o :: newer → o.handle = h →
      (∀ x ∈ older, x.handle ≠ h) →
      (s.contractAt h = none → exec (.observationTaken h) s = .next { s with observations := older ++ newer }) ∧
      (∀ r, s.contractAt h = some r → s.measures r = false →
        exec (.observationTaken h) s = .next { s with observations := older ++ newer }) ∧
      (∀ r, s.contractAt h = some r → r.state = .arming → 0 < r.settleRemaining →
        exec (.observationTaken h) s = .next
          (State.setSlot { s with observations := older ++ newer } h.slot
            { generation := h.generation
              body := .live { r with settleRemaining := r.settleRemaining - 1 } })))

/-- A counted observation applies a staged amendment, is classified against the window then in force, and is written into the
last observation and the statistics. It is pending no longer, and the contract's other pending observations stay in their order but
in DONE. Every contract that is not below this one stands, and where the health of this one does not change so does every other
slot (R10, R26, R27, R30, R32, R115, R126). Of a value below lo and above hi at once, which only a change in storage allows, it
says BELOW (log entry 9). -/
def Obligations.CountedObservationRecorded : Prop :=
  ∀ (o : Observation) (older newer : List Observation) (r : Record) (s : State), s.inReset = false → s.treeSound →
    s.observations = older ++ o :: newer → (∀ x ∈ older, x.handle ≠ o.handle) → s.contractAt o.handle = some r →
    s.measures r = true → (r.state = .arming → r.settleRemaining = 0) →
    ∃ t r' d, exec (.observationTaken o.handle) s = .next t ∧ t.recordAt o.handle.slot = some r' ∧
      r'.limits = r.staged.getD r.limits ∧ r'.staged = none ∧ r'.fixed = r.fixed ∧ r'.dependents = r.dependents ∧
      r'.suspended = r.suspended ∧ r'.settleRemaining = r.settleRemaining ∧
      (s.codeAgrees o.handle.slot r = true → t.codeAgrees o.handle.slot r' = true) ∧
      r'.last = some { verdict := d, value := o.value, serial := o.serial } ∧
      (d = .silent ↔ o.value = none) ∧
      (∀ v, o.value = some v →
        (d = .below ↔ v.toNat < r'.limits.lo.toNat) ∧
        (d = .above ↔ r'.limits.lo.toNat ≤ v.toNat ∧ r'.limits.hi.toNat < v.toNat) ∧
        (d = .inWindow ↔ r'.limits.lo.toNat ≤ v.toNat ∧ v.toNat ≤ r'.limits.hi.toNat)) ∧
      r'.stats.observations = min (r.stats.observations + 1) 65535 ∧
      r'.stats.outOfWindow = (if d = .inWindow then r.stats.outOfWindow else min (r.stats.outOfWindow + 1) 65535) ∧
      (o.value = none → r'.stats.minValue = r.stats.minValue ∧ r'.stats.maxValue = r.stats.maxValue) ∧
      (∀ v, o.value = some v →
        r'.stats.minValue = (match r.stats.minValue with
          | none => some v
          | some m => if v.toNat < m.toNat then some v else some m) ∧
        r'.stats.maxValue = (match r.stats.maxValue with
          | none => some v
          | some m => if m.toNat < v.toNat then some v else some m)) ∧
      (r'.state ≠ .done →
        t.observationsOf o.handle.slot = (older ++ newer).filter (fun x => decide (x.handle.slot = o.handle.slot))) ∧
      (isHealthy r'.state = isHealthy r.state → s.onlySlot t o.handle.slot) ∧
      s.onlyBelow t o.handle.slot ∧ t.port = s.port

/-- The state rules of ARMING, CONFORMING and SUSPECT. A oneshot contract in ARMING enters DONE, posts DONE and ends its
measurement. Any other: IN gives CONFORMING with strikes 0; an out-of-window observation gives SUSPECT with the strike
counted while the strikes stay below the tolerance, and else VIOLATED with counters 0, VIOLATED posted and the lines of
the mask joined. Except in DONE, the measurement goes on (R33 to R36, R42, R57, R58, R148). That a tolerance of 0, which only a
change in storage brings about, is reached by the first out-of-window observation is the model's choice (log entry 9), as is that a
contract in CONFORMING or SUSPECT whose oneshot flag a change in storage has set is judged as any other (log entry 29). -/
def Obligations.JudgedBeforeViolation : Prop :=
  ∀ (o : Observation) (older newer : List Observation) (r : Record) (s : State), s.inReset = false → s.treeSound →
    s.observations = older ++ o :: newer → (∀ x ∈ older, x.handle ≠ o.handle) → s.contractAt o.handle = some r →
    isMeasuring r.state = true → (r.state = .arming → r.settleRemaining = 0) →
    let i := o.handle.slot
    let a := r.staged.getD r.limits
    let inWindow := ∃ v, o.value = some v ∧ a.lo.toNat ≤ v.toNat ∧ v.toNat ≤ a.hi.toNat
    let strikes := if r.state = .suspect then r.strikes + 1 else 1
    ∃ t r', exec (.observationTaken o.handle) s = .next t ∧ t.recordAt i = some r' ∧
      r'.recoveryRun = (if r'.state = .violated then 0 else r.recoveryRun) ∧
      r'.recovered = (if r'.state = .violated then false else r.recovered) ∧
      (r.fixed.oneshot = true → r.state = .arming →
        r'.state = .done ∧ r'.strikes = r.strikes ∧ r'.context = Context.initial ∧ t.nonePending i ∧
          s.posted t i 0x10 ∧ t.trips = s.trips) ∧
      ((r.fixed.oneshot = false ∨ r.state ≠ .arming) →
        r'.context = r.context ∧
        (inWindow → r'.state = .conforming ∧ r'.strikes = (if r.state = .conforming then r.strikes else 0) ∧
          s.posted t i 0 ∧ t.trips = s.trips) ∧
        (¬ inWindow → strikes < a.tolerance.toNat →
          r'.state = .suspect ∧ r'.strikes = strikes ∧ t.trips = s.trips ∧
          s.posted t i (if r.state = .suspect then 0 else askedFor a.noticeMask 0x01)) ∧
        (¬ inWindow → a.tolerance.toNat ≤ strikes →
          r'.state = .violated ∧ r'.strikes = 0 ∧ s.posted t i 0x08 ∧ s.linesOfOthersKept t i ∧
          ∀ l : LineIx,
            (i ∈ t.trips[l].contributors ↔ a.tripMask.getLsbD l.val = true ∨ i ∈ s.trips[l].contributors) ∧
            (t.trips[l].held = true ↔ s.trips[l].held = true ∨
              (a.tripMask.getLsbD l.val = true ∧ s.trips[l].policy = .hold ∧ s.trips[l].contributors = []))))

/-- The state rule of VIOLATED: an out-of-window observation ends the recovery run and clears the recovered flag; an IN one
outside the band ends the run; an in-band one with the flag clear counts, and at the recovery count takes a non-latching
contract to CONFORMING and out of its lines, and sets a latching one's flag, posting RECOVERED when the mask asks. A
changed trip mask reaches the lines first (R28, R37 to R39, R57, R58, R127, R148). That a contract whose oneshot flag a change in
storage has set is judged as any other (log entry 29), and that a recovered flag is read as it stands where a change in storage has
cleared the latching flag (log entry 30), are the model's choices. -/
def Obligations.JudgedInViolation : Prop :=
  ∀ (o : Observation) (older newer : List Observation) (r : Record) (s : State), s.inReset = false → s.treeSound →
    s.observations = older ++ o :: newer → (∀ x ∈ older, x.handle ≠ o.handle) → s.contractAt o.handle = some r →
    s.measures r = true → r.state = .violated →
    let i := o.handle.slot
    let a := r.staged.getD r.limits
    let inWindow := ∃ v, o.value = some v ∧ a.lo.toNat ≤ v.toNat ∧ v.toNat ≤ a.hi.toNat
    let inBand := ∃ v, o.value = some v ∧ a.lo.toNat + a.margin.toNat ≤ v.toNat ∧
      v.toNat + a.margin.toNat ≤ a.hi.toNat
    let counted := inWindow ∧ inBand ∧ r.recovered = false
    let ends := counted ∧ a.recoveryCount.toNat ≤ r.recoveryRun + 1 ∧ r.fixed.latching = false
    ∃ t r', exec (.observationTaken o.handle) s = .next t ∧ t.recordAt i = some r' ∧ r'.context = r.context ∧
      s.linesOfOthersKept t i ∧
      (¬ inWindow → r'.state = .violated ∧ r'.strikes = r.strikes ∧ r'.recoveryRun = 0 ∧ r'.recovered = false ∧
        s.posted t i 0) ∧
      (inWindow → ¬ inBand → r'.state = .violated ∧ r'.strikes = r.strikes ∧ r'.recoveryRun = 0 ∧
        r'.recovered = r.recovered ∧ s.posted t i 0) ∧
      (inWindow → inBand → r.recovered = true → r'.state = .violated ∧ r'.strikes = r.strikes ∧
        r'.recoveryRun = r.recoveryRun ∧ r'.recovered = true ∧ s.posted t i 0) ∧
      (counted → r.recoveryRun + 1 < a.recoveryCount.toNat → r'.state = .violated ∧ r'.strikes = r.strikes ∧
        r'.recoveryRun = r.recoveryRun + 1 ∧ r'.recovered = false ∧ s.posted t i 0) ∧
      (counted → a.recoveryCount.toNat ≤ r.recoveryRun + 1 → r.fixed.latching = true → r'.state = .violated ∧
        r'.strikes = r.strikes ∧ r'.recoveryRun = 0 ∧ r'.recovered = true ∧ s.posted t i (askedFor a.noticeMask 0x02)) ∧
      (ends → r'.state = .conforming ∧ r'.strikes = 0 ∧ r'.recoveryRun = 0 ∧ r'.recovered = false ∧
        s.posted t i (askedFor a.noticeMask 0x02)) ∧
      (∀ l : LineIx,
        let old := r.limits.tripMask.getLsbD l.val
        let new := a.tripMask.getLsbD l.val
        (i ∈ t.trips[l].contributors ↔
          (i ∈ s.trips[l].contributors ∧ ¬ (old = true ∧ new = false) ∨ (old = false ∧ new = true)) ∧
            ¬ (ends ∧ new = true)) ∧
        (t.trips[l].held = true ↔ s.trips[l].held = true ∨
          (old = false ∧ new = true ∧ s.trips[l].policy = .hold ∧ s.trips[l].contributors = [])))

/-- SUSPEND takes a measuring, HELD or DORMANT contract to SUSPENDED with its flag set, its measurement abandoned and its strikes
0, and is refused in every other state; where the contract was not healthy, every other slot stands. RESUME clears the flag of a
SUSPENDED contract and takes it to HELD, DORMANT or ARMING, posting BLOCKED for the first two when the mask asks, and is refused in
every other state (R32, R45 to R48). -/
def Obligations.SuspendAndResume : Prop :=
  ∀ (f : Frame) (h : HandleBytes) (s : State) (i : SlotIx) (r : Record), s.receiving → s.treeSound →
    h.slot.toNat = i.val → s.slots[i].generation = h.generation → s.recordAt i = some r →
    ((isMeasuring r.state = true ∨ r.state = .held ∨ r.state = .dormant) →
      ∃ t, exec (.suspend f h) s = .next t ∧ s.answered t (5 + f.fill) ⟨.ok, f.tag, 0x0A, [0x05]⟩ ∧
        t.recordAt i = some { r.asideIn .suspended with suspended := true } ∧ s.posted t i 0 ∧
        (isMeasuring r.state = true → t.nonePending i) ∧ t.trips = s.trips ∧
        (isHealthy r.state = false → s.onlySlot t i) ∧ s.onlyBelow t i) ∧
    (r.state = .violated →
      exec (.suspend f h) s = .next (s.replied (5 + f.fill) ⟨.inViolation, f.tag, 0x0A, []⟩)) ∧
    ((r.state = .suspended ∨ r.state = .done ∨ r.state = .corrupt) →
      exec (.suspend f h) s = .next (s.replied (5 + f.fill) ⟨.wrongState, f.tag, 0x0A, []⟩)) ∧
    (r.state = .suspended →
      ∃ t, exec (.resume f h) s = .next t ∧ t.trips = s.trips ∧ s.onlySlot t i ∧
        (s.baseRunning r = false →
          s.answered t (5 + f.fill) ⟨.ok, f.tag, 0x0B, [0x06]⟩ ∧
          t.recordAt i = some { r with suspended := false, state := .held } ∧
          s.posted t i (askedFor r.limits.noticeMask 0x04)) ∧
        (s.baseRunning r = true → s.parentAllows r = false →
          s.answered t (5 + f.fill) ⟨.ok, f.tag, 0x0B, [0x07]⟩ ∧
          t.recordAt i = some { r with suspended := false, state := .dormant } ∧
          s.posted t i (askedFor r.limits.noticeMask 0x04)) ∧
        (s.baseRunning r = true → s.parentAllows r = true →
          s.answered t (5 + f.fill) ⟨.ok, f.tag, 0x0B, [0x01]⟩ ∧
          s.armed t i { r with suspended := false } ∧ s.posted t i 0)) ∧
    (r.state ≠ .suspended →
      exec (.resume f h) s = .next (s.replied (5 + f.fill) ⟨.wrongState, f.tag, 0x0B, []⟩))

/-- CLEAR ends a violation whose recovered flag is set: a contract that is not frozen enters CONFORMING with its measurement
going on and its pending observations kept; a frozen one enters HELD or DORMANT, posting BLOCKED when the mask asks, and every other
slot stands, since its health does not change; in both it leaves the lines of its mask. It is refused with STILL_VIOLATING while the
flag is clear, and with WRONG_STATE outside VIOLATED (R26, R40, R55, R58). That CLEAR goes by the recovered flag alone, where a change
in storage has cleared the latching flag, is the model's choice (log entry 30). -/
def Obligations.ClearEndsAViolation : Prop :=
  ∀ (f : Frame) (h : HandleBytes) (s : State) (i : SlotIx) (r : Record), s.receiving → s.treeSound →
    h.slot.toNat = i.val → s.slots[i].generation = h.generation → s.recordAt i = some r →
    (r.state = .violated → r.recovered = true →
      ∃ t, exec (.clear f h) s = .next t ∧ s.onlyBelow t i ∧ t.observationsOf i = s.observationsOf i ∧
        ((s.baseRunning r = false ∨ s.parentAllows r = false) → s.onlySlot t i) ∧
        (∀ l : LineIx,
          t.trips[l] =
            if r.limits.tripMask.getLsbD l.val then
              { s.trips[l] with contributors := s.trips[l].contributors.filter (· ≠ i) }
            else s.trips[l]) ∧
        (s.baseRunning r = true → s.parentAllows r = true →
          s.answered t (5 + f.fill) ⟨.ok, f.tag, 0x0C, [0x02]⟩ ∧ s.posted t i 0 ∧
          t.recordAt i = some { r with state := .conforming, recovered := false, recoveryRun := 0, strikes := 0 }) ∧
        (s.baseRunning r = false →
          s.answered t (5 + f.fill) ⟨.ok, f.tag, 0x0C, [0x06]⟩ ∧
          s.posted t i (askedFor r.limits.noticeMask 0x04) ∧
          t.recordAt i = some { r with state := .held, recovered := false, recoveryRun := 0 }) ∧
        (s.baseRunning r = true → s.parentAllows r = false →
          s.answered t (5 + f.fill) ⟨.ok, f.tag, 0x0C, [0x07]⟩ ∧
          s.posted t i (askedFor r.limits.noticeMask 0x04) ∧
          t.recordAt i = some { r with state := .dormant, recovered := false, recoveryRun := 0 })) ∧
    (r.state = .violated → r.recovered = false →
      exec (.clear f h) s = .next (s.replied (5 + f.fill) ⟨.stillViolating, f.tag, 0x0C, []⟩)) ∧
    (r.state ≠ .violated →
      exec (.clear f h) s = .next (s.replied (5 + f.fill) ⟨.wrongState, f.tag, 0x0C, []⟩))

/-- A contract that becomes unhealthy, whatever command or event makes it so (a SUSPEND, a judgement into VIOLATED, an immediate
AMEND, a SET_PIN, a stop notice, a mismatch, or the cascade of its own parent), sets each dependent aside on which the command does
not act of its own accord: a measuring one becomes DORMANT with its measurement abandoned, its strikes 0 and BLOCKED posted
when its mask asks; a VIOLATED one on a RUNNING base freezes; any other stands. When the dependent was healthy, its own dependents
are set aside in their turn, and else they stand (R32, R50, R116, R118). -/
def Obligations.UnhealthyParentSetsDependentsAside : Prop :=
  ∀ (c : Instr) (s t : State) (i d : SlotIx) (r r' q : Record), s.treeSound → exec c s = .next t →
    s.recordAt i = some r → isHealthy r.state = true → t.recordAt i = some r' → isHealthy r'.state = false →
    s.dependsOn d i = true → s.recordAt d = some q → ¬ s.claims c d →
    s.cascadeSetsAside t d q ∧
    ∀ (g : SlotIx) (x : Record), s.dependsOn g d = true → s.recordAt g = some x → ¬ s.claims c g →
      if isHealthy q.state = true then s.cascadeSetsAside t g x else s.stands t g

/-- A contract that becomes healthy, whatever command or event makes it so (a judgement from ARMING into CONFORMING or SUSPECT, a
recovery, a CLEAR), releases its dependents: a DORMANT one enters ARMING; a VIOLATED one on a RUNNING base stands at
WAIT_GATE; any other, and every grandchild, stands (R32, R46, R50, R117). -/
def Obligations.HealthyParentReleasesDependents : Prop :=
  ∀ (c : Instr) (s t : State) (i d : SlotIx) (r r' q : Record), s.treeSound → s.statesFit → exec c s = .next t →
    s.recordAt i = some r → isHealthy r.state = false → t.recordAt i = some r' → isHealthy r'.state = true →
    s.dependsOn d i = true → s.recordAt d = some q →
    s.cascadeTakesUp t d q ∧ ∀ g : SlotIx, s.dependsOn g d = true → s.stands t g

/-! ## Measurement -/

/-- EDGE_TAKEN: a measuring context takes the first edge handed to it, past boundaries of the edge's own base tick alone, and acts
by its kind and phase: it opens, counts, closes with a value, or ignores the edge. An observation formed carries the
serial of the edge's stamp, and the context returns to WAIT_GATE (R60, R61, R63 to R76). What R59, R61 and R77 rule out,
a position with no opening edge at or before the edge or beyond its bound, an exit before its mark and an accumulator beyond its
bound, gives a free value within the bound (log entry 15). A value above the greatest of R78, which only a change in storage brings
about, is what the formulas give: the model's choice (log entry 23). So is that a sense that R7 does not allow for the kind is read
bit by bit (log entry 26), and that an edge into the active level in COUNTING of PULSE is ignored (log entry 27). -/
def Obligations.EdgesTaken : Prop :=
  ∀ (i : SlotIx) (r : Record) (dir : EdgeDir) (st : Stamp) (before after : List ContextEvent) (s : State),
    s.inReset = false → s.recordAt i = some r → s.measures r = true →
    r.context.inbox = before ++ .edge dir st :: after →
    (∀ e ∈ before, e = .boundary st.serial) → (before ≠ [] → st.counter = 0) →
    let c : Context := { r.context with inbox := before ++ after }
    let qualifying : Bool := match dir with
      | .rise => r.fixed.sense.getLsbD 0
      | .fall => r.fixed.sense.getLsbD 1
    let pos : Nat := match c.opening with
      | none => (Config.unstatedPosition none st).val
      | some o =>
        let ahead := (st.serial - o.serial).toNat * s.bases[r.fixed.base].modulus.toNat + st.counter.toNat
        if o.counter.toNat ≤ ahead ∧ ahead - o.counter.toNat ≤ 1048560 then ahead - o.counter.toNat
        else (Config.unstatedPosition (some o) st).val
    let counted : Nat := if c.count < 8388608 then c.count + 1 else (Config.unstatedCount c.count).val
    let stay : Nat := if c.count ≤ pos then pos - c.count else (Config.unstatedStay c.count pos).val
    let active : Nat := if c.active + stay ≤ 1048560 then c.active + stay else (Config.unstatedActive c.active stay).val
    let goesOn := fun c' : Context =>
      exec (.edgeTaken i) s = .next (s.setSlot i ⟨s.slots[i].generation, .live { r with context := c' }⟩)
    let closes := fun v : Nat =>
      exec (.edgeTaken i) s = .next
        (State.setSlot { s with observations := s.observations ++ [⟨s.handleOf i, some (BitVec.ofNat 32 v), st.serial⟩] } i
          ⟨s.slots[i].generation, .live { r with context := { Context.initial with inbox := c.inbox } }⟩)
    (c.phase = .waitGate → goesOn c) ∧
    ((r.fixed.kind = .meanPeriod ∨ r.fixed.kind = .period ∨ r.fixed.kind = .pulse ∨ r.fixed.kind = .duty) →
      c.phase = .opening →
      (qualifying = true →
        goesOn { c with phase := .counting, opening := some st, ticks := 0, count := 0, active := 0, silence := 0 }) ∧
      (qualifying = false → goesOn c)) ∧
    (r.fixed.kind = .meanPeriod →
      (c.phase = .counting → qualifying = true → goesOn { c with count := counted, ticks := pos }) ∧
      (c.phase = .closing → qualifying = true → closes (16 * pos / (c.count + 1))) ∧
      ((c.phase = .counting ∨ c.phase = .closing) → qualifying = false → goesOn c)) ∧
    (r.fixed.kind = .period → c.phase = .counting →
      (qualifying = true → closes pos) ∧ (qualifying = false → goesOn c)) ∧
    (r.fixed.kind = .pulse → c.phase = .counting →
      (qualifying = false → closes pos) ∧ (qualifying = true → goesOn c)) ∧
    (r.fixed.kind = .duty →
      ((c.phase = .counting ∨ c.phase = .closing) → qualifying = false →
        goesOn { c with active := active, ticks := pos }) ∧
      (c.phase = .counting → qualifying = true → goesOn { c with count := pos, ticks := pos }) ∧
      (c.phase = .closing → qualifying = true →
        (pos = 0 → goesOn { c with count := 0 }) ∧ (0 < pos → closes (1000 * c.active / pos)))) ∧
    (r.fixed.kind = .count → c.phase = .counting →
      (qualifying = true → goesOn { c with count := counted }) ∧ (qualifying = false → goesOn c)) ∧
    (r.fixed.kind = .level → c.phase = .sampling → goesOn c)

/-- BOUNDARY_TAKEN: a measuring context takes the first boundary handed to it, past edges of the boundary's own base tick alone. In
WAIT_GATE it begins a measurement; in COUNTING of MEANPERIOD and DUTY it advances to CLOSING; in COUNT and LEVEL it closes
with a value and begins the next measurement; in a waiting phase it adds to the silence count, except in the tick of the
opening edge (R60, R62 to R76). The level is the pin's before every edge still to be taken. -/
def Obligations.BoundariesTaken : Prop :=
  ∀ (i : SlotIx) (r : Record) (n : Word16) (before after : List ContextEvent) (s : State),
    s.inReset = false → s.recordAt i = some r → s.measures r = true →
    r.context.inbox = before ++ .boundary n :: after →
    (∀ e ∈ before, ∃ dir, e = .edge dir { serial := n, counter := 0 }) →
    let c : Context := { r.context with inbox := before ++ after }
    let begun := fun p : Phase => ({ Context.initial with phase := p, inbox := c.inbox } : Context)
    let goesOn := fun c' : Context =>
      exec (.boundaryTaken i) s = .next (s.setSlot i ⟨s.slots[i].generation, .live { r with context := c' }⟩)
    let closes := fun (v : Nat) (p : Phase) =>
      exec (.boundaryTaken i) s = .next
        (State.setSlot { s with observations := s.observations ++ [⟨s.handleOf i, some (BitVec.ofNat 32 v), n⟩] } i
          ⟨s.slots[i].generation, .live { r with context := begun p }⟩)
    (c.phase = .waitGate →
      goesOn (begun (match r.fixed.kind with | .count => .counting | .level => .sampling | _ => .opening))) ∧
    ((r.fixed.kind = .meanPeriod ∨ r.fixed.kind = .duty) → c.phase = .counting →
      goesOn { c with phase := .closing, silence := 0 }) ∧
    (r.fixed.kind = .count → c.phase = .counting → closes c.count .counting) ∧
    (r.fixed.kind = .level → c.phase = .sampling →
      (firstEdge c.inbox = none → closes (if s.pins[r.fixed.pin].level then 1 else 0) .sampling) ∧
      (firstEdge c.inbox = some .rise → closes 0 .sampling) ∧
      (firstEdge c.inbox = some .fall → closes 1 .sampling)) ∧
    ((c.phase = .opening ∧
        (r.fixed.kind = .meanPeriod ∨ r.fixed.kind = .period ∨ r.fixed.kind = .pulse ∨ r.fixed.kind = .duty) ∨
      c.phase = .closing ∧ (r.fixed.kind = .meanPeriod ∨ r.fixed.kind = .duty)) →
      c.silence + 1 < r.limits.silenceLimit.toNat → goesOn { c with silence := c.silence + 1 }) ∧
    ((r.fixed.kind = .period ∨ r.fixed.kind = .pulse) → c.phase = .counting →
      ∀ o : Stamp, c.opening = some o →
        (o.serial = n → goesOn c) ∧
        (o.serial ≠ n → c.silence + 1 < r.limits.silenceLimit.toNat → goesOn { c with silence := c.silence + 1 }))

/-- SILENCE_LIMIT: the boundary that brings the silence count of a waiting phase to the silence limit in force ends the
measurement with an observation that has no value, and begins the next in OPENING; taken as BOUNDARY_TAKEN it does the
same (R62, R63, R79; log entry 12). A boundary short of the limit is not this event (log entry 4). -/
def Obligations.SilenceEndsAMeasurement : Prop :=
  ∀ (i : SlotIx) (r : Record) (n : Word16) (before after : List ContextEvent) (s : State),
    s.inReset = false → s.recordAt i = some r → s.measures r = true →
    r.context.inbox = before ++ .boundary n :: after →
    (∀ e ∈ before, ∃ dir, e = .edge dir { serial := n, counter := 0 }) →
    let edgeKind := r.fixed.kind = .meanPeriod ∨ r.fixed.kind = .period ∨ r.fixed.kind = .pulse ∨ r.fixed.kind = .duty
    let waits :=
      r.context.phase = .opening ∧ edgeKind ∨
      r.context.phase = .closing ∧ (r.fixed.kind = .meanPeriod ∨ r.fixed.kind = .duty) ∨
      r.context.phase = .counting ∧ (r.fixed.kind = .period ∨ r.fixed.kind = .pulse) ∧
        ∃ o, r.context.opening = some o ∧ o.serial ≠ n
    (waits → r.limits.silenceLimit.toNat ≤ r.context.silence + 1 →
      exec (.silenceLimit i) s = .next
        (State.setSlot { s with observations := s.observations ++ [⟨s.handleOf i, none, n⟩] } i
          ⟨s.slots[i].generation,
            .live { r with context := { Context.initial with phase := .opening, inbox := before ++ after } }⟩) ∧
      exec (.boundaryTaken i) s = exec (.silenceLimit i) s) ∧
    (r.context.silence + 1 < r.limits.silenceLimit.toNat → exec (.silenceLimit i) s = .next s)

/-! ## Time bases -/

/-- SET_TIMEBASE checks base, tap and modulus in that order, is refused with TIMEBASE_BUSY unless the base is STOPPED, and else
replaces tap and modulus alone (R90). READ_TIMEBASE reports tap, modulus, state, gate serial and the number of subscribers in
every state, and changes nothing (R93). -/
def Obligations.SetAndReadTimebase : Prop :=
  ∀ (f : Frame) (base tap : Byte) (modulus : Word16) (s : State), s.receiving →
    let refusedWith := fun (e : ResultCode) (payload : List Byte) =>
      exec (.setTimebase f base tap modulus) s = .next (s.replied (7 + f.fill) ⟨e, f.tag, 0x20, payload⟩)
    (3 < base.toNat →
      refusedWith .badField [1] ∧
      exec (.readTimebase f base) s = .next (s.replied (4 + f.fill) ⟨.badField, f.tag, 0x23, [1]⟩)) ∧
    (∀ b : BaseIx, base.toNat = b.val →
      (7 < tap.toNat → refusedWith .badField [2]) ∧
      (tap.toNat ≤ 7 → modulus.toNat < 16 → refusedWith .badField [3]) ∧
      (tap.toNat ≤ 7 → 16 ≤ modulus.toNat → s.bases[b].state ≠ .stopped → refusedWith .timebaseBusy []) ∧
      (∀ k : Fin 8, tap.toNat = k.val → 16 ≤ modulus.toNat → s.bases[b].state = .stopped →
        exec (.setTimebase f base tap modulus) s =
          .next ((s.setBase b { s.bases[b] with tap := k, modulus := modulus }).replied (7 + f.fill)
            ⟨.ok, f.tag, 0x20, []⟩)) ∧
      exec (.readTimebase f base) s =
        .next (s.replied (4 + f.fill) ⟨.ok, f.tag, 0x23,
          [BitVec.ofNat 8 s.bases[b].tap.val, s.bases[b].modulus.extractLsb' 8 8, s.bases[b].modulus.extractLsb' 0 8,
           baseStateCode s.bases[b].state, s.bases[b].serial.extractLsb' 8 8, s.bases[b].serial.extractLsb' 0 8,
           BitVec.ofNat 8 s.bases[b].subscribers.length]⟩))

/-- START_TIMEBASE is refused unless the base is STOPPED and the Reference Checker NORMAL; else the base runs from counter, serial
and divider 0. CLEAR_FAULT is taken in FAULT_LATCHED alone: the checker is NORMAL and every STALLED base runs on from
counter and divider 0 with its serial kept. Both hand the run notice to the subscribers of the bases they start, of which a
SUSPENDED one stands, and change nothing else (R49, R83, R91, R94, R99, R161). -/
def Obligations.StartTimebaseAndClearFault : Prop :=
  (∀ (f : Frame) (base : Byte) (s : State), s.receiving →
    (3 < base.toNat →
      exec (.startTimebase f base) s = .next (s.replied (4 + f.fill) ⟨.badField, f.tag, 0x21, [1]⟩)) ∧
    (∀ b : BaseIx, base.toNat = b.val →
      (s.bases[b].state ≠ .stopped →
        exec (.startTimebase f base) s = .next (s.replied (4 + f.fill) ⟨.wrongState, f.tag, 0x21, []⟩)) ∧
      (s.bases[b].state = .stopped → s.ref.supervision ≠ .normal →
        exec (.startTimebase f base) s = .next (s.replied (4 + f.fill) ⟨.faulted, f.tag, 0x21, []⟩)) ∧
      (s.bases[b].state = .stopped → s.ref.supervision = .normal →
        ∃ t, exec (.startTimebase f base) s = .next t ∧ s.answered t (4 + f.fill) ⟨.ok, f.tag, 0x21, []⟩ ∧
          t.bases = s.bases.set b.val
            { s.bases[b] with state := .running, counter := 0, serial := 0, divider := 0 } b.isLt ∧
          t.pins = s.pins ∧ t.trips = s.trips ∧ t.observations = s.observations ∧ t.ref = s.ref ∧ t.scrub = s.scrub ∧
          t.supply = s.supply ∧ t.inReset = s.inReset ∧ t.pending = s.pending ∧
          deviceKinds t.notices = deviceKinds s.notices ∧
          (∀ (i : SlotIx) (r : Record), i ∈ s.bases[b].subscribers → s.recordAt i = some r → r.fixed.base = b →
            r.suspensionFits → s.runReaches t i r) ∧
          (∀ i : SlotIx, i ∉ s.bases[b].subscribers → s.stands t i)))) ∧
  (∀ (f : Frame) (s : State), s.receiving →
    (s.ref.supervision = .referenceFault →
      exec (.clearFault f) s = .next (s.replied (3 + f.fill) ⟨.faulted, f.tag, 0x38, []⟩)) ∧
    (s.ref.supervision = .normal →
      exec (.clearFault f) s = .next (s.replied (3 + f.fill) ⟨.wrongState, f.tag, 0x38, []⟩)) ∧
    (s.ref.supervision = .faultLatched →
      ∃ (t : State) (named : Byte), exec (.clearFault f) s = .next t ∧
        s.answered t (3 + f.fill) ⟨.ok, f.tag, 0x38, [named]⟩ ∧
        (∀ b : BaseIx, named.getLsbD b.val = decide (s.bases[b].state = .stalled)) ∧ named.toNat < 16 ∧
        (∀ b : BaseIx, t.bases[b] =
          if s.bases[b].state = .stalled then { s.bases[b] with state := .running, counter := 0, divider := 0 }
          else s.bases[b]) ∧
        t.ref = { s.ref with supervision := .normal } ∧ t.pins = s.pins ∧ t.trips = s.trips ∧
        t.observations = s.observations ∧ t.scrub = s.scrub ∧ t.supply = s.supply ∧ t.inReset = s.inReset ∧
        t.pending = s.pending ∧ deviceKinds t.notices = deviceKinds s.notices ∧
        (∀ (b : BaseIx) (i : SlotIx) (r : Record), s.bases[b].state = .stalled → i ∈ s.bases[b].subscribers →
          s.recordAt i = some r → r.fixed.base = b → r.suspensionFits → s.runReaches t i r) ∧
        (∀ i : SlotIx, (∀ b : BaseIx, s.bases[b].state = .stalled → i ∉ s.bases[b].subscribers) → s.stands t i)))

/-- STOP_TIMEBASE is refused on a STOPPED base. It stops a STALLED base and changes nothing else; it stops a RUNNING one with its
counter and serial kept and hands the stop notice to its subscribers: measuring and DORMANT ones enter HELD, VIOLATED ones
freeze, SUSPENDED ones stand, and so does every slot that is neither a subscriber's nor reached by the cascade of one
(R49, R50, R92, R94). -/
def Obligations.StopTimebase : Prop :=
  ∀ (f : Frame) (base : Byte) (s : State), s.receiving →
    (3 < base.toNat →
      exec (.stopTimebase f base) s = .next (s.replied (4 + f.fill) ⟨.badField, f.tag, 0x22, [1]⟩)) ∧
    (∀ b : BaseIx, base.toNat = b.val →
      (s.bases[b].state = .stopped →
        exec (.stopTimebase f base) s = .next (s.replied (4 + f.fill) ⟨.wrongState, f.tag, 0x22, []⟩)) ∧
      (s.bases[b].state = .stalled →
        exec (.stopTimebase f base) s =
          .next ((s.setBase b { s.bases[b] with state := .stopped }).replied (4 + f.fill) ⟨.ok, f.tag, 0x22, [0x02]⟩)) ∧
      (s.bases[b].state = .running → s.treeSound →
        ∃ t, exec (.stopTimebase f base) s = .next t ∧ s.answered t (4 + f.fill) ⟨.ok, f.tag, 0x22, [0x01]⟩ ∧
          t.bases = s.bases.set b.val { s.bases[b] with state := .stopped } b.isLt ∧ t.pins = s.pins ∧
          t.trips = s.trips ∧ t.ref = s.ref ∧ t.scrub = s.scrub ∧ t.supply = s.supply ∧ t.inReset = s.inReset ∧
          t.pending = s.pending ∧ deviceKinds t.notices = deviceKinds s.notices ∧
          (∀ (i : SlotIx) (r : Record), i ∈ s.bases[b].subscribers → s.recordAt i = some r → r.fixed.base = b →
            r.suspensionFits → s.stopReaches t i r) ∧
          (∀ i : SlotIx, i ∉ s.bases[b].subscribers → (∀ k ∈ s.bases[b].subscribers, ¬ s.reaches k i) → s.stands t i)))

/-- At the 2^tap-th REFCLK edge of a base tick the gate counter of a RUNNING base advances and the next tick begins; where that
would reach the modulus it returns to 0, the serial advances, and the boundary is handed to every measuring subscriber and no one
else (R83, R86, R87). An event whose condition does not hold does not happen (log entry 4). -/
def Obligations.TicksAndBoundaries : Prop :=
  ∀ (b : BaseIx) (s : State), s.inReset = false →
    let t := s.bases[b]
    let tickEnds := t.state = .running ∧ 2 ^ t.tap.val ≤ t.divider
    (tickEnds → t.counter.toNat + 1 < t.modulus.toNat →
      exec (.baseTickEnd b) s = .next (s.setBase b { t with counter := t.counter + 1, divider := 0 }) ∧
      exec (.gateBoundary b) s = .next s) ∧
    (tickEnds → t.modulus.toNat ≤ t.counter.toNat + 1 → SlotSet.Canonical t.subscribers →
      exec (.baseTickEnd b) s = .next s ∧
      ∃ u, exec (.gateBoundary b) s = .next u ∧
        u = { s with
          slots := u.slots
          bases := s.bases.set b.val { t with counter := 0, serial := t.serial + 1, divider := 0 } b.isLt } ∧
        ∀ i : SlotIx, u.slots[i] =
          match s.recordAt i with
          | some r =>
            if i ∈ t.subscribers ∧ s.measures r = true then
              { generation := s.slots[i].generation
                body := .live
                  { r with context := { r.context with inbox := r.context.inbox ++ [.boundary (t.serial + 1)] } } }
            else s.slots[i]
          | none => s.slots[i]) ∧
    (¬ tickEnds → exec (.baseTickEnd b) s = .next s ∧ exec (.gateBoundary b) s = .next s)

/-! ## Signal inputs -/

/-- SET_PIN checks pin and setting in that order; when taken it sets the filter, restarts the run count and acts on each member of
the pin's set in ascending slot order. A measuring member re-enters ARMING when the health change of no other member reaches it;
when one at a lower slot does, it is DORMANT as the cascade left it; and when only ones at higher slots do, it re-enters
ARMING and is then made DORMANT, BLOCKED being posted in both as the mask then in force asks. A VIOLATED member, headed by another
or not, restarts its recovery, with its measurement gone if it measured. Any other member stands, and so does every slot that no
member's health change reaches. Levels and lines are untouched (R107, R108, R116). -/
def Obligations.SetPinRestartsMeasurements : Prop :=
  ∀ (f : Frame) (pin setting : Byte) (s : State), s.receiving →
    (23 < pin.toNat → exec (.setPin f pin setting) s = .next (s.replied (5 + f.fill) ⟨.badField, f.tag, 0x28, [1]⟩)) ∧
    (pin.toNat ≤ 23 → 7 < setting.toNat →
      exec (.setPin f pin setting) s = .next (s.replied (5 + f.fill) ⟨.badField, f.tag, 0x28, [2]⟩)) ∧
    (∀ (p : PinIx) (n : Fin 8), pin.toNat = p.val → setting.toNat = n.val → s.setsCanonical → s.treeSound →
      ∃ t, exec (.setPin f pin setting) s = .next t ∧
        s.answered t (5 + f.fill) ⟨.ok, f.tag, 0x28, [BitVec.ofNat 8 s.pins[p].subscribers.length]⟩ ∧
        t.pins = s.pins.set p.val { s.pins[p] with filter := n, runCount := 0 } p.isLt ∧ t.bases = s.bases ∧
        t.trips = s.trips ∧ t.ref = s.ref ∧ t.scrub = s.scrub ∧ t.supply = s.supply ∧ t.inReset = s.inReset ∧
        t.pending = s.pending ∧ deviceKinds t.notices = deviceKinds s.notices ∧
        (∀ (i : SlotIx) (r : Record), i ∈ s.pins[p].subscribers → s.recordAt i = some r →
          let heads := fun k : SlotIx => k ∈ s.pins[p].subscribers ∧ s.reaches k i
          (isMeasuring r.state = true →
            t.nonePending i ∧
            ((∀ k, ¬ heads k) → s.armed t i r ∧ s.posted t i 0) ∧
            (∀ k, heads k → k < i →
              t.recordAt i = some (r.asideIn .dormant) ∧ s.posted t i (askedFor r.limits.noticeMask 0x04)) ∧
            (∀ k, heads k → (∀ k', heads k' → i < k') →
              ∃ r', t.recordAt i = some r' ∧ r' = r.dormantFrom r'.checkCode ∧
                s.posted t i (askedFor r'.limits.noticeMask 0x04) ∧
                (s.codeAgrees i r = true → t.codeAgrees i r' = true))) ∧
          (r.state = .violated → s.measures r = true →
            t.recordAt i = some { r with recoveryRun := 0, context := Context.initial } ∧ t.nonePending i ∧
              s.posted t i 0) ∧
          (r.state = .violated → s.measures r = false →
            t.recordAt i = some { r with recoveryRun := 0 } ∧ s.posted t i 0) ∧
          (isMeasuring r.state = false → r.state ≠ .violated → s.stands t i)) ∧
        (∀ i : SlotIx, i ∉ s.pins[p].subscribers → (∀ k ∈ s.pins[p].subscribers, ¬ s.reaches k i) → s.stands t i))

/-- A sample that an initialized channel has due, one at each REFCLK edge: one that equals the filtered level sets the run count
to 0; one that differs adds one to it, short of 2^n; and the one that reaches 2^n changes the level, sets the run count to 0
and produces an edge, handed to every measuring subscriber with the stamp of its own time base and to no one else, once every base
has counted the tick that the REFCLK edge ends (R102, R104, R105). The last is EDGE_PRODUCED, the others PIN_SAMPLE; an event
whose condition does not hold, one with no sample due among them, does not happen (log entries 4 and 7). -/
def Obligations.SamplesAndEdges : Prop :=
  ∀ (p : PinIx) (level : Bool) (s : State), s.inReset = false →
    let c := s.pins[p]
    let sampling := c.initialized = true ∧ c.due = true
    let ticksCounted := ∀ b : BaseIx, s.bases[b].state = .running → s.bases[b].divider < 2 ^ s.bases[b].tap.val
    (sampling → level = c.level →
      exec (.pinSample p level) s = .next (s.setChannel p { c with raw := level, runCount := 0, due := false })) ∧
    (sampling → level ≠ c.level → c.runCount + 1 < 2 ^ c.filter.val →
      exec (.pinSample p level) s =
        .next (s.setChannel p { c with raw := level, runCount := c.runCount + 1, due := false }) ∧
      exec (.edgeProduced p) s = .next s) ∧
    (sampling → 2 ^ c.filter.val ≤ c.runCount + 1 → level ≠ c.level → exec (.pinSample p level) s = .next s) ∧
    (sampling → 2 ^ c.filter.val ≤ c.runCount + 1 → ticksCounted → SlotSet.Canonical c.subscribers →
      ∃ u, exec (.edgeProduced p) s = .next u ∧
        u = { s with
          slots := u.slots
          pins := s.pins.set p.val { c with raw := !c.level, level := !c.level, runCount := 0, due := false } p.isLt } ∧
        ∀ i : SlotIx, u.slots[i] =
          match s.recordAt i with
          | some r =>
            if i ∈ c.subscribers ∧ s.measures r = true then
              { generation := s.slots[i].generation
                body := .live
                  { r with
                    context :=
                      { r.context with
                        inbox := r.context.inbox ++
                          [.edge (if c.level then .fall else .rise)
                            ⟨s.bases[r.fixed.base].serial, s.bases[r.fixed.base].counter⟩] } } }
            else s.slots[i]
          | none => s.slots[i]) ∧
    (¬ ticksCounted → exec (.edgeProduced p) s = .next s) ∧
    (¬ sampling → exec (.pinSample p level) s = .next s ∧ exec (.edgeProduced p) s = .next s)

/-- The first REFCLK rising edge after a reset gives every channel the level of that sample with its flag set, its run count 0
and no edge; READ_PINS reports the filtered levels and the numbers of subscribers, and changes nothing (R103, R110, R184). A
channel that is initialized, or that has seen no edge since the reset, takes no first sample (log entries 4 and 7). -/
def Obligations.FirstSampleAndReadPins : Prop :=
  (∀ (levels : BitVec 24) (s : State), s.inReset = false →
    ∃ t, exec (.firstSample levels) s = .next t ∧ t = { s with pins := t.pins } ∧
      ∀ p : PinIx, t.pins[p] =
        if s.pins[p].initialized = true ∨ s.pins[p].due = false then s.pins[p]
        else
          { s.pins[p] with
            raw := levels.getLsbD p.val, level := levels.getLsbD p.val, initialized := true, runCount := 0,
            due := false }) ∧
  (∀ (f : Frame) (s : State), s.receiving →
    ∃ high mid low : Byte,
      exec (.readPins f) s = .next (s.replied (3 + f.fill) ⟨.ok, f.tag, 0x29,
        high :: mid :: low :: allPins.map (fun p => BitVec.ofNat 8 s.pins[p].subscribers.length)⟩) ∧
      ∀ p : PinIx, (high ++ mid ++ low : BitVec 24).getLsbD p.val = s.pins[p].level)

/-! ## Amendments -/

/-- The checks of AMEND after its first pass and its handle: WRONG_STATE in DONE and CORRUPT; then the fields against the kind and
the oneshot flag of the record, in field order (R123). -/
def Obligations.AmendChecks : Prop :=
  ∀ (f : Frame) (o : AmendBytes) (s : State) (i : SlotIx) (r : Record), s.receiving →
    o.handle.slot.toNat = i.val → (∀ n : Fin 16, ¬ o.fieldFails n.val) →
    s.slots[i].generation = o.handle.generation → s.recordAt i = some r →
    ((r.state = .done ∨ r.state = .corrupt) →
      exec (.amend f o) s = .next (s.replied (24 + f.fill) ⟨.wrongState, f.tag, 0x09, []⟩)) ∧
    (∀ n : Fin 16, r.state ≠ .done → r.state ≠ .corrupt → o.limits.kindFails r.fixed.kind r.fixed.oneshot n.val →
      (∀ m : Fin 16, m < n → ¬ o.limits.kindFails r.fixed.kind r.fixed.oneshot m.val) →
      exec (.amend f o) s = .next (s.replied (24 + f.fill) ⟨.badField, f.tag, 0x09, [BitVec.ofNat 8 n.val]⟩))

/-- An AMEND that passes. In staged mode it stores its values as the staged amendment and changes nothing else. In immediate mode
it puts them in force and discards a staged amendment: a measuring contract re-enters ARMING, a VIOLATED one restarts its
recovery with its lines brought to the new mask, a blocked one keeps its state; where the health of the contract does not change,
every other slot stands. OK_REPLACED says that a staged amendment was there (R32, R124, R127, R128). -/
def Obligations.AmendStagedOrImmediate : Prop :=
  ∀ (f : Frame) (o : AmendBytes) (s : State) (i : SlotIx) (r : Record), s.receiving → s.treeSound →
    o.handle.slot.toNat = i.val → (∀ n : Fin 16, ¬ o.fieldFails n.val) →
    s.slots[i].generation = o.handle.generation → s.recordAt i = some r → r.state ≠ .done → r.state ≠ .corrupt →
    (∀ n : Fin 16, ¬ o.limits.kindFails r.fixed.kind r.fixed.oneshot n.val) →
    let result : ResultCode := if r.staged = none then .ok else .okReplaced
    ∃ t r', exec (.amend f o) s = .next t ∧ t.recordAt i = some r' ∧ t.codeAgrees i r' = true ∧ s.posted t i 0 ∧
      (o.mode = 1 →
        ∃ a, r'.staged = some a ∧ o.limits.gives a ∧ r' = { r with staged := some a, checkCode := r'.checkCode } ∧
          s.answered t (24 + f.fill) ⟨result, f.tag, 0x09, [stateCode r.state]⟩ ∧ t.trips = s.trips ∧
          t.observations = s.observations ∧ s.onlySlot t i) ∧
      (o.mode = 2 →
        o.limits.gives r'.limits ∧
        (isMeasuring r.state = true →
          r' = ({ r with limits := r'.limits, staged := none } : Record).armedFrom r'.checkCode ∧ t.nonePending i ∧
          s.answered t (24 + f.fill) ⟨result, f.tag, 0x09, [0x01]⟩ ∧ t.trips = s.trips ∧
          (isHealthy r.state = false → s.onlySlot t i) ∧ s.onlyBelow t i) ∧
        (r.state = .violated →
          r' = { r with
            limits := r'.limits
            staged := none
            checkCode := r'.checkCode
            recoveryRun := 0
            context := if s.measures r then Context.initial else r.context } ∧
          (s.measures r = true → t.nonePending i) ∧
          s.answered t (24 + f.fill) ⟨result, f.tag, 0x09, [0x04]⟩ ∧ s.onlySlot t i ∧ s.linesOfOthersKept t i ∧
          ∀ l : LineIx,
            let old := r.limits.tripMask.getLsbD l.val
            let new := r'.limits.tripMask.getLsbD l.val
            (i ∈ t.trips[l].contributors ↔
              i ∈ s.trips[l].contributors ∧ ¬ (old = true ∧ new = false) ∨ (old = false ∧ new = true)) ∧
            (t.trips[l].held = true ↔ s.trips[l].held = true ∨
              (old = false ∧ new = true ∧ s.trips[l].policy = .hold ∧ s.trips[l].contributors = []))) ∧
        (isBlocked r.state = true →
          r' = { r with limits := r'.limits, staged := none, checkCode := r'.checkCode } ∧
          s.answered t (24 + f.fill) ⟨result, f.tag, 0x09, [stateCode r.state]⟩ ∧ t.trips = s.trips ∧
          t.observations = s.observations ∧ s.onlySlot t i))

/-! ## Notices -/

/-- READ_NOTICES reports the number of entries and the first eight, each with its owner's present state, and removes nothing.
ACK_NOTICE is checked in order; when taken it removes the kinds named from the entry, the entry from the queue when none is
left, and a DRAINING slot of an emptied entry becomes FREE (R137, R139 to R141, R184). -/
def Obligations.NoticesReadAndAcknowledged : Prop :=
  (∀ (f : Frame) (s : State), s.receiving →
    ∃ p : List Byte,
      exec (.readNotices f) s = .next (s.replied (3 + f.fill) ⟨.ok, f.tag, 0x18, p⟩) ∧
      p.length = 1 + 4 * min s.notices.length 8 ∧ p[0]? = some (BitVec.ofNat 8 s.notices.length) ∧
      ∀ (k : Fin 8) (e : NoticeEntry), s.notices[k.val]? = some e →
        (p.drop (1 + 4 * k.val)).take 4 =
          match e with
          | .contract i g ks => [BitVec.ofNat 8 i.val, g, ks.setWidth 8, slotCode s.slots[i].body]
          | .device ks => [0xFF, 0x00, ks.setWidth 8, supervisionCode s.ref.supervision]) ∧
  (∀ (f : Frame) (h : HandleBytes) (kinds : Byte) (s : State), s.receiving → s.noticesSound →
    let refusedWith := fun (e : ResultCode) (payload : List Byte) =>
      exec (.ackNotice f h kinds) s = .next (s.replied (6 + f.fill) ⟨e, f.tag, 0x19, payload⟩)
    (63 < h.slot.toNat → h.slot ≠ 0xFF → refusedWith .badField [1]) ∧
    (h.slot = 0xFF →
      (7 < kinds.toNat → refusedWith .badField [2]) ∧
      (kinds.toNat ≤ 7 → deviceKinds s.notices = none → refusedWith .noContract []) ∧
      (∀ ks, kinds.toNat ≤ 7 → deviceKinds s.notices = some ks →
        let left := ks &&& ~~~(kinds.setWidth 3)
        exec (.ackNotice f h kinds) s = .next
          (State.replied
            { s with
              notices := s.notices.filterMap (fun e =>
                match e with
                | .device _ => if left = 0 then none else some (.device left)
                | .contract _ _ _ => some e) }
            (6 + f.fill) ⟨.ok, f.tag, 0x19, [left.setWidth 8, supervisionCode s.ref.supervision]⟩))) ∧
    (∀ i : SlotIx, h.slot.toNat = i.val →
      (127 < kinds.toNat → refusedWith .badField [2]) ∧
      (kinds.toNat ≤ 127 → s.slots[i].generation ≠ h.generation → refusedWith .staleHandle []) ∧
      (kinds.toNat ≤ 127 → s.slots[i].generation = h.generation → s.hasEntry i = false → refusedWith .noContract []) ∧
      (∀ ks, kinds.toNat ≤ 127 → s.slots[i].generation = h.generation → contractKinds i s.notices = some ks →
        let left := ks &&& ~~~(kinds.setWidth 7)
        let released := left = 0 ∧ s.slots[i].body = .draining
        exec (.ackNotice f h kinds) s = .next
          (State.replied
            { s with
              slots := if released then s.slots.set i.val ⟨s.slots[i].generation, .free⟩ i.isLt else s.slots
              notices := s.notices.filterMap (fun e =>
                match e with
                | .contract j g _ =>
                  if j = i then (if left = 0 then none else some (.contract j g left)) else some e
                | .device _ => some e) }
            (6 + f.fill)
            ⟨.ok, f.tag, 0x19, [left.setWidth 8, if released then 0x00 else slotCode s.slots[i].body]⟩))))

/-! ## Trip outputs -/

/-- SET_TRIP replaces a line's policy and FORCE_TRIP sets its forced flag, each after its field checks and with nothing else
changed; READ_TRIPS reports policy, flags and assertion, the contributor count and the lowest contributing slot of every
line (R145, R147, R149, R150, R154, R184). -/
def Obligations.TripPolicyAndForce : Prop :=
  (∀ (f : Frame) (line policy : Byte) (s : State), s.receiving →
    (3 < line.toNat →
      exec (.setTrip f line policy) s = .next (s.replied (5 + f.fill) ⟨.badField, f.tag, 0x30, [1]⟩) ∧
      exec (.forceTrip f line) s = .next (s.replied (4 + f.fill) ⟨.badField, f.tag, 0x32, [1]⟩)) ∧
    (∀ l : LineIx, line.toNat = l.val →
      (1 < policy.toNat →
        exec (.setTrip f line policy) s = .next (s.replied (5 + f.fill) ⟨.badField, f.tag, 0x30, [2]⟩)) ∧
      (∀ p : Policy, policyCode p = policy →
        let t := s.setLine l { s.trips[l] with policy := p }
        ∃ b : Byte, exec (.setTrip f line policy) s = .next (t.replied (5 + f.fill) ⟨.ok, f.tag, 0x30, [b]⟩) ∧
          t.lineShown l b) ∧
      (let t := s.setLine l { s.trips[l] with forced := true }
       ∃ b : Byte, exec (.forceTrip f line) s = .next (t.replied (4 + f.fill) ⟨.ok, f.tag, 0x32, [b]⟩) ∧
         t.lineShown l b))) ∧
  (∀ (f : Frame) (s : State), s.receiving → s.setsCanonical →
    ∃ p : List Byte, exec (.readTrips f) s = .next (s.replied (3 + f.fill) ⟨.ok, f.tag, 0x33, p⟩) ∧ p.length = 12 ∧
      ∀ l : LineIx, ∃ b low : Byte,
        (p.drop (3 * l.val)).take 3 = [b, BitVec.ofNat 8 s.trips[l].contributors.length, low] ∧ s.lineShown l b ∧
        (s.trips[l].contributors = [] → low = 0xFF) ∧
        (∀ i ∈ s.trips[l].contributors, (∀ j ∈ s.trips[l].contributors, i ≤ j) → low = BitVec.ofNat 8 i.val))

/-- RELEASE_TRIP checks the line number, then that the Reference Checker is NORMAL, then that no contract contributes, and is
refused whole at the first that fails; when taken, both flags are cleared, the policy is kept, and the line is released
(R152). -/
def Obligations.ReleaseTrip : Prop :=
  ∀ (f : Frame) (line : Byte) (s : State), s.receiving →
    let refusedWith := fun (e : ResultCode) (payload : List Byte) =>
      exec (.releaseTrip f line) s = .next (s.replied (4 + f.fill) ⟨e, f.tag, 0x31, payload⟩)
    (3 < line.toNat → refusedWith .badField [1]) ∧
    (∀ l : LineIx, line.toNat = l.val →
      (s.ref.supervision ≠ .normal → refusedWith .faulted []) ∧
      (s.ref.supervision = .normal → s.trips[l].contributors ≠ [] →
        refusedWith .contributors [BitVec.ofNat 8 s.trips[l].contributors.length]) ∧
      (s.ref.supervision = .normal → s.trips[l].contributors = [] →
        let t := s.setLine l { s.trips[l] with held := false, forced := false }
        t.lineReleased l ∧
        exec (.releaseTrip f line) s =
          .next (t.replied (4 + f.fill) ⟨.ok, f.tag, 0x31, [policyCode s.trips[l].policy]⟩)))

/-! ## The Reference Checker, the scrubber and the check code -/

/-- REFERENCE_LOSS restarts the checker's count; in reset and in REFERENCE_FAULT it does no more; else the checker enters
REFERENCE_FAULT, every RUNNING base stalls with its subscribers held, frozen or, SUSPENDED, as they were, every HOLD line is held
and REFERENCE_LOST is posted, before or after the stop notice's postings as the event says (R97, R156, R157, R159; log entry
10). GOOD_PERIOD is a REFCLK rising edge: the checker counts it, the divider of every RUNNING base advances, and every channel
has a sample due; at the
1024th good period in REFERENCE_FAULT it is the return, which enters FAULT_LATCHED and posts REFERENCE_BACK. REFERENCE_RETURN
is that last edge (R49, R83, R102, R156, R158, R160, R163; log entry 8). Out of reset neither an edge nor a loss comes before every
block has taken its part of the edge before (log entries 4 and 7). In reset the checker counts below 1.2 V too, which is the
model's choice (log entry 24). -/
def Obligations.ReferenceLossAndReturn : Prop :=
  let edgeTaken := fun s : State =>
    (∀ b : BaseIx, s.bases[b].state = .running → s.bases[b].divider < 2 ^ s.bases[b].tap.val) ∧
      ∀ p : PinIx, s.pins[p].due = false
  let counted := fun s : State =>
    if s.ref.gap = .running then min (s.ref.goodPeriods + 1) 1024 else s.ref.goodPeriods
  let reachesAll := fun s t : State =>
    (∀ b : BaseIx, t.bases[b] =
      if s.bases[b].state = .running then { s.bases[b] with divider := s.bases[b].divider + 1 } else s.bases[b]) ∧
    ∀ p : PinIx, t.pins[p] = { s.pins[p] with due := true }
  (∀ (first : Bool) (s : State), (s.inReset = true ∨ s.ref.supervision = .referenceFault ∧ edgeTaken s) →
    exec (.referenceLoss first) s = .next { s with ref := { s.ref with gap := .expired, goodPeriods := 0 } }) ∧
  (∀ (first : Bool) (s : State), s.inReset = false → edgeTaken s → s.ref.supervision ≠ .referenceFault → s.treeSound →
    ∃ t, exec (.referenceLoss first) s = .next t ∧
      t.ref = { supervision := .referenceFault, gap := .expired, goodPeriods := 0 } ∧
      (∀ b : BaseIx, t.bases[b] =
        if s.bases[b].state = .running then { s.bases[b] with state := .stalled } else s.bases[b]) ∧
      (∀ l : LineIx, t.trips[l] = { s.trips[l] with held := s.trips[l].held || decide (s.trips[l].policy = .hold) }) ∧
      t.pins = s.pins ∧ t.scrub = s.scrub ∧ t.port = s.port ∧ t.supply = s.supply ∧ t.inReset = s.inReset ∧
      t.pending = s.pending ∧ deviceKinds t.notices = some ((deviceKinds s.notices).getD 0 ||| 0x2) ∧
      (deviceKinds s.notices = none → first = true → t.notices[s.notices.length]? = some (.device 0x2)) ∧
      (deviceKinds s.notices = none → first = false → t.notices.getLast? = some (.device 0x2)) ∧
      (∀ (b : BaseIx) (i : SlotIx) (r : Record), s.bases[b].state = .running → i ∈ s.bases[b].subscribers →
        s.recordAt i = some r → r.fixed.base = b → r.suspensionFits → s.stopReaches t i r) ∧
      (∀ i : SlotIx,
        (∀ b : BaseIx, s.bases[b].state = .running → ∀ k ∈ s.bases[b].subscribers, i ≠ k ∧ ¬ s.reaches k i) →
        s.stands t i)) ∧
  (∀ s : State, s.inReset = false → edgeTaken s → s.ref.supervision = .referenceFault → counted s = 1024 →
    ∃ t, exec .referenceReturn s = .next t ∧ exec .goodPeriod s = .next t ∧
      t = { s with
        bases := t.bases
        pins := t.pins
        ref := { supervision := .faultLatched, gap := .running, goodPeriods := 1024 }
        notices := t.notices } ∧
      reachesAll s t ∧
      (deviceKinds s.notices = none → t.notices = s.notices ++ [.device 0x4]) ∧
      deviceKinds t.notices = some ((deviceKinds s.notices).getD 0 ||| 0x4) ∧
      ∀ i : SlotIx, s.posted t i 0) ∧
  (∀ s : State, (s.ref.supervision ≠ .referenceFault ∨ counted s ≠ 1024 ∨ s.inReset = true) →
    exec .referenceReturn s = .next s) ∧
  (∀ s : State, s.inReset = false → edgeTaken s → (s.ref.supervision ≠ .referenceFault ∨ counted s ≠ 1024) →
    ∃ t, exec .goodPeriod s = .next t ∧
      t = { s with
        bases := t.bases, pins := t.pins, ref := { s.ref with gap := .running, goodPeriods := counted s } } ∧
      reachesAll s t) ∧
  (∀ s : State, s.inReset = true →
    exec .goodPeriod s = .next { s with ref := { s.ref with gap := .running, goodPeriods := counted s } }) ∧
  (∀ (first : Bool) (s : State), s.inReset = false → ¬ edgeTaken s →
    exec .goodPeriod s = .next s ∧ exec .referenceReturn s = .next s ∧ exec (.referenceLoss first) s = .next s)

/-- STORAGE_CHANGE alters one covered field or the stored check code of a LIVE record and nothing else. SCRUBBER_VISIT advances the
scan position, wrapping from 63 to 0, and hands on a mismatch report exactly for a LIVE contract that is not CORRUPT and
whose stored code differs from the one computed afresh (R12, R164 to R166). With no LIVE record, no staged amendment for a field of
one, or a presence already set there is nothing to change (log entry 4). The fields of a staged amendment that becomes present are
those that the event names, which is the model's choice (log entry 28). -/
def Obligations.StorageAndScrubber : Prop :=
  (∀ (i : SlotIx) (x : StorageFault) (s : State), s.recordAt i = none → exec (.storageChange i x) s = .next s) ∧
  (∀ (i : SlotIx) (x : StorageFault) (s : State) (r : Record), s.recordAt i = some r →
    let becomes := fun r' : Record =>
      exec (.storageChange i x) s = .next (s.setSlot i ⟨s.slots[i].generation, .live r'⟩)
    let change := fun (c : LimitChange) (a : Limits) =>
      match c with
      | .lo v => { a with lo := v }
      | .hi v => { a with hi := v }
      | .margin v => { a with margin := v }
      | .tolerance v => { a with tolerance := v }
      | .recoveryCount v => { a with recoveryCount := v }
      | .silenceLimit v => { a with silenceLimit := v }
      | .settle v => { a with settle := v }
      | .tripMask v => { a with tripMask := v }
      | .noticeMask v => { a with noticeMask := v }
    match x with
    | .generation v => exec (.storageChange i x) s = .next (s.setSlot i ⟨v, .live r⟩)
    | .pin v => becomes { r with fixed := { r.fixed with pin := v } }
    | .kind v => becomes { r with fixed := { r.fixed with kind := v } }
    | .sense v => becomes { r with fixed := { r.fixed with sense := v } }
    | .base v => becomes { r with fixed := { r.fixed with base := v } }
    | .parent v => becomes { r with fixed := { r.fixed with parent := v } }
    | .oneshot v => becomes { r with fixed := { r.fixed with oneshot := v } }
    | .latching v => becomes { r with fixed := { r.fixed with latching := v } }
    | .inForce c => becomes { r with limits := change c r.limits }
    | .staged c => becomes { r with staged := r.staged.map (change c) }
    | .stagedPresence none => becomes { r with staged := none }
    | .stagedPresence (some a) => becomes { r with staged := some (r.staged.getD a) }
    | .checkCode v => becomes { r with checkCode := v }) ∧
  (∀ s : State, s.inReset = false →
    let p := s.scrub.position
    exec .scrubberVisit s = .next
      { s with
        scrub :=
          { position := Fin.ofNat 64 (p.val + 1)
            reports := s.scrub.reports ++
              match s.recordAt p with
              | none => []
              | some r =>
                if r.state ≠ .corrupt ∧
                    r.checkCode ≠ Config.checkCode ⟨s.slots[p].generation, r.fixed, r.limits, r.staged⟩ then
                  [⟨p, s.slots[p].generation⟩]
                else [] } })

/-- MISMATCH_REPORT takes a report that the scrubber has handed on. For a LIVE contract of its generation that is not CORRUPT, the
contract enters CORRUPT from whatever state: its measurement ends, it leaves its subscriber sets, joins all four lines,
CORRUPT is posted, every other field is kept, the dependents of a healthy one become DORMANT if they measure and freeze if they are
VIOLATED on a RUNNING base, and every slot that this health change does not reach stands. For any other slot the report has no
effect (R50, R51, R116, R167). A report that was not handed on is none (log entry 4). -/
def Obligations.MismatchMakesCorrupt : Prop :=
  ∀ (h : Handle) (s : State), s.inReset = false →
    (h ∉ s.scrub.reports → exec (.mismatchReport h) s = .next s) ∧
    (h ∈ s.scrub.reports →
      let scrub : Scrubber := { s.scrub with reports := s.scrub.reports.erase h }
      (s.contractAt h = none → exec (.mismatchReport h) s = .next { s with scrub := scrub }) ∧
      (∀ r, s.contractAt h = some r → r.state = .corrupt →
        exec (.mismatchReport h) s = .next { s with scrub := scrub }) ∧
      (∀ r, s.contractAt h = some r → r.state ≠ .corrupt → s.treeSound →
        ∃ t, exec (.mismatchReport h) s = .next t ∧
          t.recordAt h.slot = some { r with
            state := .corrupt
            context := if s.measures r then Context.initial else r.context } ∧
          (s.measures r = true → t.nonePending h.slot) ∧ s.posted t h.slot 0x20 ∧
          (∀ b : BaseIx, t.bases[b] =
            { s.bases[b] with subscribers := s.bases[b].subscribers.filter (· ≠ h.slot) }) ∧
          (∀ p : PinIx, t.pins[p] =
            { s.pins[p] with subscribers := s.pins[p].subscribers.filter (· ≠ h.slot) }) ∧
          s.linesOfOthersKept t h.slot ∧
          (∀ l : LineIx, h.slot ∈ t.trips[l].contributors ∧
            (t.trips[l].held = true ↔ s.trips[l].held = true ∨
              (s.trips[l].policy = .hold ∧ s.trips[l].contributors = []))) ∧
          t.scrub = scrub ∧ t.ref = s.ref ∧ t.port = s.port ∧ t.supply = s.supply ∧ t.inReset = s.inReset ∧
          t.pending = s.pending ∧ deviceKinds t.notices = deviceKinds s.notices ∧
          (∀ (d : SlotIx) (q : Record), isHealthy r.state = true → s.dependsOn d h.slot = true →
            s.recordAt d = some q → s.cascadeSetsAside t d q) ∧
          (∀ j : SlotIx, j ≠ h.slot → ¬ s.reaches h.slot j → s.stands t j)))
end

