-- ==== Sys2Proof/Laws/SlotSet.lean ====
section
/-! SUPPORT. What a slot joining or leaving a set does. -/

namespace Sys2Proof.Machine

@[simp] theorem SlotSet.mem_insert {i j : SlotIx} {l : List SlotIx} : j ∈ SlotSet.insert i l ↔ j = i ∨ j ∈ l := by
  induction l with
  | nil => simp [SlotSet.insert]
  | cons a t ih =>
    simp only [SlotSet.insert]
    split
    · simp
    · split
      · rename_i h; subst h; simp
      · simp only [List.mem_cons, ih]; tauto

@[simp] theorem SlotSet.mem_erase {i j : SlotIx} {l : List SlotIx} : j ∈ SlotSet.erase i l ↔ j ≠ i ∧ j ∈ l := by
  simp [SlotSet.erase, and_comm]

@[simp] theorem SlotSet.canonical_nil : SlotSet.Canonical [] := List.Pairwise.nil

theorem SlotSet.Canonical.insert {i : SlotIx} {l : List SlotIx} (h : SlotSet.Canonical l) :
    SlotSet.Canonical (SlotSet.insert i l) := by
  induction l with
  | nil => simp [SlotSet.insert, SlotSet.Canonical]
  | cons a t ih =>
    simp only [SlotSet.Canonical, List.pairwise_cons] at h ih ⊢
    simp only [SlotSet.insert]
    split
    · rename_i hlt
      refine List.pairwise_cons.2 ⟨?_, List.pairwise_cons.2 h⟩
      simp only [List.mem_cons]
      rintro b (rfl | hb)
      · exact hlt
      · exact lt_trans hlt (h.1 b hb)
    · split
      · exact List.pairwise_cons.2 h
      · rename_i h1 h2
        refine List.pairwise_cons.2 ⟨?_, ih h.2⟩
        simp only [SlotSet.mem_insert]
        rintro b (rfl | hb)
        · exact lt_of_le_of_ne (not_lt.1 h1) (Ne.symm h2)
        · exact h.1 b hb

theorem SlotSet.Canonical.erase {i : SlotIx} {l : List SlotIx} (h : SlotSet.Canonical l) :
    SlotSet.Canonical (SlotSet.erase i l) := List.Pairwise.filter _ h

theorem SlotSet.length_insert_le (i : SlotIx) (l : List SlotIx) : (SlotSet.insert i l).length ≤ l.length + 1 := by
  induction l with
  | nil => simp [SlotSet.insert]
  | cons a t ih =>
    simp only [SlotSet.insert]
    split
    · simp
    · split
      · simp
      · simp only [List.length_cons]; omega

theorem SlotSet.length_erase_le (i : SlotIx) (l : List SlotIx) : (SlotSet.erase i l).length ≤ l.length :=
  List.length_filter_le _ _

/-- A canonical set is empty exactly when it has no member. -/
theorem SlotSet.eq_nil_of_forall_not_mem {l : List SlotIx} (h : ∀ i, i ∉ l) : l = [] :=
  List.eq_nil_iff_forall_not_mem.2 h

@[simp] theorem mem_allSlots (i : SlotIx) : i ∈ allSlots := List.mem_finRange i
@[simp] theorem mem_allBases (b : BaseIx) : b ∈ allBases := List.mem_finRange b
@[simp] theorem mem_allPins (p : PinIx) : p ∈ allPins := List.mem_finRange p
@[simp] theorem mem_allLines (l : LineIx) : l ∈ allLines := List.mem_finRange l

theorem nodup_allSlots : allSlots.Nodup := List.nodup_finRange 64
theorem nodup_allBases : allBases.Nodup := List.nodup_finRange 4
theorem nodup_allPins : allPins.Nodup := List.nodup_finRange 24
theorem nodup_allLines : allLines.Nodup := List.nodup_finRange 4

end Sys2Proof.Machine
end

