-- ==== Sys2Proof/Laws/State.lean ====
section
/-! SUPPORT. One lemma per field for each update of the state, and what an entry reads as after a write. -/

namespace Sys2Proof.Machine

/-! ### setSlot -/

@[simp] theorem State.setSlot_bases (s : State) (i : SlotIx) (x : Slot) : (s.setSlot i x).bases = s.bases := rfl
@[simp] theorem State.setSlot_pins (s : State) (i : SlotIx) (x : Slot) : (s.setSlot i x).pins = s.pins := rfl
@[simp] theorem State.setSlot_trips (s : State) (i : SlotIx) (x : Slot) : (s.setSlot i x).trips = s.trips := rfl
@[simp] theorem State.setSlot_notices (s : State) (i : SlotIx) (x : Slot) : (s.setSlot i x).notices = s.notices := rfl
@[simp] theorem State.setSlot_observations (s : State) (i : SlotIx) (x : Slot) : (s.setSlot i x).observations = s.observations := rfl
@[simp] theorem State.setSlot_ref (s : State) (i : SlotIx) (x : Slot) : (s.setSlot i x).ref = s.ref := rfl
@[simp] theorem State.setSlot_scrub (s : State) (i : SlotIx) (x : Slot) : (s.setSlot i x).scrub = s.scrub := rfl
@[simp] theorem State.setSlot_port (s : State) (i : SlotIx) (x : Slot) : (s.setSlot i x).port = s.port := rfl
@[simp] theorem State.setSlot_supply (s : State) (i : SlotIx) (x : Slot) : (s.setSlot i x).supply = s.supply := rfl
@[simp] theorem State.setSlot_inReset (s : State) (i : SlotIx) (x : Slot) : (s.setSlot i x).inReset = s.inReset := rfl
@[simp] theorem State.setSlot_pending (s : State) (i : SlotIx) (x : Slot) : (s.setSlot i x).pending = s.pending := rfl
/-- The entry written reads as what was written. -/
@[simp] theorem State.setSlot_get (s : State) (i : SlotIx) (x : Slot) : (s.setSlot i x).slots[i.val] = x := by
  simp [State.setSlot]
/-- Every other entry reads as before. -/
theorem State.setSlot_get_ne (s : State) (i : SlotIx) (x : Slot) {j : SlotIx} (h : j ≠ i) :
    (s.setSlot i x).slots[j.val] = s.slots[j.val] := by
  have : i.val ≠ j.val := fun e => h (Fin.ext e.symm)
  simp [State.setSlot, Vector.getElem_set_ne, this]

/-! ### setBase -/

@[simp] theorem State.setBase_slots (s : State) (b : BaseIx) (x : TimeBase) : (s.setBase b x).slots = s.slots := rfl
@[simp] theorem State.setBase_pins (s : State) (b : BaseIx) (x : TimeBase) : (s.setBase b x).pins = s.pins := rfl
@[simp] theorem State.setBase_trips (s : State) (b : BaseIx) (x : TimeBase) : (s.setBase b x).trips = s.trips := rfl
@[simp] theorem State.setBase_notices (s : State) (b : BaseIx) (x : TimeBase) : (s.setBase b x).notices = s.notices := rfl
@[simp] theorem State.setBase_observations (s : State) (b : BaseIx) (x : TimeBase) : (s.setBase b x).observations = s.observations := rfl
@[simp] theorem State.setBase_ref (s : State) (b : BaseIx) (x : TimeBase) : (s.setBase b x).ref = s.ref := rfl
@[simp] theorem State.setBase_scrub (s : State) (b : BaseIx) (x : TimeBase) : (s.setBase b x).scrub = s.scrub := rfl
@[simp] theorem State.setBase_port (s : State) (b : BaseIx) (x : TimeBase) : (s.setBase b x).port = s.port := rfl
@[simp] theorem State.setBase_supply (s : State) (b : BaseIx) (x : TimeBase) : (s.setBase b x).supply = s.supply := rfl
@[simp] theorem State.setBase_inReset (s : State) (b : BaseIx) (x : TimeBase) : (s.setBase b x).inReset = s.inReset := rfl
@[simp] theorem State.setBase_pending (s : State) (b : BaseIx) (x : TimeBase) : (s.setBase b x).pending = s.pending := rfl
/-- The entry written reads as what was written. -/
@[simp] theorem State.setBase_get (s : State) (b : BaseIx) (x : TimeBase) : (s.setBase b x).bases[b.val] = x := by
  simp [State.setBase]
/-- Every other entry reads as before. -/
theorem State.setBase_get_ne (s : State) (b : BaseIx) (x : TimeBase) {j : BaseIx} (h : j ≠ b) :
    (s.setBase b x).bases[j.val] = s.bases[j.val] := by
  have : b.val ≠ j.val := fun e => h (Fin.ext e.symm)
  simp [State.setBase, Vector.getElem_set_ne, this]

/-! ### setChannel -/

@[simp] theorem State.setChannel_slots (s : State) (p : PinIx) (x : PinChannel) : (s.setChannel p x).slots = s.slots := rfl
@[simp] theorem State.setChannel_bases (s : State) (p : PinIx) (x : PinChannel) : (s.setChannel p x).bases = s.bases := rfl
@[simp] theorem State.setChannel_trips (s : State) (p : PinIx) (x : PinChannel) : (s.setChannel p x).trips = s.trips := rfl
@[simp] theorem State.setChannel_notices (s : State) (p : PinIx) (x : PinChannel) : (s.setChannel p x).notices = s.notices := rfl
@[simp] theorem State.setChannel_observations (s : State) (p : PinIx) (x : PinChannel) : (s.setChannel p x).observations = s.observations := rfl
@[simp] theorem State.setChannel_ref (s : State) (p : PinIx) (x : PinChannel) : (s.setChannel p x).ref = s.ref := rfl
@[simp] theorem State.setChannel_scrub (s : State) (p : PinIx) (x : PinChannel) : (s.setChannel p x).scrub = s.scrub := rfl
@[simp] theorem State.setChannel_port (s : State) (p : PinIx) (x : PinChannel) : (s.setChannel p x).port = s.port := rfl
@[simp] theorem State.setChannel_supply (s : State) (p : PinIx) (x : PinChannel) : (s.setChannel p x).supply = s.supply := rfl
@[simp] theorem State.setChannel_inReset (s : State) (p : PinIx) (x : PinChannel) : (s.setChannel p x).inReset = s.inReset := rfl
@[simp] theorem State.setChannel_pending (s : State) (p : PinIx) (x : PinChannel) : (s.setChannel p x).pending = s.pending := rfl
/-- The entry written reads as what was written. -/
@[simp] theorem State.setChannel_get (s : State) (p : PinIx) (x : PinChannel) : (s.setChannel p x).pins[p.val] = x := by
  simp [State.setChannel]
/-- Every other entry reads as before. -/
theorem State.setChannel_get_ne (s : State) (p : PinIx) (x : PinChannel) {j : PinIx} (h : j ≠ p) :
    (s.setChannel p x).pins[j.val] = s.pins[j.val] := by
  have : p.val ≠ j.val := fun e => h (Fin.ext e.symm)
  simp [State.setChannel, Vector.getElem_set_ne, this]

/-! ### setLine -/

@[simp] theorem State.setLine_slots (s : State) (l : LineIx) (x : TripLine) : (s.setLine l x).slots = s.slots := rfl
@[simp] theorem State.setLine_bases (s : State) (l : LineIx) (x : TripLine) : (s.setLine l x).bases = s.bases := rfl
@[simp] theorem State.setLine_pins (s : State) (l : LineIx) (x : TripLine) : (s.setLine l x).pins = s.pins := rfl
@[simp] theorem State.setLine_notices (s : State) (l : LineIx) (x : TripLine) : (s.setLine l x).notices = s.notices := rfl
@[simp] theorem State.setLine_observations (s : State) (l : LineIx) (x : TripLine) : (s.setLine l x).observations = s.observations := rfl
@[simp] theorem State.setLine_ref (s : State) (l : LineIx) (x : TripLine) : (s.setLine l x).ref = s.ref := rfl
@[simp] theorem State.setLine_scrub (s : State) (l : LineIx) (x : TripLine) : (s.setLine l x).scrub = s.scrub := rfl
@[simp] theorem State.setLine_port (s : State) (l : LineIx) (x : TripLine) : (s.setLine l x).port = s.port := rfl
@[simp] theorem State.setLine_supply (s : State) (l : LineIx) (x : TripLine) : (s.setLine l x).supply = s.supply := rfl
@[simp] theorem State.setLine_inReset (s : State) (l : LineIx) (x : TripLine) : (s.setLine l x).inReset = s.inReset := rfl
@[simp] theorem State.setLine_pending (s : State) (l : LineIx) (x : TripLine) : (s.setLine l x).pending = s.pending := rfl
/-- The entry written reads as what was written. -/
@[simp] theorem State.setLine_get (s : State) (l : LineIx) (x : TripLine) : (s.setLine l x).trips[l.val] = x := by
  simp [State.setLine]
/-- Every other entry reads as before. -/
theorem State.setLine_get_ne (s : State) (l : LineIx) (x : TripLine) {j : LineIx} (h : j ≠ l) :
    (s.setLine l x).trips[j.val] = s.trips[j.val] := by
  have : l.val ≠ j.val := fun e => h (Fin.ext e.symm)
  simp [State.setLine, Vector.getElem_set_ne, this]

end Sys2Proof.Machine
end

