-- ==== Sys2Proof/Laws/Ops.lean ====
section
/-! SUPPORT. What each shared operation of Machine/Ops.lean reads and leaves unchanged: one lemma per operation and field, and what
becomes of the record it edits. -/

namespace Sys2Proof.Machine

/-! ### mapRecord -/

@[simp] theorem State.mapRecord_bases (s : State) (i : SlotIx) (f : Record → Record) : (s.mapRecord i f).bases = s.bases := by
  unfold State.mapRecord; split <;> rfl
@[simp] theorem State.mapRecord_pins (s : State) (i : SlotIx) (f : Record → Record) : (s.mapRecord i f).pins = s.pins := by
  unfold State.mapRecord; split <;> rfl
@[simp] theorem State.mapRecord_trips (s : State) (i : SlotIx) (f : Record → Record) : (s.mapRecord i f).trips = s.trips := by
  unfold State.mapRecord; split <;> rfl
@[simp] theorem State.mapRecord_notices (s : State) (i : SlotIx) (f : Record → Record) : (s.mapRecord i f).notices = s.notices := by
  unfold State.mapRecord; split <;> rfl
@[simp] theorem State.mapRecord_observations (s : State) (i : SlotIx) (f : Record → Record) : (s.mapRecord i f).observations = s.observations := by
  unfold State.mapRecord; split <;> rfl
@[simp] theorem State.mapRecord_ref (s : State) (i : SlotIx) (f : Record → Record) : (s.mapRecord i f).ref = s.ref := by
  unfold State.mapRecord; split <;> rfl
@[simp] theorem State.mapRecord_scrub (s : State) (i : SlotIx) (f : Record → Record) : (s.mapRecord i f).scrub = s.scrub := by
  unfold State.mapRecord; split <;> rfl
@[simp] theorem State.mapRecord_port (s : State) (i : SlotIx) (f : Record → Record) : (s.mapRecord i f).port = s.port := by
  unfold State.mapRecord; split <;> rfl
@[simp] theorem State.mapRecord_supply (s : State) (i : SlotIx) (f : Record → Record) : (s.mapRecord i f).supply = s.supply := by
  unfold State.mapRecord; split <;> rfl
@[simp] theorem State.mapRecord_inReset (s : State) (i : SlotIx) (f : Record → Record) : (s.mapRecord i f).inReset = s.inReset := by
  unfold State.mapRecord; split <;> rfl
@[simp] theorem State.mapRecord_pending (s : State) (i : SlotIx) (f : Record → Record) : (s.mapRecord i f).pending = s.pending := by
  unfold State.mapRecord; split <;> rfl

@[simp] theorem State.mapRecord_generation (s : State) (i : SlotIx) (f : Record → Record) (j : SlotIx) :
    (s.mapRecord i f).slots[j.val].generation = s.slots[j.val].generation := by
  unfold State.mapRecord
  split
  · by_cases h : j = i
    · subst h; simp
    · simp [State.setSlot_get_ne, h]
  · rfl

/-- The body of a slot after an edit of a record: that record edited, every other body as it was. -/
theorem State.mapRecord_body (s : State) (i : SlotIx) (f : Record → Record) (j : SlotIx) :
    (s.mapRecord i f).slots[j.val].body =
      if j = i then (match s.slots[j.val].body with | .live r => .live (f r) | b => b) else s.slots[j.val].body := by
  unfold State.mapRecord
  by_cases h : j = i
  · subst h
    split <;> simp_all [Fin.getElem_fin]
  · split <;> simp [State.setSlot_get_ne, h]

@[simp] theorem State.mapRecord_recordAt (s : State) (i : SlotIx) (f : Record → Record) :
    (s.mapRecord i f).recordAt i = (s.recordAt i).map f := by
  simp only [State.recordAt, Fin.getElem_fin, State.mapRecord_body, if_true]
  cases s.slots[i.val].body <;> rfl

theorem State.mapRecord_recordAt_ne (s : State) (i : SlotIx) (f : Record → Record) {j : SlotIx} (h : j ≠ i) :
    (s.mapRecord i f).recordAt j = s.recordAt j := by
  simp [State.recordAt, State.mapRecord_body, h]

/-- A slot that holds no contract has no record to edit. -/
theorem State.mapRecord_of_none {s : State} {i : SlotIx} (f : Record → Record) (h : s.recordAt i = none) :
    s.mapRecord i f = s := by
  unfold State.recordAt at h
  unfold State.mapRecord
  split <;> simp_all

@[simp] theorem State.mapRecord_handleOf (s : State) (i : SlotIx) (f : Record → Record) (j : SlotIx) :
    (s.mapRecord i f).handleOf j = s.handleOf j := by simp [State.handleOf]

theorem State.mapRecord_mapRecord (s : State) (i : SlotIx) (f g : Record → Record) :
    (s.mapRecord i f).mapRecord i g = s.mapRecord i (fun r => g (f r)) := by
  by_cases h : ∃ r, s.slots[i.val].body = .live r
  · obtain ⟨r, h⟩ := h
    simp [State.mapRecord, State.setSlot, h]
  · have hn : ∀ f, s.mapRecord i f = s := by
      intro f
      apply State.mapRecord_of_none
      simp only [State.recordAt, Fin.getElem_fin]
      cases hb : s.slots[i.val].body <;> simp_all
    rw [hn f, hn g, hn]

theorem State.recordAt_congr {s t : State} (h : t.slots = s.slots) (i : SlotIx) : t.recordAt i = s.recordAt i := by
  simp [State.recordAt, h]

theorem State.handleOf_congr {s t : State} (h : t.slots = s.slots) (i : SlotIx) : t.handleOf i = s.handleOf i := by
  simp [State.handleOf, h]

/-! ### post -/

@[simp] theorem State.post_slots (s : State) (i : SlotIx) (k : NoticeKind) : (s.post i k).slots = s.slots := rfl
@[simp] theorem State.post_bases (s : State) (i : SlotIx) (k : NoticeKind) : (s.post i k).bases = s.bases := rfl
@[simp] theorem State.post_pins (s : State) (i : SlotIx) (k : NoticeKind) : (s.post i k).pins = s.pins := rfl
@[simp] theorem State.post_trips (s : State) (i : SlotIx) (k : NoticeKind) : (s.post i k).trips = s.trips := rfl
@[simp] theorem State.post_observations (s : State) (i : SlotIx) (k : NoticeKind) : (s.post i k).observations = s.observations := rfl
@[simp] theorem State.post_ref (s : State) (i : SlotIx) (k : NoticeKind) : (s.post i k).ref = s.ref := rfl
@[simp] theorem State.post_scrub (s : State) (i : SlotIx) (k : NoticeKind) : (s.post i k).scrub = s.scrub := rfl
@[simp] theorem State.post_port (s : State) (i : SlotIx) (k : NoticeKind) : (s.post i k).port = s.port := rfl
@[simp] theorem State.post_supply (s : State) (i : SlotIx) (k : NoticeKind) : (s.post i k).supply = s.supply := rfl
@[simp] theorem State.post_inReset (s : State) (i : SlotIx) (k : NoticeKind) : (s.post i k).inReset = s.inReset := rfl
@[simp] theorem State.post_pending (s : State) (i : SlotIx) (k : NoticeKind) : (s.post i k).pending = s.pending := rfl

/-! ### postMasked -/

@[simp] theorem State.postMasked_slots (s : State) (i : SlotIx) (k : NoticeKind) (m : BitVec 3) :
    (s.postMasked i k m).slots = s.slots := by unfold State.postMasked; split <;> rfl
@[simp] theorem State.postMasked_bases (s : State) (i : SlotIx) (k : NoticeKind) (m : BitVec 3) :
    (s.postMasked i k m).bases = s.bases := by unfold State.postMasked; split <;> rfl
@[simp] theorem State.postMasked_pins (s : State) (i : SlotIx) (k : NoticeKind) (m : BitVec 3) :
    (s.postMasked i k m).pins = s.pins := by unfold State.postMasked; split <;> rfl
@[simp] theorem State.postMasked_trips (s : State) (i : SlotIx) (k : NoticeKind) (m : BitVec 3) :
    (s.postMasked i k m).trips = s.trips := by unfold State.postMasked; split <;> rfl
@[simp] theorem State.postMasked_observations (s : State) (i : SlotIx) (k : NoticeKind) (m : BitVec 3) :
    (s.postMasked i k m).observations = s.observations := by unfold State.postMasked; split <;> rfl
@[simp] theorem State.postMasked_ref (s : State) (i : SlotIx) (k : NoticeKind) (m : BitVec 3) :
    (s.postMasked i k m).ref = s.ref := by unfold State.postMasked; split <;> rfl
@[simp] theorem State.postMasked_scrub (s : State) (i : SlotIx) (k : NoticeKind) (m : BitVec 3) :
    (s.postMasked i k m).scrub = s.scrub := by unfold State.postMasked; split <;> rfl
@[simp] theorem State.postMasked_port (s : State) (i : SlotIx) (k : NoticeKind) (m : BitVec 3) :
    (s.postMasked i k m).port = s.port := by unfold State.postMasked; split <;> rfl
@[simp] theorem State.postMasked_supply (s : State) (i : SlotIx) (k : NoticeKind) (m : BitVec 3) :
    (s.postMasked i k m).supply = s.supply := by unfold State.postMasked; split <;> rfl
@[simp] theorem State.postMasked_inReset (s : State) (i : SlotIx) (k : NoticeKind) (m : BitVec 3) :
    (s.postMasked i k m).inReset = s.inReset := by unfold State.postMasked; split <;> rfl
@[simp] theorem State.postMasked_pending (s : State) (i : SlotIx) (k : NoticeKind) (m : BitVec 3) :
    (s.postMasked i k m).pending = s.pending := by unfold State.postMasked; split <;> rfl

/-! ### postDevice -/

@[simp] theorem State.postDevice_slots (s : State) (k : DeviceKind) : (s.postDevice k).slots = s.slots := rfl
@[simp] theorem State.postDevice_bases (s : State) (k : DeviceKind) : (s.postDevice k).bases = s.bases := rfl
@[simp] theorem State.postDevice_pins (s : State) (k : DeviceKind) : (s.postDevice k).pins = s.pins := rfl
@[simp] theorem State.postDevice_trips (s : State) (k : DeviceKind) : (s.postDevice k).trips = s.trips := rfl
@[simp] theorem State.postDevice_observations (s : State) (k : DeviceKind) : (s.postDevice k).observations = s.observations := rfl
@[simp] theorem State.postDevice_ref (s : State) (k : DeviceKind) : (s.postDevice k).ref = s.ref := rfl
@[simp] theorem State.postDevice_scrub (s : State) (k : DeviceKind) : (s.postDevice k).scrub = s.scrub := rfl
@[simp] theorem State.postDevice_port (s : State) (k : DeviceKind) : (s.postDevice k).port = s.port := rfl
@[simp] theorem State.postDevice_supply (s : State) (k : DeviceKind) : (s.postDevice k).supply = s.supply := rfl
@[simp] theorem State.postDevice_inReset (s : State) (k : DeviceKind) : (s.postDevice k).inReset = s.inReset := rfl
@[simp] theorem State.postDevice_pending (s : State) (k : DeviceKind) : (s.postDevice k).pending = s.pending := rfl

/-! ### joinLine -/

@[simp] theorem State.joinLine_slots (s : State) (l : LineIx) (i : SlotIx) : (s.joinLine l i).slots = s.slots := rfl
@[simp] theorem State.joinLine_bases (s : State) (l : LineIx) (i : SlotIx) : (s.joinLine l i).bases = s.bases := rfl
@[simp] theorem State.joinLine_pins (s : State) (l : LineIx) (i : SlotIx) : (s.joinLine l i).pins = s.pins := rfl
@[simp] theorem State.joinLine_notices (s : State) (l : LineIx) (i : SlotIx) : (s.joinLine l i).notices = s.notices := rfl
@[simp] theorem State.joinLine_observations (s : State) (l : LineIx) (i : SlotIx) : (s.joinLine l i).observations = s.observations := rfl
@[simp] theorem State.joinLine_ref (s : State) (l : LineIx) (i : SlotIx) : (s.joinLine l i).ref = s.ref := rfl
@[simp] theorem State.joinLine_scrub (s : State) (l : LineIx) (i : SlotIx) : (s.joinLine l i).scrub = s.scrub := rfl
@[simp] theorem State.joinLine_port (s : State) (l : LineIx) (i : SlotIx) : (s.joinLine l i).port = s.port := rfl
@[simp] theorem State.joinLine_supply (s : State) (l : LineIx) (i : SlotIx) : (s.joinLine l i).supply = s.supply := rfl
@[simp] theorem State.joinLine_inReset (s : State) (l : LineIx) (i : SlotIx) : (s.joinLine l i).inReset = s.inReset := rfl
@[simp] theorem State.joinLine_pending (s : State) (l : LineIx) (i : SlotIx) : (s.joinLine l i).pending = s.pending := rfl

/-! ### leaveLine -/

@[simp] theorem State.leaveLine_slots (s : State) (l : LineIx) (i : SlotIx) : (s.leaveLine l i).slots = s.slots := rfl
@[simp] theorem State.leaveLine_bases (s : State) (l : LineIx) (i : SlotIx) : (s.leaveLine l i).bases = s.bases := rfl
@[simp] theorem State.leaveLine_pins (s : State) (l : LineIx) (i : SlotIx) : (s.leaveLine l i).pins = s.pins := rfl
@[simp] theorem State.leaveLine_notices (s : State) (l : LineIx) (i : SlotIx) : (s.leaveLine l i).notices = s.notices := rfl
@[simp] theorem State.leaveLine_observations (s : State) (l : LineIx) (i : SlotIx) : (s.leaveLine l i).observations = s.observations := rfl
@[simp] theorem State.leaveLine_ref (s : State) (l : LineIx) (i : SlotIx) : (s.leaveLine l i).ref = s.ref := rfl
@[simp] theorem State.leaveLine_scrub (s : State) (l : LineIx) (i : SlotIx) : (s.leaveLine l i).scrub = s.scrub := rfl
@[simp] theorem State.leaveLine_port (s : State) (l : LineIx) (i : SlotIx) : (s.leaveLine l i).port = s.port := rfl
@[simp] theorem State.leaveLine_supply (s : State) (l : LineIx) (i : SlotIx) : (s.leaveLine l i).supply = s.supply := rfl
@[simp] theorem State.leaveLine_inReset (s : State) (l : LineIx) (i : SlotIx) : (s.leaveLine l i).inReset = s.inReset := rfl
@[simp] theorem State.leaveLine_pending (s : State) (l : LineIx) (i : SlotIx) : (s.leaveLine l i).pending = s.pending := rfl

/-! ### The masks -/

/-- A fold that leaves one component of the state alone. -/
theorem foldl_keeps {α β : Type} (get : State → β) (f : State → α → State) (h : ∀ s a, get (f s a) = get s) (l : List α)
    (s : State) : get (l.foldl f s) = get s := by
  induction l generalizing s with
  | nil => rfl
  | cons a t ih => rw [List.foldl_cons, ih, h]

@[simp] theorem State.joinMask_slots (s : State) (i : SlotIx) (m : BitVec 4) : (s.joinMask i m).slots = s.slots := by
  unfold State.joinMask; exact foldl_keeps State.slots _ (fun s l => by repeat' (first | rfl | split)) _ s
@[simp] theorem State.joinMask_bases (s : State) (i : SlotIx) (m : BitVec 4) : (s.joinMask i m).bases = s.bases := by
  unfold State.joinMask; exact foldl_keeps State.bases _ (fun s l => by repeat' (first | rfl | split)) _ s
@[simp] theorem State.joinMask_pins (s : State) (i : SlotIx) (m : BitVec 4) : (s.joinMask i m).pins = s.pins := by
  unfold State.joinMask; exact foldl_keeps State.pins _ (fun s l => by repeat' (first | rfl | split)) _ s
@[simp] theorem State.joinMask_notices (s : State) (i : SlotIx) (m : BitVec 4) : (s.joinMask i m).notices = s.notices := by
  unfold State.joinMask; exact foldl_keeps State.notices _ (fun s l => by repeat' (first | rfl | split)) _ s
@[simp] theorem State.joinMask_observations (s : State) (i : SlotIx) (m : BitVec 4) : (s.joinMask i m).observations = s.observations := by
  unfold State.joinMask; exact foldl_keeps State.observations _ (fun s l => by repeat' (first | rfl | split)) _ s
@[simp] theorem State.joinMask_ref (s : State) (i : SlotIx) (m : BitVec 4) : (s.joinMask i m).ref = s.ref := by
  unfold State.joinMask; exact foldl_keeps State.ref _ (fun s l => by repeat' (first | rfl | split)) _ s
@[simp] theorem State.joinMask_scrub (s : State) (i : SlotIx) (m : BitVec 4) : (s.joinMask i m).scrub = s.scrub := by
  unfold State.joinMask; exact foldl_keeps State.scrub _ (fun s l => by repeat' (first | rfl | split)) _ s
@[simp] theorem State.joinMask_port (s : State) (i : SlotIx) (m : BitVec 4) : (s.joinMask i m).port = s.port := by
  unfold State.joinMask; exact foldl_keeps State.port _ (fun s l => by repeat' (first | rfl | split)) _ s
@[simp] theorem State.joinMask_supply (s : State) (i : SlotIx) (m : BitVec 4) : (s.joinMask i m).supply = s.supply := by
  unfold State.joinMask; exact foldl_keeps State.supply _ (fun s l => by repeat' (first | rfl | split)) _ s
@[simp] theorem State.joinMask_inReset (s : State) (i : SlotIx) (m : BitVec 4) : (s.joinMask i m).inReset = s.inReset := by
  unfold State.joinMask; exact foldl_keeps State.inReset _ (fun s l => by repeat' (first | rfl | split)) _ s
@[simp] theorem State.joinMask_pending (s : State) (i : SlotIx) (m : BitVec 4) : (s.joinMask i m).pending = s.pending := by
  unfold State.joinMask; exact foldl_keeps State.pending _ (fun s l => by repeat' (first | rfl | split)) _ s

@[simp] theorem State.leaveMask_slots (s : State) (i : SlotIx) (m : BitVec 4) : (s.leaveMask i m).slots = s.slots := by
  unfold State.leaveMask; exact foldl_keeps State.slots _ (fun s l => by repeat' (first | rfl | split)) _ s
@[simp] theorem State.leaveMask_bases (s : State) (i : SlotIx) (m : BitVec 4) : (s.leaveMask i m).bases = s.bases := by
  unfold State.leaveMask; exact foldl_keeps State.bases _ (fun s l => by repeat' (first | rfl | split)) _ s
@[simp] theorem State.leaveMask_pins (s : State) (i : SlotIx) (m : BitVec 4) : (s.leaveMask i m).pins = s.pins := by
  unfold State.leaveMask; exact foldl_keeps State.pins _ (fun s l => by repeat' (first | rfl | split)) _ s
@[simp] theorem State.leaveMask_notices (s : State) (i : SlotIx) (m : BitVec 4) : (s.leaveMask i m).notices = s.notices := by
  unfold State.leaveMask; exact foldl_keeps State.notices _ (fun s l => by repeat' (first | rfl | split)) _ s
@[simp] theorem State.leaveMask_observations (s : State) (i : SlotIx) (m : BitVec 4) : (s.leaveMask i m).observations = s.observations := by
  unfold State.leaveMask; exact foldl_keeps State.observations _ (fun s l => by repeat' (first | rfl | split)) _ s
@[simp] theorem State.leaveMask_ref (s : State) (i : SlotIx) (m : BitVec 4) : (s.leaveMask i m).ref = s.ref := by
  unfold State.leaveMask; exact foldl_keeps State.ref _ (fun s l => by repeat' (first | rfl | split)) _ s
@[simp] theorem State.leaveMask_scrub (s : State) (i : SlotIx) (m : BitVec 4) : (s.leaveMask i m).scrub = s.scrub := by
  unfold State.leaveMask; exact foldl_keeps State.scrub _ (fun s l => by repeat' (first | rfl | split)) _ s
@[simp] theorem State.leaveMask_port (s : State) (i : SlotIx) (m : BitVec 4) : (s.leaveMask i m).port = s.port := by
  unfold State.leaveMask; exact foldl_keeps State.port _ (fun s l => by repeat' (first | rfl | split)) _ s
@[simp] theorem State.leaveMask_supply (s : State) (i : SlotIx) (m : BitVec 4) : (s.leaveMask i m).supply = s.supply := by
  unfold State.leaveMask; exact foldl_keeps State.supply _ (fun s l => by repeat' (first | rfl | split)) _ s
@[simp] theorem State.leaveMask_inReset (s : State) (i : SlotIx) (m : BitVec 4) : (s.leaveMask i m).inReset = s.inReset := by
  unfold State.leaveMask; exact foldl_keeps State.inReset _ (fun s l => by repeat' (first | rfl | split)) _ s
@[simp] theorem State.leaveMask_pending (s : State) (i : SlotIx) (m : BitVec 4) : (s.leaveMask i m).pending = s.pending := by
  unfold State.leaveMask; exact foldl_keeps State.pending _ (fun s l => by repeat' (first | rfl | split)) _ s

@[simp] theorem State.changeMask_slots (s : State) (i : SlotIx) (old new : BitVec 4) : (s.changeMask i old new).slots = s.slots := by
  unfold State.changeMask; exact foldl_keeps State.slots _ (fun s l => by repeat' (first | rfl | split)) _ s
@[simp] theorem State.changeMask_bases (s : State) (i : SlotIx) (old new : BitVec 4) : (s.changeMask i old new).bases = s.bases := by
  unfold State.changeMask; exact foldl_keeps State.bases _ (fun s l => by repeat' (first | rfl | split)) _ s
@[simp] theorem State.changeMask_pins (s : State) (i : SlotIx) (old new : BitVec 4) : (s.changeMask i old new).pins = s.pins := by
  unfold State.changeMask; exact foldl_keeps State.pins _ (fun s l => by repeat' (first | rfl | split)) _ s
@[simp] theorem State.changeMask_notices (s : State) (i : SlotIx) (old new : BitVec 4) : (s.changeMask i old new).notices = s.notices := by
  unfold State.changeMask; exact foldl_keeps State.notices _ (fun s l => by repeat' (first | rfl | split)) _ s
@[simp] theorem State.changeMask_observations (s : State) (i : SlotIx) (old new : BitVec 4) : (s.changeMask i old new).observations = s.observations := by
  unfold State.changeMask; exact foldl_keeps State.observations _ (fun s l => by repeat' (first | rfl | split)) _ s
@[simp] theorem State.changeMask_ref (s : State) (i : SlotIx) (old new : BitVec 4) : (s.changeMask i old new).ref = s.ref := by
  unfold State.changeMask; exact foldl_keeps State.ref _ (fun s l => by repeat' (first | rfl | split)) _ s
@[simp] theorem State.changeMask_scrub (s : State) (i : SlotIx) (old new : BitVec 4) : (s.changeMask i old new).scrub = s.scrub := by
  unfold State.changeMask; exact foldl_keeps State.scrub _ (fun s l => by repeat' (first | rfl | split)) _ s
@[simp] theorem State.changeMask_port (s : State) (i : SlotIx) (old new : BitVec 4) : (s.changeMask i old new).port = s.port := by
  unfold State.changeMask; exact foldl_keeps State.port _ (fun s l => by repeat' (first | rfl | split)) _ s
@[simp] theorem State.changeMask_supply (s : State) (i : SlotIx) (old new : BitVec 4) : (s.changeMask i old new).supply = s.supply := by
  unfold State.changeMask; exact foldl_keeps State.supply _ (fun s l => by repeat' (first | rfl | split)) _ s
@[simp] theorem State.changeMask_inReset (s : State) (i : SlotIx) (old new : BitVec 4) : (s.changeMask i old new).inReset = s.inReset := by
  unfold State.changeMask; exact foldl_keeps State.inReset _ (fun s l => by repeat' (first | rfl | split)) _ s
@[simp] theorem State.changeMask_pending (s : State) (i : SlotIx) (old new : BitVec 4) : (s.changeMask i old new).pending = s.pending := by
  unfold State.changeMask; exact foldl_keeps State.pending _ (fun s l => by repeat' (first | rfl | split)) _ s

/-! ### unsubscribeBases -/

@[simp] theorem State.unsubscribeBases_slots (s : State) (i : SlotIx) : (s.unsubscribeBases i).slots = s.slots := by
  unfold State.unsubscribeBases; refine foldl_keeps State.slots _ ?_ _ s; intros; rfl
@[simp] theorem State.unsubscribeBases_pins (s : State) (i : SlotIx) : (s.unsubscribeBases i).pins = s.pins := by
  unfold State.unsubscribeBases; refine foldl_keeps State.pins _ ?_ _ s; intros; rfl
@[simp] theorem State.unsubscribeBases_trips (s : State) (i : SlotIx) : (s.unsubscribeBases i).trips = s.trips := by
  unfold State.unsubscribeBases; refine foldl_keeps State.trips _ ?_ _ s; intros; rfl
@[simp] theorem State.unsubscribeBases_notices (s : State) (i : SlotIx) : (s.unsubscribeBases i).notices = s.notices := by
  unfold State.unsubscribeBases; refine foldl_keeps State.notices _ ?_ _ s; intros; rfl
@[simp] theorem State.unsubscribeBases_observations (s : State) (i : SlotIx) : (s.unsubscribeBases i).observations = s.observations := by
  unfold State.unsubscribeBases; refine foldl_keeps State.observations _ ?_ _ s; intros; rfl
@[simp] theorem State.unsubscribeBases_ref (s : State) (i : SlotIx) : (s.unsubscribeBases i).ref = s.ref := by
  unfold State.unsubscribeBases; refine foldl_keeps State.ref _ ?_ _ s; intros; rfl
@[simp] theorem State.unsubscribeBases_scrub (s : State) (i : SlotIx) : (s.unsubscribeBases i).scrub = s.scrub := by
  unfold State.unsubscribeBases; refine foldl_keeps State.scrub _ ?_ _ s; intros; rfl
@[simp] theorem State.unsubscribeBases_port (s : State) (i : SlotIx) : (s.unsubscribeBases i).port = s.port := by
  unfold State.unsubscribeBases; refine foldl_keeps State.port _ ?_ _ s; intros; rfl
@[simp] theorem State.unsubscribeBases_supply (s : State) (i : SlotIx) : (s.unsubscribeBases i).supply = s.supply := by
  unfold State.unsubscribeBases; refine foldl_keeps State.supply _ ?_ _ s; intros; rfl
@[simp] theorem State.unsubscribeBases_inReset (s : State) (i : SlotIx) : (s.unsubscribeBases i).inReset = s.inReset := by
  unfold State.unsubscribeBases; refine foldl_keeps State.inReset _ ?_ _ s; intros; rfl
@[simp] theorem State.unsubscribeBases_pending (s : State) (i : SlotIx) : (s.unsubscribeBases i).pending = s.pending := by
  unfold State.unsubscribeBases; refine foldl_keeps State.pending _ ?_ _ s; intros; rfl

/-! ### unsubscribePins -/

@[simp] theorem State.unsubscribePins_slots (s : State) (i : SlotIx) : (s.unsubscribePins i).slots = s.slots := by
  unfold State.unsubscribePins; refine foldl_keeps State.slots _ ?_ _ s; intros; rfl
@[simp] theorem State.unsubscribePins_bases (s : State) (i : SlotIx) : (s.unsubscribePins i).bases = s.bases := by
  unfold State.unsubscribePins; refine foldl_keeps State.bases _ ?_ _ s; intros; rfl
@[simp] theorem State.unsubscribePins_trips (s : State) (i : SlotIx) : (s.unsubscribePins i).trips = s.trips := by
  unfold State.unsubscribePins; refine foldl_keeps State.trips _ ?_ _ s; intros; rfl
@[simp] theorem State.unsubscribePins_notices (s : State) (i : SlotIx) : (s.unsubscribePins i).notices = s.notices := by
  unfold State.unsubscribePins; refine foldl_keeps State.notices _ ?_ _ s; intros; rfl
@[simp] theorem State.unsubscribePins_observations (s : State) (i : SlotIx) : (s.unsubscribePins i).observations = s.observations := by
  unfold State.unsubscribePins; refine foldl_keeps State.observations _ ?_ _ s; intros; rfl
@[simp] theorem State.unsubscribePins_ref (s : State) (i : SlotIx) : (s.unsubscribePins i).ref = s.ref := by
  unfold State.unsubscribePins; refine foldl_keeps State.ref _ ?_ _ s; intros; rfl
@[simp] theorem State.unsubscribePins_scrub (s : State) (i : SlotIx) : (s.unsubscribePins i).scrub = s.scrub := by
  unfold State.unsubscribePins; refine foldl_keeps State.scrub _ ?_ _ s; intros; rfl
@[simp] theorem State.unsubscribePins_port (s : State) (i : SlotIx) : (s.unsubscribePins i).port = s.port := by
  unfold State.unsubscribePins; refine foldl_keeps State.port _ ?_ _ s; intros; rfl
@[simp] theorem State.unsubscribePins_supply (s : State) (i : SlotIx) : (s.unsubscribePins i).supply = s.supply := by
  unfold State.unsubscribePins; refine foldl_keeps State.supply _ ?_ _ s; intros; rfl
@[simp] theorem State.unsubscribePins_inReset (s : State) (i : SlotIx) : (s.unsubscribePins i).inReset = s.inReset := by
  unfold State.unsubscribePins; refine foldl_keeps State.inReset _ ?_ _ s; intros; rfl
@[simp] theorem State.unsubscribePins_pending (s : State) (i : SlotIx) : (s.unsubscribePins i).pending = s.pending := by
  unfold State.unsubscribePins; refine foldl_keeps State.pending _ ?_ _ s; intros; rfl

/-! ### subscribeBase -/

@[simp] theorem State.subscribeBase_slots (s : State) (b : BaseIx) (i : SlotIx) : (s.subscribeBase b i).slots = s.slots := rfl
@[simp] theorem State.subscribeBase_pins (s : State) (b : BaseIx) (i : SlotIx) : (s.subscribeBase b i).pins = s.pins := rfl
@[simp] theorem State.subscribeBase_trips (s : State) (b : BaseIx) (i : SlotIx) : (s.subscribeBase b i).trips = s.trips := rfl
@[simp] theorem State.subscribeBase_notices (s : State) (b : BaseIx) (i : SlotIx) : (s.subscribeBase b i).notices = s.notices := rfl
@[simp] theorem State.subscribeBase_observations (s : State) (b : BaseIx) (i : SlotIx) : (s.subscribeBase b i).observations = s.observations := rfl
@[simp] theorem State.subscribeBase_ref (s : State) (b : BaseIx) (i : SlotIx) : (s.subscribeBase b i).ref = s.ref := rfl
@[simp] theorem State.subscribeBase_scrub (s : State) (b : BaseIx) (i : SlotIx) : (s.subscribeBase b i).scrub = s.scrub := rfl
@[simp] theorem State.subscribeBase_port (s : State) (b : BaseIx) (i : SlotIx) : (s.subscribeBase b i).port = s.port := rfl
@[simp] theorem State.subscribeBase_supply (s : State) (b : BaseIx) (i : SlotIx) : (s.subscribeBase b i).supply = s.supply := rfl
@[simp] theorem State.subscribeBase_inReset (s : State) (b : BaseIx) (i : SlotIx) : (s.subscribeBase b i).inReset = s.inReset := rfl
@[simp] theorem State.subscribeBase_pending (s : State) (b : BaseIx) (i : SlotIx) : (s.subscribeBase b i).pending = s.pending := rfl

/-! ### subscribePin -/

@[simp] theorem State.subscribePin_slots (s : State) (p : PinIx) (i : SlotIx) : (s.subscribePin p i).slots = s.slots := rfl
@[simp] theorem State.subscribePin_bases (s : State) (p : PinIx) (i : SlotIx) : (s.subscribePin p i).bases = s.bases := rfl
@[simp] theorem State.subscribePin_trips (s : State) (p : PinIx) (i : SlotIx) : (s.subscribePin p i).trips = s.trips := rfl
@[simp] theorem State.subscribePin_notices (s : State) (p : PinIx) (i : SlotIx) : (s.subscribePin p i).notices = s.notices := rfl
@[simp] theorem State.subscribePin_observations (s : State) (p : PinIx) (i : SlotIx) : (s.subscribePin p i).observations = s.observations := rfl
@[simp] theorem State.subscribePin_ref (s : State) (p : PinIx) (i : SlotIx) : (s.subscribePin p i).ref = s.ref := rfl
@[simp] theorem State.subscribePin_scrub (s : State) (p : PinIx) (i : SlotIx) : (s.subscribePin p i).scrub = s.scrub := rfl
@[simp] theorem State.subscribePin_port (s : State) (p : PinIx) (i : SlotIx) : (s.subscribePin p i).port = s.port := rfl
@[simp] theorem State.subscribePin_supply (s : State) (p : PinIx) (i : SlotIx) : (s.subscribePin p i).supply = s.supply := rfl
@[simp] theorem State.subscribePin_inReset (s : State) (p : PinIx) (i : SlotIx) : (s.subscribePin p i).inReset = s.inReset := rfl
@[simp] theorem State.subscribePin_pending (s : State) (p : PinIx) (i : SlotIx) : (s.subscribePin p i).pending = s.pending := rfl

/-! ### abandon -/

@[simp] theorem State.abandon_bases (s : State) (i : SlotIx) : (s.abandon i).bases = s.bases := by simp [State.abandon]
@[simp] theorem State.abandon_pins (s : State) (i : SlotIx) : (s.abandon i).pins = s.pins := by simp [State.abandon]
@[simp] theorem State.abandon_trips (s : State) (i : SlotIx) : (s.abandon i).trips = s.trips := by simp [State.abandon]
@[simp] theorem State.abandon_notices (s : State) (i : SlotIx) : (s.abandon i).notices = s.notices := by simp [State.abandon]
@[simp] theorem State.abandon_ref (s : State) (i : SlotIx) : (s.abandon i).ref = s.ref := by simp [State.abandon]
@[simp] theorem State.abandon_scrub (s : State) (i : SlotIx) : (s.abandon i).scrub = s.scrub := by simp [State.abandon]
@[simp] theorem State.abandon_port (s : State) (i : SlotIx) : (s.abandon i).port = s.port := by simp [State.abandon]
@[simp] theorem State.abandon_supply (s : State) (i : SlotIx) : (s.abandon i).supply = s.supply := by simp [State.abandon]
@[simp] theorem State.abandon_inReset (s : State) (i : SlotIx) : (s.abandon i).inReset = s.inReset := by simp [State.abandon]
@[simp] theorem State.abandon_pending (s : State) (i : SlotIx) : (s.abandon i).pending = s.pending := by simp [State.abandon]
@[simp] theorem State.abandon_observations (s : State) (i : SlotIx) :
    (s.abandon i).observations = s.observations.filter (fun o => o.handle ≠ s.handleOf i) := by simp [State.abandon]

@[simp] theorem State.abandon_generation (s : State) (i j : SlotIx) :
    (s.abandon i).slots[j.val].generation = s.slots[j.val].generation := by simp [State.abandon]

@[simp] theorem State.abandon_handleOf (s : State) (i j : SlotIx) : (s.abandon i).handleOf j = s.handleOf j := by
  simp [State.handleOf]

@[simp] theorem State.abandon_recordAt (s : State) (i : SlotIx) :
    (s.abandon i).recordAt i = (s.recordAt i).map (fun r => { r with context := Context.initial }) := by
  simp [State.abandon]; rfl

theorem State.abandon_recordAt_ne (s : State) (i : SlotIx) {j : SlotIx} (h : j ≠ i) :
    (s.abandon i).recordAt j = s.recordAt j := by
  rw [State.abandon, State.mapRecord_recordAt_ne _ _ _ h]; rfl

/-! ### Records under the operations that touch no slot -/

@[simp] theorem State.post_recordAt (s : State) (i : SlotIx) (k : NoticeKind) (j : SlotIx) : (s.post i k).recordAt j = s.recordAt j :=
  State.recordAt_congr (by simp) j
@[simp] theorem State.post_handleOf (s : State) (i : SlotIx) (k : NoticeKind) (j : SlotIx) : (s.post i k).handleOf j = s.handleOf j :=
  State.handleOf_congr (by simp) j
@[simp] theorem State.postMasked_recordAt (s : State) (i : SlotIx) (k : NoticeKind) (m : BitVec 3) (j : SlotIx) : (s.postMasked i k m).recordAt j = s.recordAt j :=
  State.recordAt_congr (by simp) j
@[simp] theorem State.postMasked_handleOf (s : State) (i : SlotIx) (k : NoticeKind) (m : BitVec 3) (j : SlotIx) : (s.postMasked i k m).handleOf j = s.handleOf j :=
  State.handleOf_congr (by simp) j
@[simp] theorem State.postDevice_recordAt (s : State) (k : DeviceKind) (j : SlotIx) : (s.postDevice k).recordAt j = s.recordAt j :=
  State.recordAt_congr (by simp) j
@[simp] theorem State.postDevice_handleOf (s : State) (k : DeviceKind) (j : SlotIx) : (s.postDevice k).handleOf j = s.handleOf j :=
  State.handleOf_congr (by simp) j
@[simp] theorem State.joinMask_recordAt (s : State) (i : SlotIx) (m : BitVec 4) (j : SlotIx) : (s.joinMask i m).recordAt j = s.recordAt j :=
  State.recordAt_congr (by simp) j
@[simp] theorem State.joinMask_handleOf (s : State) (i : SlotIx) (m : BitVec 4) (j : SlotIx) : (s.joinMask i m).handleOf j = s.handleOf j :=
  State.handleOf_congr (by simp) j
@[simp] theorem State.leaveMask_recordAt (s : State) (i : SlotIx) (m : BitVec 4) (j : SlotIx) : (s.leaveMask i m).recordAt j = s.recordAt j :=
  State.recordAt_congr (by simp) j
@[simp] theorem State.leaveMask_handleOf (s : State) (i : SlotIx) (m : BitVec 4) (j : SlotIx) : (s.leaveMask i m).handleOf j = s.handleOf j :=
  State.handleOf_congr (by simp) j
@[simp] theorem State.changeMask_recordAt (s : State) (i : SlotIx) (old new : BitVec 4) (j : SlotIx) : (s.changeMask i old new).recordAt j = s.recordAt j :=
  State.recordAt_congr (by simp) j
@[simp] theorem State.changeMask_handleOf (s : State) (i : SlotIx) (old new : BitVec 4) (j : SlotIx) : (s.changeMask i old new).handleOf j = s.handleOf j :=
  State.handleOf_congr (by simp) j
@[simp] theorem State.unsubscribeBases_recordAt (s : State) (i : SlotIx) (j : SlotIx) : (s.unsubscribeBases i).recordAt j = s.recordAt j :=
  State.recordAt_congr (by simp) j
@[simp] theorem State.unsubscribeBases_handleOf (s : State) (i : SlotIx) (j : SlotIx) : (s.unsubscribeBases i).handleOf j = s.handleOf j :=
  State.handleOf_congr (by simp) j
@[simp] theorem State.unsubscribePins_recordAt (s : State) (i : SlotIx) (j : SlotIx) : (s.unsubscribePins i).recordAt j = s.recordAt j :=
  State.recordAt_congr (by simp) j
@[simp] theorem State.unsubscribePins_handleOf (s : State) (i : SlotIx) (j : SlotIx) : (s.unsubscribePins i).handleOf j = s.handleOf j :=
  State.handleOf_congr (by simp) j
@[simp] theorem State.subscribeBase_recordAt (s : State) (b : BaseIx) (i : SlotIx) (j : SlotIx) : (s.subscribeBase b i).recordAt j = s.recordAt j :=
  State.recordAt_congr (by simp) j
@[simp] theorem State.subscribeBase_handleOf (s : State) (b : BaseIx) (i : SlotIx) (j : SlotIx) : (s.subscribeBase b i).handleOf j = s.handleOf j :=
  State.handleOf_congr (by simp) j
@[simp] theorem State.subscribePin_recordAt (s : State) (p : PinIx) (i : SlotIx) (j : SlotIx) : (s.subscribePin p i).recordAt j = s.recordAt j :=
  State.recordAt_congr (by simp) j
@[simp] theorem State.subscribePin_handleOf (s : State) (p : PinIx) (i : SlotIx) (j : SlotIx) : (s.subscribePin p i).handleOf j = s.handleOf j :=
  State.handleOf_congr (by simp) j
@[simp] theorem State.setBase_recordAt (s : State) (b : BaseIx) (x : TimeBase) (j : SlotIx) : (s.setBase b x).recordAt j = s.recordAt j :=
  State.recordAt_congr (by simp) j
@[simp] theorem State.setBase_handleOf (s : State) (b : BaseIx) (x : TimeBase) (j : SlotIx) : (s.setBase b x).handleOf j = s.handleOf j :=
  State.handleOf_congr (by simp) j
@[simp] theorem State.setChannel_recordAt (s : State) (p : PinIx) (x : PinChannel) (j : SlotIx) : (s.setChannel p x).recordAt j = s.recordAt j :=
  State.recordAt_congr (by simp) j
@[simp] theorem State.setChannel_handleOf (s : State) (p : PinIx) (x : PinChannel) (j : SlotIx) : (s.setChannel p x).handleOf j = s.handleOf j :=
  State.handleOf_congr (by simp) j
@[simp] theorem State.setLine_recordAt (s : State) (l : LineIx) (x : TripLine) (j : SlotIx) : (s.setLine l x).recordAt j = s.recordAt j :=
  State.recordAt_congr (by simp) j
@[simp] theorem State.setLine_handleOf (s : State) (l : LineIx) (x : TripLine) (j : SlotIx) : (s.setLine l x).handleOf j = s.handleOf j :=
  State.handleOf_congr (by simp) j

end Sys2Proof.Machine
end

