-- ==== Sys2Proof/Laws/Sets.lean ====
section
/-! SUPPORT. What becomes of each line, base and pin channel when a slot joins or leaves its set, and when an operation
runs over all of them. -/

namespace Sys2Proof.Machine

/-- A fold that edits the entry of each index of a list without repeats: that entry edited once, every other as it
was. -/
theorem foldl_get {n : ℕ} {α : Type} (get : State → Fin n → α) (g : State → Fin n → State) (f : Fin n → α → α)
    (hself : ∀ s j, get (g s j) j = f j (get s j)) (hne : ∀ s j k, k ≠ j → get (g s j) k = get s k)
    (l : List (Fin n)) (nd : l.Nodup) (s : State) (k : Fin n) :
    get (l.foldl g s) k = if k ∈ l then f k (get s k) else get s k := by
  induction l generalizing s with
  | nil => simp
  | cons a t ih =>
    obtain ⟨ha, nt⟩ := List.nodup_cons.1 nd
    rw [List.foldl_cons, ih nt]
    by_cases hk : k = a
    · subst hk; simp [ha, hself]
    · simp [hk, hne _ _ _ hk]

/-- The same over all indices. -/
theorem foldl_get_all {n : ℕ} {α : Type} (get : State → Fin n → α) (g : State → Fin n → State) (f : Fin n → α → α)
    (hself : ∀ s j, get (g s j) j = f j (get s j)) (hne : ∀ s j k, k ≠ j → get (g s j) k = get s k)
    (s : State) (k : Fin n) : get ((List.finRange n).foldl g s) k = f k (get s k) := by
  rw [foldl_get get g f hself hne _ (List.nodup_finRange n)]; simp [List.mem_finRange]

/-! ### Lines -/

theorem State.joinMask_line (s : State) (i : SlotIx) (m : BitVec 4) (l : LineIx) :
    (s.joinMask i m).trips[l.val] = if m.getLsbD l.val then s.trips[l.val].join i else s.trips[l.val] := by
    unfold State.joinMask allLines
    refine foldl_get_all (fun s (l : LineIx) => s.trips[l.val]) _ (fun l t => if m.getLsbD l.val then t.join i else t)
      (fun s l => ?_) (fun s l k hk => ?_) s l
    · split <;> simp [State.joinLine]
    · split <;> simp [State.joinLine, State.setLine_get_ne, hk]

theorem State.leaveMask_line (s : State) (i : SlotIx) (m : BitVec 4) (l : LineIx) :
    (s.leaveMask i m).trips[l.val] = if m.getLsbD l.val then s.trips[l.val].leave i else s.trips[l.val] := by
    unfold State.leaveMask allLines
    refine foldl_get_all (fun s (l : LineIx) => s.trips[l.val]) _ (fun l t => if m.getLsbD l.val then t.leave i else t)
      (fun s l => ?_) (fun s l k hk => ?_) s l
    · split <;> simp [State.leaveLine]
    · split <;> simp [State.leaveLine, State.setLine_get_ne, hk]

theorem State.changeMask_line (s : State) (i : SlotIx) (old new : BitVec 4) (l : LineIx) :
    (s.changeMask i old new).trips[l.val] =
      if old.getLsbD l.val && !new.getLsbD l.val then s.trips[l.val].leave i
      else if !old.getLsbD l.val && new.getLsbD l.val then s.trips[l.val].join i
      else s.trips[l.val] := by
    unfold State.changeMask allLines
    refine foldl_get_all (fun s (l : LineIx) => s.trips[l.val]) _
      (fun l t => if old.getLsbD l.val && !new.getLsbD l.val then t.leave i
        else if !old.getLsbD l.val && new.getLsbD l.val then t.join i else t)
      (fun s l => ?_) (fun s l k hk => ?_) s l
    · repeat' split
      all_goals simp [State.leaveLine, State.joinLine]
    · repeat' split
      all_goals simp [State.leaveLine, State.joinLine, State.setLine_get_ne, hk]

@[simp] theorem TripLine.join_policy (t : TripLine) (i : SlotIx) : (t.join i).policy = t.policy := rfl
@[simp] theorem TripLine.join_forced (t : TripLine) (i : SlotIx) : (t.join i).forced = t.forced := rfl
@[simp] theorem TripLine.join_contributors (t : TripLine) (i : SlotIx) :
    (t.join i).contributors = SlotSet.insert i t.contributors := rfl
@[simp] theorem TripLine.leave_policy (t : TripLine) (i : SlotIx) : (t.leave i).policy = t.policy := rfl
@[simp] theorem TripLine.leave_forced (t : TripLine) (i : SlotIx) : (t.leave i).forced = t.forced := rfl
@[simp] theorem TripLine.leave_held (t : TripLine) (i : SlotIx) : (t.leave i).held = t.held := rfl
@[simp] theorem TripLine.leave_contributors (t : TripLine) (i : SlotIx) :
    (t.leave i).contributors = SlotSet.erase i t.contributors := rfl
/-- The held flag after a join: kept when set, and set when a HOLD line's set was empty (R148). -/
theorem TripLine.join_held (t : TripLine) (i : SlotIx) :
    (t.join i).held = (t.held || (decide (t.policy = .hold) && t.contributors.isEmpty)) := rfl

/-! ### Subscriber sets -/

theorem State.unsubscribeBases_base (s : State) (i : SlotIx) (b : BaseIx) :
    (s.unsubscribeBases i).bases[b.val] =
      { s.bases[b.val] with subscribers := SlotSet.erase i s.bases[b.val].subscribers } := by
  unfold State.unsubscribeBases allBases
  refine foldl_get_all (fun s (b : BaseIx) => s.bases[b.val]) _ (fun _ t => { t with subscribers := SlotSet.erase i t.subscribers })
    (fun s b => ?_) (fun s b k hk => ?_) s b
  · simp
  · simp [State.setBase_get_ne, hk]

theorem State.unsubscribePins_channel (s : State) (i : SlotIx) (p : PinIx) :
    (s.unsubscribePins i).pins[p.val] =
      { s.pins[p.val] with subscribers := SlotSet.erase i s.pins[p.val].subscribers } := by
  unfold State.unsubscribePins allPins
  refine foldl_get_all (fun s (p : PinIx) => s.pins[p.val]) _ (fun _ t => { t with subscribers := SlotSet.erase i t.subscribers })
    (fun s b => ?_) (fun s b k hk => ?_) s p
  · simp
  · simp [State.setChannel_get_ne, hk]

theorem State.subscribeBase_base (s : State) (b : BaseIx) (i : SlotIx) (c : BaseIx) :
    (s.subscribeBase b i).bases[c.val] =
      if c = b then { s.bases[c.val] with subscribers := SlotSet.insert i s.bases[c.val].subscribers } else s.bases[c.val] := by
  unfold State.subscribeBase
  by_cases h : c = b
  · subst h; simp
  · simp [State.setBase_get_ne, h]

theorem State.subscribePin_channel (s : State) (p : PinIx) (i : SlotIx) (q : PinIx) :
    (s.subscribePin p i).pins[q.val] =
      if q = p then { s.pins[q.val] with subscribers := SlotSet.insert i s.pins[q.val].subscribers } else s.pins[q.val] := by
  unfold State.subscribePin
  by_cases h : q = p
  · subst h; simp
  · simp [State.setChannel_get_ne, h]

end Sys2Proof.Machine
end

