-- ==== Sys2Proof/Laws/Port.lean ====
section
/-! SUPPORT. What the end of a frame, the service of a command, the operand checks, the reset and the handing on of events can do,
said once each. -/

namespace Sys2Proof.Machine

variable {s : State}

/-! ## The end of a frame -/

/-- The state of a part whose CS# has risen without ending a frame. -/
def State.csRaised (s : State) : State := { s with port := { s.port with csLow := false } }

/-- The state of a part whose frame of `rx` whole bytes has ended and has not yet been acted on. -/
def State.frameEnded (s : State) (rx : Nat) : State :=
  { s with port := { s.port with frame := .idle, csLow := false, rxCount := rx } }

theorem State.endFrame_of_receiving (h : s.receiving) (rx : Nat) (act : State → State) :
    s.endFrame rx act = act (s.frameEnded rx) := by
  simp [State.endFrame, State.frameEnded, h.1, h.2]

theorem State.endFrame_of_not_receiving (h : ¬s.receiving) (rx : Nat) (act : State → State) :
    s.endFrame rx act = s.csRaised := by
  cases hr : s.inReset
  · cases hf : s.port.frame
    · simp [State.endFrame, State.csRaised, hr, hf]
    · exact absurd ⟨hr, hf⟩ h
  · simp [State.endFrame, State.csRaised, hr]

/-- All that the end of a frame can do: raise CS# alone, or act on a frame that was being received. -/
theorem State.endFrame_cases (s : State) (rx : Nat) (act : State → State) :
    (¬s.receiving ∧ s.endFrame rx act = s.csRaised) ∨ (s.receiving ∧ s.endFrame rx act = act (s.frameEnded rx)) := by
  by_cases h : s.receiving
  · exact .inr ⟨h, endFrame_of_receiving h rx act⟩
  · exact .inl ⟨h, endFrame_of_not_receiving h rx act⟩

/-- The state after a served command: the answer's, with its reply in the buffer. -/
def Answer.served (a : Answer) (c : Command) (f : Frame) : State :=
  a.state.setReply { result := a.result, tag := f.tag, code := commandByte c, payload := a.payload }

theorem State.serve_of_receiving (h : s.receiving) (c : Command) (f : Frame) (block : State → Answer) :
    s.serve c f block = (block (s.frameEnded (commandLength c + f.fill))).served c f :=
  State.endFrame_of_receiving h _ _

/-- All that the service of a command can do. -/
theorem State.serve_cases (s : State) (c : Command) (f : Frame) (block : State → Answer) :
    (¬s.receiving ∧ s.serve c f block = s.csRaised) ∨
    (s.receiving ∧ s.serve c f block = (block (s.frameEnded (commandLength c + f.fill))).served c f) :=
  State.endFrame_cases s _ _

/-- A command refused leaves the state of a frame that was answered and nothing else. -/
theorem State.served_refuse (rx : Nat) (e : ResultCode) (p : List Byte) (c : Command) (f : Frame) :
    (refuse (s.frameEnded rx) e p).served c f = s.replied rx ⟨e, f.tag, commandByte c, p⟩ := rfl

/-- A command that changes no state and replies OK. -/
theorem State.served_ok (rx : Nat) (p : List Byte) (c : Command) (f : Frame) :
    (ok (s.frameEnded rx) p).served c f = s.replied rx ⟨.ok, f.tag, commandByte c, p⟩ := rfl

@[simp] theorem State.frameEnded_slots (s : State) (n : Nat) : (s.frameEnded n).slots = s.slots := rfl
@[simp] theorem State.frameEnded_bases (s : State) (n : Nat) : (s.frameEnded n).bases = s.bases := rfl
@[simp] theorem State.frameEnded_pins (s : State) (n : Nat) : (s.frameEnded n).pins = s.pins := rfl
@[simp] theorem State.frameEnded_trips (s : State) (n : Nat) : (s.frameEnded n).trips = s.trips := rfl
@[simp] theorem State.frameEnded_notices (s : State) (n : Nat) : (s.frameEnded n).notices = s.notices := rfl
@[simp] theorem State.frameEnded_observations (s : State) (n : Nat) : (s.frameEnded n).observations = s.observations := rfl
@[simp] theorem State.frameEnded_ref (s : State) (n : Nat) : (s.frameEnded n).ref = s.ref := rfl
@[simp] theorem State.frameEnded_scrub (s : State) (n : Nat) : (s.frameEnded n).scrub = s.scrub := rfl
@[simp] theorem State.frameEnded_supply (s : State) (n : Nat) : (s.frameEnded n).supply = s.supply := rfl
@[simp] theorem State.frameEnded_inReset (s : State) (n : Nat) : (s.frameEnded n).inReset = s.inReset := rfl
@[simp] theorem State.frameEnded_pending (s : State) (n : Nat) : (s.frameEnded n).pending = s.pending := rfl

@[simp] theorem Answer.served_slots (a : Answer) (c : Command) (f : Frame) : (a.served c f).slots = a.state.slots := rfl
@[simp] theorem Answer.served_bases (a : Answer) (c : Command) (f : Frame) : (a.served c f).bases = a.state.bases := rfl
@[simp] theorem Answer.served_pins (a : Answer) (c : Command) (f : Frame) : (a.served c f).pins = a.state.pins := rfl
@[simp] theorem Answer.served_trips (a : Answer) (c : Command) (f : Frame) : (a.served c f).trips = a.state.trips := rfl
@[simp] theorem Answer.served_notices (a : Answer) (c : Command) (f : Frame) : (a.served c f).notices = a.state.notices := rfl
@[simp] theorem Answer.served_observations (a : Answer) (c : Command) (f : Frame) :
    (a.served c f).observations = a.state.observations := rfl
@[simp] theorem Answer.served_ref (a : Answer) (c : Command) (f : Frame) : (a.served c f).ref = a.state.ref := rfl
@[simp] theorem Answer.served_scrub (a : Answer) (c : Command) (f : Frame) : (a.served c f).scrub = a.state.scrub := rfl
@[simp] theorem Answer.served_supply (a : Answer) (c : Command) (f : Frame) : (a.served c f).supply = a.state.supply := rfl
@[simp] theorem Answer.served_inReset (a : Answer) (c : Command) (f : Frame) : (a.served c f).inReset = a.state.inReset := rfl
@[simp] theorem Answer.served_pending (a : Answer) (c : Command) (f : Frame) : (a.served c f).pending = a.state.pending := rfl
@[simp] theorem Answer.served_reply (a : Answer) (c : Command) (f : Frame) :
    (a.served c f).port.reply = some ⟨a.result, f.tag, commandByte c, a.payload⟩ := rfl

/-! ## Operand checks -/

theorem indexOf_eq_some {n : Nat} {b : Byte} {i : Fin n} : indexOf n b = some i ↔ b.toNat = i.val := by
  unfold indexOf
  split
  · simp [Fin.ext_iff]
  · rename_i h
    simp only [reduceCtorEq, false_iff]
    intro e
    exact h (e ▸ i.isLt)

theorem indexOf_eq_none {n : Nat} {b : Byte} : indexOf n b = none ↔ n ≤ b.toNat := by
  unfold indexOf
  split <;> simp_all

/-- All that the handle checks can do: refuse with the state as it stands, or go on with the contract that the handle
names. -/
theorem withContract_cases (s : State) (h : HandleBytes) (fields : Option Byte) (act : SlotIx → Record → Answer) :
    (∃ e p, withContract s h fields act = refuse s e p) ∨
    (∃ i r, h.slot.toNat = i.val ∧ fields = none ∧ s.slots[i].generation = h.generation ∧ s.recordAt i = some r ∧
      withContract s h fields act = act i r) := by
  unfold withContract
  split
  · exact .inl ⟨_, _, rfl⟩
  · rename_i i hi
    split
    · exact .inl ⟨_, _, rfl⟩
    · split
      · exact .inl ⟨_, _, rfl⟩
      · rename_i hg
        split
        · exact .inl ⟨_, _, rfl⟩
        · rename_i r hr
          exact .inr ⟨i, r, indexOf_eq_some.1 hi, rfl, Decidable.not_not.1 hg, hr, rfl⟩

theorem withContract_of_live {h : HandleBytes} {i : SlotIx} {r : Record} (hi : h.slot.toNat = i.val)
    (hg : s.slots[i].generation = h.generation) (hr : s.recordAt i = some r) (act : SlotIx → Record → Answer) :
    withContract s h none act = act i r := by
  simp only [withContract, indexOf_eq_some.2 hi, hg, ne_eq, not_true_eq_false, if_false, hr]

theorem withBase_cases (s : State) (b : Byte) (act : BaseIx → Answer) :
    (4 ≤ b.toNat ∧ withBase s b act = refuse s .badField [1]) ∨ (∃ i : BaseIx, b.toNat = i.val ∧ withBase s b act = act i) := by
  unfold withBase
  split
  · rename_i h
    exact .inl ⟨indexOf_eq_none.1 h, rfl⟩
  · rename_i i h
    exact .inr ⟨i, indexOf_eq_some.1 h, rfl⟩

theorem withLine_cases (s : State) (b : Byte) (act : LineIx → Answer) :
    (4 ≤ b.toNat ∧ withLine s b act = refuse s .badField [1]) ∨ (∃ i : LineIx, b.toNat = i.val ∧ withLine s b act = act i) := by
  unfold withLine
  split
  · rename_i h
    exact .inl ⟨indexOf_eq_none.1 h, rfl⟩
  · rename_i i h
    exact .inr ⟨i, indexOf_eq_some.1 h, rfl⟩

/-! ## Reset -/

theorem State.whileOperating_of_running (h : s.inReset = false) (act : State → State) : s.whileOperating act = act s := by
  simp [State.whileOperating, h]

theorem State.whileOperating_of_reset (h : s.inReset = true) (act : State → State) : s.whileOperating act = s := by
  simp [State.whileOperating, h]

@[simp] theorem State.resetBlocks_ref (s : State) : s.resetBlocks.ref = s.ref := rfl
@[simp] theorem State.resetBlocks_supply (s : State) : s.resetBlocks.supply = s.supply := rfl
@[simp] theorem State.resetBlocks_inReset (s : State) : s.resetBlocks.inReset = s.inReset := rfl
@[simp] theorem State.resetBlocks_pending (s : State) : s.resetBlocks.pending = s.pending := rfl
@[simp] theorem State.resetBlocks_csLow (s : State) : s.resetBlocks.port.csLow = s.port.csLow := rfl
@[simp] theorem State.resetBlocks_idem (s : State) : s.resetBlocks.resetBlocks = s.resetBlocks := rfl
@[simp] theorem State.enterReset_inReset (s : State) : s.enterReset.inReset = true := rfl
@[simp] theorem State.enterReset_ref (s : State) : s.enterReset.ref = s.ref := rfl
@[simp] theorem State.enterReset_supply (s : State) : s.enterReset.supply = s.supply := rfl
@[simp] theorem State.enterReset_pending (s : State) : s.enterReset.pending = s.pending := rfl
@[simp] theorem State.enterReset_port (s : State) :
    s.enterReset.port = { frame := .idle, csLow := s.port.csLow, rxCount := 0, outbound := [], reply := none } := rfl

@[simp] theorem State.resetBlocks_slot (s : State) (i : SlotIx) : s.resetBlocks.slots[i.val] = Slot.atReset := by
  simp [State.resetBlocks]
@[simp] theorem State.resetBlocks_base (s : State) (b : BaseIx) : s.resetBlocks.bases[b.val] = TimeBase.atReset := by
  simp [State.resetBlocks]
@[simp] theorem State.resetBlocks_pin (s : State) (p : PinIx) : s.resetBlocks.pins[p.val] = PinChannel.atReset := by
  simp [State.resetBlocks]
@[simp] theorem State.resetBlocks_line (s : State) (l : LineIx) : s.resetBlocks.trips[l.val] = TripLine.atReset := by
  simp [State.resetBlocks]
@[simp] theorem State.resetBlocks_notices (s : State) : s.resetBlocks.notices = noticesAtReset := rfl
@[simp] theorem State.resetBlocks_observations (s : State) : s.resetBlocks.observations = [] := rfl
@[simp] theorem State.resetBlocks_scrub (s : State) : s.resetBlocks.scrub = { position := 0, reports := [] } := rfl

theorem State.resetBlocks_recordAt (s : State) (i : SlotIx) : s.resetBlocks.recordAt i = none := by
  simp [State.recordAt, Slot.atReset]

end Sys2Proof.Machine
end

