-- ==== Sys2Proof/Laws/Table.lean ====
section
/-! SUPPORT. What the Table Controller's own operations can do, said once: `TableFrame m s t` says that t comes from s by edits of
records, postings for LIVE slots, changes of contributor sets by LIVE slots and withdrawals, that no slot outside `m`
leaves VIOLATED or DONE or enters CORRUPT, and that everything else stands. Every shared operation of Machine/Ops.lean
that acts on contracts has a lemma here that gives its frame. -/

namespace Sys2Proof.Machine

/-! ## One record, one slot, one line, the queue -/

/-- What an edit of a record keeps. `m` says that the edit may end a VIOLATED or DONE state or enter CORRUPT. -/
structure RecordKept (m : Prop) (g : Byte) (r r' : Record) : Prop where
  fixed : r'.fixed = r.fixed
  dependents : r'.dependents = r.dependents
  code : r.checkCode = r.freshCode g → r'.checkCode = r'.freshCode g
  bounded : r.bounded → r'.bounded
  settled : ¬m → (r.state = .violated ∨ r.state = .done) → r'.state = r.state
  uncorrupt : ¬m → r'.state = .corrupt → r.state = .corrupt
  corrupt : r.state = .corrupt → r'.state = .corrupt
  measurement : r'.context = r.context ∨ r'.context = Context.initial

theorem RecordKept.refl (m : Prop) (g : Byte) (r : Record) : RecordKept m g r r :=
  ⟨rfl, rfl, id, id, fun _ _ => rfl, fun _ h => h, id, .inl rfl⟩

theorem RecordKept.trans {m : Prop} {g : Byte} {a b c : Record} (h : RecordKept m g a b) (k : RecordKept m g b c) :
    RecordKept m g a c where
  fixed := k.fixed.trans h.fixed
  dependents := k.dependents.trans h.dependents
  code := k.code ∘ h.code
  bounded := k.bounded ∘ h.bounded
  settled := fun hm hs => by
    have e := h.settled hm hs
    rw [k.settled hm (by rw [e]; exact hs), e]
  uncorrupt := fun hm hs => h.uncorrupt hm (k.uncorrupt hm hs)
  corrupt := k.corrupt ∘ h.corrupt
  measurement := k.measurement.elim (fun e => by rw [e]; exact h.measurement) .inr

theorem RecordKept.mono {m n : Prop} {g : Byte} {a b : Record} (mn : m → n) (h : RecordKept m g a b) : RecordKept n g a b :=
  { h with settled := fun hn => h.settled (fun hm => hn (mn hm)), uncorrupt := fun hn => h.uncorrupt (fun hm => hn (mn hm)) }

/-- What happens to one slot: its generation stands, and it stays FREE, DRAINING or LIVE, its record edited as
`RecordKept` says. -/
inductive SlotKept (m : Prop) : Slot → Slot → Prop
  | free (g : Byte) : SlotKept m ⟨g, .free⟩ ⟨g, .free⟩
  | draining (g : Byte) : SlotKept m ⟨g, .draining⟩ ⟨g, .draining⟩
  | live (g : Byte) {r r' : Record} (h : RecordKept m g r r') : SlotKept m ⟨g, .live r⟩ ⟨g, .live r'⟩

theorem SlotKept.refl (m : Prop) (x : Slot) : SlotKept m x x := by
  obtain ⟨g, b⟩ := x
  cases b with
  | free => exact .free g
  | draining => exact .draining g
  | live r => exact .live g (.refl m g r)

theorem SlotKept.trans {m : Prop} {x y z : Slot} (h : SlotKept m x y) (k : SlotKept m y z) : SlotKept m x z := by
  cases h <;> cases k
  · exact .free _
  · exact .draining _
  · exact .live _ (.trans ‹_› ‹_›)

theorem SlotKept.mono {m n : Prop} {x y : Slot} (mn : m → n) (h : SlotKept m x y) : SlotKept n x y := by
  cases h
  · exact .free _
  · exact .draining _
  · exact .live _ (.mono mn ‹_›)

theorem SlotKept.generation {m : Prop} {x y : Slot} (h : SlotKept m x y) : y.generation = x.generation := by
  cases h <;> rfl

theorem SlotKept.isLive {m : Prop} {x y : Slot} (h : SlotKept m x y) : y.body.isLive = x.body.isLive := by
  cases h <;> rfl

theorem SlotKept.free_iff {m : Prop} {x y : Slot} (h : SlotKept m x y) : y.body = .free ↔ x.body = .free := by
  cases h <;> simp

theorem SlotKept.draining_iff {m : Prop} {x y : Slot} (h : SlotKept m x y) : y.body = .draining ↔ x.body = .draining := by
  cases h <;> simp

/-- What happens to one line: policy and forced flag stand, a held flag that is set stays set, the set stays canonical,
and only LIVE slots join it. -/
structure LineKept (live : SlotIx → Prop) (t t' : TripLine) : Prop where
  policy : t'.policy = t.policy
  forced : t'.forced = t.forced
  held : t.held = true → t'.held = true
  canonical : SlotSet.Canonical t.contributors → SlotSet.Canonical t'.contributors
  members : ∀ i, i ∈ t'.contributors → i ∈ t.contributors ∨ live i

theorem LineKept.refl (live : SlotIx → Prop) (t : TripLine) : LineKept live t t := ⟨rfl, rfl, id, id, fun _ h => .inl h⟩

theorem LineKept.trans {live : SlotIx → Prop} {a b c : TripLine} (h : LineKept live a b) (k : LineKept live b c) :
    LineKept live a c :=
  ⟨k.policy.trans h.policy, k.forced.trans h.forced, k.held ∘ h.held, k.canonical ∘ h.canonical,
   fun i hi => (k.members i hi).elim (h.members i) .inr⟩

theorem LineKept.join {live : SlotIx → Prop} {t : TripLine} {i : SlotIx} (h : live i) : LineKept live t (t.join i) :=
  ⟨rfl, rfl, fun hh => by simp [TripLine.join_held, hh], fun hc => hc.insert, fun j hj => by
    rcases SlotSet.mem_insert.1 hj with rfl | hj
    · exact .inr h
    · exact .inl hj⟩

theorem LineKept.leave (live : SlotIx → Prop) (t : TripLine) (i : SlotIx) : LineKept live t (t.leave i) :=
  ⟨rfl, rfl, id, fun hc => hc.erase, fun _ hj => .inl (SlotSet.mem_erase.1 hj).2⟩

/-- What happens to the queue: entries stay one per owner and not empty, no entry leaves, only LIVE slots gain one, and the
device entry stands. -/
structure NoticesKept (live : SlotIx → Prop) (q q' : List NoticeEntry) : Prop where
  differ : q.Pairwise NoticeEntry.differ → q'.Pairwise NoticeEntry.differ
  nonempty : (∀ e ∈ q, e.nonempty) → ∀ e ∈ q', e.nonempty
  stays : ∀ i, q.any (NoticeEntry.isOf i) = true → q'.any (NoticeEntry.isOf i) = true
  joins : ∀ i, q'.any (NoticeEntry.isOf i) = true → q.any (NoticeEntry.isOf i) = true ∨ live i
  device : q'.filter NoticeEntry.isDevice = q.filter NoticeEntry.isDevice

theorem NoticesKept.refl (live : SlotIx → Prop) (q : List NoticeEntry) : NoticesKept live q q :=
  ⟨id, id, fun _ h => h, fun _ h => .inl h, rfl⟩

theorem NoticesKept.trans {live : SlotIx → Prop} {a b c : List NoticeEntry} (h : NoticesKept live a b)
    (k : NoticesKept live b c) : NoticesKept live a c :=
  ⟨k.differ ∘ h.differ, k.nonempty ∘ h.nonempty, fun i hi => k.stays i (h.stays i hi),
   fun i hi => (k.joins i hi).elim (h.joins i) .inr, k.device.trans h.device⟩

theorem noticeBit_ne_zero (k : NoticeKind) : noticeBit k ≠ 0 := by cases k <;> decide

theorem deviceBit_ne_zero (k : DeviceKind) : deviceBit k ≠ 0 := by cases k <;> decide

theorem or_ne_zero {w : ℕ} {a b : BitVec w} (h : a ≠ 0) : a ||| b ≠ 0 := by
  intro e
  apply h
  ext i hi
  have := congrArg (fun v => v.getLsbD i) e
  simp only [BitVec.getLsbD_or] at this
  have h0 : (0 : BitVec w).getLsbD i = false := by simp
  rw [h0] at this
  simp only [Bool.or_eq_false_iff] at this
  rw [← BitVec.getLsbD_eq_getElem, ← BitVec.getLsbD_eq_getElem, this.1, h0]

/-- An entry of a slot after adding a kind to the entry of a slot was there with the same generation, or is the new entry. -/
theorem addContractKinds_mem {i j : SlotIx} {g g' : Byte} {k ks : BitVec 7} {q : List NoticeEntry}
    (h : .contract j g' ks ∈ addContractKinds i g k q) :
    (∃ ks0, .contract j g' ks0 ∈ q) ∨ (j = i ∧ g' = g) := by
  induction q with
  | nil => simp_all [addContractKinds]
  | cons a t ih =>
    cases a with
    | device ds =>
      simp only [addContractKinds, List.mem_cons, reduceCtorEq, false_or] at h ⊢
      exact ih h
    | contract i' gi ki =>
      simp only [addContractKinds] at h
      split at h
      · rename_i hi
        subst hi
        rcases List.mem_cons.1 h with h | h
        · cases h; exact .inl ⟨ki, List.mem_cons_self⟩
        · exact .inl ⟨ks, List.mem_cons_of_mem _ h⟩
      · rcases List.mem_cons.1 h with h | h
        · exact .inl ⟨ki, by cases h; exact List.mem_cons_self⟩
        · exact (ih h).imp (fun ⟨k0, h0⟩ => ⟨k0, List.mem_cons_of_mem _ h0⟩) id

/-- Adding a kind to a slot's entry leaves the owners of the entries as they were, in order, with the slot's entry at the tail
when it had none (R134). -/
theorem addContractKinds_kept {live : SlotIx → Prop} {i : SlotIx} (h : live i) (g : Byte) {k : BitVec 7} (hk : k ≠ 0)
    (q : List NoticeEntry) : NoticesKept live q (addContractKinds i g k q) := by
  -- every owner of the new queue owned an entry of the old one, or is slot i
  have hsub : ∀ q : List NoticeEntry, ∀ e : NoticeEntry, (∀ g k, e.differ (.contract i g k)) →
      (∀ e' ∈ q, e.differ e') → ∀ e' ∈ addContractKinds i g k q, e.differ e' := by
    intro q
    induction q with
    | nil => intro e hi _ e' he'; simp only [addContractKinds, List.mem_singleton] at he'; subst he'; exact hi _ _
    | cons a t ih =>
      intro e hi hq e' he'
      cases a with
      | device ks =>
        simp only [addContractKinds, List.mem_cons] at he'
        rcases he' with rfl | he'
        · exact hq _ (by simp)
        · exact ih e hi (fun x hx => hq x (by simp [hx])) e' he'
      | contract j gj ks =>
        simp only [addContractKinds] at he'
        split at he'
        · simp only [List.mem_cons] at he'
          rcases he' with rfl | he'
          · rename_i hj; subst hj; exact hi _ _
          · exact hq _ (by simp [he'])
        · simp only [List.mem_cons] at he'
          rcases he' with rfl | he'
          · exact hq _ (by simp)
          · exact ih e hi (fun x hx => hq x (by simp [hx])) e' he'
  constructor
  · intro hq
    induction q with
    | nil => simp [addContractKinds]
    | cons a t ih =>
      obtain ⟨ha, ht⟩ := List.pairwise_cons.1 hq
      cases a with
      | device ks => exact List.pairwise_cons.2 ⟨hsub t _ (fun _ _ => trivial) ha, ih ht⟩
      | contract j gj ks =>
        simp only [addContractKinds]
        split
        · refine List.pairwise_cons.2 ⟨fun e he => ?_, ht⟩
          have := ha e he
          cases e <;> exact this
        · rename_i hj
          exact List.pairwise_cons.2 ⟨hsub t _ (fun _ _ => hj) ha, ih ht⟩
  · intro hq
    induction q with
    | nil => simpa [addContractKinds, NoticeEntry.nonempty] using hk
    | cons a t ih =>
      have ht : ∀ e ∈ t, e.nonempty := fun e he => hq e (by simp [he])
      have ha := hq a (by simp)
      cases a with
      | device ks =>
        simp only [addContractKinds, List.mem_cons]
        rintro e (rfl | he)
        · exact ha
        · exact ih ht e he
      | contract j gj ks =>
        simp only [addContractKinds]
        split <;> simp only [List.mem_cons] <;> rintro e (rfl | he)
        · exact or_ne_zero ha
        · exact ht e he
        · exact ha
        · exact ih ht e he
  · intro a ha
    induction q with
    | nil => simp at ha
    | cons b t ih =>
      cases b with
      | device ks => simp only [addContractKinds, List.any_cons, NoticeEntry.isOf, Bool.false_or] at ha ⊢; exact ih ha
      | contract j gj ks =>
        simp only [addContractKinds]
        split
        · simpa [NoticeEntry.isOf] using ha
        · simp only [List.any_cons, Bool.or_eq_true] at ha ⊢
          exact ha.imp id ih
  · intro a ha
    induction q with
    | nil =>
      simp only [addContractKinds, List.any_cons, List.any_nil, Bool.or_false, NoticeEntry.isOf, decide_eq_true_eq] at ha
      subst ha; exact .inr h
    | cons b t ih =>
      cases b with
      | device ks => simp only [addContractKinds, List.any_cons, NoticeEntry.isOf, Bool.false_or] at ha ⊢; exact ih ha
      | contract j gj ks =>
        simp only [addContractKinds] at ha
        split at ha
        · left; simpa [NoticeEntry.isOf] using ha
        · simp only [List.any_cons, Bool.or_eq_true] at ha ⊢
          rcases ha with ha | ha
          · exact .inl (.inl ha)
          · exact (ih ha).imp .inr id
  · induction q with
    | nil => rfl
    | cons b t ih =>
      cases b with
      | device ks => simp only [addContractKinds, List.filter_cons, NoticeEntry.isDevice, if_true, ih]
      | contract j gj ks =>
        simp only [addContractKinds]
        split
        · rfl
        · simpa [List.filter_cons, NoticeEntry.isDevice] using ih

end Sys2Proof.Machine
end

