-- ==== Sys2Proof/Laws/TableFrame.lean ====
section
/-! SUPPORT. `TableFrame`: what the shared operations over contracts can do, with one lemma for each of them. -/

namespace Sys2Proof.Machine

/-- The slots that hold a contract. -/
def State.liveAt (s : State) (i : SlotIx) : Prop := (s.recordAt i).isSome = true

theorem State.liveAt_of_some {s : State} {i : SlotIx} {r : Record} (h : s.recordAt i = some r) : s.liveAt i := by
  simp [State.liveAt, h]

theorem State.liveAt_iff (s : State) (i : SlotIx) : s.liveAt i ↔ s.slots[i.val].body.isLive = true := by
  simp only [State.liveAt, State.recordAt, Fin.getElem_fin]
  cases s.slots[i.val].body <;> simp [SlotBody.isLive]

/-- What an operation of the Table Controller over contracts can do to the state. -/
structure TableFrame (m : SlotIx → Prop) (s t : State) : Prop where
  bases : t.bases = s.bases
  pins : t.pins = s.pins
  ref : t.ref = s.ref
  scrub : t.scrub = s.scrub
  port : t.port = s.port
  supply : t.supply = s.supply
  inReset : t.inReset = s.inReset
  pending : t.pending = s.pending
  slot : ∀ i : SlotIx, SlotKept (m i) s.slots[i.val] t.slots[i.val]
  line : ∀ l : LineIx, LineKept s.liveAt s.trips[l.val] t.trips[l.val]
  notices : NoticesKept s.liveAt s.notices t.notices
  observations : t.observations.Sublist s.observations
  entries : ∀ (i : SlotIx) (g : Byte) (ks : BitVec 7), .contract i g ks ∈ t.notices →
    (∃ ks0, .contract i g ks0 ∈ s.notices) ∨ g = s.slots[i.val].generation

/-- A context at WAIT_GATE fits every kind. -/
theorem Context.initial_fit (k : Kind) : Context.initial.fit k := by cases k <;> simp [Context.fit, Context.initial]

variable {m : SlotIx → Prop} {s t u : State}

theorem TableFrame.refl (m : SlotIx → Prop) (s : State) : TableFrame m s s :=
  ⟨rfl, rfl, rfl, rfl, rfl, rfl, rfl, rfl, fun _ => .refl _ _, fun _ => .refl _ _, .refl _ _, .refl _,
    fun _ _ ks h => .inl ⟨ks, h⟩⟩

theorem TableFrame.liveAt (h : TableFrame m s t) : t.liveAt = s.liveAt := by
  funext i
  rw [State.liveAt_iff, State.liveAt_iff, (h.slot i).isLive]

theorem TableFrame.trans (h : TableFrame m s t) (k : TableFrame m t u) : TableFrame m s u where
  bases := k.bases.trans h.bases
  pins := k.pins.trans h.pins
  ref := k.ref.trans h.ref
  scrub := k.scrub.trans h.scrub
  port := k.port.trans h.port
  supply := k.supply.trans h.supply
  inReset := k.inReset.trans h.inReset
  pending := k.pending.trans h.pending
  slot := fun i => (h.slot i).trans (k.slot i)
  line := fun l => (h.line l).trans (h.liveAt ▸ k.line l)
  notices := h.notices.trans (h.liveAt ▸ k.notices)
  observations := k.observations.trans h.observations
  entries := fun i g ks hm => by
    rcases k.entries i g ks hm with ⟨ks0, h0⟩ | hg
    · exact h.entries i g ks0 h0
    · exact .inr (hg.trans (h.slot i).generation)

theorem TableFrame.mono {n : SlotIx → Prop} (mn : ∀ i, m i → n i) (h : TableFrame m s t) : TableFrame n s t :=
  { h with slot := fun i => (h.slot i).mono (mn i) }

theorem TableFrame.generation (h : TableFrame m s t) (i : SlotIx) :
    t.slots[i.val].generation = s.slots[i.val].generation := (h.slot i).generation

theorem TableFrame.handleOf (h : TableFrame m s t) (i : SlotIx) : t.handleOf i = s.handleOf i := by
  simp only [State.handleOf, Fin.getElem_fin, h.generation]

/-- A record after the operation comes from a record before it. -/
theorem TableFrame.record (h : TableFrame m s t) {i : SlotIx} {r : Record} (hr : t.recordAt i = some r) :
    ∃ r0, s.recordAt i = some r0 ∧ RecordKept (m i) s.slots[i.val].generation r0 r := by
  have hs := h.slot i
  simp only [State.recordAt, Fin.getElem_fin] at hr ⊢
  cases hx : s.slots[i.val] with
  | mk g b =>
    cases hy : t.slots[i.val] with
    | mk g' b' =>
      rw [hx, hy] at hs
      rw [hy] at hr
      cases hs with
      | free => cases hr
      | draining => cases hr
      | live _ hk => cases hr; exact ⟨_, rfl, hk⟩

/-- A record before the operation is edited to a record after it. -/
theorem TableFrame.record_of (h : TableFrame m s t) {i : SlotIx} {r : Record} (hr : s.recordAt i = some r) :
    ∃ r', t.recordAt i = some r' ∧ RecordKept (m i) s.slots[i.val].generation r r' := by
  have hl : t.liveAt i := by rw [h.liveAt]; exact State.liveAt_of_some hr
  obtain ⟨r', hr'⟩ := Option.isSome_iff_exists.1 hl
  obtain ⟨r0, h0, hk⟩ := h.record hr'
  rw [hr] at h0; cases h0
  exact ⟨r', hr', hk⟩

/-- The entries of the queue still carry the generations of their slots. -/
theorem TableFrame.entriesCurrent (h : TableFrame m s t) (hc : s.entriesCurrent) : t.entriesCurrent := by
  intro i g ks hm
  rw [Fin.getElem_fin, h.generation]
  rcases h.entries i g ks hm with ⟨ks0, h0⟩ | hg
  · exact hc i g ks0 h0
  · exact hg

/-- Every context still fits its kind, since none has advanced. -/
theorem TableFrame.contextsFit (h : TableFrame m s t) (hc : s.contextsFit) : t.contextsFit := by
  intro i r hr
  obtain ⟨r0, h0, hk⟩ := h.record hr
  rw [hk.fixed]
  rcases hk.measurement with e | e
  · rw [e]; exact hc i r0 h0
  · rw [e]; exact Context.initial_fit _

/-- An operation run over a list of slots keeps the frame that each of its rounds keeps. -/
theorem TableFrame.foldl {α : Type} {f : State → α → State} (h : ∀ s a, TableFrame m s (f s a)) (l : List α) (s : State) :
    TableFrame m s (l.foldl f s) := by
  induction l generalizing s with
  | nil => exact .refl m s
  | cons a t ih => exact (h s a).trans (ih _)

/-! ## Primitive edits -/

/-- An edit of one record. -/
theorem TableFrame.mapRecord {i : SlotIx} {f : Record → Record}
    (h : ∀ r, s.recordAt i = some r → RecordKept (m i) s.slots[i.val].generation r (f r)) :
    TableFrame m s (s.mapRecord i f) where
  bases := by simp
  pins := by simp
  ref := by simp
  scrub := by simp
  port := by simp
  supply := by simp
  inReset := by simp
  pending := by simp
  slot := fun j => by
    by_cases hj : j = i
    · subst hj
      cases hx : s.slots[j.val] with
      | mk g b =>
        have hg : (s.mapRecord j f).slots[j.val].generation = g := by simp [hx]
        have hb := State.mapRecord_body s j f j
        simp only [if_true, hx] at hb
        cases hy : (s.mapRecord j f).slots[j.val] with
        | mk g' b' =>
          simp only [hy] at hg hb
          subst hg hb
          cases b with
          | free => exact .free _
          | draining => exact .draining _
          | live r =>
            have := h r (by simp [State.recordAt, hx])
            rw [hx] at this
            exact .live _ this
    · have hb := State.mapRecord_body s i f j
      have hg := State.mapRecord_generation s i f j
      simp only [hj, if_false] at hb
      cases hx : s.slots[j.val] with
      | mk g b =>
        cases hy : (s.mapRecord i f).slots[j.val] with
        | mk g' b' =>
          simp only [hx, hy] at hb hg
          subst hb hg
          exact .refl _ _
  line := fun l => by simp only [State.mapRecord_trips]; exact .refl _ _
  notices := by simp only [State.mapRecord_notices]; exact .refl _ _
  observations := by simp
  entries := fun _ _ ks h => .inl ⟨ks, by simpa using h⟩

/-- A change of contributor sets alone. -/
theorem TableFrame.ofLines (hslots : t.slots = s.slots) (hbases : t.bases = s.bases) (hpins : t.pins = s.pins)
    (hnot : t.notices = s.notices) (hobs : t.observations = s.observations) (href : t.ref = s.ref)
    (hscrub : t.scrub = s.scrub) (hport : t.port = s.port) (hsup : t.supply = s.supply) (hres : t.inReset = s.inReset)
    (hpen : t.pending = s.pending) (hline : ∀ l : LineIx, LineKept s.liveAt s.trips[l.val] t.trips[l.val]) :
    TableFrame m s t where
  bases := hbases
  pins := hpins
  ref := href
  scrub := hscrub
  port := hport
  supply := hsup
  inReset := hres
  pending := hpen
  slot := fun i => by rw [hslots]; exact .refl _ _
  line := hline
  notices := by rw [hnot]; exact .refl _ _
  observations := by rw [hobs]
  entries := fun _ _ ks h => .inl ⟨ks, hnot ▸ h⟩

/-- A LIVE slot joins lines. -/
theorem TableFrame.joinMask {i : SlotIx} (h : s.liveAt i) (k : BitVec 4) : TableFrame m s (s.joinMask i k) :=
  .ofLines (by simp) (by simp) (by simp) (by simp) (by simp) (by simp) (by simp) (by simp) (by simp) (by simp) (by simp)
    (fun l => by rw [State.joinMask_line]; split; exacts [.join h, .refl _ _])

/-- A slot leaves lines. -/
theorem TableFrame.leaveMask (i : SlotIx) (k : BitVec 4) : TableFrame m s (s.leaveMask i k) :=
  .ofLines (by simp) (by simp) (by simp) (by simp) (by simp) (by simp) (by simp) (by simp) (by simp) (by simp) (by simp)
    (fun l => by rw [State.leaveMask_line]; split; exacts [.leave _ _ _, .refl _ _])

/-- A LIVE slot's mask changes. -/
theorem TableFrame.changeMask {i : SlotIx} (h : s.liveAt i) (old new : BitVec 4) :
    TableFrame m s (s.changeMask i old new) :=
  .ofLines (by simp) (by simp) (by simp) (by simp) (by simp) (by simp) (by simp) (by simp) (by simp) (by simp) (by simp)
    (fun l => by
      rw [State.changeMask_line]; split
      · exact .leave _ _ _
      · split
        · exact .join h
        · exact .refl _ _)

/-- A posting for a LIVE slot. -/
theorem TableFrame.post {i : SlotIx} (h : s.liveAt i) (k : NoticeKind) : TableFrame m s (s.post i k) :=
  { TableFrame.refl m s with
    notices := addContractKinds_kept h _ (noticeBit_ne_zero k) _
    entries := fun _ _ _ he => (addContractKinds_mem he).imp id (fun ⟨hi, hg⟩ => by rw [hi]; exact hg) }

theorem TableFrame.postMasked {i : SlotIx} (h : s.liveAt i) (k : NoticeKind) (mask : BitVec 3) :
    TableFrame m s (s.postMasked i k mask) := by
  unfold State.postMasked; split
  · exact .refl _ _
  · exact .post h k

/-- A withdrawal of pending observations. -/
theorem TableFrame.withdraw (p : Observation → Bool) :
    TableFrame m s { s with observations := s.observations.filter p } :=
  { TableFrame.refl m s with observations := List.filter_sublist }

/-- A context at WAIT_GATE lies in its ranges. -/
theorem Context.initial_bounded : Context.initial.bounded := by unfold Context.bounded; decide

/-- The edit that abandoning a measurement makes to a record. -/
theorem RecordKept.abandoned (n : Prop) (g : Byte) (r : Record) : RecordKept n g r { r with context := Context.initial } where
  fixed := rfl
  dependents := rfl
  code := id
  bounded := fun ⟨h1, h2, h3, h4, h5, h6, h7⟩ => ⟨h1, h2, h3, h4, h5, ⟨h6.1, Context.initial_bounded⟩, h7⟩
  settled := fun _ _ => rfl
  uncorrupt := fun _ h => h
  corrupt := id
  measurement := .inr rfl

theorem TableFrame.abandon (i : SlotIx) : TableFrame m s (s.abandon i) :=
  (TableFrame.withdraw _).trans (.mapRecord fun r _ => .abandoned _ _ r)

theorem TableFrame.unfreeze (i : SlotIx) : TableFrame m s (s.unfreeze i) :=
  .mapRecord fun r _ => .abandoned _ _ r

/-! ## Staged amendments -/

/-- The edit that replaces the limits or the staged amendment, with the code recomputed. -/
theorem RecordKept.recode (n : Prop) (r : Record) (g : Byte) (a : Limits) (st : Option Limits) :
    RecordKept n g r (({ r with limits := a, staged := st } : Record).recode g) where
  fixed := rfl
  dependents := rfl
  code := fun _ => rfl
  bounded := fun h => h
  settled := fun _ _ => rfl
  uncorrupt := fun _ h => h
  corrupt := fun h => h
  measurement := .inl rfl

theorem TableFrame.applyStaged (i : SlotIx) : TableFrame m s (s.applyStaged i) := by
  unfold State.applyStaged
  cases hr : s.recordAt i with
  | none => exact .refl _ _
  | some r =>
    cases hs : r.staged with
    | none => simp only [hs]; exact .refl _ _
    | some a =>
      simp only [hs]
      have h1 : TableFrame m s
          (s.mapRecord i (fun r => ({ r with limits := a, staged := none } : Record).recode s.slots[i].generation)) :=
        .mapRecord fun r _ => RecordKept.recode _ r _ a none
      split
      · exact h1.trans (.changeMask (by rw [h1.liveAt]; exact State.liveAt_of_some hr) _ _)
      · exact h1

/-- The record after a staged amendment has been applied: state, flags, counters and context as they were. -/
theorem State.applyStaged_recordAt {s : State} {i : SlotIx} {r : Record} (hr : s.recordAt i = some r) :
    (s.applyStaged i).recordAt i = some (match r.staged with
      | none => r
      | some a => ({ r with limits := a, staged := none } : Record).recode s.slots[i.val].generation) := by
  unfold State.applyStaged
  simp only [hr]
  cases hs : r.staged with
  | none => simp only [hr]
  | some a =>
    dsimp only
    split <;> simp [hr, Fin.getElem_fin]

theorem State.applyStaged_recordAt_ne (s : State) {i j : SlotIx} (h : j ≠ i) :
    (s.applyStaged i).recordAt j = s.recordAt j := by
  unfold State.applyStaged
  cases s.recordAt i with
  | none => rfl
  | some r =>
    dsimp only
    cases r.staged with
    | none => rfl
    | some a =>
      dsimp only
      split <;> simp [State.mapRecord_recordAt_ne, h]

/-! ## Entries into the blocked states and into ARMING, and the cascades -/

theorem isMeasuring_not_settled {c : ContractState} (h : isMeasuring c = true) :
    c ≠ .violated ∧ c ≠ .done ∧ c ≠ .corrupt := by cases c <;> simp_all [isMeasuring]

theorem isBlocked_not_settled {c : ContractState} (h : isBlocked c = true) :
    c ≠ .violated ∧ c ≠ .done ∧ c ≠ .corrupt := by cases c <;> simp_all [isBlocked]

/-- A contract that is measured and not violated, or blocked: the states the blocking recomputation acts on. -/
def isOpen (c : ContractState) : Bool := isMeasuring c || isBlocked c

theorem isOpen_not_settled {c : ContractState} (h : isOpen c = true) : c ≠ .violated ∧ c ≠ .done ∧ c ≠ .corrupt := by
  cases c <;> simp_all [isOpen, isMeasuring, isBlocked]

theorem isBlocked_ne_suspect {c : ContractState} (h : isBlocked c = true) : c ≠ .suspect := by
  cases c <;> simp_all [isBlocked]

theorem isMeasuring_isOpen {c : ContractState} (h : isMeasuring c = true) : isOpen c = true := by simp [isOpen, h]
theorem isBlocked_isOpen {c : ContractState} (h : isBlocked c = true) : isOpen c = true := by simp [isOpen, h]

/-- The edit that sets an open contract aside. -/
theorem RecordKept.setAside (n : Prop) (g : Byte) (r : Record) {target : ContractState} (ho : isOpen r.state = true)
    (ht : isBlocked target = true) :
    RecordKept n g r { r with state := target, strikes := if isMeasuring r.state then 0 else r.strikes } where
  fixed := rfl
  dependents := rfl
  code := id
  bounded := fun ⟨h1, h2, h3, h4, h5, h6, h7, h8, h9⟩ => by
    obtain ⟨hv, _, hc⟩ := isOpen_not_settled ho
    refine ⟨by dsimp only; split <;> omega, h2, h3, h4, h5, h6, fun _ _ => ?_, fun _ _ => h8 hv hc, h9⟩
    dsimp only
    split
    · rfl
    · rename_i hm
      have hb : isBlocked r.state = true := by simpa [isOpen, hm] using ho
      exact h7 (isBlocked_ne_suspect hb) hc
  settled := fun _ h => by
    obtain ⟨hv, hd, _⟩ := isOpen_not_settled ho
    rcases h with h | h
    · exact absurd h hv
    · exact absurd h hd
  uncorrupt := fun _ h => absurd h (isBlocked_not_settled ht).2.2
  corrupt := fun h => absurd h (isOpen_not_settled ho).2.2
  measurement := .inl rfl

/-- The record of a contract that has been set aside (R45). -/
def Record.setAside (r : Record) (target : ContractState) : Record :=
  { r with
    state := target
    strikes := if isMeasuring r.state then 0 else r.strikes
    context := if isMeasuring r.state then Context.initial else r.context }

theorem State.setAside_recordAt {s : State} {i : SlotIx} {r : Record} (hr : s.recordAt i = some r)
    (target : ContractState) : (s.setAside i target).recordAt i = some (r.setAside target) := by
  unfold State.setAside
  simp only [hr]
  split <;> split <;> simp [Record.setAside, *]

theorem State.setAside_recordAt_ne (s : State) {i j : SlotIx} (h : j ≠ i) (target : ContractState) :
    (s.setAside i target).recordAt j = s.recordAt j := by
  unfold State.setAside
  cases s.recordAt i with
  | none => rfl
  | some r =>
    dsimp only
    split <;> split <;> simp [State.mapRecord_recordAt_ne, State.abandon_recordAt_ne, h]

theorem TableFrame.setAside {i : SlotIx} {r : Record} (hr : s.recordAt i = some r) (ho : isOpen r.state = true)
    {target : ContractState} (ht : isBlocked target = true) : TableFrame m s (s.setAside i target) := by
  have hl : s.liveAt i := State.liveAt_of_some hr
  unfold State.setAside
  simp only [hr]
  -- the contract's own edits
  have h2 : TableFrame m s
      ((if isMeasuring r.state = true then (s.abandon i).mapRecord i (fun r => { r with strikes := 0 }) else s).mapRecord i
        (fun r => { r with state := target })) := by
    split
    · rename_i hm
      rw [State.mapRecord_mapRecord]
      refine (TableFrame.abandon i).trans (.mapRecord fun r' hr' => ?_)
      simp only [State.abandon_recordAt, hr, Option.map_some, Option.some.injEq] at hr'
      subst hr'
      have := RecordKept.setAside (m i) (s.abandon i).slots[i.val].generation { r with context := Context.initial } ho ht
      simpa [hm] using this
    · rename_i hm
      refine .mapRecord fun r' hr' => ?_
      rw [hr] at hr'; cases hr'
      have := RecordKept.setAside (m i) s.slots[i.val].generation r ho ht
      simpa [hm] using this
  split
  · exact h2
  · exact h2.trans (.postMasked (by rw [h2.liveAt]; exact hl) _ _)

theorem TableFrame.setAsideDependent {below : State → SlotIx → State} (hb : ∀ s d, TableFrame m s (below s d))
    (d : SlotIx) : TableFrame m s (s.setAsideDependent below d) := by
  unfold State.setAsideDependent
  cases hr : s.recordAt d with
  | none => exact .refl _ _
  | some r =>
    dsimp only
    split
    · rename_i hm
      have h1 : TableFrame m s (s.setAside d .dormant) := .setAside hr (isMeasuring_isOpen hm) rfl
      split
      · exact h1.trans (hb _ _)
      · exact h1
    · split
      · exact .abandon d
      · exact .refl _ _

theorem TableFrame.cascadeDown (fuel : ℕ) (i : SlotIx) : TableFrame m s (s.cascadeDown fuel i) := by
  induction fuel generalizing s i with
  | zero => exact .refl _ _
  | succ n ih =>
    refine .foldl (fun s d => ?_) _ s
    split
    · exact .setAsideDependent (fun s d => ih d) d
    · exact .refl _ _

theorem TableFrame.becameUnhealthy (before : ContractState) (i : SlotIx) :
    TableFrame m s (s.becameUnhealthy before i) := by
  unfold State.becameUnhealthy; split
  · exact .cascadeDown 64 i
  · exact .refl _ _

theorem TableFrame.enterBlocked {i : SlotIx} {r : Record} (hr : s.recordAt i = some r) (ho : isOpen r.state = true)
    {target : ContractState} (ht : isBlocked target = true) : TableFrame m s (s.enterBlocked i target) := by
  unfold State.enterBlocked
  simp only [hr]
  exact (TableFrame.setAside hr ho ht).trans (.becameUnhealthy _ _)

/-- The record of a contract that has entered ARMING (R46). -/
def Record.rearmed (r : Record) (g : Byte) : Record :=
  let r1 : Record := match r.staged with
    | none => r
    | some a => ({ r with limits := a, staged := none } : Record).recode g
  { r1 with settleRemaining := r1.limits.settle.toNat, strikes := 0, context := Context.initial, state := .arming }

theorem State.rearm_recordAt {s : State} {i : SlotIx} {r : Record} (hr : s.recordAt i = some r) :
    (s.rearm i).recordAt i = some (r.rearmed s.slots[i.val].generation) := by
  unfold State.rearm
  rw [State.mapRecord_recordAt, State.applyStaged_recordAt hr]
  rfl

theorem State.rearm_recordAt_ne (s : State) {i j : SlotIx} (h : j ≠ i) : (s.rearm i).recordAt j = s.recordAt j := by
  unfold State.rearm
  rw [State.mapRecord_recordAt_ne _ _ _ h, State.applyStaged_recordAt_ne _ h]

theorem TableFrame.rearm {i : SlotIx} {r : Record} (hr : s.recordAt i = some r) (ho : isOpen r.state = true) :
    TableFrame m s (s.rearm i) := by
  unfold State.rearm
  refine (TableFrame.applyStaged i).trans (.mapRecord fun r' hr' => ?_)
  rw [State.applyStaged_recordAt hr] at hr'
  have hst : r'.state = r.state := by
    cases hr'; cases r.staged <;> rfl
  rw [← hst] at ho
  obtain ⟨hv, hd, hc⟩ := isOpen_not_settled ho
  exact
    { fixed := rfl
      dependents := rfl
      code := id
      bounded := fun ⟨h1, h2, h3, h4, h5, h6, h7, h8, h9⟩ =>
        ⟨by simp, h2, by have := r'.limits.settle.isLt; dsimp only; omega, h4, h5, ⟨h6.1, Context.initial_bounded⟩, fun _ _ => rfl,
         fun _ _ => h8 hv hc, h9⟩
      settled := fun _ h => by rcases h with h | h; exacts [absurd h hv, absurd h hd]
      uncorrupt := fun _ h => by simp at h
      corrupt := fun h => absurd h hc
      measurement := .inr rfl }

theorem TableFrame.enterArming {i : SlotIx} {r : Record} (hr : s.recordAt i = some r) (ho : isOpen r.state = true) :
    TableFrame m s (s.enterArming i) := by
  unfold State.enterArming
  simp only [hr]
  exact (TableFrame.rearm hr ho).trans (.becameUnhealthy _ _)

/-- What the blocking recomputation gives is ARMING or a blocked state. -/
theorem State.blockingResult_cases (s : State) (r : Record) :
    s.blockingResult r = .arming ∨ isBlocked (s.blockingResult r) = true := by
  unfold State.blockingResult
  split
  · exact .inr rfl
  · split
    · exact .inr rfl
    · split
      · exact .inr rfl
      · exact .inl rfl

theorem TableFrame.recompute (i : SlotIx) : TableFrame m s (s.recompute i) := by
  unfold State.recompute
  cases hr : s.recordAt i with
  | none => exact .refl _ _
  | some r =>
    dsimp only
    split
    · rename_i ho
      split
      · split
        · exact .refl _ _
        · exact .enterArming hr ho
      · split
        · exact .refl _ _
        · rename_i hna _
          exact .enterBlocked hr ho ((s.blockingResult_cases r).resolve_left hna)
    · exact .refl _ _

theorem TableFrame.takeUpDependent (d : SlotIx) : TableFrame m s (s.takeUpDependent d) := by
  unfold State.takeUpDependent
  cases hr : s.recordAt d with
  | none => exact .refl _ _
  | some r =>
    dsimp only
    split
    · exact .recompute d
    · split
      · exact .unfreeze d
      · exact .refl _ _

theorem TableFrame.cascadeUp (i : SlotIx) : TableFrame m s (s.cascadeUp i) :=
  .foldl (fun s d => by split; exacts [.takeUpDependent d, .refl _ _]) _ s

theorem TableFrame.becameHealthy (before : ContractState) (i : SlotIx) : TableFrame m s (s.becameHealthy before i) := by
  unfold State.becameHealthy; split
  · exact .refl _ _
  · exact .cascadeUp i

/-! ## Stop and run notices -/

theorem TableFrame.stopSubscriber (i : SlotIx) : TableFrame m s (s.stopSubscriber i) := by
  unfold State.stopSubscriber
  cases hr : s.recordAt i with
  | none => exact .refl _ _
  | some r =>
    dsimp only
    split
    · exact .recompute i
    · split
      · exact .abandon i
      · exact .refl _ _

theorem TableFrame.runSubscriber (i : SlotIx) : TableFrame m s (s.runSubscriber i) := by
  unfold State.runSubscriber
  cases hr : s.recordAt i with
  | none => exact .refl _ _
  | some r =>
    dsimp only
    split
    · exact .recompute i
    · split
      · exact .unfreeze i
      · exact .refl _ _

theorem TableFrame.stopNotice (named : BaseIx → Bool) : TableFrame m s (s.stopNotice named) :=
  .foldl (fun _ i => .stopSubscriber i) _ s

theorem TableFrame.runNotice (named : BaseIx → Bool) : TableFrame m s (s.runNotice named) :=
  .foldl (fun _ i => .runSubscriber i) _ s

end Sys2Proof.Machine
end

