-- ==== Sys2Proof/Laws/Blocks.lean ====
section
/-! SUPPORT. What the operations of single blocks can do: the time bases at a REFCLK edge, a stall and a resume, the lines at a
loss, the handing on of edges and boundaries, the taking of one, the dependents counts, and WIPE_TABLE. -/

namespace Sys2Proof.Machine

variable {s : State}

/-! ## Bases and lines edited all at once -/

theorem State.mapBases_base (s : State) (f : TimeBase → TimeBase) (b : BaseIx) :
    (allBases.foldl (fun s b => s.setBase b (f s.bases[b])) s).bases[b.val] = f s.bases[b.val] :=
  foldl_get_all (fun s (b : BaseIx) => s.bases[b.val]) _ (fun _ => f) (fun s b => by simp)
    (fun s b c h => by simp [State.setBase_get_ne, h]) s b

theorem State.mapLines_line (s : State) (f : TripLine → TripLine) (l : LineIx) :
    (allLines.foldl (fun s l => s.setLine l (f s.trips[l])) s).trips[l.val] = f s.trips[l.val] :=
  foldl_get_all (fun s (l : LineIx) => s.trips[l.val]) _ (fun _ => f) (fun s l => by simp)
    (fun s l k h => by simp [State.setLine_get_ne, h]) s l

theorem State.mapPins_channel (s : State) (f : PinChannel → PinChannel) (p : PinIx) :
    (allPins.foldl (fun s p => s.setChannel p (f s.pins[p])) s).pins[p.val] = f s.pins[p.val] :=
  foldl_get_all (fun s (p : PinIx) => s.pins[p.val]) _ (fun _ => f) (fun s p => by simp)
    (fun s p q h => by simp [State.setChannel_get_ne, h]) s p

/-- Editing all bases leaves every other field. -/
theorem State.mapBases_keeps {β : Type} (get : State → β) (h : ∀ s b x, get (s.setBase b x) = get s) (s : State)
    (f : TimeBase → TimeBase) : get (allBases.foldl (fun s b => s.setBase b (f s.bases[b])) s) = get s :=
  foldl_keeps get _ (fun s b => h s b _) _ s

/-- Editing all lines leaves every other field. -/
theorem State.mapLines_keeps {β : Type} (get : State → β) (h : ∀ s l x, get (s.setLine l x) = get s) (s : State)
    (f : TripLine → TripLine) : get (allLines.foldl (fun s l => s.setLine l (f s.trips[l])) s) = get s :=
  foldl_keeps get _ (fun s l => h s l _) _ s

/-- Editing all channels leaves every other field. -/
theorem State.mapPins_keeps {β : Type} (get : State → β) (h : ∀ s p x, get (s.setChannel p x) = get s) (s : State)
    (f : PinChannel → PinChannel) : get (allPins.foldl (fun s p => s.setChannel p (f s.pins[p])) s) = get s :=
  foldl_keeps get _ (fun s p => h s p _) _ s

/-! ## A REFCLK rising edge -/

theorem State.edgeArrives_base (s : State) (b : BaseIx) : s.edgeArrives.bases[b.val] = s.bases[b.val].countEdge := by
  simp only [State.edgeArrives]
  exact (State.mapPins_keeps (fun s => s.bases[b.val]) (fun _ _ _ => rfl) _ PinChannel.seeEdge).trans
    (State.mapBases_base s TimeBase.countEdge b)

theorem State.edgeArrives_channel (s : State) (p : PinIx) : s.edgeArrives.pins[p.val] = s.pins[p.val].seeEdge := by
  simp only [State.edgeArrives]
  exact (State.mapPins_channel _ PinChannel.seeEdge p).trans
    (congrArg PinChannel.seeEdge (State.mapBases_keeps (fun s => s.pins[p.val]) (fun _ _ _ => rfl) s TimeBase.countEdge))

/-- A REFCLK edge leaves every field but the bases, the pins and the checker. -/
theorem State.edgeArrives_keeps {β : Type} (get : State → β) (hb : ∀ s b x, get (State.setBase s b x) = get s)
    (hp : ∀ s p x, get (State.setChannel s p x) = get s) (hr : ∀ (s : State) r, get { s with ref := r } = get s)
    (s : State) : get s.edgeArrives = get s := by
  simp only [State.edgeArrives]
  exact (hr _ _).trans
    ((State.mapPins_keeps get hp _ PinChannel.seeEdge).trans (State.mapBases_keeps get hb s TimeBase.countEdge))

@[simp] theorem State.edgeArrives_ref (s : State) : s.edgeArrives.ref = s.ref.edge := rfl
@[simp] theorem State.edgeArrives_slots (s : State) : s.edgeArrives.slots = s.slots :=
  State.edgeArrives_keeps State.slots (fun _ _ _ => rfl) (fun _ _ _ => rfl) (fun _ _ => rfl) s
@[simp] theorem State.edgeArrives_trips (s : State) : s.edgeArrives.trips = s.trips :=
  State.edgeArrives_keeps State.trips (fun _ _ _ => rfl) (fun _ _ _ => rfl) (fun _ _ => rfl) s
@[simp] theorem State.edgeArrives_notices (s : State) : s.edgeArrives.notices = s.notices :=
  State.edgeArrives_keeps State.notices (fun _ _ _ => rfl) (fun _ _ _ => rfl) (fun _ _ => rfl) s
@[simp] theorem State.edgeArrives_observations (s : State) : s.edgeArrives.observations = s.observations :=
  State.edgeArrives_keeps State.observations (fun _ _ _ => rfl) (fun _ _ _ => rfl) (fun _ _ => rfl) s
@[simp] theorem State.edgeArrives_scrub (s : State) : s.edgeArrives.scrub = s.scrub :=
  State.edgeArrives_keeps State.scrub (fun _ _ _ => rfl) (fun _ _ _ => rfl) (fun _ _ => rfl) s
@[simp] theorem State.edgeArrives_port (s : State) : s.edgeArrives.port = s.port :=
  State.edgeArrives_keeps State.port (fun _ _ _ => rfl) (fun _ _ _ => rfl) (fun _ _ => rfl) s
@[simp] theorem State.edgeArrives_supply (s : State) : s.edgeArrives.supply = s.supply :=
  State.edgeArrives_keeps State.supply (fun _ _ _ => rfl) (fun _ _ _ => rfl) (fun _ _ => rfl) s
@[simp] theorem State.edgeArrives_inReset (s : State) : s.edgeArrives.inReset = s.inReset :=
  State.edgeArrives_keeps State.inReset (fun _ _ _ => rfl) (fun _ _ _ => rfl) (fun _ _ => rfl) s
@[simp] theorem State.edgeArrives_pending (s : State) : s.edgeArrives.pending = s.pending :=
  State.edgeArrives_keeps State.pending (fun _ _ _ => rfl) (fun _ _ _ => rfl) (fun _ _ => rfl) s

/-- All that the detection of a return can do. -/
theorem State.detectReturn_cases (s : State) :
    (s.detectReturn = s ∧ ¬ (s.ref.supervision = .referenceFault ∧ s.ref.goodPeriods = 1024)) ∨
    (s.ref.supervision = .referenceFault ∧ s.ref.goodPeriods = 1024 ∧
      s.detectReturn = (s.setSupervision .faultLatched).postDevice .referenceBack) := by
  unfold State.detectReturn
  split
  · rename_i h
    exact .inr ⟨h.1, h.2, rfl⟩
  · rename_i h
    exact .inl ⟨rfl, h⟩

/-- All that a REFCLK rising edge can do: count at the checker in reset, wait for the parts of the edge before it, or reach
every block and perhaps bring a return. -/
theorem State.refclkEdge_cases (s : State) :
    (s.inReset = true ∧ s.refclkEdge = { s with ref := s.ref.edge }) ∨
    (s.inReset = false ∧ s.edgeOutstanding = true ∧ s.refclkEdge = s) ∨
    (s.inReset = false ∧ s.edgeOutstanding = false ∧ s.refclkEdge = s.edgeArrives.detectReturn) := by
  unfold State.refclkEdge
  cases s.inReset <;> cases s.edgeOutstanding <;> simp

theorem State.anyTickDue_eq_false (s : State) :
    s.anyTickDue = false ↔ ∀ b : BaseIx, s.bases[b].state = .running → s.bases[b].divider < 2 ^ s.bases[b].tap.val := by
  simp [State.anyTickDue, TimeBase.tickDue, allBases]

theorem State.edgeOutstanding_eq_false (s : State) :
    s.edgeOutstanding = false ↔
      (∀ b : BaseIx, s.bases[b].state = .running → s.bases[b].divider < 2 ^ s.bases[b].tap.val) ∧
        ∀ p : PinIx, s.pins[p].due = false := by
  simp [State.edgeOutstanding, State.anyTickDue_eq_false, allPins]

/-- An edge changes the divider of a RUNNING base alone. -/
theorem TimeBase.countEdge_cases (t : TimeBase) :
    (t.state ≠ .running ∧ t.countEdge = t) ∨
      (t.state = .running ∧ t.countEdge = { t with divider := t.divider + 1 }) := by
  unfold TimeBase.countEdge
  split
  · rename_i h
    exact .inr ⟨h, rfl⟩
  · rename_i h
    exact .inl ⟨h, rfl⟩

/-- An edge at the next edge of a running count. -/
theorem RefChecker.edge_goodPeriods (c : RefChecker) :
    c.edge.goodPeriods = if c.gap = .running then min (c.goodPeriods + 1) 1024 else c.goodPeriods := by
  obtain ⟨v, g, n⟩ := c
  cases g <;> rfl

/-- The count after an edge stays at most 1024, and the gap timer runs. -/
theorem RefChecker.edge_bounds (c : RefChecker) (h : c.goodPeriods ≤ 1024) :
    c.edge.gap = .running ∧ c.edge.goodPeriods ≤ 1024 ∧ c.goodPeriods ≤ c.edge.goodPeriods ∧
      c.edge.supervision = c.supervision := by
  obtain ⟨v, g, n⟩ := c
  cases g <;> simp_all [RefChecker.edge]

/-! ## Edges and boundaries handed on -/

/-- The context's own edit of a record: everything that decides whether a contract measures stands. -/
def Record.withInbox (r : Record) (l : List ContextEvent) : Record :=
  { r with context := { r.context with inbox := l } }

theorem State.contractAt_mapRecord_state (s : State) (i : SlotIx) (f : Record → Record)
    (h : ∀ r, (f r).state = r.state) (k : Handle) :
    ((s.mapRecord i f).contractAt k).map Record.state = (s.contractAt k).map Record.state := by
  simp only [State.contractAt, Fin.getElem_fin, State.mapRecord_generation]
  split
  · by_cases e : k.slot = i
    · subst e
      rw [State.mapRecord_recordAt]
      cases s.recordAt k.slot <;> simp [h]
    · rw [State.mapRecord_recordAt_ne _ _ _ e]
  · rfl

theorem State.parentAllows_mapRecord (s : State) (i : SlotIx) (f : Record → Record) (h : ∀ r, (f r).state = r.state)
    (r : Record) : (s.mapRecord i f).parentAllows r = s.parentAllows r := by
  unfold State.parentAllows
  split
  · rfl
  · rename_i k _
    have := State.contractAt_mapRecord_state s i f h k
    revert this
    cases (s.mapRecord i f).contractAt k <;> cases s.contractAt k <;> simp_all

theorem State.measures_mapRecord (s : State) (i : SlotIx) (f : Record → Record) (h : ∀ r, (f r).state = r.state)
    (r : Record) : (s.mapRecord i f).measures r = s.measures r := by
  simp [State.measures, State.frozen, State.baseRunning, State.parentAllows_mapRecord s i f h]

theorem State.measures_withInbox (s : State) (r : Record) (l : List ContextEvent) :
    s.measures (r.withInbox l) = s.measures r := rfl

/-- An event handed to one member. -/
def State.handTo (s : State) (i : SlotIx) (ev : Record → ContextEvent) : State :=
  match s.recordAt i with
  | none => s
  | some r =>
    if s.measures r then
      s.mapRecord i (fun r => { r with context := { r.context with inbox := r.context.inbox ++ [ev r] } })
    else s

theorem State.handOn_eq (s : State) (ms : List SlotIx) (ev : Record → ContextEvent) :
    s.handOn ms ev = ms.foldl (fun s i => s.handTo i ev) s := rfl

/-- All that handing an event to a member can do. -/
theorem State.handTo_cases (s : State) (i : SlotIx) (ev : Record → ContextEvent) :
    s.handTo i ev = s ∨ ∃ r, s.recordAt i = some r ∧ s.measures r = true ∧
      s.handTo i ev = s.mapRecord i (fun r => r.withInbox (r.context.inbox ++ [ev r])) := by
  unfold State.handTo
  split
  · exact .inl rfl
  · rename_i r hr
    split
    · rename_i hm
      exact .inr ⟨r, hr, hm, rfl⟩
    · exact .inl rfl

/-- Handing an event on leaves every field but the slots, and edits contexts alone. -/
theorem State.handOn_keeps {β : Type} (get : State → β) (h : ∀ s i f, get (State.mapRecord s i f) = get s) (s : State)
    (ms : List SlotIx) (ev : Record → ContextEvent) : get (s.handOn ms ev) = get s := by
  rw [State.handOn_eq]
  refine foldl_keeps get _ (fun s i => ?_) _ s
  obtain e | ⟨r, _, _, e⟩ := State.handTo_cases s i ev <;> rw [e]
  exact h _ _ _

@[simp] theorem State.handOn_bases (s : State) (ms : List SlotIx) (ev : Record → ContextEvent) :
    (s.handOn ms ev).bases = s.bases := State.handOn_keeps State.bases (by simp) s ms ev
@[simp] theorem State.handOn_pins (s : State) (ms : List SlotIx) (ev : Record → ContextEvent) :
    (s.handOn ms ev).pins = s.pins := State.handOn_keeps State.pins (by simp) s ms ev
@[simp] theorem State.handOn_trips (s : State) (ms : List SlotIx) (ev : Record → ContextEvent) :
    (s.handOn ms ev).trips = s.trips := State.handOn_keeps State.trips (by simp) s ms ev
@[simp] theorem State.handOn_notices (s : State) (ms : List SlotIx) (ev : Record → ContextEvent) :
    (s.handOn ms ev).notices = s.notices := State.handOn_keeps State.notices (by simp) s ms ev
@[simp] theorem State.handOn_observations (s : State) (ms : List SlotIx) (ev : Record → ContextEvent) :
    (s.handOn ms ev).observations = s.observations := State.handOn_keeps State.observations (by simp) s ms ev
@[simp] theorem State.handOn_ref (s : State) (ms : List SlotIx) (ev : Record → ContextEvent) :
    (s.handOn ms ev).ref = s.ref := State.handOn_keeps State.ref (by simp) s ms ev
@[simp] theorem State.handOn_scrub (s : State) (ms : List SlotIx) (ev : Record → ContextEvent) :
    (s.handOn ms ev).scrub = s.scrub := State.handOn_keeps State.scrub (by simp) s ms ev
@[simp] theorem State.handOn_port (s : State) (ms : List SlotIx) (ev : Record → ContextEvent) :
    (s.handOn ms ev).port = s.port := State.handOn_keeps State.port (by simp) s ms ev
@[simp] theorem State.handOn_supply (s : State) (ms : List SlotIx) (ev : Record → ContextEvent) :
    (s.handOn ms ev).supply = s.supply := State.handOn_keeps State.supply (by simp) s ms ev
@[simp] theorem State.handOn_inReset (s : State) (ms : List SlotIx) (ev : Record → ContextEvent) :
    (s.handOn ms ev).inReset = s.inReset := State.handOn_keeps State.inReset (by simp) s ms ev
@[simp] theorem State.handOn_pending (s : State) (ms : List SlotIx) (ev : Record → ContextEvent) :
    (s.handOn ms ev).pending = s.pending := State.handOn_keeps State.pending (by simp) s ms ev

theorem State.handTo_measures (s : State) (i : SlotIx) (ev : Record → ContextEvent) (r : Record) :
    (s.handTo i ev).measures r = s.measures r := by
  obtain e | ⟨_, _, _, e⟩ := State.handTo_cases s i ev <;> rw [e]
  exact State.measures_mapRecord s i (fun r => r.withInbox (r.context.inbox ++ [ev r])) (fun _ => rfl) r

theorem State.handTo_generation (s : State) (i j : SlotIx) (ev : Record → ContextEvent) :
    (s.handTo i ev).slots[j.val].generation = s.slots[j.val].generation := by
  obtain e | ⟨_, _, _, e⟩ := State.handTo_cases s i ev <;> rw [e]
  exact State.mapRecord_generation _ _ _ _

theorem State.handTo_recordAt (s : State) (i j : SlotIx) (ev : Record → ContextEvent) :
    (s.handTo i ev).recordAt j =
      if j = i then (s.recordAt j).map (fun r => if s.measures r then r.withInbox (r.context.inbox ++ [ev r]) else r)
      else s.recordAt j := by
  unfold State.handTo
  split
  · rename_i h
    split
    · rename_i e; subst e; simp [h]
    · rfl
  · rename_i r h
    by_cases e : j = i
    · subst e
      by_cases hm : s.measures r = true
      · simp [h, hm, Record.withInbox]
      · simp [h, hm]
    · rw [if_neg e]
      split
      · exact State.mapRecord_recordAt_ne _ _ _ e
      · rfl

/-- What each slot's record is after an event has been handed to a set of slots without repeats: a measuring member has it last
in its inbox, every other record stands. -/
theorem State.handOn_recordAt (s : State) {ms : List SlotIx} (nd : ms.Nodup) (ev : Record → ContextEvent) (j : SlotIx) :
    (s.handOn ms ev).recordAt j =
      if j ∈ ms then (s.recordAt j).map (fun r => if s.measures r then r.withInbox (r.context.inbox ++ [ev r]) else r)
      else s.recordAt j := by
  rw [State.handOn_eq]
  induction ms generalizing s with
  | nil => simp
  | cons a t ih =>
    obtain ⟨ha, nt⟩ := List.nodup_cons.1 nd
    rw [List.foldl_cons, ih _ nt, State.handTo_recordAt]
    simp only [State.handTo_measures]
    by_cases e : j = a
    · subst e; simp [ha]
    · simp [e]

/-! ## The taking of an event by a context -/

theorem State.afterStep_observations (s : State) (i : SlotIx) (n : Word16) (x : StepResult) :
    (s.afterStep i n x).observations =
      s.observations ++ (match x.2 with | none => [] | some v => [⟨s.handleOf i, v, n⟩]) := by
  unfold State.afterStep
  split <;> simp_all

theorem State.afterStep_slots (s : State) (i : SlotIx) (n : Word16) (x : StepResult) :
    (s.afterStep i n x).slots = (s.mapRecord i (fun r => { r with context := x.1 })).slots := by
  unfold State.afterStep
  split <;> rfl

/-- The taking of an event edits the one context, adds at most one observation, and leaves every other field. -/
theorem State.afterStep_keeps {β : Type} (get : State → β) (hm : ∀ s i f, get (State.mapRecord s i f) = get s)
    (ho : ∀ (s : State) l, get { s with observations := l } = get s) (s : State) (i : SlotIx) (n : Word16)
    (x : StepResult) : get (s.afterStep i n x) = get s := by
  unfold State.afterStep
  split
  · exact hm _ _ _
  · rw [ho, hm]

/-! ## The bounds of the accumulators (R59) -/

theorem position_le (m : Word16) (o : Option Stamp) (st : Stamp) : position m o st ≤ 1048560 := by
  unfold position
  split
  · exact Nat.le_of_lt_succ (Fin.isLt _)
  · dsimp only
    split
    · rename_i h
      exact h.2
    · exact Nat.le_of_lt_succ (Fin.isLt _)

theorem addEdge_le (n : ℕ) : addEdge n ≤ 8388608 := by
  unfold addEdge
  split
  · omega
  · exact Nat.le_of_lt_succ (Fin.isLt _)

theorem addActive_le (a b : ℕ) : addActive a b ≤ 1048560 := by
  unfold addActive
  split
  · assumption
  · exact Nat.le_of_lt_succ (Fin.isLt _)

/-- Within the bound an edge adds one. -/
theorem addEdge_of_lt {n : ℕ} (h : n < 8388608) : addEdge n = n + 1 := if_pos h

/-- Within the bound a stay adds its ticks. -/
theorem addActive_of_le {a b : ℕ} (h : a + b ≤ 1048560) : addActive a b = a + b := if_pos h

/-- The context after an edge keeps the bounds of its accumulators. -/
theorem stepEdge_bounded (k : Kind) (sense : BitVec 2) (m : Word16) (d : EdgeDir) (st : Stamp) {c : Context}
    (h : c.bounded) : (stepEdge k sense m d st c).1.bounded := by
  obtain ⟨h1, h2, h3, h4⟩ := h
  have hp := position_le m c.opening st
  unfold stepEdge
  dsimp only
  split <;> repeat' split
  all_goals
    first
      | exact ⟨h1, h2, h3, h4⟩
      | exact ⟨Nat.zero_le _, Nat.zero_le _, Nat.zero_le _, Nat.zero_le _⟩
      | exact ⟨hp, addEdge_le _, h3, h4⟩
      | exact ⟨h1, addEdge_le _, h3, h4⟩
      | exact ⟨hp, hp.trans (by decide), h3, h4⟩
      | exact ⟨hp, h2, addActive_le _ _, h4⟩
      | exact ⟨h1, Nat.zero_le _, h3, h4⟩

/-! ## Dependents counts -/

/-- The parent's count alone changes. -/
theorem State.adjustParent_cases (s : State) (parent : Option Handle) (f : ℕ → ℕ) :
    s.adjustParent parent f = s ∨ ∃ h, parent = some h ∧ s.slots[h.slot.val].generation = h.generation ∧
      s.adjustParent parent f = s.mapRecord h.slot (fun r => { r with dependents := f r.dependents }) := by
  unfold State.adjustParent
  split
  · exact .inl rfl
  · rename_i h
    split
    · rename_i hg
      exact .inr ⟨h, rfl, hg, rfl⟩
    · exact .inl rfl

theorem oneMore_of_lt {n : ℕ} (h : n < 63) : oneMore n = n + 1 := if_pos h
theorem oneFewer_of_pos {n : ℕ} (h : 0 < n) : oneFewer n = n - 1 := if_pos h

theorem oneMore_le (n : ℕ) : oneMore n ≤ 63 := by
  unfold oneMore
  split
  · omega
  · exact Nat.le_of_lt_succ (Config.unstatedDependents n).isLt

theorem oneFewer_le {n : ℕ} (h : n ≤ 63) : oneFewer n ≤ 63 := by
  unfold oneFewer
  split
  · omega
  · exact Nat.le_of_lt_succ (Config.unstatedDependents n).isLt

/-! ## WIPE_TABLE -/

theorem State.freeAll_slot (s : State) (i : SlotIx) :
    s.freeAll.slots[i.val] = { generation := s.slots[i.val].generation, body := .free } :=
  foldl_get_all (fun s (i : SlotIx) => s.slots[i.val]) _ (fun _ x => { generation := x.generation, body := .free })
    (fun s i => by simp) (fun s i j h => by simp [State.setSlot_get_ne, h]) s i

theorem State.freeAll_keeps {β : Type} (get : State → β) (h : ∀ s i x, get (State.setSlot s i x) = get s) (s : State) :
    get s.freeAll = get s := foldl_keeps get _ (fun s i => h s i _) _ s

theorem State.emptySubscribers_keeps {β : Type} (get : State → β) (hb : ∀ s b x, get (State.setBase s b x) = get s)
    (hp : ∀ s p x, get (State.setChannel s p x) = get s) (s : State) : get s.emptySubscribers = get s := by
  unfold State.emptySubscribers
  rw [foldl_keeps get _ (fun s b => hb s b _) _ _, foldl_keeps get _ (fun s p => hp s p _) _ _]

theorem State.emptyContributors_keeps {β : Type} (get : State → β) (hl : ∀ s l x, get (State.setLine s l x) = get s)
    (s : State) : get s.emptyContributors = get s := foldl_keeps get _ (fun s l => hl s l _) _ s

@[simp] theorem State.emptySubscribers_slots (s : State) : s.emptySubscribers.slots = s.slots :=
  State.emptySubscribers_keeps State.slots (fun _ _ _ => rfl) (fun _ _ _ => rfl) s
@[simp] theorem State.emptySubscribers_trips (s : State) : s.emptySubscribers.trips = s.trips :=
  State.emptySubscribers_keeps State.trips (fun _ _ _ => rfl) (fun _ _ _ => rfl) s
@[simp] theorem State.emptyContributors_slots (s : State) : s.emptyContributors.slots = s.slots :=
  State.emptyContributors_keeps State.slots (fun _ _ _ => rfl) s
@[simp] theorem State.emptyContributors_bases (s : State) : s.emptyContributors.bases = s.bases :=
  State.emptyContributors_keeps State.bases (fun _ _ _ => rfl) s
@[simp] theorem State.emptyContributors_pins (s : State) : s.emptyContributors.pins = s.pins :=
  State.emptyContributors_keeps State.pins (fun _ _ _ => rfl) s
@[simp] theorem State.freeAll_bases (s : State) : s.freeAll.bases = s.bases :=
  State.freeAll_keeps State.bases (fun _ _ _ => rfl) s
@[simp] theorem State.freeAll_pins (s : State) : s.freeAll.pins = s.pins :=
  State.freeAll_keeps State.pins (fun _ _ _ => rfl) s
@[simp] theorem State.freeAll_trips (s : State) : s.freeAll.trips = s.trips :=
  State.freeAll_keeps State.trips (fun _ _ _ => rfl) s

theorem State.emptySubscribers_base (s : State) (b : BaseIx) :
    s.emptySubscribers.bases[b.val] = { s.bases[b.val] with subscribers := [] } := by
  have e := State.mapPins_keeps State.bases (fun _ _ _ => rfl) s (fun c => { c with subscribers := [] })
  exact (State.mapBases_base _ (fun t => { t with subscribers := [] }) b).trans
    (congrArg (fun v : Vector TimeBase 4 => { v[b.val] with subscribers := [] }) e)

theorem State.emptySubscribers_channel (s : State) (p : PinIx) :
    s.emptySubscribers.pins[p.val] = { s.pins[p.val] with subscribers := [] } := by
  have e := State.mapBases_keeps State.pins (fun _ _ _ => rfl)
    (allPins.foldl (fun s p => s.setChannel p { s.pins[p] with subscribers := [] }) s)
    (fun t => { t with subscribers := [] })
  exact (congrArg (fun v : Vector PinChannel 24 => v[p.val]) e).trans
    (State.mapPins_channel s (fun c => { c with subscribers := [] }) p)

theorem State.emptyContributors_line (s : State) (l : LineIx) :
    s.emptyContributors.trips[l.val] = { s.trips[l.val] with contributors := [] } :=
  State.mapLines_line s (fun t => { t with contributors := [] }) l

/-- A state with its notice queue and its pending observations replaced, as a wipe does last. -/
def State.withQueues (s : State) (n : List NoticeEntry) (o : List Observation) : State :=
  { s with notices := n, observations := o }

@[simp] theorem State.withQueues_slots (s : State) (n : List NoticeEntry) (o : List Observation) :
    (s.withQueues n o).slots = s.slots := rfl
@[simp] theorem State.withQueues_bases (s : State) (n : List NoticeEntry) (o : List Observation) :
    (s.withQueues n o).bases = s.bases := rfl
@[simp] theorem State.withQueues_pins (s : State) (n : List NoticeEntry) (o : List Observation) :
    (s.withQueues n o).pins = s.pins := rfl
@[simp] theorem State.withQueues_trips (s : State) (n : List NoticeEntry) (o : List Observation) :
    (s.withQueues n o).trips = s.trips := rfl

theorem State.wipe_eq (s : State) :
    s.wipe = s.freeAll.emptySubscribers.emptyContributors.withQueues (s.notices.filter NoticeEntry.isDevice) [] := by
  rw [State.wipe, State.withQueues]

/-- A wipe's slots, bases, channels and lines, as the parts of a wipe leave them. -/
theorem State.wipe_parts (s : State) :
    s.wipe.slots = s.freeAll.slots ∧ s.wipe.bases = s.freeAll.emptySubscribers.bases ∧
      s.wipe.pins = s.freeAll.emptySubscribers.pins ∧ s.wipe.trips = s.freeAll.emptySubscribers.emptyContributors.trips := by
  rw [State.wipe_eq]
  simp only [State.withQueues_slots, State.withQueues_bases, State.withQueues_pins, State.withQueues_trips,
    State.emptyContributors_slots, State.emptySubscribers_slots, State.emptyContributors_bases,
    State.emptyContributors_pins, and_self]

/-- Every slot is FREE with its generation after a wipe (R20). -/
theorem State.wipe_slot (s : State) (i : SlotIx) :
    s.wipe.slots[i.val] = { generation := s.slots[i.val].generation, body := .free } :=
  (congrArg (fun v : Vector Slot 64 => v[i.val]) s.wipe_parts.1).trans (State.freeAll_slot s i)

theorem State.wipe_base (s : State) (b : BaseIx) :
    s.wipe.bases[b.val] = { s.bases[b.val] with subscribers := [] } :=
  ((congrArg (fun v : Vector TimeBase 4 => v[b.val]) s.wipe_parts.2.1).trans (State.emptySubscribers_base _ b)).trans
    (congrArg (fun v : Vector TimeBase 4 => { v[b.val] with subscribers := [] }) (State.freeAll_bases s))

theorem State.wipe_channel (s : State) (p : PinIx) :
    s.wipe.pins[p.val] = { s.pins[p.val] with subscribers := [] } :=
  ((congrArg (fun v : Vector PinChannel 24 => v[p.val]) s.wipe_parts.2.2.1).trans (State.emptySubscribers_channel _ p)).trans
    (congrArg (fun v : Vector PinChannel 24 => { v[p.val] with subscribers := [] }) (State.freeAll_pins s))

theorem State.wipe_line (s : State) (l : LineIx) :
    s.wipe.trips[l.val] = { s.trips[l.val] with contributors := [] } :=
  ((congrArg (fun v : Vector TripLine 4 => v[l.val]) s.wipe_parts.2.2.2).trans (State.emptyContributors_line _ l)).trans
    (congrArg (fun v : Vector TripLine 4 => { v[l.val] with contributors := [] })
      ((State.emptySubscribers_trips _).trans (State.freeAll_trips s)))

@[simp] theorem State.wipe_notices (s : State) : s.wipe.notices = s.notices.filter NoticeEntry.isDevice := rfl
@[simp] theorem State.wipe_observations (s : State) : s.wipe.observations = [] := rfl

/-- A wipe leaves the checker, the scrubber, the port, the supply and the queue. -/
theorem State.wipe_keeps {β : Type} (get : State → β) (hs : ∀ s i x, get (State.setSlot s i x) = get s)
    (hb : ∀ s b x, get (State.setBase s b x) = get s) (hp : ∀ s p x, get (State.setChannel s p x) = get s)
    (hl : ∀ s l x, get (State.setLine s l x) = get s)
    (hq : ∀ (s : State) n o, get { s with notices := n, observations := o } = get s) (s : State) : get s.wipe = get s := by
  unfold State.wipe
  rw [hq, State.emptyContributors_keeps get hl, State.emptySubscribers_keeps get hb hp, State.freeAll_keeps get hs]

@[simp] theorem State.wipe_ref (s : State) : s.wipe.ref = s.ref :=
  State.wipe_keeps State.ref (by simp) (by simp) (by simp) (by simp) (by simp) s
@[simp] theorem State.wipe_scrub (s : State) : s.wipe.scrub = s.scrub :=
  State.wipe_keeps State.scrub (by simp) (by simp) (by simp) (by simp) (by simp) s
@[simp] theorem State.wipe_port (s : State) : s.wipe.port = s.port :=
  State.wipe_keeps State.port (by simp) (by simp) (by simp) (by simp) (by simp) s
@[simp] theorem State.wipe_supply (s : State) : s.wipe.supply = s.supply :=
  State.wipe_keeps State.supply (by simp) (by simp) (by simp) (by simp) (by simp) s
@[simp] theorem State.wipe_inReset (s : State) : s.wipe.inReset = s.inReset :=
  State.wipe_keeps State.inReset (by simp) (by simp) (by simp) (by simp) (by simp) s
@[simp] theorem State.wipe_pending (s : State) : s.wipe.pending = s.pending :=
  State.wipe_keeps State.pending (by simp) (by simp) (by simp) (by simp) (by simp) s

end Sys2Proof.Machine
end

