-- ==== Sys2Proof/Laws/Fit.lean ====
section
/-! SUPPORT. What keeps a context fitting its kind, and what makes limits pass R13: an edge or a boundary taken, and the checked
operands of CREATE and AMEND. -/

namespace Sys2Proof.Machine

/-- An edge taken keeps a context fitting its kind. -/
theorem stepEdge_fit {k : Kind} {sense : BitVec 2} {m : Word16} {d : EdgeDir} {st : Stamp} {c : Context}
    (h : c.fit k) : (stepEdge k sense m d st c).1.fit k := by
  obtain ⟨p, o, n, t, a, w, l⟩ := c
  cases k <;> cases p <;> simp only [stepEdge] <;> (repeat' split) <;>
    simp_all [Context.fit, openAt, closeAtEdge, Context.begin, Context.initial]

/-- A context that begins a measurement fits its kind. -/
theorem Context.begin_fit (k : Kind) (l : List ContextEvent) :
    (Context.begin (firstPhase k) l).fit k ∧ (isWaiting k .opening = true → (Context.begin .opening l).fit k) := by
  cases k <;> simp [Context.fit, Context.begin, Context.initial, firstPhase, isWaiting]

/-- A boundary taken keeps a context fitting its kind. -/
theorem stepBoundary_fit {k : Kind} {limit : BitVec 4} {level : Bool} {n : Word16} {c : Context}
    (h : c.fit k) : (stepBoundary k limit level n c).1.fit k := by
  unfold stepBoundary
  split
  · exact (Context.begin_fit k _).1
  · split
    · rename_i hw
      split
      · exact h
      · split
        · exact (Context.begin_fit k _).2 (by cases k <;> simp_all [isWaiting])
        · obtain ⟨p, o, m, t, a, w, l⟩ := c
          cases k <;> cases p <;> simp_all [Context.fit, isWaiting]
    · obtain ⟨p, o, m, t, a, w, l⟩ := c
      cases k <;> cases p <;> simp_all [Context.fit, Context.begin, Context.initial]

/-- No check of a list fails when no field is named. -/
theorem firstFailing_none {l : List (Byte × Bool)} (h : firstFailing l = none) : ∀ x ∈ l, x.2 = false := by
  induction l with
  | nil => simp
  | cons x t ih =>
    obtain ⟨n, b⟩ := x
    cases b <;> simp_all [firstFailing]

/-- Bytes that pass the checks of fields 7 to 14 give limits that pass R13. -/
theorem limitsOf_fit {a : LimitBytes} {k : Kind} {oneshot : Bool}
    (h8 : hiBelowLo a = false) (h8' : hiBadForKind k a = false) (h9 : marginTooWide a = false)
    (h9' : marginBadForKind k a = false) (h10 : outside1to15 a.tolerance = false)
    (h10' : oneshotNot1 oneshot a.tolerance = false) (h11 : outside1to15 a.recoveryCount = false)
    (h11' : oneshotNot1 oneshot a.recoveryCount = false) (h12 : outside1to15 a.silenceLimit = false)
    (h14 : oneshotTrips oneshot a.tripMask = false) : (limitsOf a).fit k oneshot := by
  have one : ∀ b : Byte, outside1to15 b = false → 1 ≤ (b.setWidth 4).toNat := by
    intro b hb
    simp only [outside1to15, decide_eq_false_iff_not, not_or, Nat.not_lt] at hb
    have : b.toNat ≠ 0 := fun h => hb.1 (BitVec.eq_of_toNat_eq h)
    simp only [BitVec.toNat_setWidth]
    omega
  simp only [hiBelowLo, hiBadForKind, marginTooWide, marginBadForKind, decide_eq_false_iff_not, not_lt] at h8 h8' h9 h9'
  refine ⟨h8, h9, one _ h10, one _ h11, one _ h12, fun e => ?_, fun e => ⟨?_, ?_⟩, fun e => ?_⟩
  · exact Nat.not_lt.mp fun g => h8' (.inl ⟨e, g⟩)
  · refine Nat.not_lt.mp fun g => h8' (.inr ⟨e, ?_, ?_⟩) <;> rintro hx <;> simp [limitsOf, hx] at g
  · exact Classical.not_not.mp fun g => h9' ⟨e, g⟩
  · subst e
    simp only [oneshotNot1, oneshotTrips, Bool.true_and, decide_eq_false_iff_not, ne_eq, Classical.not_not] at h10' h11' h14
    simp [limitsOf, h10', h11', h14]

/-- The operands of AMEND that pass both its passes give limits that pass R13 (R122, R123). -/
theorem amend_limits_fit {o : AmendBytes} {fx : Fixed} (h : amendFieldError o = none)
    (h' : amendRecordError fx o.limits = none) : (limitsOf o.limits).fit fx.kind fx.oneshot := by
  have h1 := firstFailing_none h
  have h2 := firstFailing_none h'
  simp only [List.forall_mem_cons] at h1 h2
  exact limitsOf_fit h1.2.1 h2.2.1 h1.2.2.1 h2.2.2.1 h1.2.2.2.1 h2.2.2.2.1 h1.2.2.2.2.1 h2.2.2.2.2.1 h1.2.2.2.2.2.1
    h2.2.2.2.2.2.1

/-- The operands of CREATE that pass its field checks give limits that pass R13. -/
theorem create_limits_fit {o : CreateBytes} {k : Kind} (hk : kindOfCode o.kind = some k) (h : createFieldError o = none) :
    (limitsOf o.limits).fit k (createOneshot o) := by
  unfold createFieldError at h
  split at h
  · cases h
  · rw [hk] at h
    have h1 := firstFailing_none h
    simp only [createChecks, List.forall_mem_cons, Bool.or_eq_false_iff] at h1
    obtain ⟨-, -, -, -, -, ⟨h8, h8'⟩, ⟨h9, h9'⟩, ⟨h10, h10'⟩, ⟨h11, h11'⟩, h12, -, ⟨-, h14⟩, -⟩ := h1
    exact limitsOf_fit h8 h8' h9 h9' h10 h10' h11 h11' h12 h14

end Sys2Proof.Machine
end

