-- ==== Sys2Proof/Laws/Judgement.lean ====
section
/-! SUPPORT. What the taking of an observation and the commands on one contract can do: the frame of each of their operations. -/

namespace Sys2Proof.Machine

variable {m : SlotIx → Prop} {s : State} {i : SlotIx}

/-! ## The edits of judgement -/

theorem Statistics.count_bounds (st : Statistics) (d : Verdict) (v : Option Word32)
    (h1 : st.observations ≤ 65535) (h2 : st.outOfWindow ≤ st.observations) :
    (st.count d v).observations ≤ 65535 ∧ (st.count d v).outOfWindow ≤ (st.count d v).observations := by
  unfold Statistics.count
  constructor
  · dsimp only; omega
  · dsimp only; split <;> omega

theorem TableFrame.recordObservation (d : Verdict) (o : Observation) : TableFrame m s (s.recordObservation i d o) :=
  .mapRecord fun r _ =>
    { fixed := rfl
      dependents := rfl
      code := id
      bounded := fun ⟨h1, h2, h3, h4, h5, h6, h7⟩ =>
        ⟨h1, h2, h3, (r.stats.count_bounds d o.value h4 h5).1, (r.stats.count_bounds d o.value h4 h5).2, h6, h7⟩
      settled := fun _ _ => rfl
      uncorrupt := fun _ h => h
      corrupt := id
      measurement := .inl rfl }

/-- An edit of state, strikes, recovery run and recovered flag of a contract that is not CORRUPT, where the frame lets its
state change. -/
theorem RecordKept.verdict (g : Byte) (r : Record) (c : ContractState) (k n : Nat) (f : Bool) (hm : m i)
    (hc : r.state ≠ .corrupt) (hk : k ≤ 14) (hn : n ≤ 14) (h1 : c ≠ .suspect → k = 0)
    (h2 : c ≠ .violated → n = 0 ∧ f = false) (h3 : f = true → n = 0) :
    RecordKept (m i) g r { r with state := c, strikes := k, recoveryRun := n, recovered := f } where
  fixed := rfl
  dependents := rfl
  code := id
  bounded := fun ⟨_, _, b3, b4, b5, b6, _, _, _⟩ => ⟨hk, hn, b3, b4, b5, b6, fun h _ => h1 h, fun h _ => h2 h, h3⟩
  settled := fun h => absurd hm h
  uncorrupt := fun h => absurd hm h
  corrupt := fun h => absurd h hc
  measurement := .inl rfl

/-- The same for an edit that keeps the bounds only of a record that had them. -/
theorem RecordKept.verdictOf (g : Byte) (r r' : Record) (hm : m i) (hf : r'.fixed = r.fixed)
    (hd : r'.dependents = r.dependents) (hcode : r.checkCode = r.freshCode g → r'.checkCode = r'.freshCode g)
    (hx : r'.context = r.context) (hc : r.state ≠ .corrupt) (hb : r.bounded → r'.bounded) : RecordKept (m i) g r r' :=
  ⟨hf, hd, hcode, hb, fun h => absurd hm h, fun h => absurd hm h, fun h => absurd h hc, .inl hx⟩

theorem TableFrame.enterConforming {r : Record} (hr : s.recordAt i = some r) (hm : m i)
    (ho : isMeasuring r.state = true) (before : ContractState) : TableFrame m s (s.enterConforming i before) := by
  obtain ⟨hv, hd, hc⟩ := isMeasuring_not_settled ho
  refine TableFrame.trans (.mapRecord fun r' hr' => ?_) (.becameHealthy _ _)
  rw [hr] at hr'; cases hr'
  refine RecordKept.verdictOf _ _ _ hm rfl rfl id rfl hc ?_
  rintro ⟨h1, h2, h3, h4, h5, h6, h7, h8, h9⟩
  exact ⟨Nat.zero_le _, h2, h3, h4, h5, h6, fun _ _ => rfl, fun _ _ => h8 hv hc, h9⟩

theorem TableFrame.enterSuspect {r : Record} (hr : s.recordAt i = some r) (hm : m i) (ho : isMeasuring r.state = true)
    (before : ContractState) (mask : BitVec 3) : TableFrame m s (s.enterSuspect i before mask) := by
  obtain ⟨hv, hd, hc⟩ := isMeasuring_not_settled ho
  have h1 : TableFrame m s (s.mapRecord i (fun r => { r with state := .suspect, strikes := 1 })) := by
    refine .mapRecord fun r' hr' => ?_
    rw [hr] at hr'; cases hr'
    refine RecordKept.verdictOf _ _ _ hm rfl rfl id rfl hc ?_
    rintro ⟨h1, h2, h3, h4, h5, h6, h7, h8, h9⟩
    exact ⟨by dsimp only; omega, h2, h3, h4, h5, h6, fun h _ => absurd rfl h, fun _ _ => h8 hv hc, h9⟩
  exact (h1.trans (.postMasked (by rw [h1.liveAt]; exact State.liveAt_of_some hr) _ _)).trans (.becameHealthy _ _)

theorem TableFrame.enterViolated {r : Record} (hr : s.recordAt i = some r) (hm : m i) (ho : isMeasuring r.state = true)
    (before : ContractState) (mask : BitVec 4) : TableFrame m s (s.enterViolated i before mask) := by
  obtain ⟨hv, hd, hc⟩ := isMeasuring_not_settled ho
  have h1 : TableFrame m s
      (s.mapRecord i (fun r => { r with state := .violated, strikes := 0, recoveryRun := 0, recovered := false })) := by
    refine .mapRecord fun r' hr' => ?_
    rw [hr] at hr'; cases hr'
    exact RecordKept.verdict _ _ _ _ _ _ hm hc (by decide) (by decide) (fun _ => rfl) (fun _ => ⟨rfl, rfl⟩) (fun _ => rfl)
  have hl := State.liveAt_of_some hr
  have h2 := h1.trans (.joinMask (by rw [h1.liveAt]; exact hl) mask)
  exact (h2.trans (.post (by rw [h2.liveAt]; exact hl) _)).trans (.becameUnhealthy _ _)

theorem TableFrame.recover {r : Record} (hr : s.recordAt i = some r) (hm : m i) (hv : r.state = .violated)
    (hrec : r.recovered = false) (a : Limits) : TableFrame m s (s.recover i a) := by
  have hc : r.state ≠ .corrupt := by simp [hv]
  have h1 : TableFrame m s (s.mapRecord i (fun r => { r with state := .conforming, strikes := 0, recoveryRun := 0 })) := by
    refine .mapRecord fun r' hr' => ?_
    rw [hr] at hr'; cases hr'
    refine RecordKept.verdictOf _ _ _ hm rfl rfl id rfl hc ?_
    rintro ⟨h1, h2, h3, h4, h5, h6, h7, h8, h9⟩
    exact ⟨Nat.zero_le _, Nat.zero_le _, h3, h4, h5, h6, fun _ _ => rfl, fun _ _ => ⟨rfl, hrec⟩, fun _ => rfl⟩
  have h2 := h1.trans (TableFrame.leaveMask (m := m) i a.tripMask)
  exact (h2.trans (.postMasked (by rw [h2.liveAt]; exact State.liveAt_of_some hr) _ _)).trans (.becameHealthy _ _)

theorem TableFrame.setRecovered {r : Record} (hr : s.recordAt i = some r) (hv : r.state = .violated) (a : Limits) :
    TableFrame m s (s.setRecovered i a) := by
  have h1 : TableFrame m s (s.mapRecord i (fun r => { r with recovered := true, recoveryRun := 0 })) := by
    refine .mapRecord fun r' hr' => ?_
    rw [hr] at hr'; cases hr'
    exact ⟨rfl, rfl, id, fun ⟨h1, _, h3, h4, h5, h6, h7, _, _⟩ =>
      ⟨h1, Nat.zero_le _, h3, h4, h5, h6, h7, fun h _ => absurd hv h, fun _ => rfl⟩, fun _ _ => rfl, fun _ h => h, id, .inl rfl⟩
  exact h1.trans (.postMasked (by rw [h1.liveAt]; exact State.liveAt_of_some hr) _ _)

theorem TableFrame.enterDone {r : Record} (hr : s.recordAt i = some r) (hm : m i) (ha : r.state = .arming) :
    TableFrame m s (s.enterDone i) := by
  have h1 : TableFrame m s (s.abandon i) := .abandon i
  have h2 : TableFrame m s ((s.abandon i).mapRecord i (fun r => { r with state := .done })) := by
    refine h1.trans (.mapRecord fun r' hr' => ?_)
    simp only [State.abandon_recordAt, hr, Option.map_some, Option.some.injEq] at hr'
    subst hr'
    refine RecordKept.verdictOf _ _ _ hm rfl rfl id rfl (by simp [ha]) ?_
    rintro ⟨h1, h2, h3, h4, h5, h6, h7, h8, h9⟩
    exact ⟨h1, h2, h3, h4, h5, h6, fun _ _ => h7 (by simp [ha]) (by simp [ha]),
      fun _ _ => h8 (by simp [ha]) (by simp [ha]), h9⟩
  exact h2.trans (.post (by rw [h2.liveAt]; exact State.liveAt_of_some hr) _)

/-! ## The state rules and the taking -/

theorem TableFrame.firstStrike {r : Record} (hr : s.recordAt i = some r) (hm : m i) (ho : isMeasuring r.state = true)
    (q : Record) : TableFrame m s (s.firstStrike i q) := by
  unfold State.firstStrike
  split
  · exact .enterSuspect hr hm ho _ _
  · exact .enterViolated hr hm ho _ _

theorem TableFrame.judgeViolated {r : Record} (hr : s.recordAt i = some r) (hm : m i) (hv : r.state = .violated)
    (d : Verdict) (band : Bool) : TableFrame m s (s.judgeViolated i r d band) := by
  have hc : r.state ≠ .corrupt := by simp [hv]
  unfold State.judgeViolated
  split
  · refine .mapRecord fun r' hr' => ?_
    rw [hr] at hr'; cases hr'
    refine RecordKept.verdictOf _ _ _ hm rfl rfl id rfl hc ?_
    rintro ⟨h1, h2, h3, h4, h5, h6, h7, h8, h9⟩
    exact ⟨h1, Nat.zero_le _, h3, h4, h5, h6, h7, fun _ _ => ⟨rfl, rfl⟩, fun _ => rfl⟩
  · split
    · refine .mapRecord fun r' hr' => ?_
      rw [hr] at hr'; cases hr'
      refine RecordKept.verdictOf _ _ _ hm rfl rfl id rfl hc ?_
      rintro ⟨h1, h2, h3, h4, h5, h6, h7, h8, h9⟩
      exact ⟨h1, Nat.zero_le _, h3, h4, h5, h6, h7, fun h h' => ⟨rfl, (h8 h h').2⟩, fun _ => rfl⟩
    · split
      · exact .refl _ _
      · rename_i hrec
        have hrec : r.recovered = false := by simpa using hrec
        split
        · rename_i hlt
          refine .mapRecord fun r' hr' => ?_
          rw [hr] at hr'; cases hr'
          refine RecordKept.verdictOf _ _ _ hm rfl rfl id rfl hc ?_
          rintro ⟨h1, h2, h3, h4, h5, h6, h7, h8, h9⟩
          have := r.limits.recoveryCount.isLt
          exact ⟨h1, by dsimp only; omega, h3, h4, h5, h6, h7, fun h _ => absurd hv h, fun h => by simp [hrec] at h⟩
        · split
          · exact .setRecovered hr hv _
          · exact .recover hr hm hv hrec _

theorem TableFrame.applyStateRule {r : Record} (hr : s.recordAt i = some r) (hm : m i) (d : Verdict) (band : Bool) :
    TableFrame m s (s.applyStateRule i r d band) := by
  unfold State.applyStateRule
  cases hs : r.state with
  | arming =>
    dsimp only
    have ho : isMeasuring r.state = true := by simp [hs, isMeasuring]
    split
    · exact .enterDone hr hm hs
    · split
      · exact .enterConforming hr hm ho _
      · exact .firstStrike hr hm ho _
  | conforming =>
    dsimp only
    split
    · exact .refl _ _
    · exact .firstStrike hr hm (by simp [hs, isMeasuring]) _
  | suspect =>
    dsimp only
    have ho : isMeasuring r.state = true := by simp [hs, isMeasuring]
    split
    · exact .enterConforming hr hm ho _
    · split
      · exact .enterViolated hr hm ho _ _
      · rename_i hlt
        refine .mapRecord fun r' hr' => ?_
        rw [hr] at hr'; cases hr'
        refine RecordKept.verdictOf _ _ _ hm rfl rfl id rfl (by simp [hs]) ?_
        rintro ⟨h1, h2, h3, h4, h5, h6, h7, h8, h9⟩
        have := r.limits.tolerance.isLt
        exact ⟨by dsimp only; omega, h2, h3, h4, h5, h6, fun h _ => absurd hs h, h8, h9⟩
  | violated => exact .judgeViolated hr hm hs _ _
  | suspended => exact .refl _ _
  | held => exact .refl _ _
  | dormant => exact .refl _ _
  | done => exact .refl _ _
  | corrupt => exact .refl _ _

theorem TableFrame.judge (hm : m i) (o : Observation) : TableFrame m s (s.judge i o) := by
  have h1 : TableFrame m s (s.applyStaged i) := .applyStaged i
  unfold State.judge
  dsimp only
  split
  · exact h1
  · have h3 : ∀ d, TableFrame m s ((s.applyStaged i).recordObservation i d o) := fun d => h1.trans (.recordObservation d o)
    split
    · exact h3 _
    · rename_i hr
      exact (h3 _).trans (.applyStateRule hr hm _ _)

/-- Taking an observation acts on the contract that it was formed for, and through its health on its dependents. -/
theorem TableFrame.takeObservation (o : Observation) (hm : m o.handle.slot) : TableFrame m s (s.takeObservation o) := by
  unfold State.takeObservation
  cases hr : s.contractAt o.handle with
  | none => exact .refl _ _
  | some r =>
    dsimp only
    split
    · exact .refl _ _
    · split
      · refine .mapRecord fun r' _ => ?_
        exact ⟨rfl, rfl, id, fun ⟨h1, h2, h3, h4⟩ => ⟨h1, h2, by dsimp only; omega, h4⟩, fun _ _ => rfl, fun _ h => h, id,
          .inl rfl⟩
      · exact .judge hm o

/-! ## Commands on one contract -/

/-- The contract a handle names is the record of its slot. -/
theorem State.recordAt_of_contractAt {h : Handle} {r : Record} (hc : s.contractAt h = some r) :
    s.recordAt h.slot = some r := by
  unfold State.contractAt at hc
  split at hc
  · exact hc
  · cases hc

theorem TableFrame.setSuspended (b : Bool) :
    TableFrame m s (s.mapRecord i (fun r => { r with suspended := b })) :=
  .mapRecord fun _ _ => ⟨rfl, rfl, id, fun h => h, fun _ _ => rfl, fun _ h => h, id, .inl rfl⟩

theorem TableFrame.restartRecovery (r : Record) : TableFrame m s (s.restartRecovery i r) := by
  unfold State.restartRecovery
  have h2 : ∀ t : State, TableFrame m t (t.mapRecord i (fun r => { r with recoveryRun := 0 })) := fun t =>
    .mapRecord fun r _ => ⟨rfl, rfl, id, fun ⟨h1, _, h3, h4, h5, h6, h7, h8, h9⟩ =>
      ⟨h1, Nat.zero_le _, h3, h4, h5, h6, h7, fun h h' => ⟨rfl, (h8 h h').2⟩, fun _ => rfl⟩,
      fun _ _ => rfl, fun _ h => h, id, .inl rfl⟩
  split
  · exact h2 s
  · exact (TableFrame.abandon i).trans (h2 _)

theorem TableFrame.stage (a : Limits) : TableFrame m s (s.stage i a) :=
  .mapRecord fun r _ => RecordKept.recode _ r _ r.limits (some a)

theorem TableFrame.amendNow {r : Record} (hr : s.recordAt i = some r) (a : Limits) :
    TableFrame m s (s.amendNow i r a) := by
  have h1 : TableFrame m s
      (s.mapRecord i (fun r => ({ r with limits := a, staged := none } : Record).recode s.slots[i].generation)) :=
    .mapRecord fun r _ => RecordKept.recode _ r _ a none
  have hl : s.liveAt i := State.liveAt_of_some hr
  unfold State.amendNow
  dsimp only
  split
  · rename_i hm
    have h2 := h1.trans (TableFrame.abandon (m := m) i)
    obtain ⟨r2, hr2, _⟩ := h2.record_of hr
    have hst : r2.state = r.state := by
      rw [State.abandon_recordAt, State.mapRecord_recordAt, hr] at hr2
      simp only [Option.map_some, Option.some.injEq] at hr2
      subst hr2; rfl
    exact h2.trans (.enterArming hr2 (isMeasuring_isOpen (by rw [hst]; exact hm)))
  · split
    · have h2 := h1.trans (TableFrame.restartRecovery (m := m) (i := i) r)
      exact h2.trans (.changeMask (by rw [h2.liveAt]; exact hl) _ _)
    · exact h1

theorem TableFrame.clearToConforming {r : Record} (hr : s.recordAt i = some r) (hm : m i) (hv : r.state = .violated)
    (a : Limits) : TableFrame m s (s.clearToConforming i a) := by
  have h1 : TableFrame m s (s.mapRecord i
      (fun r => { r with state := .conforming, recovered := false, recoveryRun := 0, strikes := 0 })) := by
    refine .mapRecord fun r' hr' => ?_
    rw [hr] at hr'; cases hr'
    exact RecordKept.verdict _ _ _ _ _ _ hm (by simp [hv]) (by decide) (by decide) (fun _ => rfl)
      (fun _ => ⟨rfl, rfl⟩) (fun _ => rfl)
  exact (h1.trans (.leaveMask i _)).trans (.becameHealthy _ _)

/-- The edit that sets aside a VIOLATED contract whose recovery has been cleared (R40). -/
theorem RecordKept.clearedAside {n : Prop} (g : Byte) (r : Record) (hn : n) (hv : r.state = .violated)
    (hr : r.recovered = false) (hk : r.recoveryRun = 0) (target : ContractState) :
    RecordKept n g r { r with state := target } where
  fixed := rfl
  dependents := rfl
  code := id
  bounded := fun ⟨h1, h2, h3, h4, h5, h6, h7, _, h9⟩ =>
    ⟨h1, h2, h3, h4, h5, h6, fun _ _ => h7 (by simp [hv]) (by simp [hv]), fun _ _ => ⟨hk, hr⟩, h9⟩
  settled := fun h => absurd hn h
  uncorrupt := fun h => absurd hn h
  corrupt := fun h => by simp [hv] at h
  measurement := .inl rfl

theorem TableFrame.clearFrozen {r : Record} (hr : s.recordAt i = some r) (hm : m i) (hv : r.state = .violated) :
    TableFrame m s (s.clearFrozen i r) := by
  let r1 : Record := { r with recovered := false, recoveryRun := 0 }
  let s1 : State := (s.mapRecord i (fun r => { r with recovered := false, recoveryRun := 0 })).leaveMask i r.limits.tripMask
  have h1 : TableFrame m s s1 := by
    refine (TableFrame.mapRecord fun r' _ => ?_).trans (.leaveMask i _)
    exact
      { fixed := rfl
        dependents := rfl
        code := id
        bounded := fun ⟨h1, _, h3, h4, h5, h6, h7, _, _⟩ =>
          ⟨h1, Nat.zero_le _, h3, h4, h5, h6, h7, fun _ _ => ⟨rfl, rfl⟩, fun _ => rfl⟩
        settled := fun _ _ => rfl
        uncorrupt := fun _ h => h
        corrupt := id
        measurement := .inl rfl }
  have hr1 : s1.recordAt i = some r1 := by simp [s1, r1, hr]
  have h2 : ∀ target : ContractState, TableFrame m s1 (s1.enterBlocked i target) := by
    intro target
    have h3 : TableFrame m s1 (s1.mapRecord i (fun r => { r with state := target })) := by
      refine .mapRecord fun r' hr' => ?_
      rw [hr1] at hr'; cases hr'
      exact .clearedAside _ r1 hm hv rfl rfl target
    have hl : (s1.mapRecord i (fun r => { r with state := target })).liveAt i := by
      rw [h3.liveAt]; exact State.liveAt_of_some hr1
    have hnm : isMeasuring r1.state = false := by simp [r1, hv, isMeasuring]
    unfold State.enterBlocked State.setAside
    simp only [hr1, hnm]
    refine TableFrame.trans ?_ (.becameUnhealthy _ _)
    simp only [Bool.false_eq_true, if_false]
    split
    · exact h3
    · exact h3.trans (.postMasked hl _ _)
  exact h1.trans (h2 _)

/-! ## SET_PIN on one member -/

theorem TableFrame.restartMember (i : SlotIx) : TableFrame m s (s.restartMember i) := by
  unfold State.restartMember
  cases hr : s.recordAt i with
  | none => exact .refl _ _
  | some r =>
    dsimp only
    split
    · rename_i hmm
      have h2 : TableFrame m s (s.abandon i) := .abandon i
      have hr2 : (s.abandon i).recordAt i = some { r with context := Context.initial } := by simp [hr]
      exact h2.trans (.enterArming hr2 (isMeasuring_isOpen (by exact hmm)))
    · split
      · exact .restartRecovery r
      · exact .refl _ _

end Sys2Proof.Machine
end

