-- ==== Sys2Proof/Laws/Lines.lean ====
section
/-! SUPPORT. What the edges on the lines of the port can do, and what bytes their bits make. -/

namespace Sys2Proof.Machine

variable {x : PortLines}

/-! ## Bits and bytes -/

theorem byteOfBits_getLsbD (b : Byte) :
    byteOfBits (b.getLsbD 7) (b.getLsbD 6) (b.getLsbD 5) (b.getLsbD 4) (b.getLsbD 3) (b.getLsbD 2) (b.getLsbD 1)
      (b.getLsbD 0) = b := by
  revert b
  decide +kernel

/-- The levels that send bytes read back as those bytes, with what follows read on its own. -/
theorem bytesOfBits_bitsOfByte (bytes : List Byte) (t : List Bool) :
    bytesOfBits (bytes.flatMap bitsOfByte ++ t) = bytes ++ bytesOfBits t := by
  induction bytes with
  | nil => rfl
  | cons b l ih =>
    rw [List.flatMap_cons, List.append_assoc]
    simp only [bitsOfByte, List.cons_append, List.nil_append, bytesOfBits, byteOfBits_getLsbD]
    exact congrArg (b :: ·) ih

/-- Fewer than eight levels make no byte. -/
theorem bytesOfBits_short {t : List Bool} (h : t.length < 8) : bytesOfBits t = [] := by
  unfold bytesOfBits
  split
  · simp only [List.length_cons] at h
    omega
  · rfl

/-- Eight levels make one whole byte, and the levels short of eight none. -/
theorem bytesOfBits_length : ∀ t : List Bool, (bytesOfBits t).length = t.length / 8
  | _ :: _ :: _ :: _ :: _ :: _ :: _ :: _ :: t => by
    simp only [bytesOfBits, List.length_cons, bytesOfBits_length t]
    omega
  | [] | [_] | [_, _] | [_, _, _] | [_, _, _, _] | [_, _, _, _, _] | [_, _, _, _, _, _] | [_, _, _, _, _, _, _] =>
    by simp [bytesOfBits]

/-! ## Edges -/

@[simp] theorem PortLines.take_taken (sdi : Bool) : (x.take sdi).taken = x.taken ++ [sdi] := rfl
@[simp] theorem PortLines.take_falls (sdi : Bool) : (x.take sdi).falls = x.falls := rfl
@[simp] theorem PortLines.take_rxCount (sdi : Bool) : (x.take sdi).part.port.rxCount = (x.taken.length + 1) / 8 := by
  simp [PortLines.take, bytesOfBits_length]

theorem State.takesClock_iff (s : State) : s.takesClock = true ↔ s.receiving := by
  simp [State.takesClock, State.receiving]

/-- A command that answers leaves the state it answers. -/
theorem State.afterCommand_next {s t : State} {c : Instr} (h : exec c s = .next t) : s.afterCommand c = t := by
  unfold State.afterCommand
  rw [h]

/-- All that an edge of SCLK can do: shift while a frame is received, and nothing at any other time. -/
theorem PortLines.sclk_cases (x : PortLines) (sdi : Bool) :
    (x.part.receiving ∧ x.edge (.sclkRise sdi) = x.take sdi ∧
      x.edge .sclkFall = { x with falls := x.falls + 1 }) ∨
    (¬ x.part.receiving ∧ x.edge (.sclkRise sdi) = x ∧ x.edge .sclkFall = x) := by
  by_cases h : x.part.takesClock = true
  · exact .inl ⟨(State.takesClock_iff _).1 h, by simp [PortLines.edge, h], by simp [PortLines.edge, h]⟩
  · exact .inr ⟨fun r => h ((State.takesClock_iff _).2 r), by simp [PortLines.edge, h], by simp [PortLines.edge, h]⟩

/-- A rising edge of CS# is the command that the whole bytes taken spell. -/
theorem PortLines.csRise_eq {c : Instr} (h : commandOfFrame (bytesOfBits x.taken) = some c) :
    x.edge .csRise = { part := x.part.afterCommand c, taken := [], falls := 0 } := by
  simp only [PortLines.edge, h]

end Sys2Proof.Machine
end

