-- ==== Sys2Proof/Tests/Slice0.lean ====
section
/-! SUPPORT. Tests of single steps against values taken from the spec, the smoke test of well-formedness, and for every
statement with hypotheses a concrete state and operands that meet them. -/

namespace Sys2Proof.Tests
set_option Elab.async false
open Sys2Proof Sys2Proof.Machine

/-! ## Small states -/

/-- The state after a command. -/
def after (c : Instr) (s : State) : State :=
  match exec c s with
  | .next t => t
  | .fault _ => s
  | .refused _ => s

/-- The result and the payload in the reply buffer. -/
def replyOf (s : State) : Option (ResultCode × List Byte) := s.port.reply.map (fun r => (r.result, r.payload))

/-- A frame with tag 5Ah and no fill. -/
def fr : Frame := { tag := 0x5A, fill := 0 }

/-- A frame has begun. -/
def receive (s : State) : State := { s with port := { s.port with frame := .receiving, csLow := true } }

theorem receive_receiving {s : State} (h : s.inReset = false) : (receive s).receiving := ⟨h, rfl⟩

/-- NORMAL, TB0 RUNNING with modulus 16 at gate serial 5 and counter 3, the other bases STOPPED, pins 0 and 1 sampled. -/
def ready : State :=
  { State.reset with
    ref := { supervision := .normal, gap := .running, goodPeriods := 1024 }
    bases := State.reset.bases.set 0 { TimeBase.atReset with state := .running, modulus := 16, serial := 5, counter := 3 }
    pins := (State.reset.pins.set 0 { PinChannel.atReset with initialized := true }).set 1
      { PinChannel.atReset with initialized := true } }

/-- A window from 20 to 30 with margin 2, two strikes, two for recovery, silence limit 2, settle 1, lines 0 and 1, all kinds. -/
def limits : Limits :=
  { lo := 20, hi := 30, margin := 2, tolerance := 2, recoveryCount := 2, silenceLimit := 2, settle := 1, tripMask := 3
    noticeMask := 7 }

/-- The bytes of `limits`. -/
def limitBytes : LimitBytes :=
  { lo := 20, hi := 30, margin := 2, tolerance := 2, recoveryCount := 2, silenceLimit := 2, settle := 1, tripMask := 3
    noticeMask := 7 }

/-- A contract on pin 0 and TB0, PERIOD of rising edges, in a state. -/
def contract (st : ContractState) : Record :=
  { fixed := { pin := 0, kind := .period, sense := 1, base := 0, parent := none, oneshot := false, latching := false }
    limits := limits
    state := st
    suspended := decide (st = .suspended)
    strikes := if st = .suspect then 1 else 0
    recoveryRun := 0
    recovered := false
    settleRemaining := 0
    dependents := 0
    context := Context.initial
    last := none
    stats := Statistics.empty
    staged := none
    checkCode := 0 }

/-- A record in a slot of generation 1, a member of its sets, and of its lines while it contributes. -/
def put (i : SlotIx) (r : Record) (s : State) : State :=
  let s' := ((s.setSlot i { generation := 1, body := .live r }).subscribePin r.fixed.pin i).subscribeBase r.fixed.base i
  if r.state = .violated then s'.joinMask i r.limits.tripMask else s'

/-- The same contract as a dependent of the contract in a slot. -/
def under (i : SlotIx) (r : Record) : Record := { r with fixed := { r.fixed with parent := some ⟨i, 1⟩ } }

/-- The same contract with one dependent. -/
def heading (r : Record) : Record := { r with dependents := 1 }

/-- The same contract on TB1, which is STOPPED. -/
def stopped (r : Record) : Record := { r with fixed := { r.fixed with base := 1 } }

/-- One contract in slot 0, and a frame begun. -/
def one (r : Record) : State := receive (put 0 r ready)

/-- A contract in slot 0 and its dependent in slot 1, and a frame begun. -/
def pair (r q : Record) : State := receive (put 1 (under 0 q) (put 0 (heading r) ready))

/-- A chain of three in slots 0, 1 and 2, a SUSPENDED contract in slot 3, entries for slots 1 and 2, and a frame begun. -/
def family : State :=
  let s := put 2 (under 1 (contract .violated)) (put 1 (under 0 (heading (contract .suspect)))
    (put 0 (heading (contract .conforming)) (put 3 (contract .suspended) ready)))
  receive { s with notices := s.notices ++ [.contract 1 1 0x01, .contract 2 1 0x08] }

/-- Handle bytes of a slot of generation 1. -/
def hb (slot : Byte) : HandleBytes := { slot := slot, generation := 1 }

/-! ## Deciding the hypotheses -/

theorem all_of {α : Type} {o : Option α} {p : α → Prop} [DecidablePred p] (h : o.all (fun r => decide (p r)) = true) :
    ∀ r, o = some r → p r := by
  rintro r rfl
  simpa using h

theorem any_iff {α : Type} {o : Option α} {p : α → Prop} [DecidablePred p] :
    o.any (fun r => decide (p r)) = true ↔ ∃ r, o = some r ∧ p r := by
  cases o <;> simp

/-- The relation of parents and dependents, as a test. -/
def treeOk (s : State) : Bool :=
  allSlots.all (fun i =>
    match s.recordAt i with
    | none => true
    | some r =>
      decide (r.dependents = s.dependentsOf i) &&
      match r.fixed.parent with
      | none => true
      | some h =>
        (s.contractAt h).any (fun p =>
          !p.fixed.oneshot &&
          match p.fixed.parent with
          | none => true
          | some g => (s.contractAt g).any (fun q => decide (q.fixed.parent = none))))

theorem treeSound_of {s : State} (h : treeOk s = true) : s.treeSound := by
  have all : ∀ i, _ := List.all_eq_true.mp h
  constructor
  · intro i r hd hr hp
    have hi := all i (List.mem_finRange i)
    simp only [hr, hp, Bool.and_eq_true, Option.any_eq_true] at hi
    obtain ⟨-, p, hp, ho, hg⟩ := hi
    refine ⟨p, hp, by simpa using ho, fun g hg' => ?_⟩
    simp only [hg', Option.any_eq_true, decide_eq_true_eq] at hg
    exact hg
  · intro i r hr
    have hi := all i (List.mem_finRange i)
    simp only [hr, Bool.and_eq_true, decide_eq_true_eq] at hi
    exact hi.1

theorem one_slots (r : Record) : (one r).slots = ready.slots.set 0 { generation := 1, body := .live r } := by
  unfold one receive put
  by_cases h : r.state = .violated <;> simp [h] <;> rfl

theorem one_recordAt (r : Record) (i : SlotIx) : (one r).recordAt i = if i = 0 then some r else none := by
  have free : ∀ i : SlotIx, ready.slots[i.val].body = .free := by decide +kernel
  unfold State.recordAt
  rw [one_slots]
  by_cases h : i = 0
  · subst h; rfl
  · have h' : 0 ≠ i.val := fun e => h (Fin.ext e.symm)
    simp [h, Vector.getElem_set_ne (i := 0) (j := i.val) _ _ h', free]

/-- What every state with one contract, of no parent and no dependents, meets. -/
theorem one_meets (r : Record) (hp : r.fixed.parent = none) (hd : r.dependents = 0) :
    (one r).receiving ∧ (one r).treeSound ∧ (hb 0).slot.toNat = (0 : SlotIx).val ∧
      (one r).slots[(0 : SlotIx)].generation = (hb 0).generation ∧ (one r).recordAt 0 = some r := by
  refine ⟨receive_receiving ?_, ⟨?_, ?_⟩, rfl, ?_, by rw [one_recordAt]; rfl⟩
  · unfold put
    by_cases h : r.state = .violated <;> simp [h] <;> rfl
  · intro i q g hq hg
    rw [one_recordAt] at hq
    split at hq <;> simp_all
  · intro i q hq
    have none_below : (one r).dependentsOf i = 0 := by
      simp only [State.dependentsOf, State.dependsOn, one_recordAt, List.countP_eq_zero]
      intro d _
      split <;> rename_i h
      · split at h <;> simp_all
      · simp
    rw [one_recordAt] at hq
    split at hq <;> simp_all
  · simp only [one_slots]; rfl

/-! ## Well-formedness -/

/-- R170: a frame with no whole byte is no refused frame. -/
theorem test_frameRefused_of_nothing_illFormed : (Instr.frameRefused []).wellFormed = false := by decide

/-- Section 11.7: the NOP frame 00h 5Ah 56h passes R173, so it is no refused frame. -/
theorem test_frameRefused_of_nop_illFormed : (Instr.frameRefused [0x00, 0x5A, 0x56]).wellFormed = false := by
  decide +kernel

theorem test_frameRefused_wellFormed : (Instr.frameRefused [0x00, 0x5A, 0x57]).wellFormed = true := by
  decide +kernel

/-! ## The port (sections 11.4 to 11.7) -/

/-- Section 11.7: a NOP with tag 5Ah is 00h 5Ah 56h. -/
theorem test_nop_frame : commandOfFrame [0x00, 0x5A, 0x56] = some (.nop fr) := by
  decide +kernel

/-- Section 11.7: its reply is 00h 5Ah 00h with CRC A5h. -/
theorem test_nop_reply : (after (.nop fr) (receive ready)).port.reply.map Reply.bytes = some [0x00, 0x5A, 0x00, 0xA5] := by
  decide +kernel

/-- R180. -/
theorem test_identify : replyOf (after (.identify fr) (receive ready)) = some (.ok, [0x4B, 0x24, 0x01]) := by
  decide +kernel

/-- R181: NORMAL, TB0 RUNNING, four lines in the start hold, one entry, 4 LIVE, 0 DRAINING and 60 FREE. -/
theorem test_readStatus :
    replyOf (after (.readStatus fr) (receive { family with notices := [.device 1] })) =
      some (.ok, [0x10, 0x01, 0x0F, 1, 4, 0, 60]) := by
  decide +kernel

/-- R179: NO_REPLY with echo code 03h. -/
theorem test_repeat_of_nothing :
    (after (.repeatReply fr) (receive ready)).port.reply = some ⟨.noReply, 0x5A, 0x03, []⟩ := by
  decide +kernel

/-- Section 11.7, frame 3: a REPEAT keeps the buffered reply. -/
theorem test_repeat :
    (after (.repeatReply { fr with fill := 130 }) (receive (after (.identify fr) (receive ready)))).port.reply =
      some ⟨.ok, 0x5A, 0x01, [0x4B, 0x24, 0x01]⟩ := by
  decide +kernel

/-- R177: after a device reset whose release starts the checker in REFERENCE_FAULT the summary status byte is EAh. -/
theorem test_frameBegin : (after .frameBegin State.reset).port.outbound = [0xEA] := by decide +kernel

/-- R177, section 11.7: CAh when the release starts it in NORMAL. -/
theorem test_frameBegin_normal : (after .frameBegin ready).port.outbound = [0xCA] := by decide +kernel

/-- R170. -/
theorem test_emptyFrame : (after .emptyFrame (receive ready)).port = ready.port := by decide +kernel

/-- Section 11.7, frame 4: BAD_CHECK with the tag and the code of the damaged frame. -/
theorem test_frameRefused :
    (after (.frameRefused [0x00, 0x5A, 0x57]) (receive ready)).port.reply = some ⟨.badCheck, 0x5A, 0x00, []⟩ := by
  decide +kernel

/-- R168, R182: the part is in reset and its reply buffer is empty. -/
theorem test_resetDevice :
    (after (.resetDevice fr) family).inReset = true ∧ (after (.resetDevice fr) family).port.reply = none := by
  decide +kernel

/-! ## The contract table (sections 1.9 and 12.4) -/

/-- Operands of CREATE: a PERIOD contract on a pin and TB0, with `limitBytes`. -/
def create (pin flags parent : Byte) : CreateBytes :=
  { pin := pin, kind := 1, sense := 1, base := 0, flags := flags, parent := ⟨parent, 1⟩, limits := limitBytes }

/-- Section 1.9, step 1: OK, 0:1, ARMING. -/
theorem test_create : replyOf (after (.create fr (create 7 0 0xFF)) (receive ready)) = some (.ok, [0, 1, 0x01]) := by
  decide +kernel

/-- R14: a parent that is not oneshot, DONE or CORRUPT, and already a grandchild, is TOO_DEEP. -/
theorem test_create_tooDeep : replyOf (after (.create fr (create 7 0 2)) family) = some (.tooDeep, []) := by
  decide +kernel

/-- Section 1.9, step 4: a contract with no entry leaves its slot FREE with generation 1. -/
theorem test_retire :
    (after (.retire fr (hb 0) 0) (one (contract .arming))).slots[(0 : SlotIx)] = { generation := 1, body := .free } := by
  decide +kernel

/-- Section 12.4, step 1: HAS_DEPENDENTS, 1. -/
theorem test_retire_dependents : replyOf (after (.retire fr (hb 0) 1) family) = some (.hasDependents, [1]) := by
  decide +kernel

/-- Section 1.9, step 6: a handle of an older generation is STALE_HANDLE. -/
theorem test_query_stale : replyOf (after (.query fr ⟨0, 0⟩ 0) family) = some (.staleHandle, []) := by decide +kernel

/-- R22, R184: 71 bytes, from slot, generation, state code, pin, kind and sense on. -/
theorem test_query :
    (replyOf (after (.query fr (hb 2) 0) family)).map (fun x => (x.2.length, x.2.take 6)) =
      some (71, [2, 1, 0x04, 0, 1, 1]) := by
  decide +kernel

/-- R24, section 1.9: pairs of state code and generation. -/
theorem test_list :
    (replyOf (after (.list fr) family)).map (fun x => (x.2.length, x.2.take 10)) =
      some (128, [0x02, 1, 0x03, 1, 0x04, 1, 0x05, 1, 0x00, 0]) := by
  decide +kernel

/-- R20: four LIVE slots, none DRAINING; the generations stand. -/
theorem test_wipeTable :
    replyOf (after (.wipeTable fr) family) = some (.ok, [4, 0]) ∧
      (after (.wipeTable fr) family).slots[(2 : SlotIx)] = { generation := 1, body := .free } := by
  decide +kernel

/-! ## Judgement (sections 2.12, 2.13, 7.6) -/

/-- The contract of section 2.12 as it stands in a state. -/
def sample (st : ContractState) : Record :=
  { contract st with
    limits := { limits with lo := 900, hi := 1100, margin := 50, tolerance := 3, recoveryCount := 2, tripMask := 4
                            noticeMask := 3 } }

/-- Give the contract in slot 0 an observation, pending and then taken. -/
def judged (v : Option Word32) (r : Record) : State :=
  after (.observationTaken ⟨0, 1⟩)
    { one r with notices := [], observations := [{ handle := ⟨0, 1⟩, value := v, serial := 5 }] }

/-- State, strikes, recovery run, recovered flag and the kinds in the queue. -/
def shown (s : State) : Option (ContractState × Nat × Nat × Bool) × List NoticeEntry :=
  ((s.recordAt 0).map (fun r => (r.state, r.strikes, r.recoveryRun, r.recovered)), s.notices)

/-- Section 2.12, step 7: strikes 2 and BELOW give VIOLATED with strikes 0, posted, and slot 0 in the set of TRIP2. -/
theorem test_observationTaken :
    shown (judged (some 870) { sample .suspect with strikes := 2 }) =
        (some (.violated, 0, 0, false), [.contract 0 1 0x08]) ∧
      (judged (some 870) { sample .suspect with strikes := 2 }).trips[(2 : LineIx)].contributors = [0] := by
  decide +kernel

/-- Section 2.12, step 12: the second value in band ends the violation. -/
theorem test_observationTaken_recovers :
    shown (judged (some 1040) { sample .violated with recoveryRun := 1 }) =
        (some (.conforming, 0, 0, false), [.contract 0 1 0x02]) ∧
      (judged (some 1040) { sample .violated with recoveryRun := 1 }).trips[(2 : LineIx)].contributors = [] := by
  decide +kernel

/-- Section 2.13, step 19: CLEAR after the recovered flag. -/
theorem test_clear :
    replyOf (after (.clear fr (hb 0)) (one { sample .violated with recovered := true })) = some (.ok, [0x02]) := by
  decide +kernel

/-- Section 2.13, step 16: STILL_VIOLATING while the flag is clear. -/
theorem test_clear_early :
    replyOf (after (.clear fr (hb 0)) (one (sample .violated))) = some (.stillViolating, []) := by
  decide +kernel

/-- R47 and R116: the chain below a suspended root is set aside. -/
theorem test_suspend :
    (after (.suspend fr (hb 0)) family).slots[(1 : SlotIx)].body =
      .live { under 0 (heading (contract .suspect)) with state := .dormant, strikes := 0 } := by
  decide +kernel

/-- R47: a VIOLATED contract refuses it with IN_VIOLATION. -/
theorem test_suspend_violated : replyOf (after (.suspend fr (hb 2)) family) = some (.inViolation, []) := by decide +kernel

/-- R48: with TB0 RUNNING and no parent, RESUME gives ARMING, 01h. -/
theorem test_resume : replyOf (after (.resume fr (hb 3)) family) = some (.ok, [0x01]) := by decide +kernel

/-- R48: on a STOPPED base, HELD, 06h. -/
theorem test_resume_held :
    replyOf (after (.resume fr (hb 0)) (one (stopped (contract .suspended)))) = some (.ok, [0x06]) := by
  decide +kernel

/-- Operands of AMEND in a mode, with `limitBytes`. -/
def amend (mode : Byte) : AmendBytes := { handle := hb 0, mode := mode, limits := limitBytes }

/-- Section 7.6, step 2: a second staged amendment is OK_REPLACED, SUSPECT. -/
theorem test_amend_staged :
    replyOf (after (.amend fr (amend 1)) (one { contract .suspect with staged := some limits })) =
      some (.okReplaced, [0x03]) := by
  decide +kernel

/-- R128: in immediate mode a measuring contract enters ARMING with the new settle. -/
theorem test_amend_immediate :
    ((after (.amend fr (amend 2)) (one (contract .suspect))).recordAt 0).map (fun r => (r.state, r.settleRemaining)) =
      some (.arming, 1) := by
  decide +kernel

/-! ## Time bases and pins (sections 4.10 and 5.7) -/

/-- Section 4.10, steps 1 and 3: TIMEBASE_BUSY while RUNNING, OK while STOPPED. -/
theorem test_setTimebase :
    replyOf (after (.setTimebase fr 0 2 800) (receive ready)) = some (.timebaseBusy, []) ∧
      (after (.setTimebase fr 2 2 800) (receive ready)).bases[(2 : BaseIx)] =
        { TimeBase.atReset with tap := 2, modulus := 800 } := by
  decide +kernel

/-- Section 4.10, first table: RUNNING with counter and serial 0, and the HELD contract in ARMING. -/
theorem test_startTimebase :
    ((after (.startTimebase fr 1) (one (stopped (contract .held)))).recordAt 0).map (·.state) = some .arming ∧
      (after (.startTimebase fr 1) (one (stopped (contract .held)))).bases[(1 : BaseIx)].state = .running := by
  decide +kernel

/-- Section 4.10, step 2: OK, RUNNING; the CONFORMING contract is HELD and its serial is kept. -/
theorem test_stopTimebase :
    replyOf (after (.stopTimebase fr 0) (one (contract .conforming))) = some (.ok, [0x01]) ∧
      ((after (.stopTimebase fr 0) (one (contract .conforming))).recordAt 0).map (·.state) = some .held ∧
      (after (.stopTimebase fr 0) (one (contract .conforming))).bases[(0 : BaseIx)].serial = 5 := by
  decide +kernel

/-- Section 4.10, step 4 in form: tap, modulus, state, serial, subscribers. -/
theorem test_readTimebase :
    replyOf (after (.readTimebase fr 0) family) = some (.ok, [0, 0x00, 0x10, 0x01, 0x00, 0x05, 4]) := by decide +kernel

/-- A REFCLK rising edge. -/
def edged (s : State) : State := after .goodPeriod s

/-- R83, R86: one base tick short of the modulus at tap 0: none before its one REFCLK edge, one at it, and no second. -/
theorem test_baseTickEnd :
    (after (.baseTickEnd 0) ready).bases[(0 : BaseIx)].counter = 3 ∧
      (after (.baseTickEnd 0) (edged ready)).bases[(0 : BaseIx)].counter = 4 ∧
      (after (.baseTickEnd 0) (after (.baseTickEnd 0) (edged ready))).bases[(0 : BaseIx)].counter = 4 := by
  decide +kernel

/-- R86, R87: at the modulus the counter returns to 0, the serial advances and the boundary is handed on. -/
theorem test_gateBoundary :
    let s := edged ((put 0 (contract .arming) ready).setBase 0
      { (put 0 (contract .arming) ready).bases[(0 : BaseIx)] with counter := 15 })
    ((after (.gateBoundary 0) s).recordAt 0).map (·.context.inbox) = some [.boundary 6] ∧
      (after (.gateBoundary 0) s).bases[(0 : BaseIx)].counter = 0 := by
  decide +kernel

/-- Section 5.7: the measuring contract restarts in ARMING and its dependent is DORMANT; the reply counts subscribers. -/
theorem test_setPin :
    replyOf (after (.setPin fr 0 5) (one (contract .suspect))) = some (.ok, [1]) ∧
      ((after (.setPin fr 0 5) (one (contract .suspect))).recordAt 0).map (fun r => (r.state, r.strikes)) =
        some (.arming, 0) := by
  decide +kernel

/-- R110: the levels in three bytes, then 24 counts. -/
theorem test_readPins :
    (replyOf (after (.readPins fr) (one (contract .suspect)))).map (fun x => (x.2.length, x.2.take 5)) =
      some (27, [0, 0, 0, 1, 0]) := by
  decide +kernel

/-- R103: the first sample sets the level and the flag with no edge. -/
theorem test_firstSample :
    (after (.firstSample 4) State.reset).pins[(2 : PinIx)] = PinChannel.atReset ∧
    (after (.firstSample 4) (edged State.reset)).pins[(2 : PinIx)] =
      { PinChannel.atReset with raw := true, level := true, initialized := true } := by
  decide +kernel

/-- Section 5.7, first table, edges 3 and 4: a differing sample counts, an equal one sets the count to 0. -/
theorem test_pinSample :
    (after (.pinSample 0 true) (edged ready)).pins[(0 : PinIx)].runCount = 1 ∧
      (let c := { ready.pins[(0 : PinIx)] with runCount := 3, due := true }
       (after (.pinSample 0 false) (ready.setChannel 0 c)).pins[(0 : PinIx)].runCount = 0) := by
  decide +kernel

/-- Section 5.7, first table, edge 8: the level takes the sample and RISE is handed on with the stamp of TB0. -/
theorem test_edgeProduced :
    let s := (put 0 (contract .arming) ready).setChannel 0
      { (put 0 (contract .arming) ready).pins[(0 : PinIx)] with runCount := 3, due := true }
    ((after (.edgeProduced 0) s).recordAt 0).map (·.context.inbox) = some [.edge .rise ⟨5, 3⟩] ∧
      (after (.edgeProduced 0) s).pins[(0 : PinIx)].level = true := by
  decide +kernel

/-- R105: an edge of a REFCLK edge that ends a tick waits for the count, and is stamped (6, 0) after the boundary of serial 6. -/
theorem test_edgeStamp :
    let s := edged (((put 0 (contract .arming) ready).setBase 0
      { (put 0 (contract .arming) ready).bases[(0 : BaseIx)] with counter := 15 }).setChannel 0
      { (put 0 (contract .arming) ready).pins[(0 : PinIx)] with runCount := 3 })
    (after (.edgeProduced 0) s).pins[(0 : PinIx)].level = false ∧
      ((after (.edgeProduced 0) (after (.gateBoundary 0) s)).recordAt 0).map (·.context.inbox) =
        some [.boundary 6, .edge .rise ⟨6, 0⟩] := by
  decide +kernel

/-! ## Measurement (section 3.11) -/

/-- A contract of a kind and sense that measures in a context, on TB0 with modulus 1000. -/
def measuring (k : Kind) (sense : BitVec 2) (c : Context) : State :=
  (put 0 { contract .conforming with
      fixed := { (contract .conforming).fixed with kind := k, sense := sense }
      limits := { limits with silenceLimit := 3 }
      context := c } ready).setBase 0 { ready.bases[(0 : BaseIx)] with modulus := 1000, subscribers := [0] }

/-- The observations formed and the phase after. -/
def formed (s : State) : List (Option Word32 × Word16) × Option Phase :=
  (s.observations.map (fun o => (o.value, o.serial)), (s.recordAt 0).map (·.context.phase))

/-- The fan tachometer: RISE (8, 118) in CLOSING gives 7984 with serial 8. -/
theorem test_edgeTaken :
    formed (after (.edgeTaken 0) (measuring .meanPeriod 1
      { Context.initial with phase := .closing, opening := some ⟨7, 120⟩, count := 1, ticks := 500
                             inbox := [.edge .rise ⟨8, 118⟩] })) = ([(some 7984, 8)], some .waitGate) := by
  decide +kernel

/-- The PWM line: RISE (21, 250) in CLOSING gives 250 with serial 21. -/
theorem test_edgeTaken_duty :
    formed (after (.edgeTaken 0) (measuring .duty 1
      { Context.initial with phase := .closing, opening := some ⟨20, 50⟩, count := 800, ticks := 900, active := 300
                             inbox := [.edge .rise ⟨21, 250⟩] })) = ([(some 250, 21)], some .waitGate) := by
  decide +kernel

/-- COUNT: 18 edges at boundary 51, and the next count begins. -/
theorem test_boundaryTaken :
    formed (after (.boundaryTaken 0) (measuring .count 3
      { Context.initial with phase := .counting, count := 18, inbox := [.boundary 51] })) =
      ([(some 18, 51)], some .counting) := by
  decide +kernel

/-- An edge in the tick of a boundary: the boundary first adds one to the silence count, and the edge still closes at 700. -/
theorem test_boundaryTaken_sameTick :
    formed (after (.edgeTaken 0) (after (.boundaryTaken 0) (measuring .period 1
      { Context.initial with phase := .counting, opening := some ⟨40, 300⟩
                             inbox := [.edge .rise ⟨41, 0⟩, .boundary 41] }))) = ([(some 700, 41)], some .waitGate) := by
  decide +kernel

/-- The stopped fan: boundary 12 brings the count to the limit of 3. -/
theorem test_silenceLimit :
    formed (after (.silenceLimit 0) (measuring .meanPeriod 1
      { Context.initial with phase := .opening, silence := 2, inbox := [.boundary 12] })) =
      ([(none, 12)], some .opening) := by
  decide +kernel

/-! ## Notices and trips (sections 8.9 and 9.10) -/

/-- R137: one entry, of slot 1, generation 1, kinds SUSPECT, state SUSPECT. -/
theorem test_readNotices :
    replyOf (after (.readNotices fr) { family with notices := [.contract 1 1 0x01] }) =
      some (.ok, [1, 1, 1, 0x01, 0x03]) := by
  decide +kernel

/-- Section 8.9, step 6: RECOVERED is not there and is ignored; VIOLATED is left. -/
theorem test_ackNotice :
    replyOf (after (.ackNotice fr (hb 2) 0x03) { family with notices := [.contract 2 1 0x09] }) =
      some (.ok, [0x08, 0x04]) := by
  decide +kernel

/-- Section 8.9, step 10: the emptied entry of a DRAINING slot makes it FREE. -/
theorem test_ackNotice_releases :
    (after (.ackNotice fr (hb 9) 0x48)
      { (family.setSlot 9 { generation := 1, body := .draining }) with notices := [.contract 9 1 0x48] }).slots[(9 : SlotIx)] =
      { generation := 1, body := .free } := by
  decide +kernel

/-- Section 9.10, step 1: HOLD, held, asserted. -/
theorem test_setTrip : replyOf (after (.setTrip fr 0 1) (receive ready)) = some (.ok, [0x0B]) := by decide +kernel

/-- Section 9.10, step 2: the line is released. -/
theorem test_releaseTrip : replyOf (after (.releaseTrip fr 0) (receive ready)) = some (.ok, [0x00]) := by decide +kernel

/-- Section 9.10, step 5 in form: CONTRIBUTORS, 1. -/
theorem test_releaseTrip_contributors : replyOf (after (.releaseTrip fr 0) family) = some (.contributors, [1]) := by
  decide +kernel

/-- Section 9.10, step 7: held, forced and asserted. -/
theorem test_forceTrip : replyOf (after (.forceTrip fr 3) (receive ready)) = some (.ok, [0x0E]) := by decide +kernel

/-- R154: three bytes a line; slot 2 contributes to TRIP0 and TRIP1. -/
theorem test_readTrips :
    replyOf (after (.readTrips fr) family) =
      some (.ok, [0x0A, 1, 2, 0x0A, 1, 2, 0x0A, 0, 0xFF, 0x0A, 0, 0xFF]) := by
  decide +kernel

/-! ## The reference, integrity and reset (sections 9.10, 10, 12.3) -/

/-- Section 12.3, step 1: HELD, BLOCKED posted, TB0 STALLED. -/
theorem test_referenceLoss :
    let s := after (.referenceLoss true) { one (contract .conforming) with notices := [] }
    s.notices = [.device 0x2, .contract 0 1 0x04] ∧ s.bases[(0 : BaseIx)].state = .stalled ∧
      s.ref.supervision = .referenceFault := by
  decide +kernel

/-- Section 12.3, step 3. -/
theorem test_referenceReturn :
    let s := after .referenceReturn { ready with ref := { supervision := .referenceFault, gap := .running, goodPeriods := 1023 } }
    s.ref = { supervision := .faultLatched, gap := .running, goodPeriods := 1024 } ∧ s.notices = [.device 0x5] := by
  decide +kernel

/-- R156: the first edge after a power-on reset adds nothing, the next adds one, once the blocks have taken the first. -/
theorem test_goodPeriod :
    (edged State.reset).ref.goodPeriods = 0 ∧ edged (edged State.reset) = edged State.reset ∧
      (edged (after (.firstSample 0) (edged State.reset))).ref.goodPeriods = 1 := by
  decide +kernel

/-- R158: GOOD_PERIOD detects the return too, at the 1024th good period. -/
theorem test_returnAtCount :
    let s := edged { ready with
      bases := State.reset.bases, ref := { supervision := .referenceFault, gap := .running, goodPeriods := 1023 } }
    s.ref = { supervision := .faultLatched, gap := .running, goodPeriods := 1024 } ∧ s.notices = [.device 0x5] := by
  decide +kernel

/-- Section 12.3, step 4 in form: the payload names the base that resumes. -/
theorem test_clearFault :
    let s : State :=
      { one (contract .held) with
        bases := ready.bases.set 0 { TimeBase.atReset with state := .stalled, serial := 5, counter := 3, subscribers := [0] }
        ref := { supervision := .faultLatched, gap := .running, goodPeriods := 1024 } }
    replyOf (after (.clearFault fr) s) = some (.ok, [0x01]) ∧ (after (.clearFault fr) s).bases[(0 : BaseIx)].serial = 5 ∧
      ((after (.clearFault fr) s).recordAt 0).map (·.state) = some .arming := by
  decide +kernel

/-- R164: one field alone, also where a staged amendment that is present would gain its presence. -/
theorem test_storageChange :
    (let r := { contract .held with staged := some limits }
     ((after (.storageChange 0 (.stagedPresence (some { limits with hi := 7 }))) (one r)).recordAt 0) = some r) ∧
    ((after (.storageChange 0 (.inForce (.hi 7))) (one (contract .held))).recordAt 0).map (·.limits.hi) = some 7 := by
  decide +kernel

/-- R165: the position advances by one and wraps from 63 to 0. -/
theorem test_scrubberVisit :
    (after .scrubberVisit { ready with scrub := { position := 63, reports := [] } }).scrub.position = 0 := by
  decide +kernel

/-- Section 10.5, step 1: CORRUPT, member of all four sets, entry at the tail, and the child DORMANT. -/
theorem test_mismatchReport :
    let s := after (.mismatchReport ⟨0, 1⟩)
      { pair (contract .conforming) (contract .conforming) with notices := [], scrub := { position := 1, reports := [⟨0, 1⟩] } }
    s.notices = [.contract 0 1 0x20, .contract 1 1 0x04] ∧ s.trips[(3 : LineIx)].contributors = [0] ∧
      s.pins[(0 : PinIx)].subscribers = [1] := by
  decide +kernel

/-- R168, R185: every TRIP line and ALERT# are driven low in reset. -/
theorem test_resetInput :
    (after .resetInput family).inReset = true ∧ (after .resetInput family).tripDrivenLow 0 = true ∧
      (after .resetInput family).alertDrivenLow = true := by
  decide +kernel

/-- R156: a power-on reset alone restarts the good-period count. -/
theorem test_powerOnReset :
    (after .powerOnReset family).ref.goodPeriods = 0 ∧ (after .resetInput family).ref.goodPeriods = 1024 := by
  decide +kernel

/-- R163: at 1024 good periods the part starts in NORMAL. -/
theorem test_resetRelease : (after .resetRelease (after .resetInput family)).ref.supervision = .normal := by decide +kernel

/-- R185: below 1.2 V nothing is driven. -/
theorem test_vddAt1V2 :
    (after (.vddAt1V2 false) (after .powerOnReset ready)).tripDrivenLow 0 = false ∧
      (after (.vddAt1V2 true) (after (.vddAt1V2 false) (after .powerOnReset ready))).tripDrivenLow 0 = true := by
  decide +kernel

/-! ## Steps -/

theorem test_step : (step { ready with pending := [.baseTickEnd 0, .goodPeriod] }) =
    .next { after (.baseTickEnd 0) ready with pending := [.goodPeriod] } := rfl

/-! ## Witnesses: the step, reset and the invariants -/

/-- The family with a command in front of the queue. -/
def queued (c : Instr) : State := { family with pending := [c] }

/-- The state in which the witnesses of the invariants step. -/
def acting : State := queued (.suspend fr (hb 0))

theorem storageHolds_of {s : State} {c : Instr} {rest : List Instr} (h : s.pending = c :: rest)
    (hc : ∀ i x, c ≠ .storageChange i x) : s.storageHolds := by
  rintro i x r hr
  rw [h] at hr
  exact hc i x (List.cons.inj hr).1

theorem step_of {s t : State} {c : Instr} {rest : List Instr} (h : s.pending = c :: rest)
    (hx : exec c { s with pending := rest } = .next t) : step s = .next t := by
  unfold step
  rw [h]
  exact hx

theorem acting_storageHolds : acting.storageHolds := storageHolds_of rfl nofun

theorem witness_StepTakesTheFrontCommand :
    acting.pending = .suspend fr (hb 0) :: [] ∧ family.pending = [] := ⟨rfl, rfl⟩

theorem acting_setsCanonical : acting.setsCanonical := by
  unfold State.setsCanonical SlotSet.Canonical; decide +kernel

theorem acting_noticesSound : acting.noticesSound := by
  refine ⟨?_, ?_, ?_, ?_⟩
  · show List.Pairwise _ ([.device 1, .contract 1 1 0x01, .contract 2 1 0x08] : List NoticeEntry)
    simp [NoticeEntry.differ]
  · show ∀ e ∈ ([.device 1, .contract 1 1 0x01, .contract 2 1 0x08] : List NoticeEntry), e.nonempty
    simp [NoticeEntry.nonempty]
  · decide +kernel
  · decide +kernel

theorem acting_treeSound : acting.treeSound := treeSound_of (by decide +kernel)

theorem acting_subscribersExact : acting.subscribersExact :=
  ⟨fun b i => Iff.trans (by revert b i; decide +kernel) any_iff,
   fun p i => Iff.trans (by revert p i; decide +kernel) any_iff⟩

theorem acting_statesFit : acting.statesFit := by
  unfold State.statesFit Record.suspensionFits
  exact fun i => all_of (by revert i; decide +kernel)

theorem witness_SetsStayCanonical : acting.setsCanonical ∧ ∃ t, step acting = .next t := ⟨acting_setsCanonical, _, step_of rfl rfl⟩

theorem acting_entriesCurrent : acting.entriesCurrent := by
  have all : ∀ e ∈ acting.notices, (match e with
      | .contract i g _ => decide (g = acting.slots[i].generation)
      | .device _ => true) = true := by decide +kernel
  intro i g ks h
  exact of_decide_eq_true (all _ h)

theorem witness_NoticesStaySound :
    (acting.noticesSound ∧ acting.entriesCurrent ∧ acting.storageHolds ∧ ∃ t, step acting = .next t) ∧
      (acting.inReset = false ∧ ¬ acting.takesEntriesOut ∧ (after (.suspend fr (hb 0)) acting).inReset = false) ∧
      (let s := queued (.wipeTable fr)
       s.inReset = false ∧ s.takesEntriesOut ∧ (∃ t, step s = .next t) ∧ (after (.wipeTable fr) s).inReset = false) := by
  refine ⟨⟨acting_noticesSound, acting_entriesCurrent, acting_storageHolds, _, step_of rfl rfl⟩, ⟨by decide +kernel, ?_,
    by decide +kernel⟩, by decide +kernel, .inr ⟨_, _, rfl⟩, ⟨_, step_of rfl rfl⟩, by decide +kernel⟩
  rintro (⟨_, _, _, _, h⟩ | ⟨_, _, h⟩)
  · cases (List.cons.inj h).1
  · cases (List.cons.inj h).1

theorem witness_BasesAndCheckerStaySound : acting.basesSound ∧ acting.checkerSound ∧ ∃ t, step acting = .next t :=
  ⟨by unfold State.basesSound; decide +kernel, by unfold State.checkerSound; decide +kernel, _, step_of rfl rfl⟩

theorem witness_ResetHoldsThePart :
    (acting.heldInReset ∧ acting.portSound ∧ ∃ t, step acting = .next t) ∧
      (let s : State := { after .powerOnReset family with pending := [.resetRelease] }
       s.inReset = true ∧ s.supply ≠ .inRange ∧ s.heldInReset ∧ s.portSound ∧ ∃ t, step s = .next t) :=
  ⟨⟨by unfold State.heldInReset; decide +kernel, by unfold State.portSound; decide +kernel, _, rfl⟩,
   by decide +kernel, by decide +kernel, by unfold State.heldInReset; decide +kernel,
   by unfold State.portSound; decide +kernel, _, step_of rfl rfl⟩

theorem witness_CountersStayBounded :
    acting.countersBounded ∧ acting.limitsFit ∧ acting.contextsFit ∧ acting.storageHolds ∧ ∃ t, step acting = .next t := by
  refine ⟨?_, fun i r hr => ?_, fun i r hr => ?_, acting_storageHolds, _, step_of rfl rfl⟩
  · unfold State.countersBounded Record.bounded Context.bounded
    exact fun i => all_of (by revert i; decide +kernel)
  · have h : ∀ i, (acting.recordAt i).all (fun r => decide (r.fixed.kind = .period ∧ r.fixed.sense = 1 ∧
        r.fixed.oneshot = false ∧ r.limits = limits ∧ r.staged = none)) = true := by decide +kernel
    obtain ⟨hk, hs, ho, hl, hn⟩ := all_of (h i) r hr
    exact ⟨by simp [Fixed.fit, hk, hs, ho], by simp [Limits.fit, hk, ho, hl, limits], by simp [hn]⟩
  · have h : ∀ i, (acting.recordAt i).all (fun r => decide (r.fixed.kind = .period ∧ r.context = Context.initial)) = true := by
      decide +kernel
    obtain ⟨hk, hc⟩ := all_of (h i) r hr
    simp [Context.fit, hk, hc, Context.initial]

theorem witness_CheckCodesStayInAgreement :
    let s : State := { one ((contract .held).recode 1) with pending := [.suspend fr (hb 0)] }
    s.codeAgrees 0 ((contract .held).recode 1) = true ∧ s.codesAgree ∧ s.storageHolds ∧ ∃ t, step s = .next t := by
  have agrees : (one ((contract .held).recode 1)).codeAgrees 0 ((contract .held).recode 1) = true := by
    simp only [State.codeAgrees, one_slots]
    exact decide_eq_true rfl
  refine ⟨agrees, fun i r hr => ?_, storageHolds_of rfl nofun, _, step_of rfl rfl⟩
  have hr' : (one ((contract .held).recode 1)).recordAt i = some r := hr
  rw [one_recordAt] at hr'
  split at hr' <;> cases hr'
  subst i
  exact agrees

theorem witness_SubscribersStayExact : acting.subscribersExact ∧ acting.storageHolds ∧ ∃ t, step acting = .next t :=
  ⟨acting_subscribersExact, acting_storageHolds, _, step_of rfl rfl⟩

theorem witness_ContributorsStayExact : acting.contributorsExact ∧ acting.storageHolds ∧ ∃ t, step acting = .next t :=
  ⟨by unfold State.contributorsExact Record.contributes
      exact fun l i => Iff.trans (by revert l i; decide +kernel) any_iff, acting_storageHolds, _, step_of rfl rfl⟩

theorem witness_TreeStaysSound : acting.treeSound ∧ acting.storageHolds ∧ ∃ t, step acting = .next t :=
  ⟨acting_treeSound, acting_storageHolds, _, step_of rfl rfl⟩

theorem witness_StatesStayFit :
    acting.statesFit ∧ acting.subscribersExact ∧ acting.treeSound ∧ acting.storageHolds ∧ ∃ t, step acting = .next t :=
  ⟨acting_statesFit, acting_subscribersExact, acting_treeSound, acting_storageHolds, _, step_of rfl rfl⟩

theorem witness_MeasurementEndsWithMeasuring :
    acting.idleUnlessMeasuring ∧ acting.statesFit ∧ acting.subscribersExact ∧ acting.treeSound ∧ acting.storageHolds ∧
      ∃ t, step acting = .next t := by
  refine ⟨⟨fun i => ?_, fun o h => (List.not_mem_nil h).elim⟩, acting_statesFit, acting_subscribersExact,
    acting_treeSound, acting_storageHolds, _, step_of rfl rfl⟩
  exact all_of (by revert i; decide +kernel)

/-- The four ways in which a slot moves, and a record that stays LIVE. -/
theorem witness_SlotsMoveByTheirCommands :
    (let s := queued (.create fr (create 7 0 0xFF))
     s.storageHolds ∧ s.slots[(4 : SlotIx)].body.isLive = false ∧
       ∃ t, step s = .next t ∧ t.slots[(4 : SlotIx)].body.isLive = true) ∧
    (let s := queued (.retire fr (hb 2) 1)
     s.storageHolds ∧ s.slots[(2 : SlotIx)].body ≠ .draining ∧
       ∃ t, step s = .next t ∧ t.slots[(2 : SlotIx)].body = .draining) ∧
    (let s := queued (.retire fr (hb 3) 0)
     s.storageHolds ∧ s.slots[(3 : SlotIx)].body ≠ .free ∧
       ∃ t, step s = .next t ∧ t.slots[(3 : SlotIx)].body = .free) ∧
    (let s : State := { (family.setSlot 9 { generation := 1, body := .draining }) with
       notices := [.contract 9 1 0x48], pending := [.ackNotice fr (hb 9) 0x7F] }
     s.storageHolds ∧ s.slots[(9 : SlotIx)].body ≠ .free ∧
       ∃ t, step s = .next t ∧ t.slots[(9 : SlotIx)].body = .free) ∧
    (let s := queued (.resetDevice fr)
     s.storageHolds ∧ s.slots[(0 : SlotIx)].body ≠ .free ∧
       ∃ t, step s = .next t ∧ t.slots[(0 : SlotIx)].generation ≠ s.slots[(0 : SlotIx)].generation) ∧
    (∃ t, step acting = .next t ∧ (acting.recordAt 0).isSome = true ∧ (t.recordAt 0).isSome = true) := by
  refine ⟨⟨storageHolds_of rfl nofun, ?_, _, step_of rfl rfl, ?_⟩, ⟨storageHolds_of rfl nofun, ?_, _, step_of rfl rfl, ?_⟩,
    ⟨storageHolds_of rfl nofun, ?_, _, step_of rfl rfl, ?_⟩, ⟨storageHolds_of rfl nofun, ?_, _, step_of rfl rfl, ?_⟩,
    ⟨storageHolds_of rfl nofun, ?_, _, step_of rfl rfl, ?_⟩, _, step_of rfl rfl, ?_, ?_⟩ <;> decide +kernel

theorem witness_HeldFlagEndsByRelease :
    let s : State :=
      { receive ready with trips := ready.trips.set 3 { TripLine.atReset with forced := true }, pending := [.releaseTrip fr 3] }
    ∃ t, step s = .next t ∧ (s.trips[(3 : LineIx)].held = true ∧ t.trips[(3 : LineIx)].held = false) ∧
      (s.trips[(3 : LineIx)].forced = true ∧ t.trips[(3 : LineIx)].forced = false) := by
  exact ⟨_, step_of rfl rfl, by decide +kernel⟩

/-- A violation that stays, one that ends by recovery, one by CLEAR, one by FORCE and one in CORRUPT. -/
theorem witness_ViolationPersists :
    let met := fun (s : State) (r : Record) =>
      s.recordAt 0 = some r ∧ r.state = .violated ∧ ∃ t, step s = .next t
    met { one (sample .violated) with pending := [.goodPeriod] } (sample .violated) ∧
    met { one { sample .violated with recoveryRun := 1 } with
            observations := [⟨⟨0, 1⟩, some 1000, 5⟩], pending := [.observationTaken ⟨0, 1⟩] }
      { sample .violated with recoveryRun := 1 } ∧
    met { one { sample .violated with recovered := true } with pending := [.clear fr (hb 0)] }
      { sample .violated with recovered := true } ∧
    met { one (sample .violated) with pending := [.retire fr (hb 0) 1] } (sample .violated) ∧
    met
      { one (sample .violated) with
        scrub := { position := 0, reports := [⟨0, 1⟩] }, pending := [.mismatchReport ⟨0, 1⟩] }
      (sample .violated) :=
  ⟨⟨by decide +kernel, rfl, _, step_of rfl rfl⟩, ⟨by decide +kernel, rfl, _, step_of rfl rfl⟩,
    ⟨by decide +kernel, rfl, _, step_of rfl rfl⟩, ⟨by decide +kernel, rfl, _, step_of rfl rfl⟩,
    ⟨by decide +kernel, rfl, _, step_of rfl rfl⟩⟩

theorem witness_RefusalChangesNothing :
    (let c : Instr := .suspend fr ⟨64, 0⟩
     (frameParts c).isSome = true ∧ c.wellFormed = true ∧ family.receiving ∧
       ∃ t r, exec c family = .next t ∧ t.port.reply = some r ∧ 0x10 ≤ (resultByte r.result).toNat) ∧
    (let c : Instr := .frameRefused [0x00, 0x5A, 0x57]
     c.wellFormed = true ∧ family.receiving ∧
       ∃ t r, exec c family = .next t ∧ t.port.reply = some r ∧ 0x10 ≤ (resultByte r.result).toNat) := by
  refine ⟨⟨rfl, rfl, receive_receiving rfl, _, ⟨.badField, 0x5A, 0x0A, [1]⟩, rfl, ?_, ?_⟩,
    ⟨?_, receive_receiving rfl, _, ⟨.badCheck, 0x5A, 0x00, []⟩, rfl, ?_, ?_⟩⟩ <;> decide +kernel

theorem witness_FrameRoundTrip : frameBytes (.nop fr) = some [0x00, 0x5A, 0x56] := by decide +kernel

/-! ## Witnesses: the port and the contract table -/

theorem ready_receiving : (receive ready).receiving := receive_receiving rfl

theorem family_receiving : family.receiving := receive_receiving rfl

/-- A NOP frame on the lines with seven bits of a byte that was not completed. -/
def onLines : PortLines :=
  { part := receive ready, taken := ([0x00, 0x5A, 0x56] : List Byte).flatMap bitsOfByte ++ List.replicate 7 true, falls := 31 }

theorem witness_FramesBeginAndEnd :
    (ready.inReset = false ∧ ready.port.csLow = false ∧ ready.port.frame = .idle) ∧ (receive ready).receiving ∧
      ((after .resetInput ready).inReset = true ∧ (after .resetInput ready).port.csLow = false) ∧
      (frameParts (.nop fr)).isSome = true ∧ (frameRefusal [0x00, 0x5A, 0x57]).isSome = true ∧
      ¬ ready.receiving ∧ onLines.part.receiving ∧
      (onLines.taken = ([0x00, 0x5A, 0x56] : List Byte).flatMap bitsOfByte ++ List.replicate 7 true ∧
        (List.replicate 7 true).length < 8 ∧ commandOfFrame [0x00, 0x5A, 0x56] = some (.nop fr)) ∧
      onLines.part.supply ≠ .below1V2 ∧ onLines.part.port.csLow = true :=
  ⟨by decide +kernel, ready_receiving, by decide +kernel, rfl, by decide +kernel, (fun h => nomatch h.2), ready_receiving,
    by decide +kernel, by decide +kernel, rfl⟩

/-- R169, R170, R177: SDO shows the summary status byte from its bit 7 on, and a NOP sent bit by bit with seven bits more is three
whole bytes and a NOP. -/
theorem test_lines :
    let x := (PortLines.mk ready [] 0).edge .csFall
    let y := (([0x00, 0x5A, 0x56] : List Byte).flatMap bitsOfByte ++ List.replicate 7 true).foldl
      (fun x b => (x.edge (.sclkRise b)).edge .sclkFall) x
    ([x, x.edge .sclkFall, (x.edge .sclkFall).edge .sclkFall].map PortLines.sdo = [some true, some true, some false]) ∧
      y.falls = 31 ∧ y.part.port.rxCount = 3 ∧ (y.edge .csRise).part.port.reply = some ⟨.ok, 0x5A, 0x00, []⟩ ∧ (y.edge .csRise).sdo = none := by
  decide +kernel

/-- Each of the five checks of R173 at its boundary. -/
theorem witness_RefusedFrames :
    (receive ready).receiving ∧
      (let n := fun code : Byte => match commandOfByte code with | some c => 3 + operandCount c | none => 3
       n 0x00 = 3 ∧ n 0x04 = 3 ∧ [0x00, 0x5A].length < n 0x00 ∧
         (n 0x00 ≤ [0x00, 0x5A, 0x57].length ∧
           ([0x00, 0x5A, 0x57] : List Byte).getD 2 0 ≠ crc8 ([0x00, 0x5A, 0x57].take 2)) ∧
         (([0x04, 0x5A, crc8 [0x04, 0x5A]] : List Byte).getD 2 0 = crc8 ([0x04, 0x5A, crc8 [0x04, 0x5A]].take 2) ∧
           commandOfByte 0x04 = none) ∧
         (([0x00, 0x5A, 0x56, 0x00] : List Byte).getD 2 0 = crc8 ([0x00, 0x5A, 0x56, 0x00].take 2) ∧
           commandOfByte 0x00 ≠ none ∧ ∃ b ∈ ([0x00, 0x5A, 0x56, 0x00] : List Byte).drop 3, b ≠ 0xFF)) :=
  ⟨ready_receiving, by decide +kernel⟩

theorem witness_NopAndIdentify : (receive ready).receiving := ready_receiving

theorem witness_ReadStatusAndList : family.receiving := family_receiving

theorem witness_RepeatKeepsTheReply :
    ((receive ready).receiving ∧ (receive ready).port.reply = none) ∧
      ((receive (after (.nop fr) (receive ready))).receiving ∧
        (receive (after (.nop fr) (receive ready))).port.reply ≠ none) :=
  ⟨⟨ready_receiving, rfl⟩, receive_receiving (by decide +kernel), by decide +kernel⟩

theorem witness_ResetsBegin : family.receiving := family_receiving

theorem witness_ReleaseAndSupply :
    ((after .resetInput family).inReset = true ∧ (after .resetInput family).supply ≠ .below1V2) ∧ family.inReset = false ∧
      ((after .powerOnReset family).supply = .belowRange ∧ (after .powerOnReset family).inReset = true) ∧
      (after (.vddAt1V2 false) (after .powerOnReset family)).supply = .below1V2 ∧
      (ready.supply ≠ .below1V2 ∧ ready.inReset = false ∧ ready.port.csLow = false) := by
  decide +kernel

/-- The handle checks, at the last slot index and beyond it. -/
theorem witness_HandleChecks :
    family.receiving ∧
      (let c : Instr := .suspend fr ⟨64, 1⟩
       c.handleCommand = some (fr, ⟨64, 1⟩) ∧ frameParts c = some (.suspend, fr, [64, 1]) ∧ 63 < (64 : Byte).toNat) ∧
      (let c : Instr := .retire fr (hb 63) 2
       c.handleCommand = some (fr, hb 63) ∧ frameParts c = some (.retire, fr, [63, 1, 2]) ∧ (hb 63).slot.toNat ≤ 63 ∧
         c.laterFieldFails 2 ∧ ∀ m : Fin 16, m < 2 → ¬ c.laterFieldFails m.val) ∧
      (let c : Instr := .query fr (hb 63) 1
       c.handleCommand = some (fr, hb 63) ∧ (hb 63).slot.toNat = (63 : SlotIx).val ∧
         (∀ n : Fin 16, ¬ c.laterFieldFails n.val) ∧ family.slots[(63 : SlotIx)].generation ≠ (hb 63).generation) ∧
      (let c : Instr := .clear fr ⟨63, 0⟩
       c.handleCommand = some (fr, ⟨63, 0⟩) ∧ (∀ n : Fin 16, ¬ c.laterFieldFails n.val) ∧
         family.slots[(63 : SlotIx)].generation = 0 ∧ family.recordAt 63 = none) := by
  simp only [Instr.laterFieldFails]
  exact ⟨family_receiving, by decide +kernel, by decide +kernel, by decide +kernel, by decide +kernel⟩

theorem exists_kind {p : Kind → Prop} :
    (p .meanPeriod ∨ p .period ∨ p .pulse ∨ p .duty ∨ p .count ∨ p .level) ↔ ∃ k, p k := by
  constructor
  · rintro (h | h | h | h | h | h) <;> exact ⟨_, h⟩
  · rintro ⟨k, h⟩
    cases k <;> simp [h]

/-- A decision of a field check of CREATE. -/
def decideField (o : CreateBytes) (n : Nat) : Decidable (o.fieldFails n) := by
  have kind : Decidable (∃ k : Kind, kindCode k = o.kind ∧ o.limits.kindFails k (o.flags.getLsbD 0) n) := by
    refine @decidable_of_iff _ _ (exists_kind (p := fun k => kindCode k = o.kind ∧ _)) ?_
    unfold LimitBytes.kindFails
    split <;> infer_instance
  have set : Decidable (o.limits.setFails n) := by
    unfold LimitBytes.setFails
    split <;> infer_instance
  unfold CreateBytes.fieldFails CreateBytes.senseFits
  split <;> infer_instance

/-- The same as a test. -/
def failsTest (o : CreateBytes) (n : Nat) : Bool := @decide _ (decideField o n)

theorem failsTest_iff {o : CreateBytes} {n : Nat} : failsTest o n = true ↔ o.fieldFails n :=
  @decide_eq_true_iff _ (decideField o n)

/-- Operands of CREATE of which a field is the first that fails. -/
def failing : Nat → CreateBytes
  | 1 => { create 24 0 0xFF with kind := 6 }
  | 2 => { create 23 0 0xFF with kind := 6 }
  | 3 => { create 0 0 0xFF with sense := 3, base := 4 }
  | 4 => { create 0 8 0xFF with base := 4 }
  | 5 => create 0 8 64
  | 6 => { create 0 3 64 with flags := 4 }
  | 7 => { create 0 0 63 with kind := 5, sense := 0 }
  | 8 => { create 0 0 63 with limits := { limitBytes with lo := 31, margin := 1 } }
  | 9 => { create 0 0 63 with limits := { limitBytes with margin := 6, tolerance := 0 } }
  | 10 => { create 0 1 63 with limits := { limitBytes with recoveryCount := 1, tripMask := 0 } }
  | 11 => { create 0 0 63 with limits := { limitBytes with recoveryCount := 16, silenceLimit := 0 } }
  | 12 => { create 0 0 63 with limits := { limitBytes with silenceLimit := 16, settle := 8 } }
  | 13 => { create 0 0 63 with limits := { limitBytes with settle := 8, tripMask := 16 } }
  | 14 => { create 0 1 63 with limits := { limitBytes with tolerance := 1, recoveryCount := 1, noticeMask := 8 } }
  | _ => { create 0 0 63 with limits := { limitBytes with noticeMask := 8 } }

theorem witness_CreateFieldChecks :
    family.receiving ∧ ∀ n : Fin 16, 1 ≤ n.val → (failing n.val).fieldFails n.val ∧
      ∀ m : Fin 16, 1 ≤ m.val → m < n → ¬ (failing n.val).fieldFails m.val := by
  refine ⟨family_receiving, ?_⟩
  simp only [← failsTest_iff]
  decide +kernel

theorem create_passes (parent : Byte) (h : parent = 0xFF ∨ parent.toNat ≤ 63) : (create 7 0 parent).passes := by
  have key : ∀ m : Fin 16, 1 ≤ m.val → m ≠ 6 → ¬ (create 7 0 0xFF).fieldFails m.val := by
    simp only [← failsTest_iff]
    decide +kernel
  intro n hn
  by_cases h6 : n = 6
  · subst h6
    simp only [create, CreateBytes.fieldFails]
    rintro ⟨h1, h2⟩
    rcases h with h | h
    · exact h1 h
    · omega
  · have := key n hn h6
    revert this
    fin_cases n <;> simp_all [create, CreateBytes.fieldFails, CreateBytes.senseFits]

theorem witness_CreateRelationChecks :
    family.receiving ∧ (create 7 0 4).passes ∧ (create 7 0 0xFF).passes ∧
      (let o := create 7 0 4
       o.parent.slot.toNat = (4 : SlotIx).val ∧ family.slots[(4 : SlotIx)].generation ≠ o.parent.generation) ∧
      (let s := family.setSlot 4 { generation := 1, body := .draining }
       s.slots[(4 : SlotIx)].generation = 1 ∧ s.recordAt 4 = none) ∧
      ((one (contract .done)).receiving ∧ (create 7 0 0).parent.slot.toNat = (0 : SlotIx).val ∧
        (one (contract .done)).recordAt 0 = some (contract .done)) ∧
      (let p := under 1 (contract .violated)
       family.recordAt 2 = some p ∧ p.fixed.oneshot = false ∧ p.state ≠ .done ∧ p.state ≠ .corrupt ∧
         family.isGrandchild p = true) ∧
      (let s := family.setChannel 7 { PinChannel.atReset with subscribers := [10, 11, 12, 13, 14, 15, 16, 17] }
       s.parentAccepted (create 7 0 0xFF) ∧ 8 ≤ s.pins[(7 : PinIx)].subscribers.length) ∧
      (let s : State := { receive ready with slots := Vector.replicate 64 { generation := 1, body := .draining } }
       s.receiving ∧ s.parentAccepted (create 7 0 0xFF) ∧ s.pins[(7 : PinIx)].subscribers.length < 8 ∧
         ∀ i : SlotIx, s.slots[i].body ≠ .free) := by
  refine ⟨family_receiving, create_passes 4 (by decide), create_passes 0xFF (by decide), ?_, ?_,
    ⟨receive_receiving ?_, ?_, ?_⟩, ?_, ⟨.inl rfl, ?_⟩, receive_receiving rfl, .inl rfl, ?_, ?_⟩ <;> decide +kernel

/-- With no parent, and with the contract in slot 1 as the parent. -/
theorem witness_CreatePlacesTheContract :
    family.receiving ∧ ((create 7 0 0xFF).passes ∧ family.parentAccepted (create 7 0 0xFF)) ∧
      ((create 7 0 1).passes ∧ family.parentAccepted (create 7 0 1)) ∧ (create 7 0 1).pin.toNat = (7 : PinIx).val ∧
      (create 7 0 1).base.toNat = (0 : BaseIx).val ∧ family.pins[(7 : PinIx)].subscribers.length < 8 ∧
      family.slots[(4 : SlotIx)].body = .free ∧ ∀ j : SlotIx, j < 4 → family.slots[j].body ≠ .free := by
  refine ⟨family_receiving, ⟨create_passes 0xFF (by decide), .inl rfl⟩, ⟨create_passes 1 (by decide),
    .inr ⟨1, rfl, under 0 (heading (contract .suspect)), ?_⟩⟩, ?_⟩ <;> decide +kernel

theorem witness_RetireRemovesTheContract :
    (family.receiving ∧ family.noticesSound ∧ (hb 0).slot.toNat = (0 : SlotIx).val ∧ (1 : Byte).toNat ≤ 1 ∧
      family.slots[(0 : SlotIx)].generation = (hb 0).generation ∧
      (family.recordAt 0).any (fun r => decide (0 < r.dependents)) = true) ∧
    (∀ r : Record, r = contract .violated ∨ r = contract .corrupt ∨ r = contract .conforming →
      (one r).receiving ∧ (one r).noticesSound ∧ (one r).slots[(0 : SlotIx)].generation = (hb 0).generation ∧
        (one r).recordAt 0 = some r ∧ r.dependents = 0) ∧
    family.hasEntry 2 = true ∧ family.hasEntry 3 = false := by
  refine ⟨⟨family_receiving, acting_noticesSound, by decide +kernel⟩, fun r h => ?_, by decide +kernel⟩
  obtain ⟨h1, -, -, h2, h3⟩ := one_meets r (by rcases h with h | h | h <;> subst h <;> rfl)
    (by rcases h with h | h | h <;> subst h <;> rfl)
  refine ⟨h1, ⟨?_, ?_, ?_, ?_⟩, h2, h3, by rcases h with h | h | h <;> subst h <;> rfl⟩
  · rcases h with h | h | h <;> subst h <;> exact List.pairwise_singleton _ _
  · intro e he
    have : e = .device 1 := by rcases h with h | h | h <;> subst h <;> exact List.mem_singleton.1 he
    subst this
    exact (by decide : (1 : BitVec 3) ≠ 0)
  · rcases h with h | h | h <;> subst h <;> decide +kernel
  · rcases h with h | h | h <;> subst h <;> decide +kernel

theorem witness_QueryReports :
    family.receiving ∧ (hb 2).slot.toNat = (2 : SlotIx).val ∧ (1 : Byte).toNat ≤ 1 ∧
      family.slots[(2 : SlotIx)].generation = (hb 2).generation ∧
      family.recordAt 2 = some (under 1 (contract .violated)) :=
  ⟨family_receiving, by decide +kernel⟩

theorem witness_WipeEmptiesTheTable : family.receiving := family_receiving

/-! ## Witnesses: judgement, suspension and the cascades -/

/-- The one contract with an observation pending. -/
def observed (r : Record) (v : Option Word32) : State := { one r with observations := [⟨⟨0, 1⟩, v, 5⟩] }

/-- What the statements on a counted observation ask of the state, for a contract of no parent and no dependents. -/
theorem observed_meets (r : Record) (v : Option Word32) (hp : r.fixed.parent = none) (hd : r.dependents = 0) :
    (observed r v).inReset = false ∧ (observed r v).treeSound ∧
      (observed r v).observations = [] ++ ⟨⟨0, 1⟩, v, 5⟩ :: [] ∧ (observed r v).contractAt ⟨0, 1⟩ = some r := by
  obtain ⟨h1, h2, -, h4, h5⟩ := one_meets r hp hd
  refine ⟨h1.1, h2, rfl, ?_⟩
  unfold State.contractAt
  exact (if_pos h4).trans h5

/-- None pending; a handle of an older generation; a contract that does not measure; and one that settles. -/
theorem witness_ObservationsDiscardedOrVoid :
    (family.inReset = false ∧ ∀ o ∈ family.observations, o.handle ≠ (⟨0, 1⟩ : Handle)) ∧
    (let s : State := { family with observations := [⟨⟨0, 0⟩, none, 5⟩] }
     s.observations = [] ++ ⟨⟨0, 0⟩, none, 5⟩ :: [] ∧ s.contractAt ⟨0, 0⟩ = none) ∧
    ((observed (contract .held) none).contractAt ⟨0, 1⟩ = some (contract .held) ∧
      (observed (contract .held) none).measures (contract .held) = false) ∧
    (let r := { contract .arming with settleRemaining := 1 }
     (observed r none).contractAt ⟨0, 1⟩ = some r ∧ r.state = .arming ∧ 0 < r.settleRemaining) := by
  decide +kernel

/-- Values at and beyond both ends of the window 20 to 30, and none. -/
theorem witness_CountedObservationRecorded (v : Option Word32) :
    let r := contract .suspect
    (observed r v).inReset = false ∧ (observed r v).treeSound ∧
      (observed r v).observations = [] ++ ⟨⟨0, 1⟩, v, 5⟩ :: [] ∧ (observed r v).contractAt ⟨0, 1⟩ = some r ∧
      (observed r v).measures r = true ∧ (r.state = .arming → r.settleRemaining = 0) :=
  have h := observed_meets (contract .suspect) v rfl rfl
  ⟨h.1, h.2.1, h.2.2.1, h.2.2.2, rfl, nofun⟩

/-- A oneshot contract, and in each state a value at the edge of the window, one beyond it, and each tolerance that decides. -/
theorem witness_JudgedBeforeViolation (st : ContractState) (v : Option Word32)
    (hs : st = .arming ∨ st = .conforming ∨ st = .suspect) :
    let r := contract st
    ((observed r v).inReset = false ∧ (observed r v).treeSound ∧
      (observed r v).observations = [] ++ ⟨⟨0, 1⟩, v, 5⟩ :: [] ∧ (observed r v).contractAt ⟨0, 1⟩ = some r ∧
      isMeasuring r.state = true ∧ (r.state = .arming → r.settleRemaining = 0)) ∧
    r.fixed.oneshot = false ∧ limits.lo.toNat = 20 ∧ limits.hi.toNat = 30 ∧ limits.tolerance.toNat = 2 ∧
    (if r.state = .suspect then r.strikes + 1 else 1) = (if st = .suspect then 2 else 1) ∧
    (let q := { contract .arming with fixed := { (contract .arming).fixed with oneshot := true } }
     (observed q v).contractAt ⟨0, 1⟩ = some q ∧ q.fixed.oneshot = true ∧ q.state = .arming) := by
  have h := observed_meets (contract st) v rfl rfl
  have hq := observed_meets { contract .arming with fixed := { (contract .arming).fixed with oneshot := true } } v rfl rfl
  exact ⟨⟨h.1, h.2.1, h.2.2.1, h.2.2.2, by rcases hs with hs | hs | hs <;> subst hs <;> rfl, fun _ => rfl⟩, rfl, rfl,
    rfl, rfl, by rcases hs with hs | hs | hs <;> subst hs <;> rfl, hq.2.2.2, rfl, rfl⟩

/-- The recovery counts, flags and values between which the clauses decide: 19 is out of the window, 21 in the margin strip, 22
and 28 at the ends of the band. -/
theorem witness_JudgedInViolation (v : Option Word32) (run : Fin 2) (recovered latching : Bool) :
    let r := { contract .violated with
      recoveryRun := run.val, recovered := recovered, fixed := { (contract .violated).fixed with latching := latching } }
    ((observed r v).inReset = false ∧ (observed r v).treeSound ∧
      (observed r v).observations = [] ++ ⟨⟨0, 1⟩, v, 5⟩ :: [] ∧ (observed r v).contractAt ⟨0, 1⟩ = some r ∧
      (observed r v).measures r = true ∧ r.state = .violated) ∧
    limits.lo.toNat + limits.margin.toNat = 22 ∧ 28 + limits.margin.toNat = limits.hi.toNat ∧
      limits.recoveryCount.toNat = 2 := by
  intro r
  have h := observed_meets r v rfl rfl
  have measures : (one r).measures r = true := by
    clear h
    subst r
    revert run recovered latching
    decide +kernel
  exact ⟨⟨h.1, h.2.1, h.2.2.1, h.2.2.2, measures, rfl⟩, rfl, rfl, rfl⟩

/-- A contract in every state; and a SUSPENDED one on a STOPPED base and under a parent that is not healthy. -/
theorem witness_SuspendAndResume (st : ContractState) :
    ((one (contract st)).receiving ∧ (one (contract st)).treeSound ∧ (hb 0).slot.toNat = (0 : SlotIx).val ∧
      (one (contract st)).slots[(0 : SlotIx)].generation = (hb 0).generation ∧
      (one (contract st)).recordAt 0 = some (contract st)) ∧
    (one (contract .suspended)).baseRunning (contract .suspended) = true ∧
    (let r := stopped (contract .suspended)
     (one r).receiving ∧ (one r).treeSound ∧ (one r).recordAt 0 = some r ∧ (one r).baseRunning r = false) ∧
    (let s := pair (contract .arming) (contract .suspended)
     let r := under 0 (contract .suspended)
     s.receiving ∧ s.treeSound ∧ s.recordAt 1 = some r ∧ s.baseRunning r = true ∧ s.parentAllows r = false) :=
  have h := one_meets (stopped (contract .suspended)) rfl rfl
  ⟨one_meets _ rfl rfl, rfl, ⟨h.1, h.2.1, h.2.2.2.2, rfl⟩, receive_receiving (by decide +kernel),
    treeSound_of (by decide +kernel), by decide +kernel⟩

/-- A VIOLATED contract whose flag is set: measuring, on a STOPPED base, and under a parent that is not healthy; one whose flag is
clear; and one in another state. -/
theorem witness_ClearEndsAViolation :
    (∀ r : Record, r = { contract .violated with recovered := true } ∨
        r = stopped { contract .violated with recovered := true } ∨ r = contract .violated ∨ r = contract .held →
      (one r).receiving ∧ (one r).treeSound ∧ (hb 0).slot.toNat = (0 : SlotIx).val ∧
        (one r).slots[(0 : SlotIx)].generation = (hb 0).generation ∧ (one r).recordAt 0 = some r) ∧
    (let r := { contract .violated with recovered := true }
     (one r).baseRunning r = true ∧ (one r).parentAllows r = true) ∧
    (let r := stopped { contract .violated with recovered := true }
     (one r).baseRunning r = false) ∧
    (let s := pair (contract .arming) { contract .violated with recovered := true }
     let r := under 0 { contract .violated with recovered := true }
     s.receiving ∧ s.treeSound ∧ s.recordAt 1 = some r ∧ s.baseRunning r = true ∧ s.parentAllows r = false) :=
  ⟨fun r h => one_meets r (by rcases h with h | h | h | h <;> subst h <;> rfl)
      (by rcases h with h | h | h | h <;> subst h <;> rfl), by decide +kernel, by decide +kernel,
    receive_receiving (by decide +kernel), treeSound_of (by decide +kernel), by decide +kernel⟩

/-- A SUSPECT contract in slot 0, with an observation that violates it and a mismatch report of it, and its dependent in slot 1, in
a state, on pin 1 and on a base, TB1 RUNNING. -/
def falling (q : ContractState) (b : BaseIx) : State :=
  let s := pair (contract .suspect) { contract q with fixed := { (contract q).fixed with pin := 1, base := b } }
  { s.setBase 1 { s.bases[(1 : BaseIx)] with state := .running } with
    observations := [⟨⟨0, 1⟩, none, 5⟩], scrub := { position := 1, reports := [⟨0, 1⟩] } }

/-- A command makes the contract in slot 0 unhealthy and does not act on its dependent in slot 1 of its own accord. -/
def makesUnhealthy (c : Instr) (s : State) : Prop :=
  s.treeSound ∧ (∃ t, exec c s = .next t ∧ (t.recordAt 0).any (fun r => !isHealthy r.state) = true) ∧
    (s.recordAt 0).any (fun r => isHealthy r.state) = true ∧ s.dependsOn 1 0 = true ∧ (s.recordAt 1).isSome = true ∧
    ¬ s.claims c 1

/-- Each command and event that makes a contract unhealthy, over a measuring dependent (for a loss of the reference, one on a base
that is not RUNNING); a VIOLATED and a HELD dependent; and chains of three whose middle contract is healthy and is not. -/
theorem witness_UnhealthyParentSetsDependentsAside :
    ((let s := falling .conforming 1
      makesUnhealthy (.suspend fr (hb 0)) s ∧ makesUnhealthy (.amend fr (amend 2)) s ∧
        makesUnhealthy (.observationTaken ⟨0, 1⟩) s ∧ makesUnhealthy (.mismatchReport ⟨0, 1⟩) s ∧
        makesUnhealthy (.stopTimebase fr 0) s ∧ makesUnhealthy (.setPin fr 0 5) s) ∧
      makesUnhealthy (.referenceLoss true) (falling .held 2)) ∧
    (makesUnhealthy (.stopTimebase fr 0) (falling .violated 1) ∧
      makesUnhealthy (.suspend fr (hb 0)) (falling .held 2)) ∧
    (∀ q : ContractState, q = .suspect ∨ q = .arming →
      let s := receive (put 2 (under 1 (contract .arming)) (put 1 (under 0 (heading (contract q)))
        (put 0 (heading (contract .conforming)) ready)))
      makesUnhealthy (.suspend fr (hb 0)) s ∧ s.recordAt 1 = some (under 0 (heading (contract q))) ∧
        s.dependsOn 2 1 = true ∧ s.recordAt 2 = some (under 1 (contract .arming)) ∧ ¬ s.claims (.suspend fr (hb 0)) 2) := by
  refine ⟨⟨⟨?_, ?_, ?_, ?_, ?_, ?_⟩, ?_⟩, ⟨?_, ?_⟩, fun q h => ?_⟩
  on_goal 10 =>
    rcases h with h | h <;> subst h <;>
      exact ⟨⟨treeSound_of (by decide +kernel), ⟨_, rfl, by decide +kernel⟩, by decide +kernel, by decide +kernel,
        by decide +kernel, id⟩, by decide +kernel, by decide +kernel, by decide +kernel, id⟩
  all_goals
    exact ⟨treeSound_of (by decide +kernel), ⟨_, rfl, by decide +kernel⟩, by decide +kernel, by decide +kernel,
      by decide +kernel, by unfold State.claims; decide +kernel⟩

/-- A contract in slot 0 with an observation of a value, and its dependent in slot 1 in a state. -/
def rising (r : Record) (v : Option Word32) (q : ContractState) : State :=
  { pair r (contract q) with observations := [⟨⟨0, 1⟩, v, 5⟩] }

/-- A command makes the contract in slot 0 healthy, over a dependent in slot 1. -/
def makesHealthy (c : Instr) (s : State) : Prop :=
  s.treeSound ∧ s.statesFit ∧ (∃ t, exec c s = .next t ∧ (t.recordAt 0).any (fun r => isHealthy r.state) = true) ∧
    (s.recordAt 0).any (fun r => !isHealthy r.state) = true ∧ s.dependsOn 1 0 = true ∧ (s.recordAt 1).isSome = true

/-- Judgement from ARMING into CONFORMING and into SUSPECT, a recovery and a CLEAR, over a DORMANT dependent; and over a VIOLATED and
a SUSPENDED one. -/
theorem witness_HealthyParentReleasesDependents :
    (makesHealthy (.observationTaken ⟨0, 1⟩) (rising (contract .arming) (some 30) .dormant) ∧
      makesHealthy (.observationTaken ⟨0, 1⟩) (rising (contract .arming) (some 31) .dormant) ∧
      makesHealthy (.observationTaken ⟨0, 1⟩) (rising { contract .violated with recoveryRun := 1 } (some 28) .dormant) ∧
      makesHealthy (.clear fr (hb 0)) (rising { contract .violated with recovered := true } none .dormant)) ∧
    makesHealthy (.clear fr (hb 0)) (rising { contract .violated with recovered := true } none .violated) ∧
    makesHealthy (.observationTaken ⟨0, 1⟩) (rising (contract .arming) (some 20) .suspended) := by
  refine ⟨⟨?_, ?_, ?_, ?_⟩, ?_, ?_⟩ <;>
    exact ⟨treeSound_of (by decide +kernel),
      by unfold State.statesFit Record.suspensionFits; exact fun i => all_of (by revert i; decide +kernel),
      ⟨_, rfl, by decide +kernel⟩, by decide +kernel, by decide +kernel, by decide +kernel⟩

/-! ## Witnesses: measurement -/

/-- A context in a phase, opened at (5, 3), with a silence count and an inbox. -/
def context (ph : Phase) (silence : Nat) (inbox : List ContextEvent) : Context :=
  { Context.initial with phase := ph, opening := some ⟨5, 3⟩, silence := silence, inbox := inbox }

/-- The record of `measuring`. -/
def measuringRecord (k : Kind) (sense : BitVec 2) (c : Context) : Record :=
  { contract .conforming with
    fixed := { (contract .conforming).fixed with kind := k, sense := sense }
    limits := { limits with silenceLimit := 3 }
    context := c }

theorem measuring_meets (k : Kind) (sense : BitVec 2) (c : Context) :
    (measuring k sense c).inReset = false ∧ (measuring k sense c).recordAt 0 = some (measuringRecord k sense c) ∧
      (measuring k sense c).measures (measuringRecord k sense c) = true :=
  ⟨rfl, rfl, rfl⟩

/-- Every kind, phase, sense and direction, with the edge at the head and behind the boundary of its own base tick. -/
theorem witness_EdgesTaken (k : Kind) (ph : Phase) (sense : BitVec 2) (dir : EdgeDir) :
    (let c := context ph 0 [.edge dir ⟨6, 4⟩]
     (measuring k sense c).inReset = false ∧ (measuring k sense c).recordAt 0 = some (measuringRecord k sense c) ∧
       (measuring k sense c).measures (measuringRecord k sense c) = true ∧ c.inbox = [] ++ .edge dir ⟨6, 4⟩ :: []) ∧
    (let c := context ph 0 [.boundary 6, .edge dir ⟨6, 0⟩, .boundary 7]
     (measuring k sense c).recordAt 0 = some (measuringRecord k sense c) ∧
       c.inbox = [.boundary 6] ++ .edge dir ⟨6, 0⟩ :: [.boundary 7] ∧
       (∀ e ∈ [ContextEvent.boundary 6], e = .boundary 6) ∧ (⟨6, 0⟩ : Stamp).counter = 0) :=
  ⟨⟨rfl, rfl, rfl, rfl⟩, rfl, rfl, by simp, rfl⟩

/-- Every kind and phase, with the boundary at the head and behind an edge of its own base tick; the boundary of the opening edge's
gate serial and a later one; a silence count below the limit of 3. -/
theorem witness_BoundariesTaken (k : Kind) (ph : Phase) (sense : BitVec 2) (dir : EdgeDir) (n : Word16)
    (hn : n = 5 ∨ n = 6) :
    (let c := context ph 1 [.boundary n]
     (measuring k sense c).inReset = false ∧ (measuring k sense c).recordAt 0 = some (measuringRecord k sense c) ∧
       (measuring k sense c).measures (measuringRecord k sense c) = true ∧ c.inbox = [] ++ .boundary n :: [] ∧
       c.silence + 1 < (measuringRecord k sense c).limits.silenceLimit.toNat ∧ c.opening = some ⟨5, 3⟩) ∧
    (let c := context ph 1 [.edge dir ⟨n, 0⟩, .boundary n]
     (measuring k sense c).recordAt 0 = some (measuringRecord k sense c) ∧
       c.inbox = [.edge dir ⟨n, 0⟩] ++ .boundary n :: [] ∧
       (∀ e ∈ [ContextEvent.edge dir ⟨n, 0⟩], ∃ d, e = .edge d { serial := n, counter := 0 }) ∧
       firstEdge [.edge dir ⟨n, 0⟩] = some dir) := by
  have _ := hn
  exact ⟨⟨rfl, rfl, rfl, rfl, (by decide : 1 + 1 < 3), rfl⟩, rfl, rfl, by simp, rfl⟩

/-- A silence count one short of the limit of 3, where the boundary reaches it, and one below, where it does not. -/
theorem witness_SilenceEndsAMeasurement (k : Kind) (ph : Phase) (sense : BitVec 2) (silence : Nat)
    (hs : silence = 1 ∨ silence = 2) :
    let c := context ph silence [.boundary 6]
    (measuring k sense c).inReset = false ∧ (measuring k sense c).recordAt 0 = some (measuringRecord k sense c) ∧
      (measuring k sense c).measures (measuringRecord k sense c) = true ∧ c.inbox = [] ++ .boundary 6 :: [] ∧
      c.opening = some ⟨5, 3⟩ ∧ (⟨5, 3⟩ : Stamp).serial ≠ 6 ∧
      (if silence = 2 then (measuringRecord k sense c).limits.silenceLimit.toNat ≤ c.silence + 1
       else c.silence + 1 < (measuringRecord k sense c).limits.silenceLimit.toNat) := by
  refine ⟨rfl, rfl, rfl, rfl, rfl, by decide, ?_⟩
  rcases hs with h | h <;> subst h
  · exact (by decide : 1 + 1 < 3)
  · exact (by decide : 3 ≤ 2 + 1)

/-! ## Witnesses: time bases and pins -/

theorem witness_SetAndReadTimebase :
    (receive ready).receiving ∧ 3 < (4 : Byte).toNat ∧ (3 : Byte).toNat = (3 : BaseIx).val ∧ 7 < (8 : Byte).toNat ∧
      (7 : Byte).toNat = (7 : Fin 8).val ∧ (15 : Word16).toNat < 16 ∧ 16 ≤ (16 : Word16).toNat ∧
      (receive ready).bases[(0 : BaseIx)].state ≠ .stopped ∧ (receive ready).bases[(3 : BaseIx)].state = .stopped :=
  ⟨ready_receiving, by decide +kernel⟩

/-- Two contracts on TB1, HELD and VIOLATED. -/
def waiting : State := receive (put 1 (stopped (contract .violated)) (put 0 (stopped (contract .held)) ready))

theorem witness_StartTimebaseAndClearFault :
    (waiting.receiving ∧ waiting.bases[(1 : BaseIx)].state = .stopped ∧ waiting.bases[(0 : BaseIx)].state ≠ .stopped ∧
      waiting.ref.supervision = .normal ∧ 0 ∈ waiting.bases[(1 : BaseIx)].subscribers ∧
      waiting.recordAt 0 = some (stopped (contract .held)) ∧ (5 : SlotIx) ∉ waiting.bases[(1 : BaseIx)].subscribers ∧
      (stopped (contract .held)).suspensionFits) ∧
    (let s := one (stopped (contract .suspended))
     s.receiving ∧ 0 ∈ s.bases[(1 : BaseIx)].subscribers ∧ s.recordAt 0 = some (stopped (contract .suspended)) ∧
       (stopped (contract .suspended)).suspensionFits) ∧
    (after (.referenceLoss true) waiting).ref.supervision = .referenceFault ∧
    (let s : State :=
      { waiting with
        bases := waiting.bases.set 1 { waiting.bases[(1 : BaseIx)] with state := .stalled }
        ref := { waiting.ref with supervision := .faultLatched } }
     s.receiving ∧ s.ref.supervision = .faultLatched ∧ s.bases[(1 : BaseIx)].state = .stalled ∧
       0 ∈ s.bases[(1 : BaseIx)].subscribers ∧ s.recordAt 0 = some (stopped (contract .held))) := by
  unfold Record.suspensionFits
  exact ⟨⟨receive_receiving (by decide +kernel), by decide +kernel⟩, ⟨receive_receiving (by decide +kernel), by decide +kernel⟩,
    by decide +kernel, receive_receiving (by decide +kernel), by decide +kernel⟩

/-- No health change reaches a slot that is not LIVE. -/
theorem reaches_none {s : State} {k i : SlotIx} (h : s.recordAt i = none) : ¬ s.reaches k i := by
  rintro ⟨-, hd | ⟨j, -, hd, -⟩⟩ <;> simp [State.dependsOn, h] at hd

theorem family_treeSound : family.treeSound := treeSound_of (by decide +kernel)

theorem witness_StopTimebase :
    family.receiving ∧ family.bases[(0 : BaseIx)].state = .running ∧ family.treeSound ∧
      0 ∈ family.bases[(0 : BaseIx)].subscribers ∧ family.recordAt 0 = some (heading (contract .conforming)) ∧
      (heading (contract .conforming)).suspensionFits ∧
      (3 ∈ family.bases[(0 : BaseIx)].subscribers ∧ family.recordAt 3 = some (contract .suspended) ∧
        (contract .suspended).suspensionFits) ∧
      (5 : SlotIx) ∉ family.bases[(0 : BaseIx)].subscribers ∧
      (∀ k ∈ family.bases[(0 : BaseIx)].subscribers, ¬ family.reaches k 5) ∧
      family.bases[(1 : BaseIx)].state = .stopped ∧
      (let s := family.setBase 1 { family.bases[(1 : BaseIx)] with state := .stalled }
       s.receiving ∧ s.bases[(1 : BaseIx)].state = .stalled) := by
  unfold Record.suspensionFits
  refine ⟨family_receiving, by decide +kernel, family_treeSound, by decide +kernel, by decide +kernel, by decide +kernel,
    by decide +kernel, by decide +kernel, fun k _ => reaches_none rfl, by decide +kernel, ⟨by decide +kernel, rfl⟩,
    by decide +kernel⟩

/-- One tick short of the modulus of 16, at it, and inside a tick of a longer tap. -/
theorem witness_TicksAndBoundaries :
    family.inReset = false ∧
      (let t := { family.bases[(0 : BaseIx)] with tap := 3, divider := 8 }
       t.state = .running ∧ 2 ^ t.tap.val ≤ t.divider ∧ t.counter.toNat + 1 < t.modulus.toNat) ∧
      (let t := { family.bases[(0 : BaseIx)] with counter := 15, divider := 1 }
       t.state = .running ∧ 2 ^ t.tap.val ≤ t.divider ∧ t.modulus.toNat ≤ t.counter.toNat + 1 ∧
         SlotSet.Canonical t.subscribers) ∧
      (let t := { family.bases[(0 : BaseIx)] with tap := 3, divider := 7 }
       ¬ (t.state = .running ∧ 2 ^ t.tap.val ≤ t.divider)) := by
  unfold SlotSet.Canonical
  decide +kernel

theorem heading_at : family.recordAt 0 = some (heading (contract .conforming)) := by decide +kernel

/-- A member that no other heads; two that one at a lower slot heads, measuring and VIOLATED; one that one at a higher slot heads. -/
theorem witness_SetPinRestartsMeasurements :
    family.receiving ∧ family.setsCanonical ∧ family.treeSound ∧ 23 < (24 : Byte).toNat ∧ (23 : Byte).toNat ≤ 23 ∧
      7 < (8 : Byte).toNat ∧ (0 : Byte).toNat = (0 : PinIx).val ∧ (7 : Byte).toNat = (7 : Fin 8).val ∧
      family.pins[(0 : PinIx)].subscribers = [0, 1, 2, 3] ∧ (∀ k : SlotIx, ¬ family.reaches k 0) ∧
      family.recordAt 0 = some (heading (contract .conforming)) ∧ family.reaches 0 1 ∧ family.reaches 0 2 ∧
      family.recordAt 1 = some (under 0 (heading (contract .suspect))) ∧
      family.recordAt 2 = some (under 1 (contract .violated)) ∧
      (let s := receive (put 0 (under 1 (contract .conforming)) (put 1 (heading (contract .conforming)) ready))
       s.receiving ∧ s.setsCanonical ∧ s.treeSound ∧ s.recordAt 0 = some (under 1 (contract .conforming)) ∧
         s.pins[(0 : PinIx)].subscribers = [0, 1] ∧ s.reaches 1 0) ∧
      (∀ r : Record, r = contract .violated ∨ r = stopped (contract .violated) ∨ r = contract .held →
        (one r).receiving ∧ (one r).treeSound ∧ (one r).recordAt 0 = some r) := by
  refine ⟨family_receiving, acting_setsCanonical, family_treeSound, by decide, by decide, by decide, by decide, by decide,
    by decide +kernel, fun k h => ?_, by decide +kernel, ⟨⟨_, heading_at, rfl⟩, .inl (by decide +kernel)⟩,
    ⟨⟨_, heading_at, rfl⟩, .inr ⟨1, ⟨under 0 (heading (contract .suspect)), by decide +kernel, rfl⟩, by decide +kernel⟩⟩,
    by decide +kernel, by decide +kernel,
    ⟨receive_receiving (by decide +kernel), by unfold State.setsCanonical SlotSet.Canonical; decide +kernel,
      treeSound_of (by decide +kernel), by decide +kernel, by decide +kernel,
      ⟨heading (contract .conforming), by decide +kernel, rfl⟩, .inl (by decide +kernel)⟩, fun r h => ?_⟩
  · have roots : ∀ j : SlotIx, family.dependsOn 0 j = false := by decide +kernel
    rcases h.2 with h | ⟨j, -, h, -⟩ <;> simp [roots] at h
  · have m := one_meets r (by rcases h with h | h | h <;> subst h <;> rfl) (by rcases h with h | h | h <;> subst h <;> rfl)
    exact ⟨m.1, m.2.1, m.2.2.2.2⟩

/-- The REFCLK edge of the present tick has been counted by every base. -/
theorem family_ticksCounted :
    ∀ b : BaseIx, family.bases[b].state = .running → family.bases[b].divider < 2 ^ family.bases[b].tap.val := by
  decide +kernel

/-- Run counts short of and at 2^n for setting 2, with every tick counted and with one to count, a channel with no sample due and
one that has had no first sample. -/
theorem witness_SamplesAndEdges :
    family.inReset = false ∧
      (let c := { family.pins[(0 : PinIx)] with runCount := 2, due := true }
       c.initialized = true ∧ c.due = true ∧ true ≠ c.level ∧ c.runCount + 1 < 2 ^ c.filter.val) ∧
      (let c := { family.pins[(0 : PinIx)] with runCount := 3, due := true }
       c.initialized = true ∧ c.due = true ∧ 2 ^ c.filter.val ≤ c.runCount + 1 ∧ true ≠ c.level ∧
         SlotSet.Canonical c.subscribers) ∧
      (∀ b : BaseIx, family.bases[b].state = .running → family.bases[b].divider < 2 ^ family.bases[b].tap.val) ∧
      (let s := edged family
       s.bases[(0 : BaseIx)].state = .running ∧ ¬ s.bases[(0 : BaseIx)].divider < 2 ^ s.bases[(0 : BaseIx)].tap.val) ∧
      family.pins[(0 : PinIx)].due = false ∧ family.pins[(2 : PinIx)].initialized = false := by
  refine ⟨rfl, by decide +kernel, ?_, family_ticksCounted, by decide +kernel, by decide +kernel, by decide +kernel⟩
  unfold SlotSet.Canonical
  decide +kernel

/-- Before the first edge, where no sample is due, and after it. -/
theorem witness_FirstSampleAndReadPins :
    (State.reset.inReset = false ∧ State.reset.pins[(2 : PinIx)].due = false) ∧
      ((edged State.reset).inReset = false ∧ (edged State.reset).pins[(2 : PinIx)].due = true ∧
        (edged State.reset).pins[(2 : PinIx)].initialized = false) ∧ family.receiving :=
  ⟨⟨rfl, by decide +kernel⟩, by decide +kernel, family_receiving⟩

/-! ## Witnesses: amendments -/

theorem amend_fields (mode : Byte) (hm : mode = 1 ∨ mode = 2) (n : Fin 16) : ¬ (amend mode).fieldFails n.val := by
  rcases hm with h | h <;> subst h <;> fin_cases n <;>
    simp [amend, limitBytes, AmendBytes.fieldFails, LimitBytes.setFails]

/-- A oneshot contract, or one of a kind. -/
def shaped (k : Kind) (oneshot : Bool) : Record :=
  { contract .conforming with fixed := { (contract .conforming).fixed with kind := k, oneshot := oneshot } }

/-- A contract in DONE and in CORRUPT; and fields 7, 8, 10, 11 and 14 as the first that fails against the record. -/
theorem witness_AmendChecks :
    (∀ r : Record, r = contract .done ∨ r = contract .corrupt ∨ r = shaped .level false ∨ r = shaped .period true →
      (one r).receiving ∧ (amend 1).handle.slot.toNat = (0 : SlotIx).val ∧
        (one r).slots[(0 : SlotIx)].generation = (amend 1).handle.generation ∧ (one r).recordAt 0 = some r) ∧
    (∀ n : Fin 16, ¬ (amend 1).fieldFails n.val) ∧
    (let fails := fun (k : Kind) (oneshot : Bool) (a : LimitBytes) (n : Nat) =>
       a.kindFails k oneshot n ∧ ∀ m : Fin 16, m.val < n → ¬ a.kindFails k oneshot m.val
     fails .level false limitBytes 7 ∧ fails .level false { limitBytes with lo := 1, hi := 2, margin := 0 } 8 ∧
       fails .period true limitBytes 10 ∧ fails .period true { limitBytes with tolerance := 1 } 11 ∧
       fails .period true { limitBytes with tolerance := 1, recoveryCount := 1 } 14) := by
  refine ⟨fun r h => ?_, amend_fields 1 (.inl rfl), ?_⟩
  · have m := one_meets r (by rcases h with h | h | h | h <;> subst h <;> rfl)
      (by rcases h with h | h | h | h <;> subst h <;> rfl)
    exact ⟨m.1, m.2.2.1, m.2.2.2.1, m.2.2.2.2⟩
  · refine ⟨⟨?_, fun m => ?_⟩, ⟨?_, fun m => ?_⟩, ⟨?_, fun m => ?_⟩, ⟨?_, fun m => ?_⟩, ?_, fun m => ?_⟩ <;>
      first
        | (fin_cases m <;> simp [LimitBytes.kindFails, limitBytes])
        | simp [LimitBytes.kindFails, limitBytes]

/-- Both modes, for a contract that measures, one VIOLATED and one blocked, with and without a staged amendment. -/
theorem witness_AmendStagedOrImmediate (mode : Byte) (hm : mode = 1 ∨ mode = 2) (staged : Option Limits) :
    (∀ n : Fin 16, ¬ (amend mode).fieldFails n.val) ∧
      (∀ n : Fin 16, ¬ (amend mode).limits.kindFails .period false n.val) ∧
      ∀ st : ContractState, st = .arming ∨ st = .suspect ∨ st = .violated ∨ st = .held →
        let r := { contract st with staged := staged }
        (one r).receiving ∧ (one r).treeSound ∧ (amend mode).handle.slot.toNat = (0 : SlotIx).val ∧
          (one r).slots[(0 : SlotIx)].generation = (amend mode).handle.generation ∧ (one r).recordAt 0 = some r ∧
          r.state ≠ .done ∧ r.state ≠ .corrupt ∧ r.fixed.kind = .period ∧ r.fixed.oneshot = false := by
  refine ⟨amend_fields mode hm, fun n => ?_, fun st h => ?_⟩
  · fin_cases n <;> simp [LimitBytes.kindFails, amend]
  · have m := one_meets { contract st with staged := staged } rfl rfl
    exact ⟨m.1, m.2.1, m.2.2.1, m.2.2.2.1, m.2.2.2.2, by rcases h with h | h | h | h <;> subst h <;> nofun,
      by rcases h with h | h | h | h <;> subst h <;> nofun, rfl, rfl⟩

/-! ## Witnesses: notices and trips -/

/-- Slot indices 63, 64 and FFh; kinds 7 and 8 of the device, 7Fh and 80h of a slot; an entry there and not there. -/
theorem witness_NoticesReadAndAcknowledged :
    family.receiving ∧ family.noticesSound ∧
      (63 < (64 : Byte).toNat ∧ (64 : Byte) ≠ 0xFF) ∧ (7 < (8 : Byte).toNat ∧ (7 : Byte).toNat ≤ 7) ∧
      deviceKinds family.notices = some 1 ∧ deviceKinds ({ family with notices := [] } : State).notices = none ∧
      (hb 2).slot.toNat = (2 : SlotIx).val ∧ (127 < (128 : Byte).toNat ∧ (127 : Byte).toNat ≤ 127) ∧
      family.slots[(2 : SlotIx)].generation = (hb 2).generation ∧
      family.slots[(63 : SlotIx)].generation ≠ (hb 63).generation ∧ family.hasEntry 0 = false ∧
      contractKinds 2 family.notices = some 8 ∧
      (let s : State := { (family.setSlot 2 { generation := 1, body := .draining }) with
        notices := [.contract 2 1 0x48, .contract 1 1 0x01] }
       s.receiving ∧ s.noticesSound ∧ contractKinds 2 s.notices = some 0x48 ∧ s.slots[(2 : SlotIx)].body = .draining) := by
  refine ⟨family_receiving, acting_noticesSound, by decide, by decide, by decide +kernel, rfl, rfl, by decide,
    by decide +kernel, by decide +kernel, by decide +kernel, by decide +kernel, ⟨by decide +kernel, rfl⟩,
    ⟨?_, ?_, ?_, ?_⟩, by decide +kernel, by decide +kernel⟩
  · simp [NoticeEntry.differ]
  · simp [NoticeEntry.nonempty]
  · decide +kernel
  · decide +kernel

theorem witness_TripPolicyAndForce :
    family.receiving ∧ family.setsCanonical ∧ 3 < (4 : Byte).toNat ∧ (3 : Byte).toNat = (3 : LineIx).val ∧
      1 < (2 : Byte).toNat ∧ policyCode .follow = 0 ∧ policyCode .hold = 1 ∧ family.trips[(3 : LineIx)].contributors = [] ∧
      family.trips[(0 : LineIx)].contributors = [2] :=
  ⟨family_receiving, acting_setsCanonical, by decide +kernel⟩

theorem witness_ReleaseTrip :
    family.receiving ∧ 3 < (4 : Byte).toNat ∧ (3 : Byte).toNat = (3 : LineIx).val ∧ family.ref.supervision = .normal ∧
      family.trips[(0 : LineIx)].contributors ≠ [] ∧ family.trips[(3 : LineIx)].contributors = [] ∧
      ((receive State.reset).receiving ∧ (receive State.reset).ref.supervision ≠ .normal) :=
  ⟨family_receiving, by decide, by decide, by decide +kernel, by decide +kernel, by decide +kernel,
    receive_receiving rfl, by decide +kernel⟩

/-! ## Witnesses: the reference and integrity -/

/-- Every block has taken its part of the latest REFCLK edge. -/
def edgeTaken (s : State) : Prop :=
  (∀ b : BaseIx, s.bases[b].state = .running → s.bases[b].divider < 2 ^ s.bases[b].tap.val) ∧
    ∀ p : PinIx, s.pins[p].due = false

/-- A loss in reset, in REFERENCE_FAULT and in NORMAL; an edge at the 1024th good period, one short of it, in NORMAL and in reset;
and an edge that blocks have still to take. -/
theorem witness_ReferenceLossAndReturn :
    ((after .resetInput family).inReset = true ∧ State.reset.inReset = false ∧
      State.reset.ref.supervision = .referenceFault ∧ edgeTaken State.reset) ∧
    edgeTaken family ∧
    (family.inReset = false ∧ family.ref.supervision ≠ .referenceFault ∧ family.treeSound ∧
      family.bases[(0 : BaseIx)].state = .running ∧ 0 ∈ family.bases[(0 : BaseIx)].subscribers ∧
      family.recordAt 0 = some (heading (contract .conforming)) ∧ deviceKinds family.notices = some 1 ∧
      (heading (contract .conforming)).suspensionFits ∧
      (3 ∈ family.bases[(0 : BaseIx)].subscribers ∧ family.recordAt 3 = some (contract .suspended) ∧
        (contract .suspended).suspensionFits) ∧
      (∀ b : BaseIx, family.bases[b].state = .running → ∀ k ∈ family.bases[b].subscribers,
        (5 : SlotIx) ≠ k ∧ ¬ family.reaches k 5)) ∧
    deviceKinds ({ family with notices := [] } : State).notices = none ∧
    (let s := fun n : Nat => { State.reset with ref := { supervision := .referenceFault, gap := .running, goodPeriods := n } }
     (s 1023).inReset = false ∧ edgeTaken (s 1023) ∧ (s 1023).ref.supervision = .referenceFault ∧ (s 1023).ref.gap = .running ∧
       min ((s 1023).ref.goodPeriods + 1) 1024 = 1024 ∧ edgeTaken (s 1022) ∧
       min ((s 1022).ref.goodPeriods + 1) 1024 ≠ 1024) ∧
    ((edged family).inReset = false ∧ ¬ edgeTaken (edged family)) := by
  unfold Record.suspensionFits
  refine ⟨?_, ?_, ⟨rfl, by decide +kernel, family_treeSound, by decide +kernel, by decide +kernel, by decide +kernel,
    by decide +kernel, by decide +kernel, by decide +kernel, ?_⟩, by decide +kernel, ?_, ?_⟩
  case refine_3 =>
    have apart : ∀ b : BaseIx, ∀ k ∈ family.bases[b].subscribers, (5 : SlotIx) ≠ k := by decide +kernel
    exact fun b _ k hk => ⟨apart b k hk, reaches_none rfl⟩
  all_goals unfold edgeTaken; decide +kernel

theorem witness_StorageAndScrubber :
    family.recordAt 63 = none ∧ family.recordAt 2 = some (under 1 (contract .violated)) ∧ family.inReset = false := by
  decide +kernel

/-- No report handed on; one of an older generation; one for a CORRUPT contract; one for a healthy contract with a measuring
dependent; one for a VIOLATED contract; and one for a healthy contract with a VIOLATED dependent. -/
theorem witness_MismatchMakesCorrupt :
    (family.inReset = false ∧ (⟨0, 1⟩ : Handle) ∉ family.scrub.reports) ∧
    (let s : State := { family with scrub := { position := 0, reports := [⟨0, 0⟩, ⟨0, 1⟩, ⟨2, 1⟩] } }
     ((⟨0, 0⟩ : Handle) ∈ s.scrub.reports ∧ s.contractAt ⟨0, 0⟩ = none) ∧
       ((⟨0, 1⟩ : Handle) ∈ s.scrub.reports ∧ s.contractAt ⟨0, 1⟩ = some (heading (contract .conforming)) ∧ s.treeSound ∧
         s.dependsOn 1 0 = true ∧ s.recordAt 1 = some (under 0 (heading (contract .suspect)))) ∧
       (s.contractAt ⟨2, 1⟩ = some (under 1 (contract .violated)) ∧ isHealthy .violated = false)) ∧
    (let s : State := { one (contract .corrupt) with scrub := { position := 0, reports := [⟨0, 1⟩] } }
     (⟨0, 1⟩ : Handle) ∈ s.scrub.reports ∧ s.contractAt ⟨0, 1⟩ = some (contract .corrupt)) ∧
    (let s := falling .violated 1
     s.inReset = false ∧ (⟨0, 1⟩ : Handle) ∈ s.scrub.reports ∧ s.contractAt ⟨0, 1⟩ = some (heading (contract .suspect)) ∧
       s.treeSound ∧ s.dependsOn 1 0 = true ∧ (s.recordAt 1).any (fun q => decide (q.state = .violated)) = true ∧
       ¬ s.reaches 0 5) :=
  ⟨by decide +kernel, ⟨by decide +kernel, ⟨by decide +kernel, by decide +kernel, family_treeSound, by decide +kernel⟩,
    by decide +kernel⟩, by decide +kernel,
    ⟨rfl, by decide +kernel, by decide +kernel, treeSound_of (by decide +kernel), by decide +kernel, by decide +kernel,
      reaches_none (by decide +kernel)⟩⟩

end Sys2Proof.Tests
end

