-- ==== Sys2Proof/Proofs/ReadStatusAndList.lean ====
section
/-! PROOFS. READ_STATUS and LIST: the bits of a byte put together field by field, the counts of the slots by state, the two bytes of
each slot in LIST's payload, and the replies of the two commands. -/

namespace Sys2Proof.Machine

variable {s : State}

/-! ## Bytes put together by or -/

/-- A bit of an or over a list is set when the start or some member's share sets it. -/
theorem getLsbD_foldl_or {α : Type} {w : Nat} (g : α → BitVec w) (k : Nat) (l : List α) (a : BitVec w) :
    (l.foldl (fun acc x => acc ||| g x) a).getLsbD k = (a.getLsbD k || l.any (fun x => (g x).getLsbD k)) := by
  induction l generalizing a with
  | nil => simp
  | cons x t ih => simp [ih, Bool.or_assoc]

theorem getLsbD_flagBit (b : Bool) (n k : Nat) : (flagBit b n).getLsbD k = (b && decide (k = n) && decide (k < 8)) := by
  cases b
  · simp [flagBit]
  · rw [Bool.eq_iff_iff]
    simp only [flagBit, if_true, BitVec.getLsbD_shiftLeft, BitVec.getLsbD_one, Bool.true_and, Bool.and_eq_true,
      Bool.not_eq_true', decide_eq_true_eq, decide_eq_false_iff_not]
    omega

/-- A number that fits in one byte is read back from it. -/
theorem toNat_byteOf {n : Nat} (h : n < 256) : (byteOf n).toNat = n := by
  simpa [byteOf] using Nat.mod_eq_of_lt h

/-! ## The asserted lines -/

theorem State.lineAsserted_iff (s : State) (l : LineIx) : s.lineAsserted l = true ↔ ¬ s.lineReleased l := by
  rw [← Bool.not_eq_false, not_iff_not]
  simp [State.lineAsserted, State.lineReleased, State.faultTerm, and_assoc]

/-- The bits of the assertion set, within the four lines and beyond. -/
theorem State.getLsbD_assertedLines (s : State) (k : Nat) :
    s.assertedLines.getLsbD k = allLines.any (fun l => s.lineAsserted l && decide (k = l.val)) := by
  have below_byte (l : LineIx) : (decide (k = l.val) && decide (k < 8)) = decide (k = l.val) := by
    have := l.isLt
    simp only [← Bool.decide_and, decide_eq_decide]
    omega
  simp only [State.assertedLines, getLsbD_foldl_or, BitVec.ofNat_eq_ofNat, BitVec.getLsbD_zero, Bool.false_or,
    getLsbD_flagBit, Bool.and_assoc, below_byte]

theorem State.getLsbD_assertedLines_line (s : State) (l : LineIx) :
    s.assertedLines.getLsbD l.val = true ↔ ¬ s.lineReleased l := by
  simp [State.getLsbD_assertedLines, ← Fin.ext_iff, State.lineAsserted_iff]

theorem State.assertedLines_lt (s : State) : s.assertedLines.toNat < 16 := by
  refine Nat.lt_pow_two_of_testBit (n := 4) _ fun k hk => ?_
  change s.assertedLines.getLsbD k = false
  simp only [State.getLsbD_assertedLines, List.any_eq_false]
  intro l _
  have := l.isLt
  simp only [Bool.and_eq_true, decide_eq_true_eq]
  omega

/-! ## The states of the bases -/

/-- The code of a base state takes two bits. -/
theorem lt_two_of_getLsbD_baseStateCode {b : BaseState} {k : Nat} (h : (baseStateCode b).getLsbD k = true) : k < 2 := by
  by_contra hk
  have fits : (baseStateCode b).toNat < 2 ^ k :=
    lt_of_lt_of_le (b := 2 ^ 2) (by cases b <;> decide) (Nat.pow_le_pow_right (by decide) (by omega))
  exact absurd h (by simp [BitVec.getLsbD, Nat.testBit_lt_two_pow fits])

/-- What base c's code puts in bit j of base b's two bits: its own bit j if it is that base, else nothing. -/
theorem getLsbD_baseStateCode_shift (x : BaseState) {b c : BaseIx} {j : Nat} (hj : j < 2) :
    (baseStateCode x <<< (2 * c.val)).getLsbD (2 * b.val + j) = (decide (c = b) && (baseStateCode x).getLsbD j) := by
  have := b.isLt
  rw [BitVec.getLsbD_shiftLeft]
  by_cases hcb : c = b
  · have inByte : 2 * b.val + j < 8 := by omega
    simp only [hcb, inByte, decide_true, Bool.true_and, Nat.add_sub_cancel_left, Nat.not_lt.2 (Nat.le_add_right _ j),
      decide_false, Bool.not_false]
  · have apart : c.val ≠ b.val := fun e => hcb (Fin.ext e)
    simp only [hcb, decide_false, Bool.false_and, Bool.and_eq_false_imp, Bool.and_eq_true, Bool.not_eq_true',
      decide_eq_false_iff_not]
    rintro ⟨-, above⟩
    by_contra hbit
    have := lt_two_of_getLsbD_baseStateCode (by simpa using hbit)
    omega

/-- Bits 2b and 2b+1 of the bases' byte are those of base b's code. -/
theorem State.extract_baseStates (s : State) (b : BaseIx) :
    s.baseStates.extractLsb' (2 * b.val) 2 = (baseStateCode s.bases[b].state).setWidth 2 := by
  refine BitVec.eq_of_getLsbD_eq fun j hj => ?_
  have only_own : allBases.any (fun c => decide (c = b) && (baseStateCode s.bases[c].state).getLsbD j) =
      (baseStateCode s.bases[b].state).getLsbD j := by
    rw [Bool.eq_iff_iff]
    simp
  simp only [State.baseStates, BitVec.getLsbD_extractLsb', BitVec.getLsbD_setWidth, getLsbD_foldl_or,
    getLsbD_baseStateCode_shift _ hj, only_own, BitVec.ofNat_eq_ofNat, BitVec.getLsbD_zero, Bool.false_or]

/-! ## The counts of the slots -/

@[simp] theorem SlotBody.isLive_free : SlotBody.free.isLive = false := rfl
@[simp] theorem SlotBody.isLive_live (r : Record) : (SlotBody.live r).isLive = true := rfl
@[simp] theorem SlotBody.isLive_draining : SlotBody.draining.isLive = false := rfl

/-- Every slot body is FREE, LIVE or DRAINING, and one of them only. -/
theorem countP_body_add {α : Type} (body : α → SlotBody) (l : List α) :
    l.countP (fun i => (body i).isLive) + l.countP (fun i => decide (body i = .draining)) +
      l.countP (fun i => decide (body i = .free)) = l.length := by
  induction l with
  | nil => rfl
  | cons i t ih =>
    simp only [List.countP_cons, List.length_cons, ← ih]
    cases body i <;> simp <;> omega

theorem State.slotCounts_add (s : State) : s.liveCount + s.drainingCount + s.freeCount = 64 :=
  (countP_body_add (fun i : SlotIx => s.slots[i].body) allSlots).trans (List.length_finRange)

/-! ## The payload of LIST -/

/-- Two bytes for each member make twice as many bytes, those of member n at 2n and 2n+1. -/
theorem length_flatMap_pair {α β : Type} (f g : α → β) (l : List α) :
    (l.flatMap (fun x => [f x, g x])).length = 2 * l.length := by
  simp [List.length_flatMap, Nat.mul_comm]

theorem getElem?_flatMap_pair {α β : Type} (f g : α → β) (l : List α) (n : Nat) :
    (l.flatMap (fun x => [f x, g x]))[2 * n]? = l[n]?.map f ∧
      (l.flatMap (fun x => [f x, g x]))[2 * n + 1]? = l[n]?.map g := by
  induction l generalizing n with
  | nil => simp
  | cons x t ih =>
    cases n with
    | zero => simp
    | succ m => simpa [Nat.mul_add] using ih m

theorem getElem?_allSlots (i : SlotIx) : allSlots[i.val]? = some i := by
  simp [allSlots]

theorem State.length_listPayload (s : State) : s.listPayload.length = 128 :=
  (length_flatMap_pair _ _ allSlots).trans (congrArg (2 * ·) List.length_finRange)

theorem State.getElem?_listPayload (s : State) (i : SlotIx) :
    s.listPayload[2 * i.val]? = some (slotCode s.slots[i].body) ∧
      s.listPayload[2 * i.val + 1]? = some s.slots[i].generation := by
  simpa only [State.listPayload, getElem?_allSlots, Option.map_some] using
    getElem?_flatMap_pair (fun i : SlotIx => slotCode s.slots[i].body) (fun i => s.slots[i].generation) allSlots i.val

/-! ## The replies -/

theorem exec_readStatus_of_receiving (h : s.receiving) (f : Frame) :
    exec (.readStatus f) s = .next (s.replied (3 + f.fill) ⟨.ok, f.tag, 0x02, s.statusPayload⟩) :=
  congrArg Host.Outcome.next (State.serve_of_receiving h _ _ _)

theorem exec_list_of_receiving (h : s.receiving) (f : Frame) :
    exec (.list f) s = .next (s.replied (3 + f.fill) ⟨.ok, f.tag, 0x0F, s.listPayload⟩) :=
  congrArg Host.Outcome.next (State.serve_of_receiving h _ _ _)

/-- Settles O24: the two payloads byte by byte, in a reply that leaves all but the port as it was. -/
theorem readStatusAndList : Obligations.ReadStatusAndList := by
  intro f s h
  have sum := s.slotCounts_add
  have live : (byteOf s.liveCount).toNat = s.liveCount := toNat_byteOf (by omega)
  have draining : (byteOf s.drainingCount).toNat = s.drainingCount := toNat_byteOf (by omega)
  have free : (byteOf s.freeCount).toNat = s.freeCount := toNat_byteOf (by omega)
  refine ⟨⟨s.baseStates, s.assertedLines, byteOf s.liveCount, byteOf s.drainingCount, byteOf s.freeCount,
    exec_readStatus_of_receiving h f, s.extract_baseStates, s.assertedLines_lt, s.getLsbD_assertedLines_line,
    live, draining, ?_⟩, s.listPayload, exec_list_of_receiving h f, s.length_listPayload, s.getElem?_listPayload⟩
  rw [live, draining, free, sum]

end Sys2Proof.Machine
end

