-- ==== Sys2Proof/Proofs/TripPolicyAndForce.lean ====
section
/-! PROOFS. SET_TRIP, FORCE_TRIP and READ_TRIPS: the checks of a line number and of a policy code, the bits of a line's byte, the
three bytes of each line in READ_TRIPS's payload, and the replies of the three commands. -/

namespace Sys2Proof.Machine

variable {s : State}

/-! ## The line number and the policy -/

theorem withLine_of_above {b : Byte} (h : 3 < b.toNat) (act : LineIx → Answer) :
    withLine s b act = refuse s .badField [1] := by
  simp only [withLine, indexOf_eq_none.2 h]

theorem withLine_of_line {b : Byte} {l : LineIx} (h : b.toNat = l.val) (act : LineIx → Answer) :
    withLine s b act = act l := by
  simp only [withLine, indexOf_eq_some.2 h]

@[simp] theorem policyOfCode_policyCode (p : Policy) : policyOfCode (policyCode p) = some p := by
  cases p <;> rfl

theorem policyOfCode_of_above {b : Byte} (h : 1 < b.toNat) : policyOfCode b = none := by
  have not_follow : b ≠ 0x00 := by rintro rfl; exact absurd h (by decide)
  have not_hold : b ≠ 0x01 := by rintro rfl; exact absurd h (by decide)
  simp only [policyOfCode, if_neg not_follow, if_neg not_hold]

/-! ## A line's byte -/

theorem policyCode_eq_flagBit (p : Policy) : policyCode p = flagBit (decide (p = .hold)) 0 := by
  cases p <;> rfl

/-- A line's byte is made of four flags, in bits 0 to 3 (R184). -/
theorem State.getLsbD_lineByte (s : State) (l : LineIx) {k : Nat} (hk : k < 8) :
    (s.lineByte l).getLsbD k =
      (decide (s.trips[l].policy = .hold) && decide (k = 0) || s.trips[l].held && decide (k = 1) ||
        s.trips[l].forced && decide (k = 2) || s.lineAsserted l && decide (k = 3)) := by
  simp only [State.lineByte, policyCode_eq_flagBit, BitVec.getLsbD_or, getLsbD_flagBit, hk, decide_true, Bool.and_true]

theorem State.lineByte_lt (s : State) (l : LineIx) : (s.lineByte l).toNat < 16 := by
  refine Nat.lt_pow_two_of_testBit (n := 4) _ fun k hk => ?_
  change (s.lineByte l).getLsbD k = false
  by_cases inByte : k < 8
  · have apart : k ≠ 0 ∧ k ≠ 1 ∧ k ≠ 2 ∧ k ≠ 3 := by omega
    simp [State.getLsbD_lineByte s l inByte, apart]
  · exact BitVec.getLsbD_of_ge _ _ (Nat.not_lt.1 inByte)

theorem State.lineShown_lineByte (s : State) (l : LineIx) : s.lineShown l (s.lineByte l) := by
  refine ⟨?_, ?_, ?_, ?_, s.lineByte_lt l⟩ <;> rw [s.getLsbD_lineByte l (by decide)]
  case refine_4 => simp [State.lineAsserted_iff]
  all_goals simp

/-! ## The payload of READ_TRIPS -/

/-- When every member gives n bytes, those of member k begin at n times k. -/
theorem take_drop_flatMap {α β : Type} {n : Nat} {f : α → List β} (hf : ∀ x, (f x).length = n) {l : List α} {k : Nat}
    {x : α} (h : l[k]? = some x) : ((l.flatMap f).drop (n * k)).take n = f x := by
  induction l generalizing k with
  | nil => simp at h
  | cons a t ih =>
    cases k with
    | zero =>
      obtain rfl : a = x := by simpa using h
      simpa using List.take_left' (hf a)
    | succ m =>
      rw [List.flatMap_cons, Nat.mul_succ, Nat.add_comm, ← List.drop_drop, List.drop_left' (hf a)]
      exact ih (by simpa using h)

theorem getElem?_allLines (l : LineIx) : allLines[l.val]? = some l := by
  simp [allLines]

theorem State.length_tripsPayload (s : State) : s.tripsPayload.length = 12 := by
  simp [State.tripsPayload, List.length_flatMap, allLines]

theorem State.take_drop_tripsPayload (s : State) (l : LineIx) :
    (s.tripsPayload.drop (3 * l.val)).take 3 =
      [s.lineByte l, byteOf s.trips[l].contributors.length, lowestSlotByte s.trips[l].contributors] :=
  take_drop_flatMap (n := 3) (fun _ => rfl) (getElem?_allLines l)

/-- The head of a set in canonical form is its least member. -/
theorem lowestSlotByte_of_least {l : List SlotIx} (canonical : SlotSet.Canonical l) {i : SlotIx} (mem : i ∈ l)
    (least : ∀ j ∈ l, i ≤ j) : lowestSlotByte l = slotByte i := by
  cases l with
  | nil => exact absurd mem List.not_mem_nil
  | cons a t =>
    obtain ⟨below, -⟩ := List.pairwise_cons.1 canonical
    rcases List.mem_cons.1 mem with rfl | tail
    · rfl
    · exact absurd (below i tail) (not_lt.2 (least a List.mem_cons_self))

/-! ## The replies -/

theorem exec_setTrip_of_receiving (h : s.receiving) (f : Frame) (line policy : Byte) :
    exec (.setTrip f line policy) s =
      .next ((setTripBlock line policy (s.frameEnded (5 + f.fill))).served .setTrip f) :=
  congrArg Host.Outcome.next (State.serve_of_receiving h _ _ _)

theorem exec_forceTrip_of_receiving (h : s.receiving) (f : Frame) (line : Byte) :
    exec (.forceTrip f line) s = .next ((forceTripBlock line (s.frameEnded (4 + f.fill))).served .forceTrip f) :=
  congrArg Host.Outcome.next (State.serve_of_receiving h _ _ _)

theorem exec_readTrips_of_receiving (h : s.receiving) (f : Frame) :
    exec (.readTrips f) s = .next (s.replied (3 + f.fill) ⟨.ok, f.tag, 0x33, s.tripsPayload⟩) :=
  congrArg Host.Outcome.next (State.serve_of_receiving h _ _ _)

/-- A command taken on a line leaves, but for the reply, the state with that line written. -/
theorem State.served_ok_setLine (s : State) (rx : Nat) (l : LineIx) (x : TripLine) (c : Command) (f : Frame) :
    (ok ((s.frameEnded rx).setLine l x) [((s.frameEnded rx).setLine l x).lineByte l]).served c f =
      (s.setLine l x).replied rx ⟨.ok, f.tag, commandByte c, [(s.setLine l x).lineByte l]⟩ := rfl

theorem exec_setTrip_of_line_above (h : s.receiving) (f : Frame) {line : Byte} (above : 3 < line.toNat) (policy : Byte) :
    exec (.setTrip f line policy) s = .next (s.replied (5 + f.fill) ⟨.badField, f.tag, 0x30, [1]⟩) := by
  rw [exec_setTrip_of_receiving h, setTripBlock, withLine_of_above above]
  rfl

theorem exec_setTrip_of_policy_above (h : s.receiving) (f : Frame) {line policy : Byte} {l : LineIx}
    (hl : line.toNat = l.val) (above : 1 < policy.toNat) :
    exec (.setTrip f line policy) s = .next (s.replied (5 + f.fill) ⟨.badField, f.tag, 0x30, [2]⟩) := by
  rw [exec_setTrip_of_receiving h, setTripBlock, withLine_of_line hl, policyOfCode_of_above above]
  rfl

theorem exec_setTrip_of_policyCode (h : s.receiving) (f : Frame) {line : Byte} {l : LineIx} (hl : line.toNat = l.val)
    (p : Policy) :
    let t := s.setLine l { s.trips[l] with policy := p }
    exec (.setTrip f line (policyCode p)) s = .next (t.replied (5 + f.fill) ⟨.ok, f.tag, 0x30, [t.lineByte l]⟩) := by
  rw [exec_setTrip_of_receiving h, setTripBlock, withLine_of_line hl, policyOfCode_policyCode]
  exact congrArg Host.Outcome.next (s.served_ok_setLine _ l _ .setTrip f)

theorem exec_forceTrip_of_line_above (h : s.receiving) (f : Frame) {line : Byte} (above : 3 < line.toNat) :
    exec (.forceTrip f line) s = .next (s.replied (4 + f.fill) ⟨.badField, f.tag, 0x32, [1]⟩) := by
  rw [exec_forceTrip_of_receiving h, forceTripBlock, withLine_of_above above]
  rfl

theorem exec_forceTrip_of_line (h : s.receiving) (f : Frame) {line : Byte} {l : LineIx} (hl : line.toNat = l.val) :
    let t := s.setLine l { s.trips[l] with forced := true }
    exec (.forceTrip f line) s = .next (t.replied (4 + f.fill) ⟨.ok, f.tag, 0x32, [t.lineByte l]⟩) := by
  rw [exec_forceTrip_of_receiving h, forceTripBlock, withLine_of_line hl]
  exact congrArg Host.Outcome.next (s.served_ok_setLine _ l _ .forceTrip f)

/-- Settles O56: each command's checks and its write of one line, and the three bytes that READ_TRIPS gives of every line. -/
theorem tripPolicyAndForce : Obligations.TripPolicyAndForce := by
  refine ⟨fun f line policy s h => ⟨fun above => ?_, fun l hl => ⟨fun above => ?_, ?_, ?_⟩⟩, fun f s h sets => ?_⟩
  · exact ⟨exec_setTrip_of_line_above h f above policy, exec_forceTrip_of_line_above h f above⟩
  · exact exec_setTrip_of_policy_above h f hl above
  · rintro p rfl
    exact ⟨_, exec_setTrip_of_policyCode h f hl p, State.lineShown_lineByte _ l⟩
  · exact ⟨_, exec_forceTrip_of_line h f hl, State.lineShown_lineByte _ l⟩
  · obtain ⟨-, -, canonical⟩ := sets
    refine ⟨s.tripsPayload, exec_readTrips_of_receiving h f, s.length_tripsPayload, fun l =>
      ⟨_, _, s.take_drop_tripsPayload l, s.lineShown_lineByte l, fun empty => ?_, fun i mem least => ?_⟩⟩
    · rw [empty, lowestSlotByte]
    · exact lowestSlotByte_of_least (canonical l) mem least

end Sys2Proof.Machine
end

