-- ==== Sys2Proof/Proofs/NopAndIdentify.lean ====
section
/-! PROOFS. NOP and IDENTIFY: the service of a command whose block changes no state, and the replies of the two commands. -/

namespace Sys2Proof.Machine

variable {s : State}

/-- A command whose block only answers OK changes the port alone. -/
theorem State.serve_ok_of_receiving (h : s.receiving) (c : Command) (f : Frame) (payload : List Byte) :
    s.serve c f (fun t => ok t payload) =
      s.replied (commandLength c + f.fill) ⟨.ok, f.tag, commandByte c, payload⟩ := by
  rw [State.serve_of_receiving h, State.served_ok]

theorem exec_nop_of_receiving (h : s.receiving) (f : Frame) :
    exec (.nop f) s = .next (s.replied (3 + f.fill) ⟨.ok, f.tag, 0x00, []⟩) :=
  congrArg Host.Outcome.next (State.serve_ok_of_receiving h .nop f [])

theorem exec_identify_of_receiving (h : s.receiving) (f : Frame) :
    exec (.identify f) s = .next (s.replied (3 + f.fill) ⟨.ok, f.tag, 0x01, [0x4B, 0x24, 0x01]⟩) :=
  congrArg Host.Outcome.next (State.serve_ok_of_receiving h .identify f [0x4B, 0x24, 0x01])

/-- Settles O23: both blocks answer OK over the state they are given, so the port alone changes. -/
theorem nopAndIdentify : Obligations.NopAndIdentify :=
  fun f _ h => ⟨exec_nop_of_receiving h f, exec_identify_of_receiving h f⟩

end Sys2Proof.Machine
end

