-- ==== Sys2Proof/Proofs/Follows.lean ====
section
set_option Elab.async false
/-! PROOFS. `Follows`: what the operations over contracts keep beside their `TableFrame`: entries of the notice queue only join at
the tail, limits that pass R13 still do, and the contributor and subscriber sets still follow the records. -/

namespace Sys2Proof.Machine

variable {s t u : State} {i : SlotIx}

/-! ## The relation -/

/-- The fixed fields, the limits in force and those staged pass R13. -/
def Record.fits (r : Record) : Prop :=
  r.fixed.fit ∧ r.limits.fit r.fixed.kind r.fixed.oneshot ∧ ∀ a, r.staged = some a → a.fit r.fixed.kind r.fixed.oneshot

theorem State.limitsFit_iff (s : State) : s.limitsFit ↔ ∀ i r, s.recordAt i = some r → r.fits := Iff.rfl

/-- What an operation over contracts keeps beside its frame. -/
structure Follows (s t : State) : Prop where
  owners : s.owners <+: t.owners
  limitsFit : s.limitsFit → t.limitsFit
  contributors : s.contributorsExact → t.contributorsExact
  subscribers : s.subscribersExact → t.subscribersExact

theorem Follows.refl (s : State) : Follows s s := ⟨List.prefix_refl _, id, id, id⟩

theorem Follows.trans (h : Follows s t) (k : Follows t u) : Follows s u :=
  ⟨h.owners.trans k.owners, k.limitsFit ∘ h.limitsFit, k.contributors ∘ h.contributors, k.subscribers ∘ h.subscribers⟩

theorem Follows.foldl {α : Type} {f : State → α → State} (h : ∀ s a, Follows s (f s a)) (l : List α) (s : State) :
    Follows s (l.foldl f s) := by
  induction l generalizing s with
  | nil => exact .refl s
  | cons a t ih => exact (h s a).trans (ih _)

/-- An edit of a record that keeps its fixed fields, limits that pass R13, and whether it is CORRUPT. -/
structure RecordFollows (r r' : Record) : Prop where
  fixed : r'.fixed = r.fixed
  fits : r.fits → r'.fits
  corrupt : r'.state = .corrupt ↔ r.state = .corrupt

/-- An edit of a record after which its slot belongs to the same lines. -/
structure RecordQuiet (r r' : Record) : Prop extends RecordFollows r r' where
  contributes : ∀ l, r'.contributes l ↔ r.contributes l

/-- An edit that leaves the state, the fixed fields and the limits. -/
theorem RecordQuiet.of_eq {r r' : Record} (hf : r'.fixed = r.fixed) (hl : r'.limits = r.limits) (hs : r'.staged = r.staged)
    (hst : r'.state = r.state) : RecordQuiet r r' where
  fixed := hf
  fits := by simp only [Record.fits, hf, hl, hs, imp_self]
  corrupt := by rw [hst]
  contributes := fun l => by simp only [Record.contributes, hst, hl]

/-- An edit between states that belong to no line. -/
theorem RecordQuiet.of_state {r r' : Record} (hf : r'.fixed = r.fixed) (hl : r'.limits = r.limits) (hs : r'.staged = r.staged)
    (hv : r.state ≠ .violated) (hc : r.state ≠ .corrupt) (hv' : r'.state ≠ .violated) (hc' : r'.state ≠ .corrupt) :
    RecordQuiet r r' where
  fixed := hf
  fits := by simp only [Record.fits, hf, hl, hs, imp_self]
  corrupt := by simp only [hc, hc']
  contributes := fun l => by simp only [Record.contributes, hv, hc, hv', hc', false_and, or_false]

/-! ## One record -/

/-- The record of every slot after an edit of one. -/
theorem State.recordAt_edited {r : Record} {f : Record → Record} (hr : s.recordAt i = some r)
    (hslots : t.slots = (s.mapRecord i f).slots) (j : SlotIx) :
    t.recordAt j = if j = i then some (f r) else s.recordAt j := by
  rw [State.recordAt_congr hslots j]
  split
  · rename_i h; subst h; simp [hr]
  · rename_i h; exact State.mapRecord_recordAt_ne _ _ _ h

/-- One record is edited, and its slot joins and leaves lines as the edit makes it contribute. -/
theorem Follows.retrip {r : Record} {f : Record → Record} (hr : s.recordAt i = some r)
    (hslots : t.slots = (s.mapRecord i f).slots) (hbases : t.bases = s.bases) (hpins : t.pins = s.pins)
    (hnot : t.notices = s.notices) (hf : RecordFollows r (f r))
    (others : ∀ (l : LineIx) (j : SlotIx), j ≠ i → (j ∈ (t.trips[l.val]'l.isLt).contributors ↔ j ∈ (s.trips[l.val]'l.isLt).contributors))
    (own : ∀ l : LineIx, (i ∈ (s.trips[l.val]'l.isLt).contributors ↔ r.contributes l) →
      (i ∈ (t.trips[l.val]'l.isLt).contributors ↔ (f r).contributes l)) : Follows s t where
  owners := by simp only [State.owners, hnot, List.prefix_refl]
  limitsFit := fun h j q hq => by
    rw [State.recordAt_edited hr hslots] at hq
    split at hq
    · cases hq; exact hf.fits (h i r hr)
    · exact h j q hq
  contributors := fun h l j => by
    rw [State.recordAt_edited hr hslots]
    split
    · rename_i e
      subst e
      simpa using own l ((h l j).trans (by simp [hr]))
    · rename_i e
      exact (others l j e).trans (h l j)
  subscribers := fun ⟨hb, hp⟩ => by
    refine ⟨fun b j => ?_, fun p j => ?_⟩
    · rw [hbases, hb b j, State.recordAt_edited hr hslots]
      split
      · rename_i e; subst e; simp [hr, hf.fixed, hf.corrupt]
      · rfl
    · rw [hpins, hp p j, State.recordAt_edited hr hslots]
      split
      · rename_i e; subst e; simp [hr, hf.fixed, hf.corrupt]
      · rfl

/-- An edit of one record that belongs to the same lines after it. -/
theorem Follows.mapRecord {f : Record → Record} (h : ∀ r, s.recordAt i = some r → RecordQuiet r (f r)) :
    Follows s (s.mapRecord i f) := by
  cases hr : s.recordAt i with
  | none => rw [State.mapRecord_of_none f hr]; exact .refl s
  | some r =>
    have q := h r hr
    exact .retrip hr rfl (by simp) (by simp) (by simp) q.toRecordFollows (fun l j _ => by simp)
      (fun l hl => by simpa using hl.trans (q.contributes l).symm)

theorem Follows.withdraw (l : List Observation) : Follows s { s with observations := l } :=
  ⟨List.prefix_refl _, id, id, id⟩

theorem Follows.abandon (i : SlotIx) : Follows s (s.abandon i) :=
  (Follows.withdraw _).trans (.mapRecord fun _ _ => .of_eq rfl rfl rfl rfl)

theorem Follows.unfreeze (i : SlotIx) : Follows s (s.unfreeze i) :=
  .mapRecord fun _ _ => .of_eq rfl rfl rfl rfl

/-! ## Postings -/

/-- Adding a kind keeps the owners in order, with a new one at the tail. -/
theorem owners_addContractKinds (i : SlotIx) (g : Byte) (k : BitVec 7) (q : List NoticeEntry) :
    q.map NoticeEntry.owner <+: (addContractKinds i g k q).map NoticeEntry.owner := by
  induction q with
  | nil => exact List.nil_prefix
  | cons a t ih =>
    cases a with
    | device ks => simpa [addContractKinds] using ih
    | contract j gj ks =>
      simp only [addContractKinds]
      split
      · exact List.prefix_refl _
      · simpa using ih

theorem owners_addDeviceKinds (k : BitVec 3) (q : List NoticeEntry) :
    q.map NoticeEntry.owner <+: (addDeviceKinds k q).map NoticeEntry.owner := by
  induction q with
  | nil => exact List.nil_prefix
  | cons a t ih =>
    cases a with
    | device ks => exact List.prefix_refl _
    | contract j gj ks => simpa [addDeviceKinds] using ih

theorem Follows.post (i : SlotIx) (k : NoticeKind) : Follows s (s.post i k) :=
  ⟨owners_addContractKinds _ _ _ _, id, id, id⟩

theorem Follows.postMasked (i : SlotIx) (k : NoticeKind) (mask : BitVec 3) : Follows s (s.postMasked i k mask) := by
  unfold State.postMasked
  split
  · exact .refl s
  · exact .post i k

theorem Follows.postDevice (k : DeviceKind) : Follows s (s.postDevice k) :=
  ⟨owners_addDeviceKinds _ _, id, id, id⟩

/-! ## Lines that follow a record -/

/-- A record that becomes VIOLATED or CORRUPT, with its slot joining the lines it then contributes to. -/
theorem Follows.joining {r : Record} {f : Record → Record} {mask : BitVec 4} (hr : s.recordAt i = some r)
    (hf : RecordFollows r (f r)) (before : ∀ l, ¬ r.contributes l)
    (after : ∀ l, (f r).contributes l ↔ mask.getLsbD l.val = true) : Follows s ((s.mapRecord i f).joinMask i mask) := by
  refine .retrip hr (by simp) (by simp) (by simp) (by simp) hf (fun l j hj => ?_) (fun l hl => ?_)
  · rw [State.joinMask_line]; split <;> simp [hj]
  · have out := hl.not.2 (before l)
    rw [State.joinMask_line, after]; split <;> simp_all

/-- A VIOLATED record that ends its violation, with its slot leaving the lines of its mask. -/
theorem Follows.leaving {r : Record} {f : Record → Record} (hr : s.recordAt i = some r)
    (hslots : t.slots = (s.mapRecord i f).slots) (hbases : t.bases = s.bases) (hpins : t.pins = s.pins)
    (hnot : t.notices = s.notices) (hf : RecordFollows r (f r))
    (hline : ∀ l : LineIx, t.trips[l.val]'l.isLt = if r.limits.tripMask.getLsbD l.val then (s.trips[l.val]'l.isLt).leave i else s.trips[l.val]'l.isLt)
    (hv : r.state = .violated) (after : ∀ l, ¬ (f r).contributes l) : Follows s t := by
  refine .retrip hr hslots hbases hpins hnot hf (fun l j hj => ?_) (fun l hl => ?_)
  · rw [hline]; split <;> simp [hj]
  · rw [hline]
    simp only [after l, iff_false]
    split
    · simp
    · rw [hl]; simp_all [Record.contributes]

/-- New limits in force for a VIOLATED record, with its lines changed to the new mask. -/
theorem Follows.remask {r : Record} {f : Record → Record} (hr : s.recordAt i = some r)
    (hslots : t.slots = (s.mapRecord i f).slots) (hbases : t.bases = s.bases) (hpins : t.pins = s.pins)
    (hnot : t.notices = s.notices) (htrips : t.trips = s.trips) (hf : RecordFollows r (f r))
    (hv : r.state = .violated) (hv' : (f r).state = .violated) :
    Follows s (t.changeMask i r.limits.tripMask (f r).limits.tripMask) := by
  refine .retrip hr (by simpa using hslots) (by simpa using hbases) (by simpa using hpins) (by simpa using hnot) hf
    (fun l j hj => ?_) (fun l hl => ?_)
  · rw [State.changeMask_line, htrips]; repeat' split
    all_goals simp [hj]
  · simp only [Record.contributes, hv, hv', true_and, reduceCtorEq, or_false] at hl ⊢
    rw [State.changeMask_line, htrips]
    cases ho : r.limits.tripMask.getLsbD l.val <;> cases (f r).limits.tripMask.getLsbD l.val <;> rw [ho] at hl <;> simp [hl]

/-! ## The shared operations -/

theorem Record.not_contributes {r : Record} (hv : r.state ≠ .violated) (hc : r.state ≠ .corrupt) (l : LineIx) :
    ¬ r.contributes l := by simp [Record.contributes, hv, hc]

/-- The edit that puts new limits in force. -/
theorem RecordFollows.recode {r : Record} {a : Limits} {st : Option Limits} {g : Byte}
    (ha : r.fits → a.fit r.fixed.kind r.fixed.oneshot)
    (hs : r.fits → ∀ b, st = some b → b.fit r.fixed.kind r.fixed.oneshot) :
    RecordFollows r (({ r with limits := a, staged := st } : Record).recode g) :=
  ⟨rfl, fun h => ⟨h.1, ha h, hs h⟩, Iff.rfl⟩

theorem Follows.putInForce {r : Record} {a : Limits} (hr : s.recordAt i = some r)
    (ha : r.fits → a.fit r.fixed.kind r.fixed.oneshot) (hv : r.state ≠ .violated) (g : Byte) :
    Follows s (s.mapRecord i (fun r => ({ r with limits := a, staged := none } : Record).recode g)) := by
  refine .mapRecord fun q hq => ?_
  rw [hr] at hq; cases hq
  exact { RecordFollows.recode (g := g) ha (by simp) with
    contributes := fun l => by simp [Record.contributes, Record.recode, hv] }

theorem Follows.applyStaged (i : SlotIx) : Follows s (s.applyStaged i) := by
  unfold State.applyStaged
  cases hr : s.recordAt i with
  | none => exact .refl s
  | some r =>
    cases hs : r.staged with
    | none => simp only [hs]; exact .refl s
    | some a =>
      simp only [hs]
      have ha : r.fits → a.fit r.fixed.kind r.fixed.oneshot := fun h => h.2.2 a hs
      split
      · rename_i hv
        exact Follows.remask (f := fun r => ({ r with limits := a, staged := none } : Record).recode (s.slots[i]'i.isLt).generation)
          hr rfl (by simp) (by simp) (by simp) (by simp) (.recode ha (by simp)) hv hv
      · rename_i hv
        exact .putInForce hr ha hv _

theorem Follows.setAside {r : Record} (hr : s.recordAt i = some r) (ho : isOpen r.state = true) {target : ContractState}
    (ht : isBlocked target = true) : Follows s (s.setAside i target) := by
  obtain ⟨hv, _, hc⟩ := isOpen_not_settled ho
  obtain ⟨hv', _, hc'⟩ := isBlocked_not_settled ht
  have aside : ∀ (u : State) (q : Record), u.recordAt i = some q → q.state = r.state →
      Follows u (u.mapRecord i (fun r => { r with state := target })) := by
    intro u q hq hst
    refine .mapRecord fun q' hq' => ?_
    rw [hq] at hq'; cases hq'
    exact .of_state rfl rfl rfl (hst ▸ hv) (hst ▸ hc) hv' hc'
  have own : Follows s ((if isMeasuring r.state = true then (s.abandon i).mapRecord i (fun r => { r with strikes := 0 })
      else s).mapRecord i (fun r => { r with state := target })) := by
    split
    · have strikes : Follows (s.abandon i) ((s.abandon i).mapRecord i (fun r => { r with strikes := 0 })) :=
        .mapRecord fun _ _ => .of_eq rfl rfl rfl rfl
      exact ((Follows.abandon i).trans strikes).trans
        (aside _ { r with context := Context.initial, strikes := 0 } (by simp [hr]) rfl)
    · exact aside s r hr rfl
  unfold State.setAside
  simp only [hr]
  split
  · exact own
  · exact own.trans (.postMasked _ _ _)

theorem Follows.setAsideDependent {below : State → SlotIx → State} (hb : ∀ s d, Follows s (below s d)) (d : SlotIx) :
    Follows s (s.setAsideDependent below d) := by
  unfold State.setAsideDependent
  cases hr : s.recordAt d with
  | none => exact .refl s
  | some r =>
    dsimp only
    split
    · rename_i hm
      have h1 : Follows s (s.setAside d .dormant) := .setAside hr (isMeasuring_isOpen hm) rfl
      split
      · exact h1.trans (hb _ _)
      · exact h1
    · split
      · exact .abandon d
      · exact .refl s

theorem Follows.cascadeDown (fuel : ℕ) (i : SlotIx) : Follows s (s.cascadeDown fuel i) := by
  induction fuel generalizing s i with
  | zero => exact .refl s
  | succ n ih =>
    refine .foldl (fun s d => ?_) _ s
    split
    · exact .setAsideDependent (fun s d => ih d) d
    · exact .refl s

theorem Follows.becameUnhealthy (before : ContractState) (i : SlotIx) : Follows s (s.becameUnhealthy before i) := by
  unfold State.becameUnhealthy; split
  · exact .cascadeDown 64 i
  · exact .refl s

theorem Follows.enterBlocked {r : Record} (hr : s.recordAt i = some r) (ho : isOpen r.state = true)
    {target : ContractState} (ht : isBlocked target = true) : Follows s (s.enterBlocked i target) := by
  unfold State.enterBlocked
  simp only [hr]
  exact (Follows.setAside hr ho ht).trans (.becameUnhealthy _ _)

theorem Follows.rearm {r : Record} (hr : s.recordAt i = some r) (ho : isOpen r.state = true) : Follows s (s.rearm i) := by
  refine (Follows.applyStaged i).trans (.mapRecord fun q hq => ?_)
  rw [State.applyStaged_recordAt hr] at hq
  have hst : q.state = r.state := by cases hq; cases r.staged <;> rfl
  obtain ⟨hv, _, hc⟩ := isOpen_not_settled ho
  exact .of_state rfl rfl rfl (hst ▸ hv) (hst ▸ hc) (by simp) (by simp)

theorem Follows.enterArming {r : Record} (hr : s.recordAt i = some r) (ho : isOpen r.state = true) :
    Follows s (s.enterArming i) := by
  unfold State.enterArming
  simp only [hr]
  exact (Follows.rearm hr ho).trans (.becameUnhealthy _ _)

theorem Follows.recompute (i : SlotIx) : Follows s (s.recompute i) := by
  unfold State.recompute
  cases hr : s.recordAt i with
  | none => exact .refl s
  | some r =>
    dsimp only
    split
    · rename_i ho
      split
      · split
        · exact .refl s
        · exact .enterArming hr ho
      · split
        · exact .refl s
        · rename_i hna _
          exact .enterBlocked hr ho ((s.blockingResult_cases r).resolve_left hna)
    · exact .refl s

theorem Follows.takeUpDependent (d : SlotIx) : Follows s (s.takeUpDependent d) := by
  unfold State.takeUpDependent
  cases hr : s.recordAt d with
  | none => exact .refl s
  | some r =>
    dsimp only
    split
    · exact .recompute d
    · split
      · exact .unfreeze d
      · exact .refl s

theorem Follows.cascadeUp (i : SlotIx) : Follows s (s.cascadeUp i) :=
  .foldl (fun s d => by split; exacts [.takeUpDependent d, .refl s]) _ s

theorem Follows.becameHealthy (before : ContractState) (i : SlotIx) : Follows s (s.becameHealthy before i) := by
  unfold State.becameHealthy; split
  · exact .refl s
  · exact .cascadeUp i

theorem Follows.stopSubscriber (i : SlotIx) : Follows s (s.stopSubscriber i) := by
  unfold State.stopSubscriber
  cases hr : s.recordAt i with
  | none => exact .refl s
  | some r =>
    dsimp only
    split
    · exact .recompute i
    · split
      · exact .abandon i
      · exact .refl s

theorem Follows.runSubscriber (i : SlotIx) : Follows s (s.runSubscriber i) := by
  unfold State.runSubscriber
  cases hr : s.recordAt i with
  | none => exact .refl s
  | some r =>
    dsimp only
    split
    · exact .recompute i
    · split
      · exact .unfreeze i
      · exact .refl s

theorem Follows.stopNotice (named : BaseIx → Bool) : Follows s (s.stopNotice named) :=
  .foldl (fun _ i => .stopSubscriber i) _ s

theorem Follows.runNotice (named : BaseIx → Bool) : Follows s (s.runNotice named) :=
  .foldl (fun _ i => .runSubscriber i) _ s

/-! ## Judgement -/

theorem Follows.recordObservation (d : Verdict) (o : Observation) : Follows s (s.recordObservation i d o) :=
  .mapRecord fun _ _ => .of_eq rfl rfl rfl rfl

theorem Follows.enterConforming {r : Record} (hr : s.recordAt i = some r) (ho : isMeasuring r.state = true)
    (before : ContractState) : Follows s (s.enterConforming i before) := by
  obtain ⟨hv, _, hc⟩ := isMeasuring_not_settled ho
  refine Follows.trans (.mapRecord fun q hq => ?_) (.becameHealthy _ _)
  rw [hr] at hq; cases hq
  exact .of_state rfl rfl rfl hv hc (by simp) (by simp)

theorem Follows.enterSuspect {r : Record} (hr : s.recordAt i = some r) (ho : isMeasuring r.state = true)
    (before : ContractState) (mask : BitVec 3) : Follows s (s.enterSuspect i before mask) := by
  obtain ⟨hv, _, hc⟩ := isMeasuring_not_settled ho
  refine (Follows.trans (.mapRecord fun q hq => ?_) (.postMasked _ _ _)).trans (.becameHealthy _ _)
  rw [hr] at hq; cases hq
  exact .of_state rfl rfl rfl hv hc (by simp) (by simp)

theorem Follows.enterViolated {r : Record} (hr : s.recordAt i = some r) (ho : isMeasuring r.state = true)
    (before : ContractState) : Follows s (s.enterViolated i before r.limits.tripMask) := by
  obtain ⟨hv, _, hc⟩ := isMeasuring_not_settled ho
  refine ((Follows.joining hr ⟨rfl, id, by simp [hc]⟩ (Record.not_contributes hv hc) fun l => ?_).trans (.post _ _)).trans
    (.becameUnhealthy _ _)
  simp [Record.contributes]

theorem Follows.recover {r : Record} (hr : s.recordAt i = some r) (hv : r.state = .violated) :
    Follows s (s.recover i r.limits) := by
  refine (Follows.trans ?_ (.postMasked _ _ _)).trans (.becameHealthy _ _)
  exact .leaving (f := fun r => { r with state := .conforming, strikes := 0, recoveryRun := 0 }) hr (by simp only [State.leaveMask_slots]) (by simp) (by simp) (by simp) ⟨rfl, id, by simp [hv]⟩
    (fun l => by rw [State.leaveMask_line, State.mapRecord_trips]) hv (Record.not_contributes (by simp) (by simp))

theorem Follows.setRecovered (a : Limits) : Follows s (s.setRecovered i a) := by
  have flag : Follows s (s.mapRecord i (fun r => { r with recovered := true, recoveryRun := 0 })) :=
    .mapRecord fun _ _ => .of_eq rfl rfl rfl rfl
  exact flag.trans (.postMasked _ _ _)

theorem Follows.enterDone {r : Record} (hr : s.recordAt i = some r) (ha : r.state = .arming) :
    Follows s (s.enterDone i) := by
  refine ((Follows.abandon i).trans (.mapRecord fun q hq => ?_)).trans (.post _ _)
  simp only [State.abandon_recordAt, hr, Option.map_some, Option.some.injEq] at hq
  subst hq
  exact .of_state rfl rfl rfl (by simp [ha]) (by simp [ha]) (by simp) (by simp)

theorem Follows.firstStrike {r : Record} (hr : s.recordAt i = some r) (ho : isMeasuring r.state = true) :
    Follows s (s.firstStrike i r) := by
  unfold State.firstStrike
  split
  · exact .enterSuspect hr ho _ _
  · exact .enterViolated hr ho _

theorem Follows.judgeViolated {r : Record} (hr : s.recordAt i = some r) (hv : r.state = .violated) (d : Verdict)
    (band : Bool) : Follows s (s.judgeViolated i r d band) := by
  unfold State.judgeViolated
  split
  · exact .mapRecord fun _ _ => .of_eq rfl rfl rfl rfl
  · split
    · exact .mapRecord fun _ _ => .of_eq rfl rfl rfl rfl
    · split
      · exact .refl s
      · split
        · exact .mapRecord fun _ _ => .of_eq rfl rfl rfl rfl
        · split
          · exact .setRecovered _
          · exact .recover hr hv

theorem Follows.applyStateRule {r : Record} (hr : s.recordAt i = some r) (d : Verdict) (band : Bool) :
    Follows s (s.applyStateRule i r d band) := by
  unfold State.applyStateRule
  cases hs : r.state with
  | arming =>
    dsimp only
    have ho : isMeasuring r.state = true := by simp [hs, isMeasuring]
    split
    · exact .enterDone hr hs
    · split
      · exact .enterConforming hr ho _
      · exact .firstStrike hr ho
  | conforming =>
    dsimp only
    split
    · exact .refl s
    · exact .firstStrike hr (by simp [hs, isMeasuring])
  | suspect =>
    dsimp only
    have ho : isMeasuring r.state = true := by simp [hs, isMeasuring]
    split
    · exact .enterConforming hr ho _
    · split
      · exact .enterViolated hr ho _
      · exact .mapRecord fun _ _ => .of_eq rfl rfl rfl rfl
  | violated => exact .judgeViolated hr hs _ _
  | suspended => exact .refl s
  | held => exact .refl s
  | dormant => exact .refl s
  | done => exact .refl s
  | corrupt => exact .refl s

theorem Follows.judge (o : Observation) : Follows s (s.judge i o) := by
  unfold State.judge
  dsimp only
  split
  · exact .applyStaged i
  · split
    · exact (Follows.applyStaged i).trans (.recordObservation _ _)
    · rename_i hr
      exact ((Follows.applyStaged i).trans (.recordObservation _ _)).trans (.applyStateRule hr _ _)

theorem Follows.takeObservation (o : Observation) : Follows s (s.takeObservation o) := by
  unfold State.takeObservation
  cases s.contractAt o.handle with
  | none => exact .refl s
  | some r =>
    dsimp only
    split
    · exact .refl s
    · split
      · exact .mapRecord fun _ _ => .of_eq rfl rfl rfl rfl
      · exact .judge o

/-! ## Commands on one contract -/

theorem Follows.setSuspended (b : Bool) : Follows s (s.mapRecord i (fun r => { r with suspended := b })) :=
  .mapRecord fun _ _ => .of_eq rfl rfl rfl rfl

theorem Follows.restartRecovery (r : Record) : Follows s (s.restartRecovery i r) := by
  have h2 : ∀ t : State, Follows t (t.mapRecord i (fun r => { r with recoveryRun := 0 })) := fun t =>
    .mapRecord fun _ _ => .of_eq rfl rfl rfl rfl
  unfold State.restartRecovery
  split
  · exact h2 s
  · exact (Follows.abandon i).trans (h2 _)

theorem Follows.stage {r : Record} (hr : s.recordAt i = some r) {a : Limits}
    (ha : a.fit r.fixed.kind r.fixed.oneshot) : Follows s (s.stage i a) := by
  refine .mapRecord fun q hq => ?_
  rw [hr] at hq; cases hq
  exact { RecordFollows.recode (a := r.limits) (g := (s.slots[i]'i.isLt).generation) (fun h => h.2.1)
      (fun _ b hb => by cases hb; exact ha) with contributes := fun l => Iff.rfl }

theorem State.mapRecord_slots_congr (h : t.slots = s.slots) (i : SlotIx) (f : Record → Record) :
    (t.mapRecord i f).slots = (s.mapRecord i f).slots := by
  unfold State.mapRecord
  rw [h]
  cases (s.slots[i]'i.isLt).body <;> simp [State.setSlot, h]

/-- The record after the restart of a recovery. -/
def Record.restarted (s : State) (r q : Record) : Record :=
  { q with context := if s.frozen r then q.context else Context.initial, recoveryRun := 0 }

theorem State.restartRecovery_slots (s : State) (i : SlotIx) (r : Record) :
    (s.restartRecovery i r).slots = (s.mapRecord i (Record.restarted s r)).slots := by
  unfold State.restartRecovery Record.restarted
  split
  · simp [*]
  · simp only [State.abandon, State.mapRecord_mapRecord, *]
    apply State.mapRecord_slots_congr
    rfl

@[simp] theorem State.restartRecovery_bases (s : State) (i : SlotIx) (r : Record) : (s.restartRecovery i r).bases = s.bases := by
  unfold State.restartRecovery; split <;> simp
@[simp] theorem State.restartRecovery_pins (s : State) (i : SlotIx) (r : Record) : (s.restartRecovery i r).pins = s.pins := by
  unfold State.restartRecovery; split <;> simp
@[simp] theorem State.restartRecovery_trips (s : State) (i : SlotIx) (r : Record) : (s.restartRecovery i r).trips = s.trips := by
  unfold State.restartRecovery; split <;> simp
@[simp] theorem State.restartRecovery_notices (s : State) (i : SlotIx) (r : Record) :
    (s.restartRecovery i r).notices = s.notices := by
  unfold State.restartRecovery; split <;> simp

/-- The restart of a VIOLATED contract's recovery under new limits, its lines then changed to the new mask. -/
theorem Follows.restartUnder {r : Record} (hr : s.recordAt i = some r) {a : Limits}
    (ha : a.fit r.fixed.kind r.fixed.oneshot) (hv : r.state = .violated) (g : Byte) :
    Follows s (((s.mapRecord i (fun r => ({ r with limits := a, staged := none } : Record).recode g)).restartRecovery i r).changeMask
      i r.limits.tripMask a.tripMask) := by
  let s1 : State := s.mapRecord i (fun r => ({ r with limits := a, staged := none } : Record).recode g)
  refine Follows.remask (s := s) (f := fun q => Record.restarted s1 r (({ q with limits := a, staged := none } : Record).recode g))
    hr ?_ (by simp) (by simp) (by simp) (by simp)
    ⟨rfl, fun h => ⟨h.1, ha, by simp [Record.restarted, Record.recode]⟩, Iff.rfl⟩ hv hv
  rw [State.restartRecovery_slots, State.mapRecord_mapRecord]

theorem Follows.amendNow {r : Record} (hr : s.recordAt i = some r) {a : Limits}
    (ha : a.fit r.fixed.kind r.fixed.oneshot) : Follows s (s.amendNow i r a) := by
  unfold State.amendNow
  dsimp only
  split
  · rename_i hm
    refine ((Follows.putInForce hr (fun _ => ha) (isMeasuring_not_settled hm).1 _).trans (.abandon i)).trans
      (.enterArming (r := _) (by simp [hr]; rfl) ?_)
    exact isMeasuring_isOpen hm
  · split
    · rename_i hv
      exact .restartUnder hr ha hv _
    · rename_i hv
      exact .putInForce hr (fun _ => ha) hv _

theorem Follows.clearToConforming {r : Record} (hr : s.recordAt i = some r) (hv : r.state = .violated) :
    Follows s (s.clearToConforming i r.limits) := by
  refine Follows.trans ?_ (.becameHealthy _ _)
  exact .leaving (f := fun r => { r with state := .conforming, recovered := false, recoveryRun := 0, strikes := 0 }) hr
    (by simp only [State.leaveMask_slots]) (by simp) (by simp) (by simp) ⟨rfl, id, by simp [hv]⟩
    (fun l => by rw [State.leaveMask_line, State.mapRecord_trips]) hv (Record.not_contributes (by simp) (by simp))

/-- A VIOLATED contract that is set aside has no measurement in a measuring state to abandon and no healthy state to lose. -/
theorem State.enterBlocked_of_violated {r : Record} (hr : s.recordAt i = some r) (hv : r.state = .violated)
    (target : ContractState) :
    s.enterBlocked i target =
      if target = .suspended then s.mapRecord i (fun r => { r with state := target })
      else (s.mapRecord i (fun r => { r with state := target })).postMasked i .blocked r.limits.noticeMask := by
  simp [State.enterBlocked, State.setAside, State.becameUnhealthy, hr, hv, isMeasuring, isHealthy]

theorem Follows.clearFrozen {r : Record} (hr : s.recordAt i = some r) (hv : r.state = .violated) :
    Follows s (s.clearFrozen i r) := by
  have aside : ∀ target : ContractState, isBlocked target = true →
      Follows s (((s.mapRecord i (fun r => { r with recovered := false, recoveryRun := 0 })).leaveMask i
        r.limits.tripMask).mapRecord i (fun r => { r with state := target })) := by
    intro target ht
    obtain ⟨hv', _, hc'⟩ := isBlocked_not_settled ht
    refine .leaving (f := fun r => { r with recovered := false, recoveryRun := 0, state := target }) hr ?_
      (by simp) (by simp) (by simp) ⟨rfl, id, by simp [hv, hc']⟩
      (fun l => by rw [State.mapRecord_trips, State.leaveMask_line, State.mapRecord_trips]) hv
      (Record.not_contributes hv' hc')
    rw [State.mapRecord_slots_congr (State.leaveMask_slots _ _ _), State.mapRecord_mapRecord]
  unfold State.clearFrozen
  dsimp only
  rw [State.enterBlocked_of_violated (r := { r with recovered := false, recoveryRun := 0 }) (by simp [hr]) hv]
  split
  · exact (aside .dormant rfl).trans (.postMasked _ _ _)
  · exact (aside .held rfl).trans (.postMasked _ _ _)

theorem Follows.restartMember (i : SlotIx) : Follows s (s.restartMember i) := by
  unfold State.restartMember
  cases hr : s.recordAt i with
  | none => exact .refl s
  | some r =>
    dsimp only
    split
    · rename_i hm
      exact (Follows.abandon i).trans
        (.enterArming (r := { r with context := Context.initial }) (by simp [hr]) (isMeasuring_isOpen hm))
    · split
      · exact .restartRecovery r
      · exact .refl s

end Sys2Proof.Machine
end

