-- ==== Sys2Proof/Proofs/Work.lean ====
section
set_option Elab.async false
/-! PROOFS. `Work`: what every step keeps but for CREATE, RETIRE, WIPE_TABLE, ACK_NOTICE, RELEASE_TRIP, an entry into CORRUPT, a
change in storage and the resets. The slots stay FREE, DRAINING or LIVE with their fixed fields, flags that are set stay set, entries
only join the notice queue, and what is sound of the bases and of the sets stays so. -/

namespace Sys2Proof.Machine

variable {m : SlotIx → Prop} {s t u : State} {i : SlotIx}

/-! ## One slot -/

/-- What a step of that sort keeps of a record. `m` says that it may end a VIOLATED or DONE state. -/
structure RecordWorked (m : Prop) (g : Byte) (r r' : Record) : Prop where
  fixed : r'.fixed = r.fixed
  dependents : r'.dependents = r.dependents
  code : r.checkCode = r.freshCode g → r'.checkCode = r'.freshCode g
  bounded : r.bounded → r'.bounded
  settled : ¬m → (r.state = .violated ∨ r.state = .done) → r'.state = r.state
  corrupt : r.state = .corrupt → r'.state = .corrupt
  fit : r.context.fit r.fixed.kind → r'.context.fit r'.fixed.kind

theorem RecordWorked.of_kept {m : Prop} {g : Byte} {r r' : Record} (h : RecordKept m g r r') : RecordWorked m g r r' where
  fixed := h.fixed
  dependents := h.dependents
  code := h.code
  bounded := h.bounded
  settled := h.settled
  corrupt := h.corrupt
  fit := fun hf => by
    rcases h.measurement with e | e
    · rw [e, h.fixed]; exact hf
    · rw [e]; exact Context.initial_fit _

/-- A context that has advanced within its bounds and its kind. -/
theorem RecordWorked.of_context (m : Prop) (g : Byte) (r : Record) {x : Context} (hb : r.context.bounded → x.bounded)
    (hf : r.context.fit r.fixed.kind → x.fit r.fixed.kind) : RecordWorked m g r { r with context := x } where
  fixed := rfl
  dependents := rfl
  code := id
  bounded := fun ⟨h1, h2, h3, h4, h5, ⟨h6, h6'⟩, h7⟩ => ⟨h1, h2, h3, h4, h5, ⟨h6, hb h6'⟩, h7⟩
  settled := fun _ _ => rfl
  corrupt := id
  fit := hf

theorem RecordWorked.trans {m : Prop} {g : Byte} {a b c : Record} (h : RecordWorked m g a b) (k : RecordWorked m g b c) :
    RecordWorked m g a c where
  fixed := k.fixed.trans h.fixed
  dependents := k.dependents.trans h.dependents
  code := k.code ∘ h.code
  bounded := k.bounded ∘ h.bounded
  settled := fun hm hs => by
    have e := h.settled hm hs
    rw [k.settled hm (by rw [e]; exact hs), e]
  corrupt := k.corrupt ∘ h.corrupt
  fit := k.fit ∘ h.fit

/-- What a step of that sort does to a slot: its generation stands, and it stays FREE, DRAINING or LIVE. -/
inductive SlotWorked (m : Prop) : Slot → Slot → Prop
  | free (g : Byte) : SlotWorked m ⟨g, .free⟩ ⟨g, .free⟩
  | draining (g : Byte) : SlotWorked m ⟨g, .draining⟩ ⟨g, .draining⟩
  | live (g : Byte) {r r' : Record} (h : RecordWorked m g r r') : SlotWorked m ⟨g, .live r⟩ ⟨g, .live r'⟩

theorem SlotWorked.of_kept {m : Prop} {x y : Slot} (h : SlotKept m x y) : SlotWorked m x y := by
  cases h with
  | free g => exact .free g
  | draining g => exact .draining g
  | live g hk => exact .live g (.of_kept hk)

theorem SlotWorked.refl (m : Prop) (x : Slot) : SlotWorked m x x := .of_kept (.refl m x)

theorem SlotWorked.trans {m : Prop} {x y z : Slot} (h : SlotWorked m x y) (k : SlotWorked m y z) : SlotWorked m x z := by
  cases h with
  | free g => exact k
  | draining g => exact k
  | live g hr => cases k with | live _ hk => exact .live g (hr.trans hk)

theorem SlotWorked.generation {m : Prop} {x y : Slot} (h : SlotWorked m x y) : y.generation = x.generation := by
  cases h <;> rfl

theorem SlotWorked.isLive {m : Prop} {x y : Slot} (h : SlotWorked m x y) : y.body.isLive = x.body.isLive := by
  cases h <;> rfl

theorem SlotWorked.free_iff {m : Prop} {x y : Slot} (h : SlotWorked m x y) : y.body = .free ↔ x.body = .free := by
  cases h <;> simp

theorem SlotWorked.draining_iff {m : Prop} {x y : Slot} (h : SlotWorked m x y) : y.body = .draining ↔ x.body = .draining := by
  cases h <;> simp

/-! ## The relation -/

/-- What a step of that sort keeps of a line: the flags that are set, and the canonical form of its set. -/
structure LineWorked (t t' : TripLine) : Prop where
  held : t.held = true → t'.held = true
  forced : t.forced = true → t'.forced = true
  canonical : SlotSet.Canonical t.contributors → SlotSet.Canonical t'.contributors

/-- What a step of that sort keeps of the notice queue: one entry for each owner, none of them empty, none leaving, and only LIVE
slots gaining one. -/
structure NoticesWorked (live : SlotIx → Prop) (q q' : List NoticeEntry) : Prop where
  differ : q.Pairwise NoticeEntry.differ → q'.Pairwise NoticeEntry.differ
  nonempty : (∀ e ∈ q, e.nonempty) → ∀ e ∈ q', e.nonempty
  stays : ∀ i, q.any (NoticeEntry.isOf i) = true → q'.any (NoticeEntry.isOf i) = true
  joins : ∀ i, q'.any (NoticeEntry.isOf i) = true → q.any (NoticeEntry.isOf i) = true ∨ live i

theorem NoticesWorked.trans {live : SlotIx → Prop} {a b c : List NoticeEntry} (h : NoticesWorked live a b)
    (k : NoticesWorked live b c) : NoticesWorked live a c :=
  ⟨k.differ ∘ h.differ, k.nonempty ∘ h.nonempty, fun i hi => k.stays i (h.stays i hi),
   fun i hi => (k.joins i hi).elim (h.joins i) .inr⟩

/-- What every ordinary step keeps. It says nothing of the scrubber and the pending observations. -/
structure Work (m : SlotIx → Prop) (s t : State) : Prop where
  port : t.port = s.port
  supply : s.supply = .inRange → t.supply = .inRange
  inReset : t.inReset = s.inReset
  pending : t.pending = s.pending
  slot : ∀ i : SlotIx, SlotWorked (m i) (s.slots[i.val]'i.isLt) (t.slots[i.val]'i.isLt)
  baseSet : ∀ b : BaseIx, (t.bases[b.val]'b.isLt).subscribers = (s.bases[b.val]'b.isLt).subscribers
  pinSet : ∀ p : PinIx, (t.pins[p.val]'p.isLt).subscribers = (s.pins[p.val]'p.isLt).subscribers
  line : ∀ l : LineIx, LineWorked (s.trips[l.val]'l.isLt) (t.trips[l.val]'l.isLt)
  notices : NoticesWorked s.liveAt s.notices t.notices
  entries : ∀ (i : SlotIx) (g : Byte) (ks : BitVec 7), .contract i g ks ∈ t.notices →
    (∃ ks0, .contract i g ks0 ∈ s.notices) ∨ g = (s.slots[i.val]'i.isLt).generation
  follows : Follows s t
  timing : s.basesSound → s.checkerSound → t.basesSound ∧ t.checkerSound

theorem Work.liveAt (h : Work m s t) : t.liveAt = s.liveAt := by
  funext i
  rw [State.liveAt_iff, State.liveAt_iff, (h.slot i).isLive]

theorem Work.trans (h : Work m s t) (k : Work m t u) : Work m s u where
  port := k.port.trans h.port
  supply := k.supply ∘ h.supply
  inReset := k.inReset.trans h.inReset
  pending := k.pending.trans h.pending
  slot := fun i => (h.slot i).trans (k.slot i)
  baseSet := fun b => (k.baseSet b).trans (h.baseSet b)
  pinSet := fun p => (k.pinSet p).trans (h.pinSet p)
  line := fun l => ⟨(k.line l).held ∘ (h.line l).held, (k.line l).forced ∘ (h.line l).forced,
    (k.line l).canonical ∘ (h.line l).canonical⟩
  notices := h.notices.trans (h.liveAt ▸ k.notices)
  entries := fun i g ks hm => by
    rcases k.entries i g ks hm with ⟨ks0, h0⟩ | hg
    · exact h.entries i g ks0 h0
    · exact .inr (hg.trans (h.slot i).generation)
  follows := h.follows.trans k.follows
  timing := fun hb hc => (h.timing hb hc).elim k.timing

/-- An operation over contracts. -/
theorem Work.ofTable (h : TableFrame m s t) (k : Follows s t) : Work m s t where
  port := h.port
  supply := fun e => h.supply.trans e
  inReset := h.inReset
  pending := h.pending
  slot := fun i => .of_kept (h.slot i)
  baseSet := fun b => by rw [h.bases]
  pinSet := fun p => by rw [h.pins]
  line := fun l => ⟨(h.line l).held, fun hf => (h.line l).forced.trans hf, (h.line l).canonical⟩
  notices := ⟨h.notices.differ, h.notices.nonempty, h.notices.stays, h.notices.joins⟩
  entries := h.entries
  follows := k
  timing := fun hb hc => by
    simp only [State.basesSound, State.checkerSound, h.bases, h.ref, h.inReset]
    exact ⟨hb, hc⟩

theorem Work.refl (m : SlotIx → Prop) (s : State) : Work m s s := .ofTable (.refl m s) (.refl s)

/-- An edit of the bases, the pins, the lines' flags and the checker that leaves every set of slots as it is. -/
theorem Work.ofBlocks (hslots : t.slots = s.slots) (hnot : t.notices = s.notices) (hport : t.port = s.port)
    (hsup : t.supply = s.supply) (hres : t.inReset = s.inReset)
    (hpen : t.pending = s.pending) (hb : ∀ b : BaseIx, (t.bases[b.val]'b.isLt).subscribers = (s.bases[b.val]'b.isLt).subscribers)
    (hp : ∀ p : PinIx, (t.pins[p.val]'p.isLt).subscribers = (s.pins[p.val]'p.isLt).subscribers)
    (hl : ∀ l : LineIx, (t.trips[l.val]'l.isLt).contributors = (s.trips[l.val]'l.isLt).contributors ∧
      ((s.trips[l.val]'l.isLt).held = true → (t.trips[l.val]'l.isLt).held = true) ∧
      ((s.trips[l.val]'l.isLt).forced = true → (t.trips[l.val]'l.isLt).forced = true))
    (ht : s.basesSound → s.checkerSound → t.basesSound ∧ t.checkerSound) : Work m s t where
  port := hport
  supply := fun e => hsup.trans e
  inReset := hres
  pending := hpen
  slot := fun i => by rw [hslots]; exact .refl _ _
  baseSet := hb
  pinSet := hp
  line := fun l => ⟨(hl l).2.1, (hl l).2.2, fun h => (hl l).1 ▸ h⟩
  notices := by rw [hnot]; exact ⟨id, id, fun _ h => h, fun _ h => .inl h⟩
  entries := fun _ _ ks h => .inl ⟨ks, hnot ▸ h⟩
  follows :=
    { owners := by simp only [State.owners, hnot, List.prefix_refl]
      limitsFit := fun h i r hr => h i r (State.recordAt_congr hslots i ▸ hr)
      contributors := fun h l i => by
        simp only [Fin.getElem_fin, (hl l).1, State.recordAt_congr hslots]
        exact h l i
      subscribers := fun h => ⟨fun b i => by
          simp only [Fin.getElem_fin, hb, State.recordAt_congr hslots]
          exact h.1 b i,
        fun p i => by
          simp only [Fin.getElem_fin, hp, State.recordAt_congr hslots]
          exact h.2 p i⟩ }
  timing := ht

/-! ## The device entry -/

theorem addDeviceKinds_mem {i : SlotIx} {g : Byte} {ks : BitVec 7} {k : BitVec 3} {q : List NoticeEntry} :
    .contract i g ks ∈ addDeviceKinds k q ↔ .contract i g ks ∈ q := by
  induction q with
  | nil => simp [addDeviceKinds]
  | cons a t ih => cases a <;> simp [addDeviceKinds, ih]

theorem addDeviceKinds_any (i : SlotIx) (k : BitVec 3) (q : List NoticeEntry) :
    (addDeviceKinds k q).any (NoticeEntry.isOf i) = q.any (NoticeEntry.isOf i) := by
  induction q with
  | nil => rfl
  | cons a t ih => cases a <;> simp [addDeviceKinds, NoticeEntry.isOf, ih]

theorem addDeviceKinds_worked (live : SlotIx → Prop) {k : BitVec 3} (hk : k ≠ 0) (q : List NoticeEntry) :
    NoticesWorked live q (addDeviceKinds k q) where
  differ := fun hq => by
    induction q with
    | nil => simp [addDeviceKinds]
    | cons a t ih =>
      obtain ⟨ha, ht⟩ := List.pairwise_cons.1 hq
      cases a with
      | device ks => exact List.pairwise_cons.2 ⟨fun e he => by have := ha e he; cases e <;> exact this, ht⟩
      | contract j g ks =>
        refine List.pairwise_cons.2 ⟨fun e he => ?_, ih ht⟩
        cases e with
        | device _ => trivial
        | contract j' g' ks' => exact ha _ (addDeviceKinds_mem.1 he)
  nonempty := fun hq => by
    induction q with
    | nil => simpa [addDeviceKinds, NoticeEntry.nonempty] using hk
    | cons a t ih =>
      obtain ⟨ha, ht⟩ := List.forall_mem_cons.1 hq
      cases a with
      | device ks => exact List.forall_mem_cons.2 ⟨or_ne_zero ha, ht⟩
      | contract j g ks => exact List.forall_mem_cons.2 ⟨ha, ih ht⟩
  stays := fun i h => by rw [addDeviceKinds_any]; exact h
  joins := fun i h => .inl (by rwa [addDeviceKinds_any] at h)

theorem Work.postDevice (k : DeviceKind) : Work m s (s.postDevice k) :=
  { Work.refl m s with
    notices := addDeviceKinds_worked _ (deviceBit_ne_zero k) _
    entries := fun _ _ ks h => .inl ⟨ks, addDeviceKinds_mem.1 h⟩
    follows := .postDevice k
    timing := fun hb hc => ⟨hb, hc⟩ }

/-! ## The bases and the checker -/

/-- What is sound of one base under a supervision state. -/
def TimeBase.sound (v : Supervision) (x : TimeBase) : Prop :=
  16 ≤ x.modulus.toNat ∧
    (x.state = .running → v = .normal ∧ x.counter.toNat < x.modulus.toNat ∧ x.divider ≤ 2 ^ x.tap.val) ∧
    (x.state = .stalled → v ≠ .normal)

theorem State.basesSound_iff (s : State) : s.basesSound ↔ ∀ b : BaseIx, (s.bases[b.val]'b.isLt).sound s.ref.supervision := Iff.rfl

theorem State.basesSound_setBase (h : s.basesSound) {b : BaseIx} {x : TimeBase} (hx : x.sound s.ref.supervision) :
    (s.setBase b x).basesSound := by
  rw [State.basesSound_iff] at h ⊢
  intro c
  by_cases e : c = b
  · subst e; simpa using hx
  · simpa [State.setBase_get_ne, e] using h c

/-- An edit of one base that keeps its set. -/
theorem Work.setBase {b : BaseIx} {x : TimeBase} (hs : x.subscribers = (s.bases[b.val]'b.isLt).subscribers)
    (hx : (s.bases[b.val]'b.isLt).sound s.ref.supervision → x.sound s.ref.supervision) : Work m s (s.setBase b x) := by
  refine .ofBlocks rfl rfl rfl rfl rfl rfl (fun c => ?_) (fun _ => rfl) (fun _ => ⟨rfl, id, id⟩)
    (fun hb hc => ⟨State.basesSound_setBase hb (hx (hb b)), hc⟩)
  by_cases e : c = b
  · subst e; simpa using hs
  · simp [State.setBase_get_ne, e]

/-- An edit of one channel that keeps its set. -/
theorem Work.setChannel {p : PinIx} {x : PinChannel} (hs : x.subscribers = (s.pins[p.val]'p.isLt).subscribers) :
    Work m s (s.setChannel p x) := by
  refine .ofBlocks rfl rfl rfl rfl rfl rfl (fun _ => rfl) (fun q => ?_) (fun _ => ⟨rfl, id, id⟩) (fun hb hc => ⟨hb, hc⟩)
  by_cases e : q = p
  · subst e; simpa using hs
  · simp [State.setChannel_get_ne, e]

/-- An edit of one line that keeps its set and its flags. -/
theorem Work.setLine {l : LineIx} {x : TripLine} (hs : x.contributors = (s.trips[l.val]'l.isLt).contributors)
    (hh : (s.trips[l.val]'l.isLt).held = true → x.held = true) (hf : (s.trips[l.val]'l.isLt).forced = true → x.forced = true) :
    Work m s (s.setLine l x) := by
  refine .ofBlocks rfl rfl rfl rfl rfl rfl (fun _ => rfl) (fun _ => rfl) (fun k => ?_) (fun hb hc => ⟨hb, hc⟩)
  by_cases e : k = l
  · subst e; simpa using ⟨hs, hh, hf⟩
  · simp [State.setLine_get_ne, e]

theorem Work.foldl {α : Type} {f : State → α → State} (h : ∀ s a, Work m s (f s a)) (l : List α) (s : State) :
    Work m s (l.foldl f s) := by
  induction l generalizing s with
  | nil => exact .refl m s
  | cons a t ih => exact (h s a).trans (ih _)

/-! ## Contexts -/

/-- A context that advances within its bounds and its kind, and observations that become pending. -/
theorem Work.context {x : Context} (o : List Observation) {r : Record} (hr : s.recordAt i = some r)
    (hb : r.context.bounded → x.bounded) (hf : r.context.fit r.fixed.kind → x.fit r.fixed.kind) :
    Work m s { s.mapRecord i (fun r => { r with context := x }) with observations := o } := by
  have frame : Follows s (s.mapRecord i (fun r => { r with context := x })) :=
    .mapRecord fun _ _ => .of_eq rfl rfl rfl rfl
  refine { Work.refl m s with
    port := by simp
    supply := by simp
    inReset := by simp
    pending := by simp
    slot := fun j => ?_
    baseSet := by simp
    pinSet := by simp
    line := fun l => by simpa using (Work.refl m s).line l
    notices := by simpa using (Work.refl m s).notices
    entries := fun j g ks h => .inl ⟨ks, by simpa using h⟩
    follows := frame.trans (.withdraw o)
    timing := fun h h' => by
      simp only [State.basesSound, State.checkerSound, State.mapRecord_bases, State.mapRecord_ref, State.mapRecord_inReset]
      exact ⟨h, h'⟩ }
  have hbody := State.mapRecord_body s i (fun r => { r with context := x }) j
  have hgen := State.mapRecord_generation s i (fun r => { r with context := x }) j
  dsimp only
  generalize hy : (s.mapRecord i (fun r => { r with context := x })).slots[j.val]'j.isLt = y at hbody hgen ⊢
  obtain ⟨g', b'⟩ := y
  dsimp only at hbody hgen
  rw [hgen, hbody]
  by_cases e : j = i
  · subst e
    simp only [State.recordAt, Fin.getElem_fin] at hr
    generalize (s.slots[j.val]'j.isLt) = z at hr ⊢
    obtain ⟨g, b⟩ := z
    cases b with
    | live q => cases hr; simpa using SlotWorked.live g (.of_context (m j) g r hb hf)
    | free => cases hr
    | draining => cases hr
  · simpa [e] using SlotWorked.refl (m j) (s.slots[j.val]'j.isLt)

/-- Two edits that agree on the record of a slot. -/
theorem State.mapRecord_congr_at {r : Record} {f g : Record → Record} (hr : s.recordAt i = some r) (h : f r = g r) :
    s.mapRecord i f = s.mapRecord i g := by
  unfold State.recordAt at hr
  unfold State.mapRecord
  split <;> simp_all

theorem Work.handOn (ms : List SlotIx) (ev : Record → ContextEvent) : Work m s (s.handOn ms ev) := by
  rw [State.handOn_eq]
  refine .foldl (fun s i => ?_) ms s
  unfold State.handTo
  cases hr : s.recordAt i with
  | none => exact .refl m s
  | some r =>
    dsimp only
    split
    · have h := Work.context (m := m) (x := { r.context with inbox := r.context.inbox ++ [ev r] }) s.observations hr
        (fun h => h) (fun h => h)
      have same : s.mapRecord i (fun q => { q with context := { r.context with inbox := r.context.inbox ++ [ev r] } }) =
          s.mapRecord i (fun q => { q with context := { q.context with inbox := q.context.inbox ++ [ev q] } }) :=
        State.mapRecord_congr_at hr rfl
      rw [← same]
      have obs : s.observations = (s.mapRecord i
          (fun q => { q with context := { r.context with inbox := r.context.inbox ++ [ev r] } })).observations := by simp
      rw [obs] at h
      exact h
    · exact .refl m s

theorem Work.afterStep {r : Record} (hr : s.recordAt i = some r) (n : Word16) {x : StepResult}
    (hb : r.context.bounded → x.1.bounded) (hf : r.context.fit r.fixed.kind → x.1.fit r.fixed.kind) :
    Work m s (s.afterStep i n x) := by
  unfold State.afterStep
  dsimp only
  split
  · have h := Work.context (m := m) s.observations hr hb hf
    have obs : s.observations = (s.mapRecord i (fun q => { q with context := x.1 })).observations := by simp
    rw [obs] at h
    exact h
  · exact .context _ hr hb hf

end Sys2Proof.Machine
end

