-- ==== Sys2Proof/Proofs/Moves.lean ====
section
set_option Elab.async false
/-! PROOFS. `Move`: all that a command or event can do, the port and the scrubber apart, with one lemma for the block of each command
and for each event. -/

namespace Sys2Proof.Machine

variable {m : SlotIx → Prop} {s t u : State} {i : SlotIx} {c : Instr}

/-! ## The moves -/

/-- A command that may end the VIOLATED or DONE state of the contract in a slot, by CLEAR or by judgement. -/
def Instr.mayEnd (c : Instr) (i : SlotIx) : Prop :=
  (∃ f h, c = .clear f h ∧ h.slot.toNat = i.val) ∨ ∃ h : Handle, c = .observationTaken h ∧ h.slot = i

/-- The command and the events that set the blocks to their reset values. -/
def Instr.resets : Instr → Prop
  | .resetDevice _ => True
  | .powerOnReset => True
  | .resetInput => True
  | .resetRelease => True
  | _ => False

/-- The contract's own part of an entry into CORRUPT (R51). -/
def State.markCorrupt (s : State) (i : SlotIx) (r : Record) : State :=
  (((((if s.measures r then s.abandon i else s).unsubscribePins i).unsubscribeBases i).mapRecord i
    (fun r => { r with state := .corrupt })).joinMask i 0xF).post i .corrupt

theorem State.enterCorrupt_eq (s : State) (i : SlotIx) (r : Record) :
    s.enterCorrupt i r = (s.markCorrupt i r).becameUnhealthy r.state i := rfl

/-- All that a command or event can do, the port and the scrubber apart. -/
inductive Move (c : Instr) (s : State) : State → Prop
  | work {t : State} (h : Work (Instr.mayEnd c) s t) : Move c s t
  | release {f : Frame} {b : Byte} {l : LineIx} (hc : c = .releaseTrip f b) (hl : b.toNat = l.val)
      (hs : s.ref.supervision = .normal) (hn : (s.trips[l.val]'l.isLt).contributors = []) :
      Move c s (s.setLine l { (s.trips[l.val]'l.isLt) with held := false, forced := false })
  | create {f : Frame} {o : CreateBytes} {i : SlotIx} (hc : c = .create f o) (hfield : createFieldError o = none)
      (hparent : createParentError s (parentOf o.parent) = none) (hpin : (s.pins[(fixedOf o).pin.val]'(fixedOf o).pin.isLt).subscribers.length < 8)
      (hfree : (s.slots[i.val]'i.isLt).body = .free) : Move c s (s.place i o)
  | retire {f : Frame} {h : HandleBytes} {x : Byte} {i : SlotIx} {r : Record} (hc : c = .retire f h x)
      (hi : h.slot.toNat = i.val) (hr : s.recordAt i = some r) (hd : r.dependents = 0)
      (hx : (r.state = .violated ∨ r.state = .corrupt) → optionSet x = true) : Move c s (s.retireContract i r)
  | wipe {f : Frame} (hc : c = .wipeTable f) : Move c s s.wipe
  | ackDevice {f : Frame} {h : HandleBytes} {x : Byte} (hc : c = .ackNotice f h x) (left : BitVec 3) :
      Move c s { s with notices := leaveDeviceKinds left s.notices }
  | ackContract {f : Frame} {h : HandleBytes} {x : Byte} {i : SlotIx} (hc : c = .ackNotice f h x)
      (hi : h.slot.toNat = i.val) (left : BitVec 7) : Move c s (s.ackContract i left)
  | corrupt {h : Handle} {r : Record} {t : State} (hc : c = .mismatchReport h) (hr : s.recordAt h.slot = some r)
      (hst : r.state ≠ .corrupt) (ht : Work (fun _ => False) (s.markCorrupt h.slot r) t) : Move c s t
  | storage {i : SlotIx} {x : StorageFault} {r : Record} (hc : c = .storageChange i x) (hr : s.recordAt i = some r) :
      Move c s (s.setSlot i ⟨(StorageFault.apply (s.slots[i.val]'i.isLt).generation r x).1,
        .live (StorageFault.apply (s.slots[i.val]'i.isLt).generation r x).2⟩)
  | reset {b : Bool} {v : Supply} {x : RefChecker} (hc : Instr.resets c) (hb : s.inReset = true ∨ b = true)
      (hx : s.checkerSound → ({ s.resetBlocks with inReset := b, supply := v, ref := x } : State).checkerSound) :
      Move c s { s.resetBlocks with inReset := b, supply := v, ref := x }

theorem Move.stays (c : Instr) (s : State) : Move c s s := .work (.refl _ s)

theorem Move.table (h : TableFrame (Instr.mayEnd c) s t) (k : Follows s t) : Move c s t := .work (.ofTable h k)

/-! ## The contract table -/

theorem createBlock_move (f : Frame) (o : CreateBytes) (s : State) : Move (.create f o) s (createBlock o s).state := by
  unfold createBlock
  split
  · exact .stays _ s
  · rename_i hfield
    split
    · exact .stays _ s
    · rename_i hparent
      split
      · exact .stays _ s
      · rename_i hpin
        split
        · exact .stays _ s
        · rename_i i hi
          exact .create rfl hfield hparent (Nat.not_le.1 hpin) (by simpa using List.find?_some (p := fun i : SlotIx => decide ((s.slots[i]'i.isLt).body = .free)) hi)

theorem retireBlock_move (f : Frame) (h : HandleBytes) (x : Byte) (s : State) :
    Move (.retire f h x) s (retireBlock h x s).state := by
  unfold retireBlock
  obtain ⟨e, p, hb⟩ | ⟨i, r, hi, -, -, hr, hb⟩ := withContract_cases s h (optionsError x) _ <;> rw [hb]
  · exact .stays _ s
  · dsimp only
    split
    · exact .stays _ s
    · rename_i hd
      split
      · exact .stays _ s
      · rename_i hx
        exact .retire rfl hi hr (Nat.eq_zero_of_not_pos hd) fun hst => by simpa [hst] using hx

theorem queryBlock_move (f : Frame) (h : HandleBytes) (x : Byte) (s : State) :
    Move (.query f h x) s (queryBlock h x s).state := by
  unfold queryBlock
  obtain ⟨e, p, hb⟩ | ⟨i, r, -, -, -, -, hb⟩ := withContract_cases s h (optionsError x) _ <;> rw [hb]
  · exact .stays _ s
  · dsimp only [ok]
    split
    · refine .table (.mapRecord fun r _ => ?_) (.mapRecord fun _ _ => .of_eq rfl rfl rfl rfl)
      exact ⟨rfl, rfl, id, fun ⟨h1, h2, h3, _, _, h6⟩ => ⟨h1, h2, h3, Nat.zero_le _, Nat.le_refl _, h6⟩, fun _ _ => rfl,
        fun _ h => h, id, .inl rfl⟩
    · exact .stays _ s

/-! ## Judgement and the commands on one contract -/

theorem firstObservation_some {h : Handle} {l rest : List Observation} {o : Observation}
    (e : firstObservation h l = some (o, rest)) : o.handle = h ∧ rest.Sublist l := by
  induction l generalizing rest with
  | nil => cases e
  | cons a t ih =>
    simp only [firstObservation] at e
    split at e
    · rename_i ha; cases e; exact ⟨ha, List.sublist_cons_self _ _⟩
    · split at e
      · cases e
      · rename_i o' t' h'
        cases e
        obtain ⟨ho, ht⟩ := ih h'
        exact ⟨ho, ht.cons_cons a⟩

theorem observationTaken_move (h : Handle) (s : State) {o : Observation} {rest : List Observation}
    (e : firstObservation h s.observations = some (o, rest)) :
    Move (.observationTaken h) s ({ s with observations := rest }.takeObservation o) := by
  obtain ⟨ho, hs⟩ := firstObservation_some e
  have taken : TableFrame (Instr.mayEnd (.observationTaken h)) s { s with observations := rest } :=
    { TableFrame.refl _ s with observations := hs }
  exact .table (taken.trans (.takeObservation o (.inr ⟨h, rfl, by rw [ho]⟩)))
    ((Follows.withdraw rest).trans (.takeObservation o))

theorem suspendBlock_move (f : Frame) (h : HandleBytes) (s : State) : Move (.suspend f h) s (suspendBlock h s).state := by
  unfold suspendBlock
  obtain ⟨e, p, hb⟩ | ⟨i, r, -, -, -, hr, hb⟩ := withContract_cases s h none _ <;> rw [hb]
  · exact .stays _ s
  · dsimp only
    split
    · rename_i ho
      have hopen : isOpen r.state = true := by revert ho; cases r.state <;> decide
      have hr' : (s.mapRecord i (fun r => { r with suspended := true })).recordAt i = some { r with suspended := true } := by
        simp [hr]
      exact .table ((TableFrame.setSuspended true).trans (.enterBlocked hr' hopen rfl))
        ((Follows.setSuspended true).trans (.enterBlocked hr' hopen rfl))
    · split <;> exact .stays _ s

theorem resumeBlock_move (f : Frame) (h : HandleBytes) (s : State) : Move (.resume f h) s (resumeBlock h s).state := by
  unfold resumeBlock
  obtain ⟨e, p, hb⟩ | ⟨i, r, -, -, -, -, hb⟩ := withContract_cases s h none _ <;> rw [hb]
  · exact .stays _ s
  · dsimp only
    split
    · exact .table ((TableFrame.setSuspended false).trans (.recompute i)) ((Follows.setSuspended false).trans (.recompute i))
    · exact .stays _ s

theorem clearBlock_move (f : Frame) (h : HandleBytes) (s : State) : Move (.clear f h) s (clearBlock h s).state := by
  unfold clearBlock
  obtain ⟨e, p, hb⟩ | ⟨i, r, hi, -, -, hr, hb⟩ := withContract_cases s h none _ <;> rw [hb]
  · exact .stays _ s
  · dsimp only
    have hm : Instr.mayEnd (.clear f h) i := .inl ⟨f, h, rfl, hi⟩
    split
    · rename_i hv
      split
      · exact .stays _ s
      · dsimp only [ok]
        split
        · exact .table (.clearFrozen hr hm hv) (.clearFrozen hr hv)
        · exact .table (.clearToConforming hr hm hv _) (.clearToConforming hr hv)
    · exact .stays _ s

theorem amendBlock_move (f : Frame) (o : AmendBytes) (s : State) : Move (.amend f o) s (amendBlock o s).state := by
  unfold amendBlock
  obtain ⟨e, p, hb⟩ | ⟨i, r, -, hfield, -, hr, hb⟩ := withContract_cases s o.handle (amendFieldError o) _ <;> rw [hb]
  · exact .stays _ s
  · dsimp only
    split
    · exact .stays _ s
    · split
      · exact .stays _ s
      · rename_i hrec
        have fit := amend_limits_fit hfield hrec
        dsimp only
        split
        · exact .table (.stage _) (.stage hr fit)
        · exact .table (.amendNow hr _) (.amendNow hr fit)

/-! ## Notices -/

theorem ackNoticeBlock_move (f : Frame) (h : HandleBytes) (x : Byte) (s : State) :
    Move (.ackNotice f h x) s (ackNoticeBlock h x s).state := by
  unfold ackNoticeBlock
  split
  · unfold ackDeviceBlock
    split
    · exact .stays _ s
    · split
      · exact .stays _ s
      · exact .ackDevice rfl _
  · split
    · exact .stays _ s
    · rename_i i hi
      split
      · exact .stays _ s
      · split
        · exact .stays _ s
        · split
          · exact .stays _ s
          · exact .ackContract rfl (indexOf_eq_some.1 hi) _

/-! ## Time bases -/

theorem setTimebaseBlock_move (c : Instr) (base tap : Byte) (modulus : Word16) (s : State) :
    Move c s (setTimebaseBlock base tap modulus s).state := by
  unfold setTimebaseBlock
  obtain ⟨-, hb⟩ | ⟨b, -, hb⟩ := withBase_cases s base _ <;> rw [hb]
  · exact .stays _ s
  · dsimp only
    split
    · exact .stays _ s
    · rename_i hfield
      split
      · rename_i hst
        have checks := firstFailing_none hfield
        simp only [List.forall_mem_cons, decide_eq_false_iff_not, Nat.not_lt] at checks
        exact .work (.setBase rfl fun _ =>
          ⟨checks.2.1, fun h => absurd (h.symm.trans hst) (by decide), fun h => absurd (h.symm.trans hst) (by decide)⟩)
      · exact .stays _ s

theorem startTimebaseBlock_move (c : Instr) (base : Byte) (s : State) : Move c s (startTimebaseBlock base s).state := by
  unfold startTimebaseBlock
  obtain ⟨-, hb⟩ | ⟨b, -, hb⟩ := withBase_cases s base _ <;> rw [hb]
  · exact .stays _ s
  · split
    · exact .stays _ s
    · split
      · exact .stays _ s
      · rename_i hn
        refine .work (Work.trans ?_ (.ofTable (.runNotice _) (.runNotice _)))
        refine .setBase rfl fun h => ?_
        have := h.1
        exact ⟨h.1, fun _ => ⟨Classical.not_not.1 hn, by simpa using (by omega : 0 < (s.bases[b.val]'b.isLt).modulus.toNat), Nat.zero_le _⟩,
          fun h => by simp at h⟩

theorem stopTimebaseBlock_move (c : Instr) (base : Byte) (s : State) : Move c s (stopTimebaseBlock base s).state := by
  unfold stopTimebaseBlock
  obtain ⟨-, hb⟩ | ⟨b, -, hb⟩ := withBase_cases s base _ <;> rw [hb]
  · exact .stays _ s
  · have stop : Work (Instr.mayEnd c) s (s.setBase b { (s.bases[b]'b.isLt) with state := .stopped }) :=
      .setBase rfl fun h => ⟨h.1, fun h => by simp at h, fun h => by simp at h⟩
    split
    · exact .stays _ s
    · dsimp only [ok, State.stopBase]
      split
      · exact .work (stop.trans (.ofTable (.stopNotice _) (.stopNotice _)))
      · exact .work stop

theorem baseTickEnd_work {b : BaseIx} 
    (hlt : (s.bases[b]'b.isLt).counter.toNat + 1 < (s.bases[b]'b.isLt).modulus.toNat) :
    Work m s (s.setBase b { (s.bases[b]'b.isLt) with counter := (s.bases[b]'b.isLt).counter + 1, divider := 0 }) := by
  simp only [Fin.getElem_fin] at hlt
  refine .setBase rfl fun ⟨h1, h2, h3⟩ => ⟨h1, fun hr => ⟨(h2 hr).1, ?_, Nat.zero_le _⟩, h3⟩
  dsimp only [Fin.getElem_fin]
  have := (s.bases[b.val]'b.isLt).modulus.isLt
  rw [BitVec.toNat_add]
  simp only [BitVec.toNat_one (by decide : 0 < 16), BitVec.ofNat_eq_ofNat]
  omega

theorem gateBoundary_work {b : BaseIx} (ms : List SlotIx) (ev : Record → ContextEvent) :
    Work m s ((s.setBase b { (s.bases[b]'b.isLt) with counter := 0, serial := (s.bases[b]'b.isLt).serial + 1, divider := 0 }).handOn ms ev) := by
  refine Work.trans ?_ (.handOn ms ev)
  refine .setBase rfl fun ⟨h1, h2, h3⟩ => ⟨h1, fun hr => ⟨(h2 hr).1, ?_, Nat.zero_le _⟩, h3⟩
  simp only [BitVec.toNat_zero, BitVec.ofNat_eq_ofNat, Fin.getElem_fin]
  omega

/-! ## The Reference Checker -/

theorem RefChecker.edge_sound (h : s.checkerSound) :
    s.ref.edge.goodPeriods ≤ 1024 ∧ s.ref.edge.gap = .running ∧ s.ref.edge.supervision = s.ref.supervision ∧
      s.ref.goodPeriods ≤ s.ref.edge.goodPeriods := by
  obtain ⟨hg, hle, hmono, hsup⟩ := s.ref.edge_bounds h.1
  exact ⟨hle, hg, hsup, hmono⟩

/-- A REFCLK edge in reset counts at the checker alone. -/
theorem edgeInReset_work (hr : s.inReset = true) : Work m s { s with ref := s.ref.edge } := by
  refine .ofBlocks rfl rfl rfl rfl rfl rfl (fun _ => rfl) (fun _ => rfl) (fun _ => ⟨rfl, id, id⟩) fun hb hc => ?_
  obtain ⟨hle, hg, hsup, -⟩ := RefChecker.edge_sound hc
  refine ⟨?_, hle, fun h => ?_, fun h => absurd hg h⟩
  · rw [State.basesSound_iff] at hb ⊢
    dsimp only
    rw [hsup]
    exact hb
  · simp [hr] at h

/-- The supervision state after an edge, a return detected (R158). -/
def RefChecker.watched (x : RefChecker) : RefChecker :=
  if x.supervision = .referenceFault ∧ x.goodPeriods = 1024 then { x with supervision := .faultLatched } else x

theorem TimeBase.countEdge_sound {x : TimeBase} {v : Supervision} (h : x.sound v)
    (hd : x.state = .running → x.divider < 2 ^ x.tap.val) : x.countEdge.sound v := by
  obtain ⟨-, e⟩ | ⟨hr, e⟩ := x.countEdge_cases <;> rw [e]
  · exact h
  · obtain ⟨h1, h2, h3⟩ := h
    exact ⟨h1, fun hr => ⟨(h2 hr).1, (h2 hr).2.1, hd hr⟩, h3⟩

theorem TimeBase.countEdge_subscribers (x : TimeBase) : x.countEdge.subscribers = x.subscribers := by
  obtain ⟨-, e⟩ | ⟨-, e⟩ := x.countEdge_cases <;> rw [e]

/-- The state after a REFCLK edge has reached every block, its return detected and not yet posted. -/
def State.edgeWatched (s : State) : State := { s.edgeArrives with ref := s.ref.edge.watched }

@[simp] theorem State.edgeWatched_ref (s : State) : s.edgeWatched.ref = s.ref.edge.watched := rfl
@[simp] theorem State.edgeWatched_slots (s : State) : s.edgeWatched.slots = s.slots := by
  simp only [State.edgeWatched, State.edgeArrives_slots]
@[simp] theorem State.edgeWatched_trips (s : State) : s.edgeWatched.trips = s.trips := by
  simp only [State.edgeWatched, State.edgeArrives_trips]
@[simp] theorem State.edgeWatched_notices (s : State) : s.edgeWatched.notices = s.notices := by
  simp only [State.edgeWatched, State.edgeArrives_notices]
@[simp] theorem State.edgeWatched_inReset (s : State) : s.edgeWatched.inReset = s.inReset := by
  simp only [State.edgeWatched, State.edgeArrives_inReset]
@[simp] theorem State.edgeWatched_pending (s : State) : s.edgeWatched.pending = s.pending := by
  simp only [State.edgeWatched, State.edgeArrives_pending]
@[simp] theorem State.edgeWatched_port (s : State) : s.edgeWatched.port = s.port := by
  simp only [State.edgeWatched, State.edgeArrives_port]
@[simp] theorem State.edgeWatched_supply (s : State) : s.edgeWatched.supply = s.supply := by
  simp only [State.edgeWatched, State.edgeArrives_supply]
theorem State.edgeWatched_base (s : State) (b : BaseIx) : s.edgeWatched.bases[b.val]'b.isLt = (s.bases[b.val]'b.isLt).countEdge := by
  simp only [State.edgeWatched, State.edgeArrives_base]
theorem State.edgeWatched_channel (s : State) (p : PinIx) : s.edgeWatched.pins[p.val]'p.isLt = (s.pins[p.val]'p.isLt).seeEdge := by
  simp only [State.edgeWatched, State.edgeArrives_channel]

theorem State.detectReturn_edgeArrives (s : State) :
    s.edgeArrives.detectReturn = s.edgeWatched ∨
      s.edgeArrives.detectReturn = s.edgeWatched.postDevice .referenceBack := by
  unfold State.detectReturn State.edgeWatched RefChecker.watched
  rw [State.edgeArrives_ref]
  by_cases h : s.ref.edge.supervision = .referenceFault ∧ s.ref.edge.goodPeriods = 1024
  · right
    simp only [if_pos h, State.setSupervision, State.edgeArrives_ref]
  · left
    simp only [if_neg h]
    rw [← State.edgeArrives_ref]

theorem RefChecker.watched_goodPeriods (x : RefChecker) : x.watched.goodPeriods = x.goodPeriods := by
  unfold RefChecker.watched; split <;> rfl

theorem RefChecker.watched_gap (x : RefChecker) : x.watched.gap = x.gap := by
  unfold RefChecker.watched; split <;> rfl

theorem RefChecker.watched_normal_iff (x : RefChecker) : x.watched.supervision = .normal ↔ x.supervision = .normal := by
  unfold RefChecker.watched
  split
  · rename_i h; simp [h.1]
  · rfl

/-- No return goes undetected: after the detection a full count stands exactly outside REFERENCE_FAULT. -/
theorem RefChecker.watched_full_iff {x : RefChecker} (h : x.supervision ≠ .referenceFault → x.goodPeriods = 1024) :
    x.watched.goodPeriods = 1024 ↔ x.watched.supervision ≠ .referenceFault := by
  unfold RefChecker.watched
  split
  · rename_i hx; simp [hx.2]
  · rename_i hx; exact ⟨fun e hs => hx ⟨hs, e⟩, h⟩

theorem edgeWatched_work (hr : s.inReset = false) (ho : s.edgeOutstanding = false) : Work m s s.edgeWatched := by
  refine .ofBlocks s.edgeWatched_slots s.edgeWatched_notices s.edgeWatched_port s.edgeWatched_supply s.edgeWatched_inReset
    s.edgeWatched_pending (fun b => ?_) (fun p => ?_) (fun l => ?_) fun hb hc => ?_
  · rw [State.edgeWatched_base]; exact TimeBase.countEdge_subscribers _
  · rw [State.edgeWatched_channel]; rfl
  · rw [State.edgeWatched_trips]; exact ⟨rfl, id, id⟩
  · obtain ⟨hle, hg, hsup, hmono⟩ := RefChecker.edge_sound hc
    obtain ⟨-, hiff, -⟩ := hc
    refine ⟨?_, ?_, fun _ => ?_, fun h => ?_⟩
    · rw [State.basesSound_iff] at hb ⊢
      intro b
      rw [State.edgeWatched_base, State.edgeWatched_ref]
      obtain ⟨h1, h2, h3⟩ := TimeBase.countEdge_sound (hb b) ((State.edgeOutstanding_eq_false s).1 ho |>.1 b)
      rw [← hsup] at h2 h3
      exact ⟨h1, fun h => ⟨s.ref.edge.watched_normal_iff.2 (h2 h).1, (h2 h).2⟩, fun h => s.ref.edge.watched_normal_iff.not.2 (h3 h)⟩
    · rw [State.edgeWatched_ref, RefChecker.watched_goodPeriods]; exact hle
    · rw [State.edgeWatched_ref]
      refine RefChecker.watched_full_iff fun h => ?_
      rw [hsup] at h
      have := (hiff hr).2 h
      omega
    · rw [State.edgeWatched_ref, RefChecker.watched_gap] at h
      exact absurd hg h

/-- A REFCLK edge out of reset, with the return that it may bring. -/
theorem edgeArrives_work (hr : s.inReset = false) (ho : s.edgeOutstanding = false) :
    Work m s s.edgeArrives.detectReturn := by
  obtain e | e := s.detectReturn_edgeArrives <;> rw [e]
  · exact edgeWatched_work hr ho
  · exact (edgeWatched_work hr ho).trans (.postDevice _)

theorem refclkEdge_work (s : State) : Work m s s.refclkEdge := by
  obtain ⟨hr, e⟩ | ⟨-, -, e⟩ | ⟨hr, ho, e⟩ := s.refclkEdge_cases <;> rw [e]
  · exact edgeInReset_work hr
  · exact .refl m s
  · exact edgeArrives_work hr ho

theorem TimeBase.resume_sound {x : TimeBase} {v : Supervision} (h : x.sound v) (hv : v ≠ .normal) : x.resume.sound .normal := by
  obtain ⟨h1, h2, h3⟩ := h
  unfold TimeBase.resume
  split
  · exact ⟨h1, fun _ => ⟨rfl, by simp only [BitVec.toNat_zero, BitVec.ofNat_eq_ofNat]; omega, Nat.zero_le _⟩, fun h => by simp at h⟩
  · rename_i hs
    exact ⟨h1, fun hr => absurd (h2 hr).1 hv, fun h => absurd h hs⟩

theorem TimeBase.stall_sound {x : TimeBase} {v : Supervision} (h : x.sound v) : x.stall.sound .referenceFault := by
  obtain ⟨h1, h2, h3⟩ := h
  unfold TimeBase.stall
  split
  · exact ⟨h1, fun h => by simp at h, fun _ => by simp⟩
  · rename_i hs
    exact ⟨h1, fun hr => absurd hr hs, fun _ => by simp⟩

theorem clearFaultBlock_move (c : Instr) (s : State) : Move c s (clearFaultBlock s).state := by
  unfold clearFaultBlock
  split
  · rename_i hsup
    refine .work (Work.trans ?_ (.ofTable (.runNotice _) (.runNotice _)))
    have keep : ∀ {β : Type} (get : State → β) (_ : ∀ s b x, get (State.setBase s b x) = get s),
        get (allBases.foldl (fun s b => s.setBase b (s.bases[b]'b.isLt).resume) (s.setSupervision .normal)) =
          get (s.setSupervision .normal) := fun get h => State.mapBases_keeps get h _ _
    have base := State.mapBases_base (s.setSupervision .normal) TimeBase.resume
    refine .ofBlocks (keep State.slots fun _ _ _ => rfl) (keep State.notices fun _ _ _ => rfl)
      (keep State.port fun _ _ _ => rfl) (keep State.supply fun _ _ _ => rfl)
      (keep State.inReset fun _ _ _ => rfl) (keep State.pending fun _ _ _ => rfl) (fun b => ?_)
      (fun p => congrArg (fun v : Vector PinChannel 24 => (v[p.val]'p.isLt).subscribers) (keep State.pins fun _ _ _ => rfl))
      (fun l => ?_) fun hb hc => ⟨?_, ?_⟩
    · rw [base]; unfold TimeBase.resume; split <;> rfl
    · have e := keep State.trips fun _ _ _ => rfl
      rw [e]
      exact ⟨rfl, id, id⟩
    · have e := keep State.ref fun _ _ _ => rfl
      rw [State.basesSound_iff] at hb ⊢
      intro b
      rw [base, e]
      exact TimeBase.resume_sound (hb b) (by simp [hsup])
    · have e := keep State.ref fun _ _ _ => rfl
      have er := keep State.inReset fun _ _ _ => rfl
      unfold State.checkerSound at hc ⊢
      rw [e, er]
      obtain ⟨h1, h2, h3⟩ := hc
      exact ⟨h1, fun h => by simpa [State.setSupervision, hsup] using h2 h, h3⟩
  · exact .stays _ s
  · exact .stays _ s

theorem handOnLoss_work (postFirst : Bool) : Work m s ({ s with ref := s.ref.expire }.handOnLoss postFirst) := by
  let s0 : State := { s with ref := s.ref.expire }
  let s1 : State := allLines.foldl (fun s l => s.setLine l (s.trips[l]'l.isLt).lose) (s0.setSupervision .referenceFault)
  let s2 : State := allBases.foldl (fun s b => s.setBase b (s.bases[b]'b.isLt).stall) s1
  have keep : ∀ {β : Type} (get : State → β) (_ : ∀ s b x, get (State.setBase s b x) = get s)
      (_ : ∀ s l x, get (State.setLine s l x) = get s), get s2 = get (s0.setSupervision .referenceFault) :=
    fun get h h' => (State.mapBases_keeps get h _ _).trans (State.mapLines_keeps get h' _ _)
  have base : ∀ b : BaseIx, s2.bases[b.val]'b.isLt = (s.bases[b.val]'b.isLt).stall := fun b =>
    (State.mapBases_base s1 TimeBase.stall b).trans
      (congrArg (fun v : Vector TimeBase 4 => (v[b.val]'b.isLt).stall) (State.mapLines_keeps State.bases (fun _ _ _ => rfl) _ _))
  have line : ∀ l : LineIx, s2.trips[l.val]'l.isLt = (s.trips[l.val]'l.isLt).lose := fun l =>
    (congrArg (fun v : Vector TripLine 4 => (v[l.val]'l.isLt)) (State.mapBases_keeps State.trips (fun _ _ _ => rfl) s1 TimeBase.stall)).trans
      (State.mapLines_line _ TripLine.lose l)
  have stall : Work m s s2 := by
    refine .ofBlocks (keep State.slots (fun _ _ _ => rfl) fun _ _ _ => rfl) (keep State.notices (fun _ _ _ => rfl) fun _ _ _ => rfl)
      (keep State.port (fun _ _ _ => rfl) fun _ _ _ => rfl) (keep State.supply (fun _ _ _ => rfl) fun _ _ _ => rfl)
      (keep State.inReset (fun _ _ _ => rfl) fun _ _ _ => rfl) (keep State.pending (fun _ _ _ => rfl) fun _ _ _ => rfl)
      (fun b => ?_)
      (fun p => congrArg (fun v : Vector PinChannel 24 => (v[p.val]'p.isLt).subscribers)
        (keep State.pins (fun _ _ _ => rfl) fun _ _ _ => rfl))
      (fun l => ?_) fun hb hc => ⟨?_, ?_⟩
    · rw [base]; unfold TimeBase.stall; split <;> rfl
    · rw [line]; unfold TripLine.lose; split <;> simp
    · have e := keep State.ref (fun _ _ _ => rfl) fun _ _ _ => rfl
      rw [State.basesSound_iff] at hb ⊢
      intro b
      rw [base, e]
      exact TimeBase.stall_sound (hb b)
    · have e := keep State.ref (fun _ _ _ => rfl) fun _ _ _ => rfl
      have er := keep State.inReset (fun _ _ _ => rfl) fun _ _ _ => rfl
      unfold State.checkerSound
      rw [e, er]
      refine ⟨Nat.zero_le _, fun _ => ?_, fun _ => rfl⟩
      simp [State.setSupervision, s0, RefChecker.expire]
  unfold State.handOnLoss
  dsimp only
  split
  · exact (stall.trans (.postDevice _)).trans (.ofTable (.stopNotice _) (.stopNotice _))
  · exact (stall.trans (.ofTable (.stopNotice _) (.stopNotice _))).trans (.postDevice _)

theorem expire_work (h : s.inReset = true ∨ s.ref.supervision = .referenceFault) : Work m s { s with ref := s.ref.expire } := by
  refine .ofBlocks rfl rfl rfl rfl rfl rfl (fun _ => rfl) (fun _ => rfl) (fun _ => ⟨rfl, id, id⟩) fun hb hc => ?_
  refine ⟨hb, Nat.zero_le _, fun hr => ?_, fun _ => rfl⟩
  obtain h | h := h
  · exact absurd h (by rw [hr]; decide)
  · simp [RefChecker.expire, h]

/-! ## Pins and lines -/

theorem setPinBlock_move (c : Instr) (pin setting : Byte) (s : State) : Move c s (setPinBlock pin setting s).state := by
  unfold setPinBlock
  split
  · exact .stays _ s
  · split
    · exact .stays _ s
    · refine .work (Work.trans ?_ (.ofTable (.foldl (fun _ i => .restartMember i) _ _)
        (.foldl (fun _ i => .restartMember i) _ _)))
      exact .setChannel rfl

theorem setTripBlock_move (c : Instr) (line policy : Byte) (s : State) : Move c s (setTripBlock line policy s).state := by
  unfold setTripBlock
  obtain ⟨-, hb⟩ | ⟨l, -, hb⟩ := withLine_cases s line _ <;> rw [hb]
  · exact .stays _ s
  · dsimp only
    split
    · exact .stays _ s
    · exact .work (.setLine rfl id id)

theorem releaseTripBlock_move (f : Frame) (line : Byte) (s : State) :
    Move (.releaseTrip f line) s (releaseTripBlock line s).state := by
  unfold releaseTripBlock
  obtain ⟨-, hb⟩ | ⟨l, hl, hb⟩ := withLine_cases s line _ <;> rw [hb]
  · exact .stays _ s
  · dsimp only
    split
    · exact .stays _ s
    · rename_i hs
      split
      · exact .stays _ s
      · rename_i hn
        exact .release rfl hl (Classical.not_not.1 hs) (Classical.not_not.1 hn)

theorem forceTripBlock_move (c : Instr) (line : Byte) (s : State) : Move c s (forceTripBlock line s).state := by
  unfold forceTripBlock
  obtain ⟨-, hb⟩ | ⟨l, -, hb⟩ := withLine_cases s line _ <;> rw [hb]
  · exact .stays _ s
  · exact .work (.setLine rfl id fun _ => rfl)

theorem PinChannel.firstSample_subscribers (x : PinChannel) (b : Bool) : (x.firstSample b).subscribers = x.subscribers := by
  unfold PinChannel.firstSample; split <;> rfl

theorem PinChannel.sample_subscribers (x : PinChannel) (b : Bool) : (x.sample b).subscribers = x.subscribers := by
  unfold PinChannel.sample; split <;> [rfl; split <;> [rfl; split <;> rfl]]

/-! ## Contexts -/

/-- The context after a boundary keeps the bounds of its accumulators. -/
theorem stepBoundary_bounded (k : Kind) (limit : BitVec 4) (level : Bool) (n : Word16) {x : Context} (h : x.bounded) :
    (stepBoundary k limit level n x).1.bounded := by
  have begun : ∀ p l, (Context.begin p l).bounded := fun p l =>
    ⟨Nat.zero_le _, Nat.zero_le _, Nat.zero_le _, Nat.zero_le _⟩
  obtain ⟨h1, h2, h3, h4⟩ := h
  unfold stepBoundary
  split
  · exact begun _ _
  · split
    · split
      · exact ⟨h1, h2, h3, h4⟩
      · split
        · exact begun _ _
        · have := limit.isLt
          exact ⟨h1, h2, h3, by dsimp only; omega⟩
    · split
      · exact ⟨h1, h2, h3, Nat.zero_le _⟩
      · exact ⟨h1, h2, h3, Nat.zero_le _⟩
      · exact begun _ _
      · exact begun _ _
      · exact ⟨h1, h2, h3, h4⟩

theorem takeEdge_work (i : SlotIx) : Work m s (s.takeEdge i) := by
  unfold State.takeEdge
  cases hr : s.recordAt i with
  | none => exact .refl m s
  | some r =>
    dsimp only
    split
    · exact .refl m s
    · split
      · exact .refl m s
      · exact .afterStep hr _ (fun h => stepEdge_bounded _ _ _ _ _ (by exact h)) (fun h => stepEdge_fit (by exact h))

theorem takeBoundary_work (i : SlotIx) (p : Record → Word16 → Bool) : Work m s (s.takeBoundary i p) := by
  unfold State.takeBoundary
  cases hr : s.recordAt i with
  | none => exact .refl m s
  | some r =>
    dsimp only
    split
    · exact .refl m s
    · split
      · exact .refl m s
      · split
        · exact .afterStep hr _ (fun h => stepBoundary_bounded _ _ _ _ (by exact h)) (fun h => stepBoundary_fit (by exact h))
        · exact .refl m s

/-! ## Integrity -/

theorem takeReport_move (h : Handle) (s : State) : Move (.mismatchReport h) s (s.takeReport h) := by
  unfold State.takeReport
  cases hr : s.contractAt h with
  | none => exact .stays _ s
  | some r =>
    dsimp only
    split
    · exact .stays _ s
    · rename_i hst
      exact .corrupt rfl (State.recordAt_of_contractAt hr) hst (.ofTable (.becameUnhealthy _ _) (.becameUnhealthy _ _))

/-! ## Every command and event -/

/-- The state with another port and another scrubber. -/
def State.withPort (s : State) (p : Port) (x : Scrubber) : State := { s with port := p, scrub := x }

/-- A command or event makes one move, and may change the port and the scrubber beside it; the port stays sound. -/
structure Moved (c : Instr) (s t : State) : Prop where
  move : ∃ p x u q y, Move c (s.withPort p x) u ∧ t = u.withPort q y
  portSound : s.portSound → t.portSound

/-- A move leaves the port and the reset flag, or it is a reset, which leaves the port idle. -/
theorem Move.port_cases (h : Move c s t) :
    (t.port = s.port ∧ t.inReset = s.inReset) ∨ (Instr.resets c ∧ t.port.frame = .idle) := by
  have adjusted : ∀ (s : State) (p : Option Handle) (f : Nat → Nat),
      (s.adjustParent p f).port = s.port ∧ (s.adjustParent p f).inReset = s.inReset := by
    intro s p f
    obtain e | ⟨_, _, _, e⟩ := s.adjustParent_cases p f <;> rw [e] <;> simp
  cases h with
  | work h => exact .inl ⟨h.port, h.inReset⟩
  | release => exact .inl ⟨rfl, rfl⟩
  | create =>
    left
    unfold State.place
    dsimp only
    rw [(adjusted _ _ _).1, (adjusted _ _ _).2]
    simp
  | retire =>
    left
    unfold State.retireContract State.dropContract
    dsimp only
    split <;> simp [adjusted]
  | wipe => exact .inl ⟨s.wipe_port, s.wipe_inReset⟩
  | ackDevice => exact .inl ⟨rfl, rfl⟩
  | ackContract =>
    left
    unfold State.ackContract State.releaseSlot
    dsimp only
    split <;> [split <;> exact ⟨rfl, rfl⟩; exact ⟨rfl, rfl⟩]
  | corrupt _ _ _ ht =>
    left
    rw [ht.port, ht.inReset]
    unfold State.markCorrupt
    split <;> simp
  | storage => exact .inl ⟨rfl, rfl⟩
  | reset hc => exact .inr ⟨hc, rfl⟩

theorem Move.portSound (h : Move c s t) (hp : s.portSound) : t.portSound := by
  obtain ⟨e, e'⟩ | ⟨-, e⟩ := h.port_cases
  · unfold State.portSound; rw [e, e']; exact hp
  · intro hf; rw [e] at hf; cases hf

theorem Moved.of_move (h : Move c s t) : Moved c s t := ⟨⟨s.port, s.scrub, t, t.port, t.scrub, h, rfl⟩, h.portSound⟩

theorem Moved.of_port (c : Instr) (s : State) {p : Port} (hp : s.portSound → ({ s with port := p } : State).portSound) :
    Moved c s { s with port := p } :=
  ⟨⟨s.port, s.scrub, s, p, s.scrub, .stays c s, rfl⟩, hp⟩

theorem State.csRaised_portSound (h : ¬ s.receiving) (hp : s.portSound) : s.csRaised.portSound := fun hf =>
  absurd ⟨(hp hf).2, hf⟩ h

theorem Moved.endFrame {rx : Nat} {act : State → State}
    (h : s.receiving → Moved c (s.frameEnded rx) (act (s.frameEnded rx))) : Moved c s (s.endFrame rx act) := by
  obtain ⟨hr, e⟩ | ⟨hr, e⟩ := s.endFrame_cases rx act <;> rw [e]
  · exact .of_port c s (State.csRaised_portSound hr)
  · obtain ⟨⟨p, x, u, q, y, hm, ht⟩, hp⟩ := h hr
    exact ⟨⟨p, x, u, q, y, hm, ht⟩, fun _ => hp fun hf => by cases hf⟩

theorem Moved.serve {k : Command} {f : Frame} {block : State → Answer} (h : ∀ s, Move c s (block s).state) :
    Moved c s (s.serve k f block) :=
  .endFrame fun _ => by
    have hm := h (s.frameEnded (commandLength k + f.fill))
    exact ⟨⟨_, _, _, _, _, hm, rfl⟩, fun hp hf => hm.portSound hp hf⟩

theorem Moved.whileOperating {act : State → State} (h : s.inReset = false → Moved c s (act s)) :
    Moved c s (s.whileOperating act) := by
  cases hr : s.inReset
  · rw [State.whileOperating_of_running hr]; exact h hr
  · rw [State.whileOperating_of_reset hr]; exact .of_move (.stays c s)

theorem enterReset_moved (hc : Instr.resets c) (s : State) : Moved c s s.enterReset := by
  exact .of_move (.reset (b := true) (v := s.supply) (x := s.ref) hc (.inr rfl) fun h => ⟨h.1, fun e => by simp at e, h.2.2⟩)

/-- The state that a command or event answers comes by a move of that command. -/
theorem exec_moved (h : exec c s = .next t) : Moved c s t := by
  cases c with
  | nop f => cases h; exact .serve fun s => .stays _ s
  | identify f => cases h; exact .serve fun s => .stays _ s
  | readStatus f => cases h; exact .serve fun s => .stays _ s
  | repeatReply f =>
    cases h
    refine .endFrame fun _ => ?_
    split
    · exact .of_move (.stays _ _)
    · exact .of_port _ _ fun _ hf => by cases hf
  | create f o => cases h; exact .serve (createBlock_move f o)
  | amend f o => cases h; exact .serve (amendBlock_move f o)
  | suspend f h' => cases h; exact .serve (suspendBlock_move f h')
  | resume f h' => cases h; exact .serve (resumeBlock_move f h')
  | clear f h' => cases h; exact .serve (clearBlock_move f h')
  | retire f h' x => cases h; exact .serve (retireBlock_move f h' x)
  | query f h' x => cases h; exact .serve (queryBlock_move f h' x)
  | list f => cases h; exact .serve fun s => .stays _ s
  | wipeTable f => cases h; exact .serve fun s => .wipe rfl
  | readNotices f => cases h; exact .serve fun s => .stays _ s
  | ackNotice f h' x => cases h; exact .serve (ackNoticeBlock_move f h' x)
  | setTimebase f b tp md => cases h; exact .serve (setTimebaseBlock_move _ b tp md)
  | startTimebase f b => cases h; exact .serve (startTimebaseBlock_move _ b)
  | stopTimebase f b => cases h; exact .serve (stopTimebaseBlock_move _ b)
  | readTimebase f b =>
    cases h
    refine .serve fun s => ?_
    obtain ⟨-, hb⟩ | ⟨b, -, hb⟩ := withBase_cases s b _ <;> rw [hb] <;> exact .stays _ s
  | setPin f p n => cases h; exact .serve (setPinBlock_move _ p n)
  | readPins f => cases h; exact .serve fun s => .stays _ s
  | setTrip f l p => cases h; exact .serve (setTripBlock_move _ l p)
  | releaseTrip f l => cases h; exact .serve (releaseTripBlock_move f l)
  | forceTrip f l => cases h; exact .serve (forceTripBlock_move _ l)
  | readTrips f => cases h; exact .serve fun s => .stays _ s
  | clearFault f => cases h; exact .serve (clearFaultBlock_move _)
  | resetDevice f => cases h; exact .endFrame fun _ => enterReset_moved (c := .resetDevice f) trivial _
  | frameBegin =>
    cases h
    split
    · exact .of_move (.stays _ s)
    · split
      · rename_i hr
        exact .of_port _ s fun hp hf => by have := (hp hf).2; simp [hr] at this
      · rename_i hr
        split
        · exact .of_move (.stays _ s)
        · exact .of_port _ s fun _ _ => ⟨rfl, Bool.eq_false_iff.2 hr⟩
  | emptyFrame => cases h; exact .endFrame fun _ => .of_move (.stays _ _)
  | frameRefused bytes =>
    cases h
    split
    · exact .of_move (.stays _ s)
    · exact .endFrame fun _ => .of_port _ _ fun _ hf => by cases hf
  | firstSample levels =>
    cases h
    exact .whileOperating fun _ => .of_move (.work (.foldl (fun s p => .setChannel (PinChannel.firstSample_subscribers _ _)) _ s))
  | edgeProduced p =>
    cases h
    refine .whileOperating fun _ => .of_move ?_
    dsimp only
    split
    · refine .work (Work.trans ?_ (.handOn _ _))
      exact .setChannel rfl
    · exact .stays _ s
  | gateBoundary b =>
    cases h
    refine .whileOperating fun _ => .of_move ?_
    dsimp only
    split
    · exact .work (gateBoundary_work _ _)
    · exact .stays _ s
  | edgeTaken i => cases h; exact .whileOperating fun _ => .of_move (.work (takeEdge_work i))
  | boundaryTaken i => cases h; exact .whileOperating fun _ => .of_move (.work (takeBoundary_work i _))
  | silenceLimit i => cases h; exact .whileOperating fun _ => .of_move (.work (takeBoundary_work i _))
  | observationTaken h' =>
    cases h
    refine .whileOperating fun _ => .of_move ?_
    split
    · exact .stays _ s
    · rename_i e; exact observationTaken_move h' s e
  | referenceLoss postFirst =>
    cases h
    dsimp only
    refine .of_move ?_
    split
    · rename_i hr; exact .work (expire_work (.inl hr))
    · split
      · exact .stays _ s
      · split
        · rename_i hf; exact .work (expire_work (.inr hf))
        · exact .work (handOnLoss_work postFirst)
  | referenceReturn =>
    cases h
    refine .whileOperating fun _ => .of_move ?_
    split
    · exact .work (refclkEdge_work s)
    · exact .stays _ s
  | storageChange i x =>
    cases h
    refine .of_move ?_
    split
    · exact .stays _ s
    · rename_i r hr; exact .storage rfl hr
  | scrubberVisit => cases h; exact .whileOperating fun _ => ⟨⟨s.port, s.scrub, s, s.port, _, .stays _ s, rfl⟩, id⟩
  | mismatchReport h' =>
    cases h
    refine .whileOperating fun _ => ?_
    split
    · have hm := takeReport_move h' { s with scrub := { s.scrub with reports := s.scrub.reports.erase h' } }
      exact ⟨⟨s.port, _, _, _, _, hm, rfl⟩, fun hp => hm.portSound hp⟩
    · exact .of_move (.stays _ s)
  | powerOnReset =>
    cases h
    exact .of_move (.reset (c := .powerOnReset) (b := true) (v := if s.supply = .inRange then .belowRange else s.supply)
      (x := { s.ref with gap := .fresh, goodPeriods := 0 }) trivial (.inr rfl) fun _ =>
        ⟨Nat.zero_le _, fun e => by simp at e, fun _ => rfl⟩)
  | resetInput => cases h; exact enterReset_moved (c := .resetInput) trivial s
  | resetRelease =>
    cases h
    split
    · rename_i hr
      refine .of_move (.reset (c := .resetRelease) trivial (.inl hr.1) fun h => ⟨h.1, fun _ => ?_, h.2.2⟩)
      dsimp only [supervisionAtRelease]
      split <;> simp [*]
    · exact .of_move (.stays _ s)
  | pinSample p level => cases h; exact .whileOperating fun _ => .of_move (.work (.setChannel (PinChannel.sample_subscribers _ _)))
  | baseTickEnd b =>
    cases h
    refine .whileOperating fun _ => .of_move ?_
    dsimp only
    split
    · rename_i hd; exact .work (baseTickEnd_work hd.2)
    · exact .stays _ s
  | goodPeriod => cases h; exact .of_move (.work (refclkEdge_work s))
  | vddAt1V2 rising =>
    cases h
    have supply : ∀ v, s.supply ≠ .inRange → Move (.vddAt1V2 rising) s { s with supply := v } := fun v hv =>
      .work { Work.refl _ s with
        supply := fun h => absurd h hv
        follows := ⟨List.prefix_refl _, id, id, id⟩
        timing := fun hb hc => ⟨hb, hc⟩ }
    refine .of_move ?_
    split
    · rename_i hv
      exact supply _ (by simp [hv.2])
    · split
      · rename_i hv
        exact supply _ (by simp [hv.2])
      · exact .stays _ s

end Sys2Proof.Machine
end

