-- ==== Sys2Proof/Proofs/TableEdits.lean ====
section
set_option Elab.async false
/-! PROOFS. What CREATE, RETIRE, ACK_NOTICE and an entry into CORRUPT leave of each slot, set and entry: one lemma per operation and
field. -/

namespace Sys2Proof.Machine

variable {s t : State} {i j : SlotIx} {r : Record} {o : CreateBytes}

theorem State.recordAt_eq_some : s.recordAt i = some r ↔ (s.slots[i.val]'i.isLt).body = .live r := by
  simp only [State.recordAt, Fin.getElem_fin]
  cases (s.slots[i.val]'i.isLt).body <;> simp

theorem State.recordAt_of_free (h : (s.slots[i.val]'i.isLt).body = .free) : s.recordAt i = none := by
  simp [State.recordAt, h]

theorem State.recordAt_congr_slot (h : t.slots[j.val]'j.isLt = s.slots[i.val]'i.isLt) : t.recordAt j = s.recordAt i := by
  simp [State.recordAt, h]

theorem State.contractAt_eq_some {h : Handle} :
    s.contractAt h = some r ↔ h = s.handleOf h.slot ∧ s.recordAt h.slot = some r := by
  obtain ⟨i, g⟩ := h
  simp only [State.contractAt, State.handleOf, Fin.getElem_fin, Handle.mk.injEq, true_and]
  split
  · rename_i e; simp [e]
  · rename_i e; simp [Ne.symm e]

/-! ## One slot edited -/

/-- A slot with its record edited, when it is LIVE. -/
def Slot.edit (x : Slot) (f : Record → Record) : Slot :=
  match x.body with
  | .live r => { x with body := .live (f r) }
  | _ => x

@[simp] theorem Slot.edit_generation (x : Slot) (f : Record → Record) : (x.edit f).generation = x.generation := by
  unfold Slot.edit; split <;> rfl

@[simp] theorem Slot.edit_free (x : Slot) (f : Record → Record) : (x.edit f).body = .free ↔ x.body = .free := by
  unfold Slot.edit; split <;> simp_all

@[simp] theorem Slot.edit_draining (x : Slot) (f : Record → Record) : (x.edit f).body = .draining ↔ x.body = .draining := by
  unfold Slot.edit; split <;> simp_all

@[simp] theorem Slot.edit_isLive (x : Slot) (f : Record → Record) : (x.edit f).body.isLive = x.body.isLive := by
  unfold Slot.edit; split <;> simp_all

theorem Slot.edit_live {x : Slot} {f : Record → Record} : (x.edit f).body = .live r ↔ ∃ q, x.body = .live q ∧ f q = r := by
  unfold Slot.edit
  cases hx : x.body <;> simp [hx]

theorem State.mapRecord_slot (s : State) (i : SlotIx) (f : Record → Record) (j : SlotIx) :
    (s.mapRecord i f).slots[j.val]'j.isLt = if j = i then (s.slots[j.val]'j.isLt).edit f else s.slots[j.val]'j.isLt := by
  by_cases e : j = i
  · subst e
    unfold State.mapRecord Slot.edit
    simp only [Fin.getElem_fin]
    cases hb : (s.slots[j.val]'j.isLt).body <;> simp
  · rw [if_neg e]
    unfold State.mapRecord
    split <;> simp [State.setSlot_get_ne, e]

@[simp] theorem Slot.edit_edit (x : Slot) (f g : Record → Record) : (x.edit f).edit g = x.edit (fun r => g (f r)) := by
  unfold Slot.edit
  cases hx : x.body <;> simp [hx]

theorem State.abandon_slot (s : State) (i j : SlotIx) : (s.abandon i).slots[j.val]'j.isLt =
    if j = i then (s.slots[j.val]'j.isLt).edit (fun r => { r with context := Context.initial }) else s.slots[j.val]'j.isLt := by
  rw [State.abandon, State.mapRecord_slot]

/-! ## Dependents counts -/

/-- A record with its dependents count changed. -/
def Record.recount (f : Nat → Nat) (r : Record) : Record := { r with dependents := f r.dependents }

/-- The slot whose handle is the parent named changes its count; every other slot stands (R114). -/
theorem State.adjustParent_slot (s : State) (p : Option Handle) (f : Nat → Nat) (j : SlotIx) :
    (s.adjustParent p f).slots[j.val]'j.isLt =
      if p = some (s.handleOf j) then (s.slots[j.val]'j.isLt).edit (Record.recount f) else s.slots[j.val]'j.isLt := by
  cases p with
  | none => rfl
  | some h =>
    have named : (some h = some (s.handleOf j)) ↔ (s.slots[h.slot.val]'h.slot.isLt).generation = h.generation ∧ j = h.slot := by
      obtain ⟨i, g⟩ := h
      simp only [State.handleOf, Option.some.injEq, Handle.mk.injEq, Fin.getElem_fin]
      exact ⟨fun ⟨e, e'⟩ => by subst e; exact ⟨e'.symm, rfl⟩, fun ⟨e, e'⟩ => by subst e'; exact ⟨rfl, e.symm⟩⟩
    rw [show s.adjustParent (some h) f = if (s.slots[h.slot.val]'h.slot.isLt).generation = h.generation then
      s.mapRecord h.slot (Record.recount f) else s from rfl]
    by_cases hg : (s.slots[h.slot.val]'h.slot.isLt).generation = h.generation
    · rw [if_pos hg, State.mapRecord_slot]
      exact if_congr (by rw [named]; exact (and_iff_right hg).symm) rfl rfl
    · rw [if_neg hg, if_neg (fun e => hg (named.1 e).1)]

/-- A change of a count leaves every field but the slots. -/
theorem State.adjustParent_keeps {β : Type} (get : State → β) (h : ∀ s i f, get (State.mapRecord s i f) = get s) (s : State)
    (p : Option Handle) (f : Nat → Nat) : get (s.adjustParent p f) = get s := by
  obtain e | ⟨_, _, _, e⟩ := s.adjustParent_cases p f <;> rw [e]
  exact h _ _ _

@[simp] theorem State.adjustParent_bases (s : State) (p : Option Handle) (f : Nat → Nat) : (s.adjustParent p f).bases = s.bases :=
  s.adjustParent_keeps State.bases (by simp) p f
@[simp] theorem State.adjustParent_pins (s : State) (p : Option Handle) (f : Nat → Nat) : (s.adjustParent p f).pins = s.pins :=
  s.adjustParent_keeps State.pins (by simp) p f
@[simp] theorem State.adjustParent_trips (s : State) (p : Option Handle) (f : Nat → Nat) : (s.adjustParent p f).trips = s.trips :=
  s.adjustParent_keeps State.trips (by simp) p f
@[simp] theorem State.adjustParent_notices (s : State) (p : Option Handle) (f : Nat → Nat) :
    (s.adjustParent p f).notices = s.notices := s.adjustParent_keeps State.notices (by simp) p f
@[simp] theorem State.adjustParent_observations (s : State) (p : Option Handle) (f : Nat → Nat) :
    (s.adjustParent p f).observations = s.observations := s.adjustParent_keeps State.observations (by simp) p f
@[simp] theorem State.adjustParent_ref (s : State) (p : Option Handle) (f : Nat → Nat) : (s.adjustParent p f).ref = s.ref :=
  s.adjustParent_keeps State.ref (by simp) p f
@[simp] theorem State.adjustParent_scrub (s : State) (p : Option Handle) (f : Nat → Nat) : (s.adjustParent p f).scrub = s.scrub :=
  s.adjustParent_keeps State.scrub (by simp) p f
@[simp] theorem State.adjustParent_port (s : State) (p : Option Handle) (f : Nat → Nat) : (s.adjustParent p f).port = s.port :=
  s.adjustParent_keeps State.port (by simp) p f
@[simp] theorem State.adjustParent_supply (s : State) (p : Option Handle) (f : Nat → Nat) : (s.adjustParent p f).supply = s.supply :=
  s.adjustParent_keeps State.supply (by simp) p f
@[simp] theorem State.adjustParent_inReset (s : State) (p : Option Handle) (f : Nat → Nat) :
    (s.adjustParent p f).inReset = s.inReset := s.adjustParent_keeps State.inReset (by simp) p f
@[simp] theorem State.adjustParent_pending (s : State) (p : Option Handle) (f : Nat → Nat) :
    (s.adjustParent p f).pending = s.pending := s.adjustParent_keeps State.pending (by simp) p f

/-! ## CREATE -/

/-- The parent that passes relation checks 1 and 2 is a LIVE contract, not oneshot, not DONE, not CORRUPT and no grandchild. -/
theorem createParentError_eq_none {p : Option Handle} : createParentError s p = none ↔
    ∀ h, p = some h → ∃ q, s.contractAt h = some q ∧ q.fixed.oneshot = false ∧ q.state ≠ .done ∧ q.state ≠ .corrupt ∧
      s.isGrandchild q = false := by
  unfold createParentError
  cases p with
  | none => simp
  | some h =>
    simp only [Option.some.injEq, forall_eq', State.contractAt]
    split
    · simp
    · rename_i hg
      rw [if_pos (Decidable.not_not.1 hg)]
      cases hq : s.recordAt h.slot with
      | none => simp
      | some q =>
        simp only [Option.some.injEq, exists_eq_left']
        split
        · rename_i hs
          simp only [reduceCtorEq, false_iff, not_and]
          intro h1 h2 h3
          simp [h1, h2, h3] at hs
        · rename_i hs
          split <;> simp_all

/-- The record that CREATE writes. -/
def State.created (s : State) (i : SlotIx) (o : CreateBytes) : Record := newRecord s o ((s.slots[i.val]'i.isLt).generation + 1)

@[simp] theorem State.created_fixed (s : State) (i : SlotIx) (o : CreateBytes) : (s.created i o).fixed = fixedOf o := rfl
@[simp] theorem State.created_limits (s : State) (i : SlotIx) (o : CreateBytes) :
    (s.created i o).limits = limitsOf o.limits := rfl
@[simp] theorem State.created_staged (s : State) (i : SlotIx) (o : CreateBytes) : (s.created i o).staged = none := rfl
@[simp] theorem State.created_context (s : State) (i : SlotIx) (o : CreateBytes) :
    (s.created i o).context = Context.initial := rfl
@[simp] theorem State.created_dependents (s : State) (i : SlotIx) (o : CreateBytes) : (s.created i o).dependents = 0 := rfl
theorem State.created_code (s : State) (i : SlotIx) (o : CreateBytes) :
    (s.created i o).checkCode = (s.created i o).freshCode ((s.slots[i.val]'i.isLt).generation + 1) := rfl

/-- The new contract stands as the blocking recomputation gives (R16). -/
theorem State.created_state_cases (s : State) (i : SlotIx) (o : CreateBytes) :
    isMeasuring (s.created i o).state = true ∨ isBlocked (s.created i o).state = true := by
  simp only [State.created, newRecord, Record.recode]
  generalize hb : s.blockingResult _ = c
  unfold State.blockingResult at hb
  split at hb
  · subst hb; exact .inr rfl
  · split at hb
    · subst hb; exact .inr rfl
    · split at hb
      · subst hb; exact .inr rfl
      · subst hb; exact .inl rfl

theorem State.created_bounded (s : State) (i : SlotIx) (o : CreateBytes) : (s.created i o).bounded := by
  refine ⟨Nat.zero_le _, Nat.zero_le _, ?_, Nat.zero_le _, le_refl _, ⟨Nat.zero_le _, Context.initial_bounded⟩, fun _ _ => rfl,
    fun _ _ => ⟨rfl, rfl⟩, fun h => by cases h⟩
  exact Nat.le_of_lt_succ (limitsOf o.limits).settle.isLt

theorem State.place_eq (s : State) (i : SlotIx) (o : CreateBytes) : s.place i o =
    (((s.setSlot i { generation := (s.slots[i.val]'i.isLt).generation + 1, body := .live (s.created i o) }).subscribePin
      (fixedOf o).pin i).subscribeBase (fixedOf o).base i).adjustParent (fixedOf o).parent oneMore := rfl

theorem State.place_slot_self (hp : createParentError s (parentOf o.parent) = none) (hi : (s.slots[i.val]'i.isLt).body = .free) :
    (s.place i o).slots[i.val]'i.isLt = ⟨(s.slots[i.val]'i.isLt).generation + 1, .live (s.created i o)⟩ := by
  have named : ∀ h, parentOf o.parent = some h → h.slot ≠ i := by
    rintro h hh rfl
    obtain ⟨q, hq, -⟩ := createParentError_eq_none.1 hp h hh
    obtain ⟨-, hq⟩ := State.contractAt_eq_some.1 hq
    simp [State.recordAt_of_free hi] at hq
  rw [State.place_eq, State.adjustParent_slot, if_neg]
  · simp
  · intro h; exact named _ h rfl

theorem State.place_slot_ne (s : State) (o : CreateBytes) (h : j ≠ i) : (s.place i o).slots[j.val]'j.isLt =
    if parentOf o.parent = some (s.handleOf j) then (s.slots[j.val]'j.isLt).edit (Record.recount oneMore) else s.slots[j.val]'j.isLt := by
  rw [State.place_eq, State.adjustParent_slot]
  have e : (((s.setSlot i ⟨(s.slots[i.val]'i.isLt).generation + 1, .live (s.created i o)⟩).subscribePin
      (fixedOf o).pin i).subscribeBase (fixedOf o).base i).slots[j.val]'j.isLt = s.slots[j.val]'j.isLt := by
    simp [State.setSlot_get_ne, h]
  rw [e]
  refine if_congr ?_ rfl rfl
  simp only [State.handleOf, Fin.getElem_fin, e]
  rfl

theorem State.place_base (s : State) (i : SlotIx) (o : CreateBytes) (b : BaseIx) : (s.place i o).bases[b.val]'b.isLt =
    if b = (fixedOf o).base then { (s.bases[b.val]'b.isLt) with subscribers := SlotSet.insert i (s.bases[b.val]'b.isLt).subscribers }
    else s.bases[b.val]'b.isLt := by
  rw [State.place_eq]
  simp [State.subscribeBase_base]

theorem State.place_channel (s : State) (i : SlotIx) (o : CreateBytes) (p : PinIx) : (s.place i o).pins[p.val]'p.isLt =
    if p = (fixedOf o).pin then { (s.pins[p.val]'p.isLt) with subscribers := SlotSet.insert i (s.pins[p.val]'p.isLt).subscribers }
    else s.pins[p.val]'p.isLt := by
  rw [State.place_eq]
  simp [State.subscribePin_channel]

@[simp] theorem State.place_trips (s : State) (i : SlotIx) (o : CreateBytes) : (s.place i o).trips = s.trips := by
  simp [State.place_eq]
@[simp] theorem State.place_notices (s : State) (i : SlotIx) (o : CreateBytes) : (s.place i o).notices = s.notices := by
  simp [State.place_eq]
@[simp] theorem State.place_observations (s : State) (i : SlotIx) (o : CreateBytes) :
    (s.place i o).observations = s.observations := by simp [State.place_eq]
@[simp] theorem State.place_ref (s : State) (i : SlotIx) (o : CreateBytes) : (s.place i o).ref = s.ref := by
  simp [State.place_eq]
@[simp] theorem State.place_scrub (s : State) (i : SlotIx) (o : CreateBytes) : (s.place i o).scrub = s.scrub := by
  simp [State.place_eq]
@[simp] theorem State.place_port (s : State) (i : SlotIx) (o : CreateBytes) : (s.place i o).port = s.port := by
  simp [State.place_eq]
@[simp] theorem State.place_supply (s : State) (i : SlotIx) (o : CreateBytes) : (s.place i o).supply = s.supply := by
  simp [State.place_eq]
@[simp] theorem State.place_inReset (s : State) (i : SlotIx) (o : CreateBytes) : (s.place i o).inReset = s.inReset := by
  simp [State.place_eq]
@[simp] theorem State.place_pending (s : State) (i : SlotIx) (o : CreateBytes) : (s.place i o).pending = s.pending := by
  simp [State.place_eq]

/-! ## RETIRE -/

theorem State.dropContract_slot_ne (s : State) (r : Record) (h : j ≠ i) : (s.dropContract i r).slots[j.val]'j.isLt =
    if r.fixed.parent = some (s.handleOf j) then (s.slots[j.val]'j.isLt).edit (Record.recount oneFewer) else s.slots[j.val]'j.isLt := by
  have e : ((((s.abandon i).unsubscribePins i).unsubscribeBases i).leaveMask i 0xF).slots[j.val]'j.isLt = s.slots[j.val]'j.isLt := by
    simp only [State.leaveMask_slots, State.unsubscribeBases_slots, State.unsubscribePins_slots]
    unfold State.abandon State.mapRecord
    split
    · rw [State.setSlot_get_ne _ _ _ h]
    · rfl
  have e' : ((((s.abandon i).unsubscribePins i).unsubscribeBases i).leaveMask i 0xF).handleOf j = s.handleOf j := by
    unfold State.handleOf; simp only [Fin.getElem_fin]; rw [e]
  rw [State.dropContract, State.adjustParent_slot, e, e']

@[simp] theorem State.dropContract_generation (s : State) (i : SlotIx) (r : Record) (j : SlotIx) :
    ((s.dropContract i r).slots[j.val]'j.isLt).generation = (s.slots[j.val]'j.isLt).generation := by
  rw [State.dropContract, State.adjustParent_slot]
  split <;> simp

@[simp] theorem State.dropContract_notices (s : State) (i : SlotIx) (r : Record) : (s.dropContract i r).notices = s.notices := by
  simp [State.dropContract]

@[simp] theorem State.dropContract_hasEntry (s : State) (i : SlotIx) (r : Record) (j : SlotIx) :
    (s.dropContract i r).hasEntry j = s.hasEntry j := by simp [State.hasEntry]

/-- The entry of a slot that has one takes RETIRED; a slot that has none gains none (R19). -/
theorem State.retireContract_eq (s : State) (i : SlotIx) (r : Record) : s.retireContract i r =
    if s.hasEntry i then
      ((s.dropContract i r).post i .retired).setSlot i { generation := (s.slots[i.val]'i.isLt).generation, body := .draining }
    else (s.dropContract i r).setSlot i { generation := (s.slots[i.val]'i.isLt).generation, body := .free } := by
  simp [State.retireContract]

theorem State.retireContract_slot_self (s : State) (i : SlotIx) (r : Record) : (s.retireContract i r).slots[i.val]'i.isLt =
    ⟨(s.slots[i.val]'i.isLt).generation, if s.hasEntry i then .draining else .free⟩ := by
  rw [State.retireContract_eq]
  split <;> simp

theorem State.retireContract_slot_ne (s : State) (r : Record) (h : j ≠ i) : (s.retireContract i r).slots[j.val]'j.isLt =
    if r.fixed.parent = some (s.handleOf j) then (s.slots[j.val]'j.isLt).edit (Record.recount oneFewer) else s.slots[j.val]'j.isLt := by
  rw [State.retireContract_eq, ← State.dropContract_slot_ne s r h]
  split <;> simp [State.setSlot_get_ne, h]

theorem State.retireContract_base (s : State) (i : SlotIx) (r : Record) (b : BaseIx) :
    (s.retireContract i r).bases[b.val]'b.isLt =
      { (s.bases[b.val]'b.isLt) with subscribers := SlotSet.erase i (s.bases[b.val]'b.isLt).subscribers } := by
  rw [State.retireContract_eq]
  split <;> simp [State.dropContract, State.unsubscribeBases_base]

theorem State.retireContract_channel (s : State) (i : SlotIx) (r : Record) (p : PinIx) :
    (s.retireContract i r).pins[p.val]'p.isLt =
      { (s.pins[p.val]'p.isLt) with subscribers := SlotSet.erase i (s.pins[p.val]'p.isLt).subscribers } := by
  rw [State.retireContract_eq]
  split <;> simp [State.dropContract, State.unsubscribePins_channel]

theorem getLsbD_allOnes4 (l : LineIx) : (0xF#4).getLsbD l.val = true := by revert l; decide

theorem State.retireContract_line (s : State) (i : SlotIx) (r : Record) (l : LineIx) :
    (s.retireContract i r).trips[l.val]'l.isLt = (s.trips[l.val]'l.isLt).leave i := by
  rw [State.retireContract_eq]
  split <;> simp [State.dropContract, State.leaveMask_line, getLsbD_allOnes4]

theorem State.retireContract_notices (s : State) (i : SlotIx) (r : Record) : (s.retireContract i r).notices =
    if s.hasEntry i then addContractKinds i (s.slots[i.val]'i.isLt).generation (noticeBit .retired) s.notices else s.notices := by
  rw [State.retireContract_eq]
  split <;> simp [State.post]

@[simp] theorem State.retireContract_observations (s : State) (i : SlotIx) (r : Record) :
    (s.retireContract i r).observations = s.observations.filter (fun o => o.handle ≠ s.handleOf i) := by
  rw [State.retireContract_eq]
  split <;> simp [State.dropContract]

@[simp] theorem State.retireContract_ref (s : State) (i : SlotIx) (r : Record) : (s.retireContract i r).ref = s.ref := by
  rw [State.retireContract_eq]; split <;> simp [State.dropContract]
@[simp] theorem State.retireContract_scrub (s : State) (i : SlotIx) (r : Record) : (s.retireContract i r).scrub = s.scrub := by
  rw [State.retireContract_eq]; split <;> simp [State.dropContract]
@[simp] theorem State.retireContract_port (s : State) (i : SlotIx) (r : Record) : (s.retireContract i r).port = s.port := by
  rw [State.retireContract_eq]; split <;> simp [State.dropContract]
@[simp] theorem State.retireContract_supply (s : State) (i : SlotIx) (r : Record) : (s.retireContract i r).supply = s.supply := by
  rw [State.retireContract_eq]; split <;> simp [State.dropContract]
@[simp] theorem State.retireContract_inReset (s : State) (i : SlotIx) (r : Record) :
    (s.retireContract i r).inReset = s.inReset := by rw [State.retireContract_eq]; split <;> simp [State.dropContract]
@[simp] theorem State.retireContract_pending (s : State) (i : SlotIx) (r : Record) :
    (s.retireContract i r).pending = s.pending := by rw [State.retireContract_eq]; split <;> simp [State.dropContract]

/-! ## An entry into CORRUPT -/

/-- The record of a contract that has entered CORRUPT: its measurement gone if it measured, every other field kept (R51). -/
def Record.corrupted (measured : Bool) (r : Record) : Record :=
  { r with context := if measured then Context.initial else r.context, state := .corrupt }

theorem State.markCorrupt_slot (s : State) (i : SlotIx) (r : Record) (j : SlotIx) : (s.markCorrupt i r).slots[j.val]'j.isLt =
    if j = i then (s.slots[j.val]'j.isLt).edit (Record.corrupted (s.measures r)) else s.slots[j.val]'j.isLt := by
  unfold State.markCorrupt
  simp only [State.post_slots, State.joinMask_slots]
  rw [State.mapRecord_slot]
  simp only [State.unsubscribeBases_slots, State.unsubscribePins_slots]
  by_cases e : j = i
  · rw [if_pos e, if_pos e]
    split
    · rename_i hm; simp only [State.abandon_slot, if_pos e, Slot.edit_edit, hm]; rfl
    · rename_i hm; simp only [Bool.not_eq_true] at hm; simp only [hm]; rfl
  · rw [if_neg e, if_neg e]
    split
    · rw [State.abandon_slot, if_neg e]
    · rfl

/-- An entry into CORRUPT leaves every field that no part of it edits. -/
theorem State.markCorrupt_abandoned {β : Type} (get : State → β) (h : ∀ s i, get (State.abandon s i) = get s) (s : State)
    (r : Record) (i : SlotIx) : get (if s.measures r then s.abandon i else s) = get s := by
  split
  · exact h s i
  · rfl

theorem State.markCorrupt_base (s : State) (i : SlotIx) (r : Record) (b : BaseIx) : (s.markCorrupt i r).bases[b.val]'b.isLt =
    { (s.bases[b.val]'b.isLt) with subscribers := SlotSet.erase i (s.bases[b.val]'b.isLt).subscribers } := by
  have e := State.markCorrupt_abandoned State.bases State.abandon_bases s r i
  simp [State.markCorrupt, State.unsubscribeBases_base, e]

theorem State.markCorrupt_channel (s : State) (i : SlotIx) (r : Record) (p : PinIx) : (s.markCorrupt i r).pins[p.val]'p.isLt =
    { (s.pins[p.val]'p.isLt) with subscribers := SlotSet.erase i (s.pins[p.val]'p.isLt).subscribers } := by
  have e := State.markCorrupt_abandoned State.pins State.abandon_pins s r i
  simp [State.markCorrupt, State.unsubscribePins_channel, e]

theorem State.markCorrupt_line (s : State) (i : SlotIx) (r : Record) (l : LineIx) :
    (s.markCorrupt i r).trips[l.val]'l.isLt = (s.trips[l.val]'l.isLt).join i := by
  have e := State.markCorrupt_abandoned State.trips State.abandon_trips s r i
  simp [State.markCorrupt, State.joinMask_line, getLsbD_allOnes4, e]

theorem State.markCorrupt_notices (s : State) (i : SlotIx) (r : Record) : (s.markCorrupt i r).notices =
    addContractKinds i (s.slots[i.val]'i.isLt).generation (noticeBit .corrupt) s.notices := by
  have e := State.markCorrupt_abandoned State.notices State.abandon_notices s r i
  have e' := State.markCorrupt_abandoned (fun s => (s.slots[i.val]'i.isLt).generation) (fun s k => State.abandon_generation s k i) s r i
  simp [State.markCorrupt, State.post, e, e']

@[simp] theorem State.markCorrupt_ref (s : State) (i : SlotIx) (r : Record) : (s.markCorrupt i r).ref = s.ref := by
  simpa [State.markCorrupt] using State.markCorrupt_abandoned State.ref State.abandon_ref s r i
@[simp] theorem State.markCorrupt_scrub (s : State) (i : SlotIx) (r : Record) : (s.markCorrupt i r).scrub = s.scrub := by
  simpa [State.markCorrupt] using State.markCorrupt_abandoned State.scrub State.abandon_scrub s r i
@[simp] theorem State.markCorrupt_port (s : State) (i : SlotIx) (r : Record) : (s.markCorrupt i r).port = s.port := by
  simpa [State.markCorrupt] using State.markCorrupt_abandoned State.port State.abandon_port s r i
@[simp] theorem State.markCorrupt_supply (s : State) (i : SlotIx) (r : Record) : (s.markCorrupt i r).supply = s.supply := by
  simpa [State.markCorrupt] using State.markCorrupt_abandoned State.supply State.abandon_supply s r i
@[simp] theorem State.markCorrupt_inReset (s : State) (i : SlotIx) (r : Record) : (s.markCorrupt i r).inReset = s.inReset := by
  simpa [State.markCorrupt] using State.markCorrupt_abandoned State.inReset State.abandon_inReset s r i
@[simp] theorem State.markCorrupt_pending (s : State) (i : SlotIx) (r : Record) : (s.markCorrupt i r).pending = s.pending := by
  simpa [State.markCorrupt] using State.markCorrupt_abandoned State.pending State.abandon_pending s r i

/-! ## ACK_NOTICE -/

theorem State.releaseSlot_of_draining (h : (s.slots[i.val]'i.isLt).body = .draining) :
    s.releaseSlot i = s.setSlot i ⟨(s.slots[i.val]'i.isLt).generation, .free⟩ := if_pos h

theorem State.releaseSlot_of_ne (h : (s.slots[i.val]'i.isLt).body ≠ .draining) : s.releaseSlot i = s := if_neg h

theorem State.releaseSlot_slot (s : State) (i j : SlotIx) : (s.releaseSlot i).slots[j.val]'j.isLt =
    if j = i ∧ (s.slots[j.val]'j.isLt).body = .draining then ⟨(s.slots[j.val]'j.isLt).generation, .free⟩ else s.slots[j.val]'j.isLt := by
  by_cases hb : (s.slots[i.val]'i.isLt).body = .draining
  · rw [State.releaseSlot_of_draining hb]
    by_cases e : j = i
    · subst e; simp [hb]
    · simp [State.setSlot_get_ne, e]
  · rw [State.releaseSlot_of_ne hb, if_neg]
    rintro ⟨rfl, h⟩
    exact hb h

theorem State.ackContract_eq (s : State) (i : SlotIx) (left : BitVec 7) : s.ackContract i left =
    if left = 0 then { s with notices := leaveContractKinds i left s.notices }.releaseSlot i
    else { s with notices := leaveContractKinds i left s.notices } := rfl

theorem State.ackContract_slot (s : State) (i : SlotIx) (left : BitVec 7) (j : SlotIx) :
    (s.ackContract i left).slots[j.val]'j.isLt =
      if j = i ∧ left = 0 ∧ (s.slots[j.val]'j.isLt).body = .draining then ⟨(s.slots[j.val]'j.isLt).generation, .free⟩ else s.slots[j.val]'j.isLt := by
  rw [State.ackContract_eq]
  split
  · rename_i e
    rw [State.releaseSlot_slot]
    exact if_congr (by simp [e]) rfl rfl
  · rename_i e; exact (if_neg (fun h => e h.2.1)).symm

/-- An acknowledgement leaves every field but the slots and the queue. -/
theorem State.ackContract_keeps {β : Type} (get : State → β) (hs : ∀ s i x, get (State.setSlot s i x) = get s)
    (hn : ∀ (s : State) q, get { s with notices := q } = get s) (s : State) (i : SlotIx) (left : BitVec 7) :
    get (s.ackContract i left) = get s := by
  unfold State.ackContract State.releaseSlot
  dsimp only
  split
  · split
    · rw [hs, hn]
    · exact hn _ _
  · exact hn _ _

theorem State.ackContract_notices (s : State) (i : SlotIx) (left : BitVec 7) :
    (s.ackContract i left).notices = leaveContractKinds i left s.notices := by
  unfold State.ackContract State.releaseSlot
  dsimp only
  split
  · split <;> rfl
  · rfl

theorem leaveContractKinds_sublist (i : SlotIx) (left : BitVec 7) (q : List NoticeEntry) :
    ((leaveContractKinds i left q).map NoticeEntry.owner).Sublist (q.map NoticeEntry.owner) := by
  induction q with
  | nil => exact List.Sublist.refl _
  | cons e t ih =>
    cases e with
    | device ks => exact ih.cons_cons _
    | contract j g ks =>
      simp only [leaveContractKinds]
      split
      · split
        · exact List.sublist_cons_self _ _
        · exact List.Sublist.refl _
      · exact ih.cons_cons _

theorem leaveDeviceKinds_sublist (left : BitVec 3) (q : List NoticeEntry) :
    ((leaveDeviceKinds left q).map NoticeEntry.owner).Sublist (q.map NoticeEntry.owner) := by
  induction q with
  | nil => exact List.Sublist.refl _
  | cons e t ih =>
    cases e with
    | contract j g ks => exact ih.cons_cons _
    | device ks =>
      simp only [leaveDeviceKinds]
      split
      · exact List.sublist_cons_self _ _
      · exact List.Sublist.refl _

/-- Whether two entries differ is a matter of their owners. -/
theorem NoticeEntry.differ_iff (a b : NoticeEntry) : a.differ b ↔ a.owner ≠ b.owner := by
  cases a <;> cases b <;> simp [NoticeEntry.differ, NoticeEntry.owner]

theorem pairwise_differ_iff (q : List NoticeEntry) : q.Pairwise NoticeEntry.differ ↔ (q.map NoticeEntry.owner).Nodup := by
  simp only [List.Nodup, List.pairwise_map, ← NoticeEntry.differ_iff]

theorem any_isOf_iff (i : SlotIx) (q : List NoticeEntry) :
    q.any (NoticeEntry.isOf i) = true ↔ some i ∈ q.map NoticeEntry.owner := by
  induction q with
  | nil => simp
  | cons e t ih =>
    rw [List.any_cons, List.map_cons, List.mem_cons, Bool.or_eq_true, ih]
    cases e <;> simp [NoticeEntry.isOf, NoticeEntry.owner, eq_comm]

/-- A slot has an entry exactly when it is an owner. -/
theorem State.hasEntry_iff (s : State) (i : SlotIx) : s.hasEntry i = true ↔ some i ∈ s.owners := any_isOf_iff i _

theorem leaveContractKinds_owner (i : SlotIx) {left : BitVec 7} (q : List NoticeEntry) {j : SlotIx}
    (h : some j ∈ q.map NoticeEntry.owner) (hj : j ≠ i ∨ left ≠ 0) :
    some j ∈ (leaveContractKinds i left q).map NoticeEntry.owner := by
  induction q with
  | nil => cases h
  | cons e t ih =>
    cases e with
    | device ks =>
      simp only [leaveContractKinds, List.map_cons, List.mem_cons] at h ⊢
      exact h.imp id ih
    | contract k g ks =>
      simp only [leaveContractKinds]
      simp only [List.map_cons, List.mem_cons, NoticeEntry.owner, Option.some.injEq] at h
      split
      · rename_i e; subst e
        split
        · rename_i hl
          exact h.resolve_left (hj.resolve_right (fun h => h hl))
        · exact List.mem_cons.2 (h.imp (congrArg some) id)
      · exact List.mem_cons.2 (h.imp (congrArg some) ih)

/-- The entry acknowledged whole leaves the queue with its owner. -/
theorem leaveContractKinds_gone (i : SlotIx) {q : List NoticeEntry} (h : (q.map NoticeEntry.owner).Nodup) :
    some i ∉ (leaveContractKinds i 0 q).map NoticeEntry.owner := by
  induction q with
  | nil => simp [leaveContractKinds]
  | cons e t ih =>
    rw [List.map_cons, List.nodup_cons] at h
    cases e with
    | device ks => simpa [leaveContractKinds, NoticeEntry.owner] using ih h.2
    | contract k g ks =>
      simp only [leaveContractKinds]
      split
      · rename_i e; subst e; exact h.1
      · rename_i hk
        rw [List.map_cons, List.mem_cons, not_or]
        exact ⟨fun e => hk (Option.some.inj e).symm, ih h.2⟩

theorem leaveContractKinds_nonempty {i : SlotIx} {left : BitVec 7} {q : List NoticeEntry} (h : ∀ e ∈ q, e.nonempty) :
    ∀ e ∈ leaveContractKinds i left q, e.nonempty := by
  induction q with
  | nil => exact h
  | cons e t ih =>
    obtain ⟨he, ht⟩ := List.forall_mem_cons.1 h
    cases e with
    | device ks => exact List.forall_mem_cons.2 ⟨he, ih ht⟩
    | contract j g ks =>
      simp only [leaveContractKinds]
      split
      · split
        · exact ht
        · rename_i hl; exact List.forall_mem_cons.2 ⟨hl, ht⟩
      · exact List.forall_mem_cons.2 ⟨he, ih ht⟩

theorem leaveDeviceKinds_nonempty {left : BitVec 3} {q : List NoticeEntry} (h : ∀ e ∈ q, e.nonempty) :
    ∀ e ∈ leaveDeviceKinds left q, e.nonempty := by
  induction q with
  | nil => exact h
  | cons e t ih =>
    obtain ⟨he, ht⟩ := List.forall_mem_cons.1 h
    cases e with
    | contract j g ks => exact List.forall_mem_cons.2 ⟨he, ih ht⟩
    | device ks =>
      simp only [leaveDeviceKinds]
      split
      · exact ht
      · rename_i hl; exact List.forall_mem_cons.2 ⟨hl, ht⟩

theorem leaveDeviceKinds_owner {left : BitVec 3} {q : List NoticeEntry} {j : SlotIx} :
    some j ∈ (leaveDeviceKinds left q).map NoticeEntry.owner ↔ some j ∈ q.map NoticeEntry.owner := by
  induction q with
  | nil => rfl
  | cons e t ih =>
    cases e with
    | contract k g ks => simpa [leaveDeviceKinds] using or_congr_right ih
    | device ks => simp only [leaveDeviceKinds]; split <;> simp [NoticeEntry.owner]

theorem leaveContractKinds_mem {i j : SlotIx} {left ks : BitVec 7} {g : Byte} {q : List NoticeEntry}
    (h : .contract j g ks ∈ leaveContractKinds i left q) : ∃ ks0, .contract j g ks0 ∈ q := by
  induction q with
  | nil => cases h
  | cons e t ih =>
    have tail := fun (h : NoticeEntry.contract j g ks ∈ leaveContractKinds i left t) =>
      (ih h).imp fun k0 h0 => List.mem_cons_of_mem e h0
    cases e with
    | device ds =>
      simp only [leaveContractKinds, List.mem_cons, reduceCtorEq, false_or] at h
      exact tail h
    | contract k g' ks' =>
      simp only [leaveContractKinds] at h
      split at h
      · split at h
        · exact ⟨ks, List.mem_cons_of_mem _ h⟩
        · rcases List.mem_cons.1 h with e | h
          · cases e; exact ⟨ks', List.mem_cons_self⟩
          · exact ⟨ks, List.mem_cons_of_mem _ h⟩
      · rcases List.mem_cons.1 h with e | h
        · cases e; exact ⟨ks, List.mem_cons_self⟩
        · exact tail h

theorem leaveDeviceKinds_mem {j : SlotIx} {left : BitVec 3} {ks : BitVec 7} {g : Byte} {q : List NoticeEntry} :
    .contract j g ks ∈ leaveDeviceKinds left q ↔ .contract j g ks ∈ q := by
  induction q with
  | nil => rfl
  | cons e t ih =>
    cases e with
    | contract k g' ks' => simp [leaveDeviceKinds, ih]
    | device ds => simp only [leaveDeviceKinds]; split <;> simp

end Sys2Proof.Machine
end

