-- ==== Sys2Proof/Proofs/Invariants.lean ====
section
set_option Elab.async false
/-! PROOFS. What every step keeps: the sets, the queue, the bases and the checker, the records, the tree, the slots and the flags. Each
invariant has one lemma over `Move`. -/

namespace Sys2Proof.Machine

variable {s t u : State} {i j : SlotIx} {r r' : Record} {c : Instr}

/-- A step idles on an empty queue, or makes the move of the command at its front, beside which the port and the scrubber may
change. -/
theorem step_move (h : step s = .next t) : (s.pending = [] ∧ t = s) ∨ ∃ c rest p x u q y, s.pending = c :: rest ∧
    Move c { s with port := p, scrub := x, pending := rest } u ∧ t = { u with port := q, scrub := y } := by
  unfold step at h
  split at h
  · rename_i hp; cases h; exact .inl ⟨hp, rfl⟩
  · rename_i c rest hp
    obtain ⟨p, x, u, q, y, hm, ht⟩ := (exec_moved h).move
    exact .inr ⟨c, rest, p, x, u, q, y, hp, hm, ht⟩

/-- A property that is blind to the port, the scrubber and the commands that wait, and that every move keeps, is kept by every step. -/
theorem step_keeps {P : State → Prop} (blind : ∀ s p x l, P { s with port := p, scrub := x, pending := l } ↔ P s)
    (hm : ∀ {c s t}, Move c s t → P s → P t) (hs : P s) (h : step s = .next t) : P t := by
  obtain ⟨-, rfl⟩ | ⟨c, rest, p, x, u, q, y, -, hmove, rfl⟩ := step_move h
  · exact hs
  · exact (blind u q y u.pending).2 (hm hmove ((blind s p x rest).2 hs))

/-- A command or event that is not a change in storage. -/
def Instr.isStorage : Instr → Bool
  | .storageChange _ _ => true
  | _ => false

theorem State.storageHolds_front {rest : List Instr} (h : s.storageHolds) (hp : s.pending = c :: rest) :
    Instr.isStorage c = false := by
  cases c <;> first | rfl | exact absurd hp (h _ _ _)

/-- The same for a property that a change in storage may end. -/
theorem step_keeps_of_storageHolds {P : State → Prop}
    (blind : ∀ s p x l, P { s with port := p, scrub := x, pending := l } ↔ P s)
    (hm : ∀ {c s t}, Instr.isStorage c = false → Move c s t → P s → P t) (hs : P s) (hst : s.storageHolds)
    (h : step s = .next t) : P t := by
  obtain ⟨-, rfl⟩ | ⟨c, rest, p, x, u, q, y, hp, hmove, rfl⟩ := step_move h
  · exact hs
  · exact (blind u q y u.pending).2 (hm (State.storageHolds_front hst hp) hmove ((blind s p x rest).2 hs))

/-! ## The sets -/

theorem Work.setsCanonical {m : SlotIx → Prop} (h : Work m s t) (hs : s.setsCanonical) : t.setsCanonical := by
  obtain ⟨hb, hp, hl⟩ := hs
  refine ⟨fun b => ?_, fun p => ?_, fun l => (h.line l).canonical (hl l)⟩
  · rw [Fin.getElem_fin, h.baseSet]; exact hb b
  · rw [Fin.getElem_fin, h.pinSet]; exact hp p

theorem Move.setsCanonical (h : Move c s t) (hs : s.setsCanonical) : t.setsCanonical := by
  obtain ⟨hb, hp, hl⟩ := id hs
  simp only [Fin.getElem_fin] at hb hp hl
  have length_le := fun (i : SlotIx) (p : PinIx) =>
    (SlotSet.length_erase_le i (s.pins[p.val]'p.isLt).subscribers).trans (hp p).2
  cases h with
  | work h => exact h.setsCanonical hs
  | @release _ _ l _ _ _ _ =>
    refine ⟨hb, hp, fun k => ?_⟩
    rw [Fin.getElem_fin]
    by_cases e : k = l
    · subst e; simpa using hl k
    · simpa [State.setLine_get_ne, e] using hl k
  | @create _ o i _ _ _ hpin _ =>
    simp only [State.setsCanonical, Fin.getElem_fin, State.place_base, State.place_channel, State.place_trips]
    refine ⟨fun b => ?_, fun p => ?_, hl⟩
    · split
      · exact (hb b).insert
      · exact hb b
    · split
      · rename_i e
        exact ⟨(hp p).1.insert, (SlotSet.length_insert_le _ _).trans (by rw [e]; exact hpin)⟩
      · exact hp p
  | @retire _ _ _ i r =>
    simp only [State.setsCanonical, Fin.getElem_fin, State.retireContract_base, State.retireContract_channel,
      State.retireContract_line]
    exact ⟨fun b => (hb b).erase, fun p => ⟨(hp p).1.erase, length_le i p⟩, fun l => (hl l).erase⟩
  | wipe =>
    simp only [State.setsCanonical, Fin.getElem_fin, State.wipe_base, State.wipe_channel, State.wipe_line]
    exact ⟨fun _ => SlotSet.canonical_nil, fun _ => ⟨SlotSet.canonical_nil, Nat.zero_le _⟩, fun _ => SlotSet.canonical_nil⟩
  | ackDevice => exact hs
  | @ackContract _ _ _ i _ _ left =>
    exact s.ackContract_keeps (fun s => s.setsCanonical) (fun _ _ _ => rfl) (fun _ _ => rfl) i left ▸ hs
  | @corrupt h r _ _ _ _ ht =>
    refine ht.setsCanonical ?_
    simp only [State.setsCanonical, Fin.getElem_fin, State.markCorrupt_base, State.markCorrupt_channel, State.markCorrupt_line]
    exact ⟨fun b => (hb b).erase, fun p => ⟨(hp p).1.erase, length_le _ p⟩, fun l => (hl l).insert⟩
  | storage => exact hs
  | reset =>
    simp only [State.setsCanonical, Fin.getElem_fin, State.resetBlocks_base, State.resetBlocks_pin, State.resetBlocks_line]
    exact ⟨fun _ => SlotSet.canonical_nil, fun _ => ⟨SlotSet.canonical_nil, Nat.zero_le _⟩, fun _ => SlotSet.canonical_nil⟩

/-- Settles O5. -/
theorem setsStayCanonical : Obligations.SetsStayCanonical :=
  fun _ _ hs h => step_keeps (fun _ _ _ _ => Iff.rfl) Move.setsCanonical hs h

/-! ## The bases and the checker -/

/-- What is sound of the bases is not of their sets. -/
theorem State.basesSound_of_sets (hr : t.ref = s.ref)
    (hb : ∀ b : BaseIx, ∃ l, t.bases[b.val]'b.isLt = { (s.bases[b.val]'b.isLt) with subscribers := l }) (h : s.basesSound) : t.basesSound := by
  rw [State.basesSound_iff] at h ⊢
  intro b
  obtain ⟨l, e⟩ := hb b
  rw [e, hr]
  exact h b

theorem State.checkerSound_congr (hr : t.ref = s.ref) (hi : t.inReset = s.inReset) (h : s.checkerSound) : t.checkerSound := by
  simpa only [State.checkerSound, hr, hi] using h

theorem Move.timingSound (h : Move c s t) (hs : s.basesSound ∧ s.checkerSound) : t.basesSound ∧ t.checkerSound := by
  obtain ⟨hb, hc⟩ := id hs
  cases h with
  | work h => exact h.timing hb hc
  | release => exact hs
  | @create _ o i =>
    refine ⟨State.basesSound_of_sets (by simp) (fun b => ?_) hb, State.checkerSound_congr (by simp) (by simp) hc⟩
    rw [State.place_base]
    split
    · exact ⟨_, rfl⟩
    · exact ⟨(s.bases[b.val]'b.isLt).subscribers, rfl⟩
  | retire => exact ⟨State.basesSound_of_sets (by simp) (fun b => ⟨_, State.retireContract_base ..⟩) hb,
      State.checkerSound_congr (by simp) (by simp) hc⟩
  | wipe => exact ⟨State.basesSound_of_sets (by simp) (fun b => ⟨_, State.wipe_base s b⟩) hb,
      State.checkerSound_congr (by simp) (by simp) hc⟩
  | ackDevice => exact hs
  | @ackContract _ _ _ i _ _ left =>
    exact s.ackContract_keeps (fun s => s.basesSound ∧ s.checkerSound) (fun _ _ _ => rfl) (fun _ _ => rfl) i left ▸ hs
  | corrupt _ _ _ ht =>
    exact ht.timing (State.basesSound_of_sets (by simp) (fun b => ⟨_, State.markCorrupt_base ..⟩) hb)
      (State.checkerSound_congr (by simp) (by simp) hc)
  | storage => exact hs
  | reset _ _ hx =>
    refine ⟨fun b => ?_, hx hc⟩
    rw [Fin.getElem_fin, State.resetBlocks_base]
    exact ⟨by decide, fun e => by simp [TimeBase.atReset] at e, fun e => by simp [TimeBase.atReset] at e⟩

/-- Settles O7. -/
theorem basesAndCheckerStaySound : Obligations.BasesAndCheckerStaySound := fun _ _ hb hc h =>
  step_keeps (P := fun s => s.basesSound ∧ s.checkerSound) (fun _ _ _ _ => Iff.rfl) Move.timingSound ⟨hb, hc⟩ h

/-! ## The records -/

/-- What a move keeps of a record that stays: with a change in storage, the bounds of its counters alone. -/
structure RecordMoved (storage : Bool) (g g' : Byte) (r r' : Record) : Prop where
  bounded : r.bounded → r'.bounded
  fixed : storage = false → r'.fixed = r.fixed
  fit : storage = false → r.context.fit r.fixed.kind → r'.context.fit r'.fixed.kind
  code : storage = false → r.checkCode = r.freshCode g → r'.checkCode = r'.freshCode g'

theorem RecordMoved.of_worked {m : Prop} {g : Byte} {b : Bool} (h : RecordWorked m g r r') : RecordMoved b g g r r' :=
  ⟨h.bounded, fun _ => h.fixed, fun _ => h.fit, fun _ => h.code⟩

theorem RecordMoved.refl (b : Bool) (g : Byte) (r : Record) : RecordMoved b g g r r := ⟨id, fun _ => rfl, fun _ => id, fun _ => id⟩

theorem RecordMoved.trans {b : Bool} {g1 g2 g3 : Byte} {r1 r2 r3 : Record} (h : RecordMoved b g1 g2 r1 r2)
    (k : RecordMoved b g2 g3 r2 r3) : RecordMoved b g1 g3 r1 r3 :=
  ⟨k.bounded ∘ h.bounded, fun e => (k.fixed e).trans (h.fixed e), fun e => k.fit e ∘ h.fit e, fun e => k.code e ∘ h.code e⟩

theorem RecordMoved.recount {f : Nat → Nat} (hf : ∀ n ≤ 63, f n ≤ 63) (b : Bool) (g : Byte) (r : Record) :
    RecordMoved b g g r (r.recount f) :=
  ⟨fun ⟨h1, h2, h3, h4, h5, ⟨h6, h6'⟩, h7⟩ => ⟨h1, h2, h3, h4, h5, ⟨hf _ h6, h6'⟩, h7⟩, fun _ => rfl, fun _ => id, fun _ => id⟩

theorem RecordMoved.corrupted (m b : Bool) (g : Byte) (r : Record) : RecordMoved b g g r (r.corrupted m) where
  bounded := fun ⟨h1, h2, h3, h4, h5, ⟨h6, h6'⟩, _, _, h9⟩ => by
    refine ⟨h1, h2, h3, h4, h5, ⟨h6, ?_⟩, fun _ e => absurd rfl e, fun _ e => absurd rfl e, h9⟩
    unfold Record.corrupted
    dsimp only
    split
    · exact Context.initial_bounded
    · exact h6'
  fixed := fun _ => rfl
  fit := fun _ h => by
    unfold Record.corrupted
    dsimp only
    split
    · exact Context.initial_fit _
    · exact h
  code := fun _ => id

theorem StorageFault.apply_bounded (g : Byte) (r : Record) (x : StorageFault) (h : r.bounded) :
    (StorageFault.apply g r x).2.bounded := by
  cases x <;> exact h

/-- A record that a slot holds after an ordinary step comes from the one that it held. -/
theorem Work.record {m : SlotIx → Prop} (h : Work m s t) (hr : t.recordAt j = some r') : ∃ r, s.recordAt j = some r ∧
    (t.slots[j.val]'j.isLt).generation = (s.slots[j.val]'j.isLt).generation ∧ RecordWorked (m j) (s.slots[j.val]'j.isLt).generation r r' := by
  rw [State.recordAt_eq_some] at hr
  simp only [State.recordAt_eq_some]
  have hw := h.slot j
  generalize (s.slots[j.val]'j.isLt) = x, t.slots[j.val]'j.isLt = y at hw hr ⊢
  cases hw with
  | free => cases hr
  | draining => cases hr
  | live g hw => cases hr; exact ⟨_, rfl, rfl, hw⟩

theorem Work.record_of {m : SlotIx → Prop} (h : Work m s t) (hr : s.recordAt j = some r) : ∃ r', t.recordAt j = some r' ∧
    RecordWorked (m j) (s.slots[j.val]'j.isLt).generation r r' := by
  rw [State.recordAt_eq_some] at hr
  simp only [State.recordAt_eq_some]
  have hw := h.slot j
  generalize (s.slots[j.val]'j.isLt) = x, t.slots[j.val]'j.isLt = y at hw hr ⊢
  cases hw with
  | free => cases hr
  | draining => cases hr
  | live g hw => cases hr; exact ⟨_, rfl, hw⟩

/-- What a slot's record comes from when the slot stood, or its record was edited. -/
theorem RecordMoved.of_edit {b : Bool} {p : Prop} [Decidable p] {f : Record → Record}
    (e : t.slots[j.val]'j.isLt = if p then (s.slots[j.val]'j.isLt).edit f else s.slots[j.val]'j.isLt) (hf : ∀ g r, RecordMoved b g g r (f r))
    (hr : t.recordAt j = some r') : ∃ r, s.recordAt j = some r ∧
      RecordMoved b (s.slots[j.val]'j.isLt).generation (t.slots[j.val]'j.isLt).generation r r' := by
  rw [State.recordAt_eq_some] at hr
  simp only [State.recordAt_eq_some]
  split at e
  · rw [e] at hr ⊢
    obtain ⟨q, hq, rfl⟩ := Slot.edit_live.1 hr
    exact ⟨q, hq, by rw [Slot.edit_generation]; exact hf _ q⟩
  · rw [e] at hr ⊢
    exact ⟨r', hr, .refl _ _ _⟩

/-- Every record after a move is a new contract's, or comes from the one that the slot held. -/
theorem Move.record (h : Move c s t) (hr : t.recordAt j = some r') :
    (∃ f o, c = .create f o ∧ createFieldError o = none ∧ (s.slots[j.val]'j.isLt).body = .free ∧ r' = s.created j o ∧
      (t.slots[j.val]'j.isLt).generation = (s.slots[j.val]'j.isLt).generation + 1) ∨
    ∃ r, s.recordAt j = some r ∧
      RecordMoved (Instr.isStorage c) (s.slots[j.val]'j.isLt).generation (t.slots[j.val]'j.isLt).generation r r' := by
  have stood : t.slots[j.val]'j.isLt = (s.slots[j.val]'j.isLt) → ∃ r, s.recordAt j = some r ∧
      RecordMoved (Instr.isStorage c) (s.slots[j.val]'j.isLt).generation (t.slots[j.val]'j.isLt).generation r r' := fun e => by
    rw [State.recordAt_congr_slot e] at hr
    exact ⟨r', hr, by rw [e]; exact .refl _ _ _⟩
  cases h with
  | work h =>
    obtain ⟨r, hr, hg, hw⟩ := h.record hr
    exact .inr ⟨r, hr, by rw [hg]; exact .of_worked hw⟩
  | release => exact .inr (stood rfl)
  | @create f o i hc hfield hparent _ hfree =>
    by_cases e : j = i
    · subst e
      have hs := State.place_slot_self hparent hfree
      rw [State.recordAt_eq_some, hs] at hr
      cases hr
      exact .inl ⟨f, o, hc, hfield, hfree, rfl, by rw [hs]⟩
    · exact .inr (RecordMoved.of_edit (State.place_slot_ne s o e) (fun g r => .recount (fun n _ => oneMore_le n) _ g r) hr)
  | @retire _ _ _ i r =>
    by_cases e : j = i
    · subst e
      rw [State.recordAt_eq_some, State.retireContract_slot_self] at hr
      dsimp only at hr
      split at hr <;> cases hr
    · exact .inr (RecordMoved.of_edit (State.retireContract_slot_ne s r e) (fun g r => .recount (fun n => oneFewer_le) _ g r) hr)
  | wipe => rw [State.recordAt_eq_some, State.wipe_slot] at hr; cases hr
  | ackDevice => exact .inr (stood rfl)
  | ackContract =>
    have hs := s.ackContract_slot
    rw [State.recordAt_eq_some, hs] at hr
    split at hr
    · cases hr
    · rename_i e; exact .inr (stood (by rw [hs, if_neg e]))
  | @corrupt h q _ _ _ _ ht =>
    obtain ⟨r, hr, hg, hw⟩ := ht.record hr
    obtain ⟨r0, hr0, hm⟩ := RecordMoved.of_edit (State.markCorrupt_slot s h.slot q j)
      (fun g r => .corrupted (s.measures q) (Instr.isStorage c) g r) hr
    refine .inr ⟨r0, hr0, hm.trans ?_⟩
    rw [hg]
    exact .of_worked hw
  | @storage i x r hc hr0 =>
    by_cases e : j = i
    · subst e hc
      rw [State.recordAt_eq_some] at hr
      simp only [State.setSlot_get, SlotBody.live.injEq] at hr
      subst hr
      exact .inr ⟨r, hr0, ⟨StorageFault.apply_bounded _ _ _, fun e => (by cases e), fun e => (by cases e), fun e => (by cases e)⟩⟩
    · exact .inr (stood (State.setSlot_get_ne _ _ _ e))
  | reset =>
    cases (s.resetBlocks_recordAt j).symm.trans hr

theorem Move.countersBounded (h : Move c s t) (hs : s.countersBounded) : t.countersBounded := fun j r' hr => by
  obtain ⟨f, o, -, -, -, rfl, -⟩ | ⟨r, hr, hm⟩ := h.record hr
  · exact s.created_bounded j o
  · exact hm.bounded (hs j r hr)

theorem Move.contextsFit (hc : Instr.isStorage c = false) (h : Move c s t) (hs : s.contextsFit) : t.contextsFit :=
  fun j r' hr => by
    obtain ⟨f, o, -, -, -, rfl, -⟩ | ⟨r, hr, hm⟩ := h.record hr
    · exact Context.initial_fit _
    · exact hm.fit hc (hs j r hr)

theorem State.codeAgrees_iff (s : State) (i : SlotIx) (r : Record) :
    s.codeAgrees i r = true ↔ r.checkCode = r.freshCode (s.slots[i.val]'i.isLt).generation := by
  simp [State.codeAgrees]

theorem Move.codesAgree (hc : Instr.isStorage c = false) (h : Move c s t) (hs : s.codesAgree) : t.codesAgree :=
  fun j r' hr => by
    rw [State.codeAgrees_iff]
    obtain ⟨f, o, -, -, -, rfl, hg⟩ | ⟨r, hr, hm⟩ := h.record hr
    · rw [hg]; exact s.created_code j o
    · exact hm.code hc ((s.codeAgrees_iff j r).1 (hs j r hr))

/-- Settles O10. -/
theorem checkCodesStayInAgreement : Obligations.CheckCodesStayInAgreement := fun _ _ hs hst h =>
  step_keeps_of_storageHolds (fun _ _ _ _ => Iff.rfl) Move.codesAgree hs hst h

end Sys2Proof.Machine
end

