-- ==== Sys2Proof/Proofs/TableInvariants.lean ====
section
set_option Elab.async false
/-! PROOFS. What every step keeps of the contract table: the limits, the sets of subscribers and contributors, the tree, the slots. -/

namespace Sys2Proof.Machine

variable {s t u : State} {i j : SlotIx} {r r' : Record} {c : Instr}

/-- The record of a slot that stood, or whose record was edited. -/
theorem State.recordAt_of_edit {p : Prop} [Decidable p] {f : Record → Record}
    (e : t.slots[j.val]'j.isLt = if p then (s.slots[j.val]'j.isLt).edit f else s.slots[j.val]'j.isLt) :
    t.recordAt j = (s.recordAt j).map (fun r => if p then f r else r) := by
  by_cases h : p
  · rw [if_pos h] at e
    ext r
    simp only [State.recordAt_eq_some, e, Slot.edit_live, Option.map_eq_some_iff, if_pos h]
  · rw [if_neg h] at e
    simp [State.recordAt_congr_slot e, h]

theorem State.place_recordAt_ne (s : State) (o : CreateBytes) (h : j ≠ i) : (s.place i o).recordAt j =
    (s.recordAt j).map (fun r => if parentOf o.parent = some (s.handleOf j) then r.recount oneMore else r) :=
  State.recordAt_of_edit (State.place_slot_ne s o h)

theorem State.place_recordAt_self {o : CreateBytes} (hp : createParentError s (parentOf o.parent) = none)
    (hi : (s.slots[i.val]'i.isLt).body = .free) : (s.place i o).recordAt i = some (s.created i o) := by
  rw [State.recordAt_eq_some, State.place_slot_self hp hi]

theorem State.retireContract_recordAt_ne (s : State) (r : Record) (h : j ≠ i) : (s.retireContract i r).recordAt j =
    (s.recordAt j).map (fun q => if r.fixed.parent = some (s.handleOf j) then q.recount oneFewer else q) :=
  State.recordAt_of_edit (State.retireContract_slot_ne s r h)

theorem State.retireContract_recordAt_self (s : State) (i : SlotIx) (r : Record) : (s.retireContract i r).recordAt i = none := by
  simp only [State.recordAt, Fin.getElem_fin, State.retireContract_slot_self]
  split
  · rename_i h; split at h <;> cases h
  · rfl

theorem State.markCorrupt_recordAt (s : State) (i : SlotIx) (r : Record) (j : SlotIx) : (s.markCorrupt i r).recordAt j =
    (s.recordAt j).map (fun q => if j = i then q.corrupted (s.measures r) else q) :=
  State.recordAt_of_edit (State.markCorrupt_slot s i r j)

theorem State.wipe_recordAt (s : State) (i : SlotIx) : s.wipe.recordAt i = none := by
  simp [State.recordAt, State.wipe_slot]

theorem State.ackContract_recordAt (s : State) (i : SlotIx) (left : BitVec 7) (j : SlotIx) :
    (s.ackContract i left).recordAt j = s.recordAt j := by
  have e := s.ackContract_slot i left j
  by_cases h : j = i ∧ left = 0 ∧ (s.slots[j.val]'j.isLt).body = .draining
  · rw [if_pos h] at e
    simp [State.recordAt, e, h.2.2]
  · rw [if_neg h] at e
    exact State.recordAt_congr_slot e

/-- A fact about a record that does not read its dependents count. -/
theorem exists_map_recount {x : Option Record} {p : Prop} [Decidable p] {f : Nat → Nat} {P : Record → Prop}
    (hP : ∀ r, P (r.recount f) ↔ P r) :
    (∃ r, x.map (fun r => if p then r.recount f else r) = some r ∧ P r) ↔ ∃ r, x = some r ∧ P r := by
  cases x with
  | none => simp
  | some r => simp only [Option.map_some, Option.some.injEq, exists_eq_left']; split <;> simp [hP]

/-! ## The limits -/

theorem fixedOf_fit {o : CreateBytes} (h : createFieldError o = none) : (fixedOf o).fit := by
  unfold createFieldError at h
  split at h
  · cases h
  · cases hk : kindOfCode o.kind with
    | none => rw [hk] at h; cases h
    | some k =>
      rw [hk] at h
      have checked := firstFailing_none h
      simp only [createChecks, List.forall_mem_cons, Bool.or_eq_false_iff, Bool.not_eq_false'] at checked
      obtain ⟨hsense, -, ⟨-, hflags⟩, -⟩ := checked
      have flags : ¬ (createOneshot o = true ∧ createLatching o = true) := fun ⟨h1, h2⟩ => by simp [h1, h2] at hflags
      have kind : (fixedOf o).kind = k := by simp [fixedOf, hk]
      have sense : (fixedOf o).sense = o.sense.setWidth 2 := rfl
      refine ⟨?_, ?_, ?_, flags⟩ <;> rw [kind, sense] <;> intro e
      · subst e
        simp only [senseAllowed, decide_eq_true_eq] at hsense
        rcases hsense with h | h | h <;> rw [h] <;> decide
      · subst e
        simp only [senseAllowed, decide_eq_true_eq] at hsense
        rw [hsense]; decide
      · intro e'
        cases k <;> simp only [senseAllowed, decide_eq_true_eq, ne_eq, not_true_eq_false] at hsense e e' <;>
          rcases hsense with h | h <;> rw [h] <;> decide

theorem State.created_fits (s : State) (i : SlotIx) {o : CreateBytes} (h : createFieldError o = none) :
    (s.created i o).fits := by
  refine ⟨fixedOf_fit h, ?_, fun a e => by cases e⟩
  cases hk : kindOfCode o.kind with
  | none =>
    unfold createFieldError at h
    rw [hk] at h
    split at h <;> cases h
  | some k =>
    have := create_limits_fit hk h
    simpa [fixedOf, hk] using this

theorem Move.limitsFit (hc : Instr.isStorage c = false) (h : Move c s t) (hs : s.limitsFit) : t.limitsFit := by
  rw [State.limitsFit_iff] at hs
  have recounted : ∀ {j : SlotIx} {p : Prop} [Decidable p] {f : Nat → Nat} {r' : Record},
      (s.recordAt j).map (fun r => if p then r.recount f else r) = some r' → r'.fits := by
    intro j p _ f r' h
    obtain ⟨r, hr, rfl⟩ := Option.map_eq_some_iff.1 h
    split <;> exact hs j r hr
  cases h with
  | work h => exact h.follows.limitsFit hs
  | release => exact hs
  | @create _ o i _ hfield hparent _ hfree =>
    intro j r' hr
    by_cases e : j = i
    · subst e
      rw [State.place_recordAt_self hparent hfree] at hr
      cases hr
      exact s.created_fits j hfield
    · rw [State.place_recordAt_ne s o e] at hr
      exact recounted hr
  | @retire _ _ _ i r =>
    intro j r' hr
    by_cases e : j = i
    · subst e; rw [State.retireContract_recordAt_self] at hr; cases hr
    · rw [State.retireContract_recordAt_ne s r e] at hr
      exact recounted hr
  | wipe => intro j r' hr; rw [State.wipe_recordAt] at hr; cases hr
  | ackDevice => exact hs
  | ackContract => intro j r' hr; rw [State.ackContract_recordAt] at hr; exact hs j r' hr
  | @corrupt h q _ _ _ _ ht =>
    refine ht.follows.limitsFit fun j r' hr => ?_
    rw [State.markCorrupt_recordAt] at hr
    obtain ⟨r, hr0, rfl⟩ := Option.map_eq_some_iff.1 hr
    split <;> exact hs j r hr0
  | storage e => subst e; cases hc
  | reset => intro j r' hr; cases (s.resetBlocks_recordAt j).symm.trans hr

/-- Settles O9. -/
theorem countersStayBounded : Obligations.CountersStayBounded := fun _ _ h =>
  ⟨fun hs => step_keeps (fun _ _ _ _ => Iff.rfl) Move.countersBounded hs h,
    fun hs hst => step_keeps_of_storageHolds (fun _ _ _ _ => Iff.rfl) Move.limitsFit hs hst h,
    fun hs hst => step_keeps_of_storageHolds (fun _ _ _ _ => Iff.rfl) Move.contextsFit hs hst h⟩

/-! ## The subscriber sets -/

/-- A slot that holds no contract is in no subscriber set. -/
theorem State.subscribersExact.not_mem (hs : s.subscribersExact) (hi : s.recordAt i = none) :
    (∀ b : BaseIx, i ∉ (s.bases[b.val]'b.isLt).subscribers) ∧ ∀ p : PinIx, i ∉ (s.pins[p.val]'p.isLt).subscribers := by
  refine ⟨fun b hb => ?_, fun p hp => ?_⟩
  · obtain ⟨r, hr, -⟩ := (hs.1 b i).1 hb; rw [hi] at hr; cases hr
  · obtain ⟨r, hr, -⟩ := (hs.2 p i).1 hp; rw [hi] at hr; cases hr

theorem State.created_ne_corrupt (s : State) (i : SlotIx) (o : CreateBytes) : (s.created i o).state ≠ .corrupt := by
  intro e
  have := s.created_state_cases i o
  rw [e] at this
  exact this.elim (by decide) (by decide)

/-- The sets stay exact when every slot but one stands in the sets and keeps what its record says of them, and that slot is in the
sets as its record says. -/
theorem State.subscribersExact_of_others (hs : s.subscribersExact)
    (hb : ∀ (b : BaseIx) (j : SlotIx), j ≠ i → (j ∈ (t.bases[b.val]'b.isLt).subscribers ↔ j ∈ (s.bases[b.val]'b.isLt).subscribers))
    (hp : ∀ (p : PinIx) (j : SlotIx), j ≠ i → (j ∈ (t.pins[p.val]'p.isLt).subscribers ↔ j ∈ (s.pins[p.val]'p.isLt).subscribers))
    (hr : ∀ (P : Record → Prop) (j : SlotIx), j ≠ i → (∀ r f, P (Record.recount f r) ↔ P r) →
      ((∃ r, t.recordAt j = some r ∧ P r) ↔ ∃ r, s.recordAt j = some r ∧ P r))
    (hib : ∀ b : BaseIx, i ∈ (t.bases[b.val]'b.isLt).subscribers ↔ ∃ r, t.recordAt i = some r ∧ r.state ≠ .corrupt ∧ r.fixed.base = b)
    (hip : ∀ p : PinIx, i ∈ (t.pins[p.val]'p.isLt).subscribers ↔ ∃ r, t.recordAt i = some r ∧ r.state ≠ .corrupt ∧ r.fixed.pin = p) :
    t.subscribersExact := by
  refine ⟨fun b j => ?_, fun p j => ?_⟩
  · by_cases e : j = i
    · subst e; exact hib b
    · exact ((hb b j e).trans (hs.1 b j)).trans (hr _ j e (fun _ _ => Iff.rfl)).symm
  · by_cases e : j = i
    · subst e; exact hip p
    · exact ((hp p j e).trans (hs.2 p j)).trans (hr _ j e (fun _ _ => Iff.rfl)).symm

theorem Move.subscribersExact (hc : Instr.isStorage c = false) (h : Move c s t) (hs : s.subscribersExact) :
    t.subscribersExact := by
  cases h with
  | work h => exact h.follows.subscribers hs
  | release => exact hs
  | @create _ o i _ _ hparent _ hfree =>
    obtain ⟨nb, np⟩ := hs.not_mem (State.recordAt_of_free hfree)
    refine State.subscribersExact_of_others hs (i := i) (fun b j e => ?_) (fun p j e => ?_) (fun P j e hP => ?_) (fun b => ?_)
      (fun p => ?_)
    · rw [State.place_base]; split <;> simp [e]
    · rw [State.place_channel]; split <;> simp [e]
    · rw [State.place_recordAt_ne s o e]; exact exists_map_recount fun r => hP r _
    · rw [State.place_base, State.place_recordAt_self hparent hfree]
      simp only [Option.some.injEq, exists_eq_left', State.created_fixed]
      split
      · rename_i e; simp [e, State.created_ne_corrupt]
      · rename_i e; simp [nb b, Ne.symm e]
    · rw [State.place_channel, State.place_recordAt_self hparent hfree]
      simp only [Option.some.injEq, exists_eq_left', State.created_fixed]
      split
      · rename_i e; simp [e, State.created_ne_corrupt]
      · rename_i e; simp [np p, Ne.symm e]
  | @retire _ _ _ i r =>
    refine State.subscribersExact_of_others hs (i := i) (fun b j e => ?_) (fun p j e => ?_) (fun P j e hP => ?_) (fun b => ?_)
      (fun p => ?_)
    · simp [State.retireContract_base, e]
    · simp [State.retireContract_channel, e]
    · rw [State.retireContract_recordAt_ne s r e]; exact exists_map_recount fun r => hP r _
    · simp [State.retireContract_base, State.retireContract_recordAt_self]
    · simp [State.retireContract_channel, State.retireContract_recordAt_self]
  | wipe =>
    exact ⟨fun b j => by simp [State.wipe_base, State.wipe_recordAt], fun p j => by simp [State.wipe_channel, State.wipe_recordAt]⟩
  | ackDevice => exact hs
  | @ackContract _ _ _ i _ _ left =>
    have hb := s.ackContract_keeps State.bases (fun _ _ _ => rfl) (fun _ _ => rfl) i left
    have hp := s.ackContract_keeps State.pins (fun _ _ _ => rfl) (fun _ _ => rfl) i left
    simp only [State.subscribersExact, hb, hp, State.ackContract_recordAt]
    exact hs
  | @corrupt h r _ _ _ _ ht =>
    refine ht.follows.subscribers
      (State.subscribersExact_of_others hs (i := h.slot) (fun b j e => ?_) (fun p j e => ?_) (fun P j e hP => ?_)
        (fun b => ?_) (fun p => ?_))
    · simp [State.markCorrupt_base, e]
    · simp [State.markCorrupt_channel, e]
    · rw [State.markCorrupt_recordAt]; simp [e]
    · simp [State.markCorrupt_base, State.markCorrupt_recordAt, Record.corrupted]
    · simp [State.markCorrupt_channel, State.markCorrupt_recordAt, Record.corrupted]
  | storage e => subst e; cases hc
  | reset =>
    refine ⟨fun b j => ?_, fun p j => ?_⟩
    · rw [Fin.getElem_fin, State.resetBlocks_base]
      exact ⟨fun h => (by cases h), fun ⟨r, hr, _⟩ => (by cases (s.resetBlocks_recordAt j).symm.trans hr)⟩
    · rw [Fin.getElem_fin, State.resetBlocks_pin]
      exact ⟨fun h => (by cases h), fun ⟨r, hr, _⟩ => (by cases (s.resetBlocks_recordAt j).symm.trans hr)⟩

/-- Settles O11. -/
theorem subscribersStayExact : Obligations.SubscribersStayExact := fun _ _ hs hst h =>
  step_keeps_of_storageHolds (fun _ _ _ _ => Iff.rfl) Move.subscribersExact hs hst h

/-! ## The contributor sets -/

/-- The same for the contributor sets. -/
theorem State.contributorsExact_of_others (hs : s.contributorsExact)
    (hl : ∀ (l : LineIx) (j : SlotIx), j ≠ i → (j ∈ (t.trips[l.val]'l.isLt).contributors ↔ j ∈ (s.trips[l.val]'l.isLt).contributors))
    (hr : ∀ (P : Record → Prop) (j : SlotIx), j ≠ i → (∀ r f, P (Record.recount f r) ↔ P r) →
      ((∃ r, t.recordAt j = some r ∧ P r) ↔ ∃ r, s.recordAt j = some r ∧ P r))
    (hi : ∀ l : LineIx, i ∈ (t.trips[l.val]'l.isLt).contributors ↔ ∃ r, t.recordAt i = some r ∧ r.contributes l) :
    t.contributorsExact := by
  intro l j
  by_cases e : j = i
  · subst e; exact hi l
  · exact ((hl l j e).trans (hs l j)).trans (hr _ j e (fun _ _ => Iff.rfl)).symm

theorem State.created_not_contributes (s : State) (i : SlotIx) (o : CreateBytes) (l : LineIx) :
    ¬ (s.created i o).contributes l := by
  rintro (⟨e, -⟩ | e)
  · have := s.created_state_cases i o
    rw [e] at this
    exact this.elim (by decide) (by decide)
  · exact s.created_ne_corrupt i o e

theorem Move.contributorsExact (hc : Instr.isStorage c = false) (h : Move c s t) (hs : s.contributorsExact) :
    t.contributorsExact := by
  cases h with
  | work h => exact h.follows.contributors hs
  | @release _ _ l =>
    intro k j
    rw [State.setLine_recordAt, ← hs k j, Fin.getElem_fin, Fin.getElem_fin]
    by_cases e : k = l
    · subst e; simp
    · rw [State.setLine_get_ne _ _ _ e]
  | @create _ o i _ _ hparent _ hfree =>
    refine State.contributorsExact_of_others hs (i := i) (fun l j e => ?_) (fun P j e hP => ?_) (fun l => ?_)
    · rw [State.place_trips]
    · rw [State.place_recordAt_ne s o e]; exact exists_map_recount fun r => hP r _
    · rw [State.place_trips, State.place_recordAt_self hparent hfree]
      have := hs l i
      simp only [Fin.getElem_fin, State.recordAt_of_free hfree, reduceCtorEq, false_and, exists_false, iff_false] at this
      simp [this, State.created_not_contributes]
  | @retire _ _ _ i r =>
    refine State.contributorsExact_of_others hs (i := i) (fun l j e => ?_) (fun P j e hP => ?_) (fun l => ?_)
    · simp [State.retireContract_line, e]
    · rw [State.retireContract_recordAt_ne s r e]; exact exists_map_recount fun r => hP r _
    · simp [State.retireContract_line, State.retireContract_recordAt_self]
  | wipe => intro l j; simp [State.wipe_line, State.wipe_recordAt]
  | ackDevice => exact hs
  | @ackContract _ _ _ i _ _ left =>
    have hl := s.ackContract_keeps State.trips (fun _ _ _ => rfl) (fun _ _ => rfl) i left
    simp only [State.contributorsExact, hl, State.ackContract_recordAt]
    exact hs
  | @corrupt h r _ _ hr _ ht =>
    refine ht.follows.contributors
      (State.contributorsExact_of_others hs (i := h.slot) (fun l j e => ?_) (fun P j e hP => ?_) (fun l => ?_))
    · simp [State.markCorrupt_line, e]
    · rw [State.markCorrupt_recordAt]; simp [e]
    · simp [State.markCorrupt_line, State.markCorrupt_recordAt, hr, Record.contributes, Record.corrupted]
  | storage e => subst e; cases hc
  | reset =>
    intro l j
    rw [Fin.getElem_fin, State.resetBlocks_line]
    exact ⟨fun h => (by cases h), fun ⟨r, hr, _⟩ => (by cases (s.resetBlocks_recordAt j).symm.trans hr)⟩

/-- Settles O12. -/
theorem contributorsStayExact : Obligations.ContributorsStayExact := fun _ _ hs hst h =>
  step_keeps_of_storageHolds (fun _ _ _ _ => Iff.rfl) Move.contributorsExact hs hst h

end Sys2Proof.Machine
end

