-- ==== Sys2Proof/Proofs/TreeInvariant.lean ====
section
set_option Elab.async false
/-! PROOFS. Every step but a change in storage keeps the relation of parents and dependents sound. -/

namespace Sys2Proof.Machine

variable {s t u : State} {i j d : SlotIx} {r r' : Record} {c : Instr}

/-- Two counts over all slots that differ in one slot. -/
theorem countP_of_others {p q : SlotIx → Bool} (h : ∀ j, j ≠ i → p j = q j) (hq : q i = false) :
    allSlots.countP p = allSlots.countP q + (p i).toNat := by
  have on_list : ∀ l : List SlotIx, l.Nodup → l.countP p = l.countP q + if i ∈ l then (p i).toNat else 0 := by
    intro l nd
    induction l with
    | nil => rfl
    | cons a l ih =>
      obtain ⟨ha, nd⟩ := List.nodup_cons.1 nd
      rw [List.countP_cons, List.countP_cons, ih nd]
      by_cases e : a = i
      · subst e; cases hp : p a <;> simp [ha, hq]
      · simp only [h a e, List.mem_cons, Ne.symm e, false_or]; omega
  rw [on_list _ nodup_allSlots, if_pos (mem_allSlots i)]

/-- A count that leaves out two slots is at most 62. -/
theorem countP_le_of_two {q : SlotIx → Bool} (hij : i ≠ j) (hi : q i = false) (hj : q j = false) : allSlots.countP q ≤ 62 := by
  have first := countP_of_others (p := fun k => q k || decide (k = i)) (q := q) (i := i) (fun k e => by simp [e]) hi
  have second := countP_of_others (p := fun k => q k || decide (k = i) || decide (k = j))
    (q := fun k => q k || decide (k = i)) (i := j) (fun k e => by simp [e]) (by simp [hj, hij.symm])
  have all : allSlots.countP (fun k => q k || decide (k = i) || decide (k = j)) ≤ 64 := by
    simpa [allSlots] using List.countP_le_length (p := fun k => q k || decide (k = i) || decide (k = j)) (l := allSlots)
  simp only [decide_true, Bool.or_true, Bool.toNat_true] at first second
  omega

theorem State.dependsOn_iff : s.dependsOn d i = true ↔ ∃ r, s.recordAt d = some r ∧ r.fixed.parent = some (s.handleOf i) := by
  unfold State.dependsOn
  cases s.recordAt d <;> simp

/-- The parent that a record names, with its record. -/
theorem State.treeSound.parent (h : s.treeSound) (hr : s.recordAt i = some r) {p : Handle} (hp : r.fixed.parent = some p) :
    p = s.handleOf p.slot ∧ ∃ q, s.recordAt p.slot = some q ∧ q.fixed.oneshot = false ∧
      ∀ g, q.fixed.parent = some g → ∃ x, s.contractAt g = some x ∧ x.fixed.parent = none := by
  obtain ⟨q, hq, hone, hg⟩ := h.1 i r p hr hp
  obtain ⟨e, hq⟩ := State.contractAt_eq_some.1 hq
  exact ⟨e, q, hq, hone, hg⟩

/-- A contract is not its own parent. -/
theorem State.treeSound.not_self (h : s.treeSound) : s.dependsOn i i = false := by
  rw [← Bool.not_eq_true, State.dependsOn_iff]
  rintro ⟨r, hr, hp⟩
  obtain ⟨-, q, hq, -, hg⟩ := h.parent hr hp
  obtain rfl : r = q := Option.some.inj (hr.symm.trans hq)
  obtain ⟨x, hx, none⟩ := hg _ hp
  obtain rfl : r = x := Option.some.inj (hr.symm.trans (State.contractAt_eq_some.1 hx).2)
  rw [hp] at none
  cases none

/-- What the tree reads of a slot. -/
def Record.branch (r : Record) : Fixed × Nat := (r.fixed, r.dependents)

/-- The tree stays sound when every generation, and of every record the fixed fields and the dependents count, stand. -/
theorem State.treeSound_congr (hg : ∀ j : SlotIx, (t.slots[j.val]'j.isLt).generation = (s.slots[j.val]'j.isLt).generation)
    (hr : ∀ j, (t.recordAt j).map Record.branch = (s.recordAt j).map Record.branch) (h : s.treeSound) : t.treeSound := by
  have handle : ∀ j, t.handleOf j = s.handleOf j := fun j => by simp [State.handleOf, hg]
  have back : ∀ {j r}, t.recordAt j = some r → ∃ q, s.recordAt j = some q ∧ q.branch = r.branch := fun {j r} hj => by
    have := hr j
    rw [hj] at this
    exact Option.map_eq_some_iff.1 this.symm
  have forth : ∀ {j r}, s.recordAt j = some r → ∃ q, t.recordAt j = some q ∧ q.branch = r.branch := fun {j r} hj => by
    have := hr j
    rw [hj] at this
    exact Option.map_eq_some_iff.1 this
  have fixed : ∀ {q r : Record}, q.branch = r.branch → q.fixed = r.fixed := fun e => congrArg Prod.fst e
  have contract : ∀ {k x}, s.contractAt k = some x → ∃ y, t.contractAt k = some y ∧ y.fixed = x.fixed := fun {k x} hx => by
    obtain ⟨e, hx⟩ := State.contractAt_eq_some.1 hx
    obtain ⟨y, hy, ey⟩ := forth hx
    exact ⟨y, State.contractAt_eq_some.2 ⟨by rw [handle]; exact e, hy⟩, fixed ey⟩
  refine ⟨fun i r k hi hk => ?_, fun i r hi => ?_⟩
  · obtain ⟨q, hq, e⟩ := back hi
    obtain ⟨p, hp, hone, hgrand⟩ := h.1 i q k hq (by rw [fixed e]; exact hk)
    obtain ⟨p', hp', ep⟩ := contract hp
    refine ⟨p', hp', by rw [ep]; exact hone, fun g hg => ?_⟩
    obtain ⟨x, hx, none⟩ := hgrand g (by rw [← ep]; exact hg)
    obtain ⟨y, hy, ey⟩ := contract hx
    exact ⟨y, hy, by rw [ey]; exact none⟩
  · obtain ⟨q, hq, e⟩ := back hi
    have depends : ∀ d, t.dependsOn d i = s.dependsOn d i := fun d => by
      rw [Bool.eq_iff_iff, State.dependsOn_iff, State.dependsOn_iff, handle]
      constructor
      · rintro ⟨x, hx, ex⟩
        obtain ⟨y, hy, ey⟩ := back hx
        exact ⟨y, hy, by rw [fixed ey]; exact ex⟩
      · rintro ⟨x, hx, ex⟩
        obtain ⟨y, hy, ey⟩ := forth hx
        exact ⟨y, hy, by rw [fixed ey]; exact ex⟩
    rw [← show q.dependents = r.dependents from congrArg Prod.snd e, h.2 i q hq]
    simp only [State.dependentsOf, depends]

theorem Work.treeSound {m : SlotIx → Prop} (h : Work m s t) (hs : s.treeSound) : t.treeSound := by
  refine State.treeSound_congr (fun j => (h.slot j).generation) (fun j => ?_) hs
  cases hr : s.recordAt j with
  | some r =>
    obtain ⟨r', hr', hw⟩ := h.record_of hr
    simp [hr', Record.branch, hw.fixed, hw.dependents]
  | none =>
    cases hr' : t.recordAt j with
    | none => rfl
    | some r' => obtain ⟨r, hr0, -⟩ := h.record hr'; rw [hr] at hr0; cases hr0

/-! ## CREATE -/

theorem State.handleOf_of_generation (h : (t.slots[j.val]'j.isLt).generation = (s.slots[j.val]'j.isLt).generation) :
    t.handleOf j = s.handleOf j := by simp [State.handleOf, h]

theorem State.place_handleOf_ne (s : State) (o : CreateBytes) (h : j ≠ i) : (s.place i o).handleOf j = s.handleOf j := by
  refine State.handleOf_of_generation ?_
  rw [State.place_slot_ne s o h]
  split <;> simp

theorem place_treeSound {o : CreateBytes} (hp : createParentError s (parentOf o.parent) = none)
    (hi : (s.slots[i.val]'i.isLt).body = .free) (hs : s.treeSound) : (s.place i o).treeSound := by
  have self := State.place_recordAt_self hp hi
  have free := State.recordAt_of_free hi
  have parents := createParentError_eq_none.1 hp
  -- a contract that was there is there, with its fixed fields and its handle
  have kept : ∀ {k : Handle} {x : Record}, s.contractAt k = some x →
      ∃ y, (s.place i o).contractAt k = some y ∧ y.fixed = x.fixed := by
    intro k x hx
    obtain ⟨e, hx⟩ := State.contractAt_eq_some.1 hx
    have ne : k.slot ≠ i := fun e => by rw [e, free] at hx; cases hx
    refine ⟨_, State.contractAt_eq_some.2 ⟨by rw [State.place_handleOf_ne s o ne]; exact e,
      by rw [State.place_recordAt_ne s o ne, hx]; rfl⟩, ?_⟩
    split <;> rfl
  -- the contracts that depend on one that was there are those of before, and the new one if it names it
  have depends : ∀ {j d}, j ≠ i → d ≠ i → (s.place i o).dependsOn d j = s.dependsOn d j := by
    intro j d hj hd
    rw [Bool.eq_iff_iff, State.dependsOn_iff, State.dependsOn_iff, State.place_handleOf_ne s o hj, State.place_recordAt_ne s o hd]
    exact exists_map_recount fun _ => Iff.rfl
  have newborn : ∀ {j}, j ≠ i → ((s.place i o).dependsOn i j = true ↔ parentOf o.parent = some (s.handleOf j)) := by
    intro j hj
    rw [State.dependsOn_iff, self, State.place_handleOf_ne s o hj]
    simp [fixedOf]
  have unborn : ∀ j, s.dependsOn i j = false := fun j => by
    rw [← Bool.not_eq_true, State.dependsOn_iff, free]; simp
  refine ⟨fun j r k hj hk => ?_, fun j r hj => ?_⟩
  · -- every parent named was there
    have named : ∃ p, s.contractAt k = some p ∧ p.fixed.oneshot = false ∧
        ∀ g, p.fixed.parent = some g → ∃ q, s.contractAt g = some q ∧ q.fixed.parent = none := by
      by_cases e : j = i
      · subst e
        obtain rfl : s.created j o = r := Option.some.inj (self.symm.trans hj)
        obtain ⟨p, hp, hone, -, -, hgrand⟩ := parents k hk
        refine ⟨p, hp, hone, fun g hg => ?_⟩
        obtain ⟨q, hq, -⟩ := hs.1 _ _ g (State.recordAt_of_contractAt hp) hg
        refine ⟨q, hq, ?_⟩
        simpa [State.isGrandchild, hg, hq] using hgrand
      · rw [State.place_recordAt_ne s o e] at hj
        obtain ⟨q, hq, rfl⟩ := Option.map_eq_some_iff.1 hj
        refine hs.1 j q k hq ?_
        split at hk <;> exact hk
    obtain ⟨p, hp, hone, hgrand⟩ := named
    obtain ⟨p', hp', ep⟩ := kept hp
    refine ⟨p', hp', by rw [ep]; exact hone, fun g hg => ?_⟩
    obtain ⟨q, hq, none⟩ := hgrand g (by rw [← ep]; exact hg)
    obtain ⟨q', hq', eq⟩ := kept hq
    exact ⟨q', hq', by rw [eq]; exact none⟩
  · by_cases e : j = i
    · -- no contract names the new one: a parent named before was LIVE
      subst e
      obtain rfl : s.created j o = r := Option.some.inj (self.symm.trans hj)
      refine (List.countP_eq_zero.2 fun d _ => ?_).symm
      rw [State.dependsOn_iff]
      rintro ⟨q, hq, hname⟩
      by_cases ed : d = j
      · subst ed
        obtain rfl : s.created d o = q := Option.some.inj (self.symm.trans hq)
        obtain ⟨p, hp, -⟩ := parents _ hname
        have := (State.contractAt_eq_some.1 hp).2
        rw [show ((s.place d o).handleOf d).slot = d from rfl, free] at this
        cases this
      · rw [State.place_recordAt_ne s o ed] at hq
        obtain ⟨x, hx, rfl⟩ := Option.map_eq_some_iff.1 hq
        have hname : x.fixed.parent = some ((s.place j o).handleOf j) := by split at hname <;> exact hname
        obtain ⟨-, y, hy, -⟩ := hs.parent hx hname
        rw [show ((s.place j o).handleOf j).slot = j from rfl, free] at hy
        cases hy
    · rw [State.place_recordAt_ne s o e] at hj
      obtain ⟨q, hq, rfl⟩ := Option.map_eq_some_iff.1 hj
      have count : (s.place i o).dependentsOf j = s.dependentsOf j + ((s.place i o).dependsOn i j).toNat :=
        countP_of_others (fun d hd => depends e hd) (unborn j)
      have room : s.dependentsOf j ≤ 62 := countP_le_of_two (Ne.symm e) (unborn j) hs.not_self
      rw [count]
      by_cases hname : parentOf o.parent = some (s.handleOf j)
      · rw [if_pos hname, (newborn e).2 hname]
        show oneMore q.dependents = _
        rw [hs.2 j q hq, oneMore_of_lt (by omega)]
        rfl
      · rw [if_neg hname, hs.2 j q hq, Bool.eq_false_iff.2 (fun h => hname ((newborn e).1 h))]
        rfl

/-! ## RETIRE -/

theorem State.retireContract_handleOf (s : State) (i : SlotIx) (r : Record) (j : SlotIx) :
    (s.retireContract i r).handleOf j = s.handleOf j := by
  refine State.handleOf_of_generation ?_
  by_cases e : j = i
  · subst e; rw [State.retireContract_slot_self]
  · rw [State.retireContract_slot_ne s r e]; split <;> simp

theorem retireContract_treeSound (hr : s.recordAt i = some r) (hd : r.dependents = 0) (hs : s.treeSound) :
    (s.retireContract i r).treeSound := by
  have childless : ∀ d, s.dependsOn d i = false := fun d => by
    have := hs.2 i r hr
    rw [hd] at this
    exact Bool.eq_false_iff.2 (List.countP_eq_zero.1 this.symm d (mem_allSlots d))
  -- a contract that another one names is there, with its fixed fields and its handle
  have kept : ∀ {j : SlotIx} {q x : Record} {k : Handle}, s.recordAt j = some q → q.fixed.parent = some k →
      s.contractAt k = some x → ∃ y, (s.retireContract i r).contractAt k = some y ∧ y.fixed = x.fixed := by
    intro j q x k hj hk hx
    obtain ⟨e, hx⟩ := State.contractAt_eq_some.1 hx
    have ne : k.slot ≠ i := fun ei => by
      have := childless j
      rw [← Bool.not_eq_true, State.dependsOn_iff] at this
      exact this ⟨q, hj, by rw [hk, e, ei]⟩
    refine ⟨_, State.contractAt_eq_some.2 ⟨by rw [State.retireContract_handleOf]; exact e,
      by rw [State.retireContract_recordAt_ne s r ne, hx]; rfl⟩, ?_⟩
    split <;> rfl
  refine ⟨fun j q' k hj hk => ?_, fun j q' hj => ?_⟩ <;>
    have e : j ≠ i := (fun e => by subst e; rw [State.retireContract_recordAt_self] at hj; cases hj) <;>
    rw [State.retireContract_recordAt_ne s r e] at hj <;>
    obtain ⟨q, hq, rfl⟩ := Option.map_eq_some_iff.1 hj
  · have hk : q.fixed.parent = some k := by split at hk <;> exact hk
    obtain ⟨p, hp, hone, hgrand⟩ := hs.1 j q k hq hk
    obtain ⟨p', hp', ep⟩ := kept hq hk hp
    refine ⟨p', hp', by rw [ep]; exact hone, fun g hg => ?_⟩
    rw [ep] at hg
    obtain ⟨x, hx, none⟩ := hgrand g hg
    obtain ⟨x', hx', ex⟩ := kept (State.recordAt_of_contractAt hp) hg hx
    exact ⟨x', hx', by rw [ex]; exact none⟩
  · have depends : ∀ d, d ≠ i → (s.retireContract i r).dependsOn d j = s.dependsOn d j := by
      intro d hd
      rw [Bool.eq_iff_iff, State.dependsOn_iff, State.dependsOn_iff, State.retireContract_handleOf,
        State.retireContract_recordAt_ne s r hd]
      exact exists_map_recount fun _ => Iff.rfl
    have gone : (s.retireContract i r).dependsOn i j = false := by
      rw [← Bool.not_eq_true, State.dependsOn_iff, State.retireContract_recordAt_self]; simp
    have count : s.dependentsOf j = (s.retireContract i r).dependentsOf j + (s.dependsOn i j).toNat :=
      countP_of_others (fun d hd => (depends d hd).symm) gone
    have retired : s.dependsOn i j = true ↔ r.fixed.parent = some (s.handleOf j) := by
      rw [State.dependsOn_iff, hr]; simp
    by_cases hname : r.fixed.parent = some (s.handleOf j)
    · rw [retired.2 hname, Bool.toNat_true] at count
      rw [if_pos hname]
      show oneFewer q.dependents = _
      rw [hs.2 j q hq, oneFewer_of_pos (by omega)]
      omega
    · rw [Bool.eq_false_iff.2 (fun h => hname (retired.1 h)), Bool.toNat_false] at count
      rw [if_neg hname, hs.2 j q hq]
      omega

/-! ## Every move -/

theorem State.treeSound_of_empty (h : ∀ j, s.recordAt j = none) : s.treeSound :=
  ⟨fun i r k hi _ => (by rw [h i] at hi; cases hi), fun i r hi => (by rw [h i] at hi; cases hi)⟩

theorem Move.treeSound (hc : Instr.isStorage c = false) (h : Move c s t) (hs : s.treeSound) : t.treeSound := by
  cases h with
  | work h => exact h.treeSound hs
  | release => exact hs
  | create _ _ hparent _ hfree => exact place_treeSound hparent hfree hs
  | retire _ _ hr hd => exact retireContract_treeSound hr hd hs
  | wipe => exact State.treeSound_of_empty s.wipe_recordAt
  | ackDevice => exact hs
  | @ackContract _ _ _ i _ _ left =>
    refine State.treeSound_congr (fun j => ?_) (fun j => by rw [State.ackContract_recordAt]) hs
    rw [State.ackContract_slot]
    split <;> rfl
  | corrupt _ _ _ ht =>
    refine ht.treeSound (State.treeSound_congr (fun j => ?_) (fun j => ?_) hs)
    · rw [State.markCorrupt_slot]; split <;> simp
    · rw [State.markCorrupt_recordAt, Option.map_map]
      refine Option.map_congr fun r _ => ?_
      dsimp only [Function.comp]
      split <;> rfl
  | storage e => subst e; cases hc
  | reset => exact State.treeSound_of_empty fun j => s.resetBlocks_recordAt j

/-- Settles O13. -/
theorem treeStaysSound : Obligations.TreeStaysSound := fun _ _ hs hst h =>
  step_keeps_of_storageHolds (fun _ _ _ _ => Iff.rfl) Move.treeSound hs hst h

end Sys2Proof.Machine
end

