-- ==== Sys2Proof/Proofs/SlotsAndQueue.lean ====
section
set_option Elab.async false
/-! PROOFS. How slots, the notice queue and the flags of the lines move at a step. -/

namespace Sys2Proof.Machine

variable {s t u : State} {i j d : SlotIx} {r r' : Record} {c : Instr}

/-! ## Slots -/

/-- The ways in which a slot moves at a command or event. -/
inductive SlotMove (c : Instr) (s t : State) (i : SlotIx) : Prop
  | stands (hg : (t.slots[i.val]'i.isLt).generation = (s.slots[i.val]'i.isLt).generation)
      (hl : (t.slots[i.val]'i.isLt).body.isLive = (s.slots[i.val]'i.isLt).body.isLive) (hf : (t.slots[i.val]'i.isLt).body = .free ↔ (s.slots[i.val]'i.isLt).body = .free)
      (hd : (t.slots[i.val]'i.isLt).body = .draining ↔ (s.slots[i.val]'i.isLt).body = .draining)
  | created {f : Frame} {o : CreateBytes} (hc : c = .create f o) (hs : (s.slots[i.val]'i.isLt).body = .free)
      (ht : (t.slots[i.val]'i.isLt).body.isLive = true) (hg : (t.slots[i.val]'i.isLt).generation = (s.slots[i.val]'i.isLt).generation + 1)
  | reset (ht : t.slots[i.val]'i.isLt = ⟨0, .free⟩) (hr : s.inReset = true ∨ t.inReset = true)
  | retired {f : Frame} {h : HandleBytes} {x : Byte} (hc : c = .retire f h x) (hi : h.slot.toNat = i.val)
      (hs : (s.slots[i.val]'i.isLt).body.isLive = true)
      (ht : t.slots[i.val]'i.isLt = ⟨(s.slots[i.val]'i.isLt).generation, if s.hasEntry i then .draining else .free⟩)
  | wiped {f : Frame} (hc : c = .wipeTable f) (ht : t.slots[i.val]'i.isLt = ⟨(s.slots[i.val]'i.isLt).generation, .free⟩)
  | acknowledged {f : Frame} {h : HandleBytes} {x : Byte} (hc : c = .ackNotice f h x) (hi : h.slot.toNat = i.val)
      (hs : (s.slots[i.val]'i.isLt).body = .draining) (ht : t.slots[i.val]'i.isLt = ⟨(s.slots[i.val]'i.isLt).generation, .free⟩)

theorem SlotMove.of_eq (h : t.slots[i.val]'i.isLt = s.slots[i.val]'i.isLt) : SlotMove c s t i :=
  .stands (by rw [h]) (by rw [h]) (by rw [h]) (by rw [h])

theorem SlotMove.of_worked {m : Prop} (h : SlotWorked m (s.slots[i.val]'i.isLt) (t.slots[i.val]'i.isLt)) : SlotMove c s t i :=
  .stands h.generation h.isLive h.free_iff h.draining_iff

theorem SlotMove.of_edit {p : Prop} [Decidable p] {f : Record → Record}
    (e : t.slots[i.val]'i.isLt = if p then (s.slots[i.val]'i.isLt).edit f else s.slots[i.val]'i.isLt) : SlotMove c s t i := by
  split at e
  · exact .stands (by simp [e]) (by simp [e]) (by simp [e]) (by simp [e])
  · exact .of_eq e

theorem Move.slot (hc : Instr.isStorage c = false) (h : Move c s t) (j : SlotIx) : SlotMove c s t j := by
  cases h with
  | work h => exact .of_worked (h.slot j)
  | release => exact .of_eq rfl
  | @create f o i hc _ hparent _ hfree =>
    by_cases e : j = i
    · subst e
      have hs := State.place_slot_self hparent hfree
      exact .created hc hfree (by rw [hs]; rfl) (by rw [hs])
    · exact .of_edit (State.place_slot_ne s o e)
  | @retire f h x i r hc hi hr =>
    by_cases e : j = i
    · subst e
      refine .retired hc hi ?_ (State.retireContract_slot_self s j r)
      rw [State.recordAt_eq_some.1 hr]
      rfl
    · exact .of_edit (State.retireContract_slot_ne s r e)
  | wipe hc => exact .wiped hc (s.wipe_slot j)
  | ackDevice => exact .of_eq rfl
  | @ackContract f h x i hc hi left =>
    have hs := s.ackContract_slot i left j
    split at hs
    · rename_i e
      obtain ⟨rfl, -, hd⟩ := e
      exact .acknowledged hc hi hd hs
    · exact .of_eq hs
  | @corrupt h r _ _ _ _ ht =>
    have mark : SlotMove c s (s.markCorrupt h.slot r) j := .of_edit (State.markCorrupt_slot s h.slot r j)
    have hw := ht.slot j
    have hs := State.markCorrupt_slot s h.slot r j
    refine .stands (hw.generation.trans ?_) (hw.isLive.trans ?_) (hw.free_iff.trans ?_) (hw.draining_iff.trans ?_) <;> rw [hs] <;>
      split <;> simp
  | storage e => subst e; cases hc
  | reset _ hb => exact .reset (s.resetBlocks_slot j) hb

/-- Settles O16. -/
theorem slotsMoveByTheirCommands : Obligations.SlotsMoveByTheirCommands := by
  intro s t i hst h
  obtain ⟨-, rfl⟩ | ⟨c, rest, p, x, u, q, y, hp, hm, rfl⟩ := step_move h
  · exact ⟨.inl rfl, fun h h' => (by rw [h] at h'; cases h'), fun h h' => absurd h' h, fun h h' => absurd h' h,
      fun r r' h h' => (by rw [h] at h'; cases h'; rfl)⟩
  have fixed : ∀ r r', s.recordAt i = some r → u.recordAt i = some r' → r'.fixed = r.fixed := by
    intro r r' hr hr'
    obtain ⟨f, o, -, -, hfree, -⟩ | ⟨r0, hr0, hk⟩ := hm.record hr'
    · have := State.recordAt_of_free (s := s) hfree
      rw [hr] at this; cases this
    · obtain rfl : r = r0 := Option.some.inj (hr.symm.trans hr0)
      exact hk.fixed (State.storageHolds_front hst hp)
  simp only [Fin.getElem_fin]
  refine ⟨?_, ?_, ?_, ?_, fixed⟩ <;> have mv := hm.slot (State.storageHolds_front hst hp) i
  · cases mv with
    | stands hg => exact .inl hg
    | created hc hs ht hg => subst hc; exact .inr (.inl ⟨_, _, _, hp, hs, ht, hg⟩)
    | reset ht hr => exact .inr (.inr ⟨ht, hr⟩)
    | retired _ _ _ ht => exact .inl (by rw [ht])
    | wiped _ ht => exact .inl (by rw [ht])
    | acknowledged _ _ _ ht => exact .inl (by rw [ht])
  · intro hs hl
    cases mv with
    | stands _ hl' => rw [hl', hs] at hl; cases hl
    | created hc hs => subst hc; exact ⟨hs, _, _, _, hp⟩
    | reset ht => rw [ht] at hl; cases hl
    | retired _ _ hs' => rw [hs'] at hs; cases hs
    | wiped _ ht => rw [ht] at hl; cases hl
    | acknowledged _ _ _ ht => rw [ht] at hl; cases hl
  · intro hs hd
    cases mv with
    | stands _ _ _ hd' => exact absurd (hd'.1 hd) hs
    | created _ _ ht => rw [hd] at ht; cases ht
    | reset ht => rw [ht] at hd; cases hd
    | retired hc hi hs' ht =>
      subst hc
      rw [ht] at hd
      refine ⟨hs', ?_, _, _, _, _, hp, hi⟩
      by_contra he
      have he : ({ s with port := p, scrub := x, pending := rest } : State).hasEntry i = false := Bool.not_eq_true _ ▸ he
      rw [he] at hd
      cases hd
    | wiped _ ht => rw [ht] at hd; cases hd
    | acknowledged _ _ _ ht => rw [ht] at hd; cases hd
  · intro hs hf
    cases mv with
    | stands _ _ hf' => exact absurd (hf'.1 hf) hs
    | created _ _ ht => rw [hf] at ht; cases ht
    | reset _ hr => exact .inl hr
    | retired hc hi hs' => subst hc; exact .inr (.inr (.inl ⟨hs', _, _, _, _, hp, hi⟩))
    | wiped hc => subst hc; exact .inr (.inl ⟨_, _, hp⟩)
    | acknowledged hc hi hd => subst hc; exact .inr (.inr (.inr ⟨hd, _, _, _, _, hp, hi⟩))

/-! ## The flags of the lines -/

/-- A flag of a line stays set, but for a release taken and, if it is the forced flag, a reset. -/
theorem Move.line (h : Move c s t) (l : LineIx) :
    (∃ f b, c = .releaseTrip f b ∧ b.toNat = l.val ∧ (s.trips[l.val]'l.isLt).contributors = [] ∧ s.ref.supervision = .normal) ∨
    ((s.trips[l.val]'l.isLt).held = true → (t.trips[l.val]'l.isLt).held = true) ∧
      ((s.trips[l.val]'l.isLt).forced = true → (t.trips[l.val]'l.isLt).forced = true ∨ s.inReset = true ∨ t.inReset = true) := by
  have of_eq : t.trips = s.trips → ((s.trips[l.val]'l.isLt).held = true → (t.trips[l.val]'l.isLt).held = true) ∧
      ((s.trips[l.val]'l.isLt).forced = true → (t.trips[l.val]'l.isLt).forced = true ∨ s.inReset = true ∨ t.inReset = true) :=
    fun e => by rw [e]; exact ⟨id, .inl⟩
  cases h with
  | work h => exact .inr ⟨(h.line l).held, fun e => .inl ((h.line l).forced e)⟩
  | @release f b k hc hl hs hn =>
    by_cases e : l = k
    · subst e; exact .inl ⟨f, b, hc, hl, hn, hs⟩
    · rw [State.setLine_get_ne _ _ _ e]; exact .inr ⟨id, .inl⟩
  | create => exact .inr (of_eq (by simp))
  | retire => rw [State.retireContract_line]; exact .inr ⟨id, .inl⟩
  | wipe => rw [State.wipe_line]; exact .inr ⟨id, .inl⟩
  | ackDevice => exact .inr (of_eq rfl)
  | ackContract => exact .inr (of_eq (s.ackContract_keeps State.trips (fun _ _ _ => rfl) (fun _ _ => rfl) _ _))
  | corrupt _ _ _ ht =>
    refine .inr ⟨fun e => (ht.line l).held ?_, fun e => .inl ((ht.line l).forced ?_)⟩ <;> rw [State.markCorrupt_line]
    · simp [TripLine.join_held, e]
    · exact e
  | storage => exact .inr (of_eq rfl)
  | reset _ hb =>
    refine .inr ⟨fun _ => ?_, fun _ => .inr hb⟩
    rw [show (_ : State).trips = s.resetBlocks.trips from rfl, State.resetBlocks_line]
    rfl

/-- Settles O17. -/
theorem heldFlagEndsByRelease : Obligations.HeldFlagEndsByRelease := by
  intro s t l h
  obtain ⟨-, rfl⟩ | ⟨c, rest, p, x, u, q, y, hp, hm, rfl⟩ := step_move h
  · exact ⟨fun h h' => (by rw [h] at h'; cases h'), fun h h' => (by rw [h] at h'; cases h')⟩
  obtain ⟨f, b, rfl, hb, hn, hs⟩ | ⟨held, forced⟩ := hm.line l
  · exact ⟨fun _ _ => ⟨f, b, rest, hp, hb, hn, hs⟩, fun _ _ => .inr ⟨f, b, rest, hp, hb, hn, hs⟩⟩
  · refine ⟨fun h h' => ?_, fun h h' => ?_⟩
    · exact absurd ((held h).symm.trans h') (by decide)
    · obtain e | e := forced h
      · exact absurd (e.symm.trans h') (by decide)
      · exact .inl e

/-! ## The commands that wait -/

theorem Move.pending (h : Move c s t) : t.pending = s.pending := by
  cases h with
  | work h => exact h.pending
  | release => rfl
  | create => simp
  | retire => simp
  | wipe => simp
  | ackDevice => rfl
  | ackContract => exact s.ackContract_keeps State.pending (fun _ _ _ => rfl) (fun _ _ => rfl) _ _
  | corrupt _ _ _ ht => exact ht.pending.trans (by simp)
  | storage => rfl
  | reset => rfl

theorem exec_answers (c : Instr) (s : State) : ∃ t, exec c s = .next t := by
  cases c <;> exact ⟨_, rfl⟩

/-- Settles O2. -/
theorem everyCommandAnswers : Obligations.EveryCommandAnswers := by
  intro c s
  obtain ⟨t, ht⟩ := exec_answers c s
  obtain ⟨p, x, u, q, y, hm, rfl⟩ := (exec_moved ht).move
  exact ⟨_, ht, hm.pending⟩

/-! ## The notice queue -/

/-- The queue is sound when its owners differ, no entry is empty, no FREE slot is an owner and every DRAINING slot is one. -/
theorem State.noticesSound_iff (s : State) : s.noticesSound ↔ s.owners.Nodup ∧ (∀ e ∈ s.notices, e.nonempty) ∧
    (∀ i : SlotIx, (s.slots[i.val]'i.isLt).body = .free → some i ∉ s.owners) ∧
    (∀ i : SlotIx, (s.slots[i.val]'i.isLt).body = .draining → some i ∈ s.owners) := by
  simp only [State.noticesSound, pairwise_differ_iff, State.owners, ← Bool.not_eq_true, State.hasEntry_iff, Fin.getElem_fin]

theorem Work.noticesSound {m : SlotIx → Prop} (h : Work m s t) (hs : s.noticesSound) : t.noticesSound := by
  obtain ⟨hd, hn, hf, hdr⟩ := hs
  refine ⟨h.notices.differ hd, h.notices.nonempty hn, fun i e => ?_, fun i e => ?_⟩
  · have hi := (h.slot i).free_iff.1 e
    rw [← Bool.not_eq_true]
    intro he
    obtain he | he := h.notices.joins i he
    · exact absurd (he.symm.trans (hf i hi)) (by decide)
    · rw [State.liveAt_iff, hi] at he; cases he
  · exact h.notices.stays i (hdr i ((h.slot i).draining_iff.1 e))

theorem owners_addContractKinds_mem {i j : SlotIx} {g : Byte} {k : BitVec 7} {q : List NoticeEntry} :
    some j ∈ (addContractKinds i g k q).map NoticeEntry.owner ↔ some j ∈ q.map NoticeEntry.owner ∨ j = i := by
  induction q with
  | nil => simp [addContractKinds, NoticeEntry.owner]
  | cons e t ih =>
    cases e with
    | device ks => simp only [addContractKinds, List.map_cons, List.mem_cons, ih, or_assoc]
    | contract a b ks =>
      simp only [addContractKinds]
      split
      · rename_i e; subst e
        simp only [List.map_cons, List.mem_cons, NoticeEntry.owner, Option.some.injEq]
        tauto
      · simp only [List.map_cons, List.mem_cons, ih, or_assoc]

/-- A kind posted for a slot keeps the entries apart and not empty. -/
theorem addContractKinds_sound {g : Byte} {k : NoticeKind} {q : List NoticeEntry} (hd : (q.map NoticeEntry.owner).Nodup)
    (hn : ∀ e ∈ q, e.nonempty) : ((addContractKinds i g (noticeBit k) q).map NoticeEntry.owner).Nodup ∧
      ∀ e ∈ addContractKinds i g (noticeBit k) q, e.nonempty := by
  have kept := addContractKinds_kept (live := fun _ => True) (i := i) trivial g (noticeBit_ne_zero k) q
  exact ⟨(pairwise_differ_iff _).1 (kept.differ ((pairwise_differ_iff q).2 hd)), kept.nonempty hn⟩

theorem markCorrupt_noticesSound (hr : s.recordAt i = some r) (hs : s.noticesSound) : (s.markCorrupt i r).noticesSound := by
  rw [State.noticesSound_iff] at hs ⊢
  obtain ⟨hd, hn, hf, hdr⟩ := hs
  simp only [State.owners, State.markCorrupt_notices, owners_addContractKinds_mem]
  obtain ⟨hd', hn'⟩ := addContractKinds_sound (i := i) (g := (s.slots[i.val]'i.isLt).generation) (k := .corrupt) hd hn
  have slot := State.markCorrupt_slot s i r
  refine ⟨hd', hn', fun j e => ?_, fun j e => ?_⟩
  · have free : (s.slots[j.val]'j.isLt).body = .free := by rw [slot] at e; split at e <;> simpa using e
    rintro (h | rfl)
    · exact hf j free h
    · rw [State.recordAt_of_free free] at hr; cases hr
  · exact .inl (hdr j (by rw [slot] at e; split at e <;> simpa using e))

theorem retireContract_noticesSound (hs : s.noticesSound) : (s.retireContract i r).noticesSound := by
  have hhas : some i ∈ s.owners ↔ s.hasEntry i = true := (s.hasEntry_iff i).symm
  rw [State.noticesSound_iff] at hs ⊢
  obtain ⟨hd, hn, hf, hdr⟩ := hs
  have others : ∀ j, j ≠ i → (((s.retireContract i r).slots[j.val]'j.isLt).body = .free ↔ (s.slots[j.val]'j.isLt).body = .free) ∧
      (((s.retireContract i r).slots[j.val]'j.isLt).body = .draining ↔ (s.slots[j.val]'j.isLt).body = .draining) := fun j e => by
    rw [State.retireContract_slot_ne s r e]
    split <;> simp
  have self := State.retireContract_slot_self s i r
  simp only [State.owners, State.retireContract_notices]
  by_cases he : s.hasEntry i = true
  · rw [if_pos he] at self ⊢
    obtain ⟨hd', hn'⟩ := addContractKinds_sound (i := i) (g := (s.slots[i.val]'i.isLt).generation) (k := .retired) hd hn
    simp only [owners_addContractKinds_mem]
    refine ⟨hd', hn', fun j e => ?_, fun j e => ?_⟩
    · have ne : j ≠ i := fun h => by subst h; rw [self] at e; cases e
      rintro (h | h)
      · exact hf j ((others j ne).1.1 e) h
      · exact ne h
    · by_cases ne : j = i
      · exact .inr ne
      · exact .inl (hdr j ((others j ne).2.1 e))
  · rw [if_neg he] at self ⊢
    refine ⟨hd, hn, fun j e => ?_, fun j e => ?_⟩
    · by_cases ne : j = i
      · subst ne; exact fun h => he (hhas.1 h)
      · exact hf j ((others j ne).1.1 e)
    · have ne : j ≠ i := fun h => by subst h; rw [self] at e; cases e
      exact hdr j ((others j ne).2.1 e)

theorem ackContract_noticesSound {left : BitVec 7} (hs : s.noticesSound) : (s.ackContract i left).noticesSound := by
  rw [State.noticesSound_iff] at hs ⊢
  obtain ⟨hd, hn, hf, hdr⟩ := hs
  have slot := s.ackContract_slot i left
  simp only [State.owners, State.ackContract_notices]
  have sub := leaveContractKinds_sublist i left s.notices
  refine ⟨hd.sublist sub, leaveContractKinds_nonempty hn, fun j e => ?_, fun j e => ?_⟩
  · rw [slot] at e
    split at e
    · rename_i h
      obtain ⟨rfl, rfl, -⟩ := h
      exact leaveContractKinds_gone j hd
    · exact fun h => hf j e (sub.subset h)
  · rw [slot] at e
    split at e
    · cases e
    · rename_i h
      refine leaveContractKinds_owner i s.notices (hdr j e) ?_
      by_contra hc
      rw [not_or, not_not, not_not] at hc
      exact h ⟨hc.1, hc.2, e⟩

theorem Move.noticesSound (h : Move c s t) (hs : s.noticesSound) : t.noticesSound := by
  have sound := (s.noticesSound_iff).1 hs
  obtain ⟨hd, hn, hf, hdr⟩ := sound
  cases h with
  | work h => exact h.noticesSound hs
  | release => exact hs
  | @create _ o i _ _ hparent _ hfree =>
    rw [State.noticesSound_iff]
    simp only [State.owners, State.place_notices]
    have self := State.place_slot_self hparent hfree
    have others : ∀ j, j ≠ i → (((s.place i o).slots[j.val]'j.isLt).body = .free ↔ (s.slots[j.val]'j.isLt).body = .free) ∧
        (((s.place i o).slots[j.val]'j.isLt).body = .draining ↔ (s.slots[j.val]'j.isLt).body = .draining) := fun j e => by
      rw [State.place_slot_ne s o e]
      split <;> simp
    refine ⟨hd, hn, fun j e => ?_, fun j e => ?_⟩ <;>
      have ne : j ≠ i := (fun h => by subst h; rw [self] at e; cases e)
    · exact hf j ((others j ne).1.1 e)
    · exact hdr j ((others j ne).2.1 e)
  | retire => exact retireContract_noticesSound hs
  | wipe =>
    rw [State.noticesSound_iff]
    simp only [State.owners, State.wipe_notices, State.wipe_slot]
    refine ⟨hd.sublist (List.filter_sublist.map _), fun e he => hn e (List.mem_filter.1 he).1, fun j _ h => ?_, fun j e => by cases e⟩
    obtain ⟨e, he, ho⟩ := List.mem_map.1 h
    have := (List.mem_filter.1 he).2
    cases e with
    | device => cases ho
    | contract => cases this
  | ackDevice _ left =>
    rw [State.noticesSound_iff]
    simp only [State.owners, leaveDeviceKinds_owner]
    exact ⟨hd.sublist (leaveDeviceKinds_sublist left s.notices), leaveDeviceKinds_nonempty hn, hf, hdr⟩
  | ackContract => exact ackContract_noticesSound hs
  | corrupt _ hr _ ht => exact ht.noticesSound (markCorrupt_noticesSound hr hs)
  | @storage i x r _ hr =>
    rw [State.noticesSound_iff]
    simp only [State.owners, State.setSlot_notices]
    refine ⟨hd, hn, fun j e => ?_, fun j e => ?_⟩ <;>
      have ne : j ≠ i := (fun h => by subst h; rw [State.setSlot_get] at e; cases e) <;>
      rw [State.setSlot_get_ne _ _ _ ne] at e
    · exact hf j e
    · exact hdr j e
  | reset =>
    rw [State.noticesSound_iff]
    refine ⟨?_, ?_, fun j _ => ?_, fun j e => ?_⟩
    · exact List.nodup_singleton _
    · intro e he
      obtain rfl : e = .device 1#3 := List.mem_singleton.1 he
      exact show (1#3 : BitVec 3) ≠ 0 by decide
    · intro h
      cases List.mem_singleton.1 h
    · rw [show (_ : State).slots = s.resetBlocks.slots from rfl, State.resetBlocks_slot] at e
      cases e

/-- Every entry of a slot carries its generation after a move, where no change in storage has been. -/
theorem Move.entriesCurrent (hc : Instr.isStorage c = false) (h : Move c s t) (hs : s.noticesSound)
    (he : s.entriesCurrent) : t.entriesCurrent := by
  have sound := (s.noticesSound_iff).1 hs
  obtain ⟨-, -, hf, -⟩ := sound
  intro j g ks hm
  rw [Fin.getElem_fin]
  cases h with
  | work h =>
    obtain ⟨ks0, h0⟩ | e := h.entries j g ks hm
    · rw [(h.slot j).generation]; exact he j g ks0 h0
    · rw [(h.slot j).generation]; exact e
  | release => exact he j g ks hm
  | @create _ o i _ _ hparent _ hfree =>
    rw [State.place_notices] at hm
    have ne : j ≠ i := fun e => by subst e; exact hf j hfree (List.mem_map.2 ⟨_, hm, rfl⟩)
    rw [State.place_slot_ne s o ne]
    rw [he j g ks hm]
    split <;> simp
  | @retire _ _ _ i r =>
    have gen : ((s.retireContract i r).slots[j.val]'j.isLt).generation = (s.slots[j.val]'j.isLt).generation :=
      congrArg Handle.generation (State.retireContract_handleOf s i r j)
    rw [gen]
    rw [State.retireContract_notices] at hm
    split at hm
    · obtain ⟨ks0, h0⟩ | ⟨rfl, rfl⟩ := addContractKinds_mem hm
      · exact he j g ks0 h0
      · rfl
    · exact he j g ks hm
  | wipe =>
    have := (List.mem_filter.1 hm).2
    cases this
  | ackDevice => exact he j g ks (leaveDeviceKinds_mem.1 hm)
  | @ackContract _ _ _ i _ _ left =>
    rw [State.ackContract_notices] at hm
    obtain ⟨ks0, h0⟩ := leaveContractKinds_mem hm
    rw [State.ackContract_slot, he j g ks0 h0]
    split <;> rfl
  | @corrupt h r _ _ _ _ ht =>
    have gen : ((s.markCorrupt h.slot r).slots[j.val]'j.isLt).generation = (s.slots[j.val]'j.isLt).generation := by
      rw [State.markCorrupt_slot]; split <;> simp
    rw [(ht.slot j).generation, gen]
    obtain ⟨ks0, h0⟩ | e := ht.entries j g ks hm
    · rw [State.markCorrupt_notices] at h0
      obtain ⟨ks1, h1⟩ | ⟨rfl, rfl⟩ := addContractKinds_mem h0
      · exact he j g ks1 h1
      · rfl
    · rw [e, gen]
  | storage e => subst e; cases hc
  | reset => cases List.mem_singleton.1 hm

/-- A command that can take entries out of the queue. -/
def Instr.takesOut : Instr → Bool
  | .ackNotice _ _ _ => true
  | .wipeTable _ => true
  | _ => false

/-- Out of reset entries only join the queue, at its tail, at every command that takes none out. -/
theorem Move.owners_prefix (hc : Instr.takesOut c = false) (h : Move c s t) (hs : s.inReset = false) (ht : t.inReset = false) :
    s.owners <+: t.owners := by
  cases h with
  | work h => exact h.follows.owners
  | release => exact List.prefix_refl _
  | create => simp [State.owners]
  | retire =>
    simp only [State.owners, State.retireContract_notices]
    split
    · exact owners_addContractKinds _ _ _ _
    · exact List.prefix_refl _
  | wipe e => subst e; cases hc
  | ackDevice e => subst e; cases hc
  | ackContract e => subst e; cases hc
  | corrupt _ _ _ h =>
    refine List.IsPrefix.trans ?_ h.follows.owners
    simp only [State.owners, State.markCorrupt_notices]
    exact owners_addContractKinds _ _ _ _
  | storage => exact List.prefix_refl _
  | reset _ hb => obtain hb | hb := hb <;> simp_all

/-- At ACK_NOTICE entries only leave the queue. -/
theorem ackNoticeBlock_owners (h : HandleBytes) (kinds : Byte) (s : State) :
    (ackNoticeBlock h kinds s).state.owners.Sublist s.owners := by
  unfold ackNoticeBlock
  split
  · unfold ackDeviceBlock
    split
    · exact List.Sublist.refl _
    · split
      · exact List.Sublist.refl _
      · exact leaveDeviceKinds_sublist _ _
  · split
    · exact List.Sublist.refl _
    · split
      · exact List.Sublist.refl _
      · split
        · exact List.Sublist.refl _
        · split
          · exact List.Sublist.refl _
          · simp only [ok, State.owners, State.ackContract_notices]
            exact leaveContractKinds_sublist _ _ _

/-- At a command that takes entries out none joins. -/
theorem exec_owners_sublist (hc : Instr.takesOut c = true) (h : exec c s = .next t) : t.owners.Sublist s.owners := by
  have served : ∀ (k : Command) (f : Frame) (block : State → Answer), (∀ s, (block s).state.owners.Sublist s.owners) →
      (s.serve k f block).owners.Sublist s.owners := by
    intro k f block hb
    obtain ⟨-, e⟩ | ⟨-, e⟩ := s.serve_cases k f block <;> rw [e]
    · exact List.Sublist.refl _
    · exact hb (s.frameEnded _)
  cases c with
  | ackNotice f h' x => cases h; exact served _ _ _ (ackNoticeBlock_owners h' x)
  | wipeTable f => cases h; exact served _ _ _ fun s => List.filter_sublist.map _
  | _ => cases hc

theorem State.takesEntriesOut_iff {rest : List Instr} (hp : s.pending = c :: rest) :
    s.takesEntriesOut ↔ Instr.takesOut c = true := by
  unfold State.takesEntriesOut
  rw [hp]
  refine ⟨?_, fun h => ?_⟩
  · rintro (⟨f, h, kinds, rest', e⟩ | ⟨f, rest', e⟩) <;> (cases e; rfl)
  · cases c with
    | ackNotice f h' kinds => exact .inl ⟨f, h', kinds, rest, rfl⟩
    | wipeTable f => exact .inr ⟨f, rest, rfl⟩
    | _ => cases h

/-- Settles O6. -/
theorem noticesStaySound : Obligations.NoticesStaySound := by
  intro s t h
  refine ⟨fun hs => ⟨step_keeps (fun _ _ _ _ => Iff.rfl) Move.noticesSound hs h, fun he hst => ?_⟩, fun hs ht => ?_⟩
  · exact (step_keeps_of_storageHolds (P := fun s => s.noticesSound ∧ s.entriesCurrent) (fun _ _ _ _ => Iff.rfl)
      (fun hc hm hs => ⟨hm.noticesSound hs.1, hm.entriesCurrent hc hs.1 hs.2⟩) ⟨hs, he⟩ hst h).2
  · obtain ⟨-, rfl⟩ | ⟨c, rest, p, x, u, q, y, hp, hm, rfl⟩ := step_move h
    · exact ⟨fun _ => List.Sublist.refl _, fun _ => List.prefix_refl _⟩
    · rw [State.takesEntriesOut_iff hp]
      refine ⟨fun hc => ?_, fun hc => ?_⟩
      · have he : exec c { s with pending := rest } = .next { u with port := q, scrub := y } := by
          rw [← h, step, hp]
        exact exec_owners_sublist (s := { s with pending := rest }) hc he
      · have joined := hm.owners_prefix (Bool.not_eq_true _ ▸ hc) hs ht
        exact joined

end Sys2Proof.Machine
end

