-- ==== Sys2Proof/Proofs/Reset.lean ====
section
set_option Elab.async false
/-! PROOFS. What a command or event does to a part in reset, and the reset invariant. -/

namespace Sys2Proof.Machine

variable {s t u : State} {c : Instr}

theorem State.not_receiving_of_reset (h : s.inReset = true) : ¬ s.receiving := fun hr => by
  rw [hr.1] at h; cases h

theorem State.serve_of_reset (h : s.inReset = true) (k : Command) (f : Frame) (block : State → Answer) :
    s.serve k f block = s.csRaised := State.endFrame_of_not_receiving (State.not_receiving_of_reset h) _ _

/-- All that a command or event can do to a part in reset: nothing, the level of CS#, the checker's count, the supply between its
places below the operating range, a change in the storage of a LIVE record, a reset begun anew or a power-on reset, the release. -/
inductive InReset (c : Instr) (s : State) : State → Prop
  | stands : InReset c s s
  | csRises : InReset c s s.csRaised
  | csFalls : InReset c s { s with port := { s.port with csLow := true } }
  | checker (x : RefChecker) : InReset c s { s with ref := x }
  | supply {v : Supply} (hs : s.supply ≠ .inRange) (hv : v ≠ .inRange) : InReset c s { s with supply := v }
  | storage {i : SlotIx} {r : Record} (hr : s.recordAt i = some r) (x : Slot) : InReset c s (s.setSlot i x)
  | reset : InReset c s s.enterReset
  | powerOn (v : Supply) (x : RefChecker) : InReset c s { s.enterReset with supply := v, ref := x }
  | release (x : RefChecker) : InReset c s { s.resetBlocks with inReset := false, supply := .inRange, ref := x }

theorem exec_inReset (hs : s.inReset = true) (h : exec c s = .next t) : InReset c s t := by
  have served := s.serve_of_reset hs
  have ended := State.endFrame_of_not_receiving (State.not_receiving_of_reset hs)
  have idles := State.whileOperating_of_reset hs
  cases c with
  | frameBegin =>
    cases h
    split
    · exact .stands
    · exact .csFalls
  | frameRefused bytes =>
    cases h
    split
    · exact .stands
    · rw [ended]; exact .csRises
  | repeatReply => cases h; rw [ended]; exact .csRises
  | resetDevice => cases h; rw [ended]; exact .csRises
  | emptyFrame => cases h; rw [ended]; exact .csRises
  | referenceLoss => cases h; dsimp only; rw [if_pos hs]; exact .checker _
  | goodPeriod =>
    cases h
    rw [State.refclkEdge, if_pos hs]
    exact .checker _
  | storageChange i x =>
    cases h
    split
    · exact .stands
    · rename_i hr; exact .storage hr _
  | powerOnReset => cases h; exact .powerOn _ _
  | resetInput => cases h; exact .reset
  | resetRelease =>
    cases h
    split
    · exact .release _
    · exact .stands
  | vddAt1V2 rising =>
    cases h
    split
    · rename_i e; exact .supply (by simp [e.2]) (by simp)
    · split
      · rename_i e; exact .supply (by simp [e.2]) (by simp)
      · exact .stands
  | nop | identify | readStatus | create | amend | suspend | resume | clear | retire | query | list | wipeTable | readNotices
  | ackNotice | setTimebase | startTimebase | stopTimebase | readTimebase | setPin | readPins | setTrip | releaseTrip | forceTrip
  | readTrips | clearFault => cases h; rw [served]; exact .csRises
  | firstSample | edgeProduced | gateBoundary | edgeTaken | boundaryTaken | silenceLimit | observationTaken | referenceReturn
  | scrubberVisit | mismatchReport | pinSample | baseTickEnd => cases h; rw [idles]; exact .stands

/-- A part in reset whose blocks stand at their reset values: a reset begun anew would change nothing. -/
theorem State.heldInReset_iff (s : State) :
    s.heldInReset ↔ (s.inReset = true → s = s.enterReset) ∧ (s.supply ≠ .inRange → s.inReset = true) := Iff.rfl

theorem InReset.held (h : InReset c s t) (hs : s.inReset = true) (hold : s = s.enterReset) : t.heldInReset := by
  rw [State.heldInReset_iff]
  cases h with
  | stands => exact ⟨fun _ => hold, fun _ => hs⟩
  | csRises => exact ⟨fun _ => by rw [hold]; rfl, fun _ => hs⟩
  | csFalls => exact ⟨fun _ => by rw [hold]; rfl, fun _ => hs⟩
  | checker => exact ⟨fun _ => by rw [hold]; rfl, fun _ => hs⟩
  | supply => exact ⟨fun _ => by rw [hold]; rfl, fun _ => hs⟩
  | @storage i _ hr =>
    have empty : s.enterReset.recordAt i = none := s.resetBlocks_recordAt i
    rw [← hold, hr] at empty
    cases empty
  | reset => exact ⟨fun _ => rfl, fun _ => rfl⟩
  | powerOn => exact ⟨fun _ => rfl, fun _ => rfl⟩
  | release => exact ⟨fun h => (by cases h), fun h => absurd rfl h⟩

/-- A move that is no reset keeps the reset flag, and a supply in range. -/
theorem Move.running (h : Move c s t) (hc : ¬ Instr.resets c) :
    t.inReset = s.inReset ∧ (s.supply = .inRange → t.supply = .inRange) := by
  cases h with
  | work h => exact ⟨h.inReset, h.supply⟩
  | release => exact ⟨rfl, id⟩
  | create => exact ⟨by simp, by simp⟩
  | retire => exact ⟨by simp, by simp⟩
  | wipe => exact ⟨by simp, by simp⟩
  | ackDevice => exact ⟨rfl, id⟩
  | ackContract =>
    have keeps := fun (β : Type) (get : State → β) => s.ackContract_keeps get
    exact ⟨keeps _ State.inReset (fun _ _ _ => rfl) (fun _ _ => rfl) _ _,
      fun e => (keeps _ State.supply (fun _ _ _ => rfl) (fun _ _ => rfl) _ _).trans e⟩
  | corrupt _ _ _ ht => exact ⟨ht.inReset.trans (by simp), fun e => ht.supply (by simpa using e)⟩
  | storage => exact ⟨rfl, id⟩
  | reset hc' => exact absurd hc' hc

theorem exec_heldInReset (hs : s.heldInReset) (h : exec c s = .next t) : t.heldInReset := by
  obtain ⟨hold, hsupply⟩ := hs
  cases hr : s.inReset with
  | true => exact (exec_inReset hr h).held hr (hold hr)
  | false =>
    have inRange : s.supply = .inRange := by
      by_contra e
      exact absurd ((hsupply e).symm.trans hr) (by decide)
    rw [State.heldInReset_iff]
    by_cases hc : Instr.resets c
    · cases c with
      | resetDevice f =>
        cases h
        obtain ⟨-, e⟩ | ⟨-, e⟩ := s.endFrame_cases (commandLength .resetDevice + f.fill) State.enterReset <;> rw [e]
        · exact ⟨fun e => absurd (hr.symm.trans e) (by decide), fun e => absurd inRange e⟩
        · exact ⟨fun _ => rfl, fun _ => rfl⟩
      | powerOnReset => cases h; exact ⟨fun _ => rfl, fun _ => rfl⟩
      | resetInput => cases h; exact ⟨fun _ => rfl, fun _ => rfl⟩
      | resetRelease =>
        cases h
        rw [if_neg (by simp [hr])]
        exact ⟨fun e => absurd (hr.symm.trans e) (by decide), fun e => absurd inRange e⟩
      | _ => cases hc
    · obtain ⟨p, x, u, q, y, hm, rfl⟩ := (exec_moved h).move
      obtain ⟨hres, hsup⟩ := hm.running hc
      exact ⟨fun e => absurd (e.symm.trans (hres.trans hr)) (by decide), fun e => absurd (hsup inRange) e⟩

/-- Settles O8. -/
theorem resetHoldsThePart : Obligations.ResetHoldsThePart := by
  intro s t hs hp h
  unfold step at h
  split at h
  · cases h; exact ⟨hs, hp⟩
  · rename_i c rest hc
    have held : ({ s with pending := rest } : State).heldInReset := by
      refine ⟨fun e => ?_, hs.2⟩
      have hold := hs.1 e
      exact congrArg (fun s : State => { s with pending := rest }) hold
    exact ⟨exec_heldInReset held h, (exec_moved h).portSound hp⟩

end Sys2Proof.Machine
end

