-- ==== Sys2Proof/Proofs/Views.lean ====
section
set_option Elab.async false
/-! PROOFS. The view of a slot: the slot, the kinds of its entry and its pending observations. Each operation of the Table Controller on
one slot edits that slot's view, by a function of the view alone, and no other. -/

namespace Sys2Proof.Machine

variable {m : SlotIx → Prop} {s t u : State} {i j d : SlotIx} {r r' : Record}

/-! ## Views -/

/-- What the Table Controller holds of one slot. -/
structure View where
  slot : Slot
  kinds : Option (BitVec 7)
  obs : List Observation

def State.view (s : State) (j : SlotIx) : View := ⟨s.slots[j.val]'j.isLt, contractKinds j s.notices, s.observationsOf j⟩

@[simp] theorem State.view_slot (s : State) (j : SlotIx) : (s.view j).slot = s.slots[j.val]'j.isLt := rfl
@[simp] theorem State.view_kinds (s : State) (j : SlotIx) : (s.view j).kinds = contractKinds j s.notices := rfl
@[simp] theorem State.view_obs (s : State) (j : SlotIx) : (s.view j).obs = s.observationsOf j := rfl

theorem State.view_eq_iff : t.view j = s.view j ↔ t.slots[j.val]'j.isLt = s.slots[j.val]'j.isLt ∧
    contractKinds j t.notices = contractKinds j s.notices ∧ t.observationsOf j = s.observationsOf j := by
  simp [State.view]

theorem State.stands_iff : s.stands t j ↔ t.view j = s.view j := by
  rw [State.view_eq_iff]; rfl

/-- The record that a view holds. -/
def View.record (v : View) : Option Record :=
  match v.slot.body with
  | .live r => some r
  | _ => none

@[simp] theorem State.view_record (s : State) (j : SlotIx) : (s.view j).record = s.recordAt j := rfl

theorem State.view_congr (hs : t.slots = s.slots) (hn : t.notices = s.notices) (ho : t.observations = s.observations) (j : SlotIx) :
    t.view j = s.view j := by
  simp [State.view, State.observationsOf, hs, hn, ho]

theorem State.recordAt_of_view (h : t.view j = s.view j) : t.recordAt j = s.recordAt j := congrArg View.record h

/-- The record of a slot edited. -/
def View.edit (f : Record → Record) (v : View) : View := { v with slot := v.slot.edit f }

/-- Kinds added to the entry of a slot, if there is any to add. -/
def View.post (k : BitVec 7) (v : View) : View := if k = 0 then v else { v with kinds := some (v.kinds.getD 0 ||| k) }

/-- The pending observations of a slot's current handle withdrawn. -/
def View.withdraw (i : SlotIx) (v : View) : View :=
  { v with obs := v.obs.filter (fun o => o.handle ≠ ⟨i, v.slot.generation⟩) }

/-- A record at WAIT_GATE with nothing handed to it. -/
def Record.idle (r : Record) : Record := { r with context := Context.initial }

/-- A measurement abandoned (R54). -/
def View.abandon (i : SlotIx) (v : View) : View := (v.withdraw i).edit Record.idle

@[simp] theorem View.edit_kinds (f : Record → Record) (v : View) : (v.edit f).kinds = v.kinds := rfl
@[simp] theorem View.edit_obs (f : Record → Record) (v : View) : (v.edit f).obs = v.obs := rfl
@[simp] theorem View.edit_generation (f : Record → Record) (v : View) : (v.edit f).slot.generation = v.slot.generation := by
  simp [View.edit]
theorem View.post_none (v : View) : v.post 0 = v := if_pos rfl
@[simp] theorem View.post_zero (v : View) : v.post 0#7 = v := if_pos rfl
@[simp] theorem View.post_slot (k : BitVec 7) (v : View) : (v.post k).slot = v.slot := by unfold View.post; split <;> rfl
@[simp] theorem View.post_obs (k : BitVec 7) (v : View) : (v.post k).obs = v.obs := by unfold View.post; split <;> rfl
@[simp] theorem View.withdraw_slot (i : SlotIx) (v : View) : (v.withdraw i).slot = v.slot := rfl
@[simp] theorem View.withdraw_kinds (i : SlotIx) (v : View) : (v.withdraw i).kinds = v.kinds := rfl
@[simp] theorem View.abandon_kinds (i : SlotIx) (v : View) : (v.abandon i).kinds = v.kinds := rfl

theorem Slot.edit_record (x : Slot) (f : Record → Record) (k : Option (BitVec 7)) (o : List Observation) :
    View.record ⟨x.edit f, k, o⟩ = (View.record ⟨x, k, o⟩).map f := by
  unfold View.record Slot.edit
  cases hx : x.body <;> simp [hx]

@[simp] theorem View.edit_record (f : Record → Record) (v : View) : (v.edit f).record = v.record.map f :=
  Slot.edit_record v.slot f v.kinds v.obs
@[simp] theorem View.post_record (k : BitVec 7) (v : View) : (v.post k).record = v.record := by
  unfold View.record; rw [View.post_slot]
@[simp] theorem View.withdraw_record (i : SlotIx) (v : View) : (v.withdraw i).record = v.record := rfl
@[simp] theorem View.abandon_record (i : SlotIx) (v : View) : (v.abandon i).record = v.record.map Record.idle := by
  simp [View.abandon]

theorem View.edit_edit (f g : Record → Record) (v : View) : (v.edit f).edit g = v.edit (fun r => g (f r)) := by
  simp [View.edit]

/-- Two edits that agree on the record of a view. -/
theorem View.edit_congr {v : View} {f g : Record → Record} (h : ∀ r, v.record = some r → f r = g r) : v.edit f = v.edit g := by
  unfold View.edit Slot.edit
  unfold View.record at h
  cases hb : v.slot.body with
  | live r => rw [hb] at h; simp [h r rfl]
  | _ => rfl

theorem View.edit_of_eq {v : View} {f : Record → Record} (h : ∀ r, v.record = some r → f r = r) : v.edit f = v := by
  rw [View.edit_congr (g := id) h]
  unfold View.edit Slot.edit
  obtain ⟨⟨g, b⟩, k, o⟩ := v
  cases b <;> rfl

/-! ## The operations on one slot -/

theorem contractKinds_addContractKinds (i j : SlotIx) (g : Byte) (k : BitVec 7) (q : List NoticeEntry) :
    contractKinds j (addContractKinds i g k q) =
      if j = i then some ((contractKinds i q).getD 0 ||| k) else contractKinds j q := by
  induction q with
  | nil => by_cases e : j = i <;> simp [addContractKinds, contractKinds, e, Ne.symm]
  | cons a t ih =>
    cases a with
    | device ks => simpa [addContractKinds, contractKinds] using ih
    | contract a b ks =>
      simp only [addContractKinds]
      by_cases ea : a = i
      · subst ea
        by_cases e : j = a
        · subst e; simp [contractKinds]
        · simp [contractKinds, e, Ne.symm e]
      · rw [if_neg ea]
        simp only [contractKinds]
        by_cases e : a = j
        · subst e; simp [ea]
        · rw [if_neg e, ih, if_neg ea, if_neg e]

theorem contractKinds_addDeviceKinds (j : SlotIx) (k : BitVec 3) (q : List NoticeEntry) :
    contractKinds j (addDeviceKinds k q) = contractKinds j q := by
  induction q with
  | nil => rfl
  | cons a t ih => cases a <;> simp [addDeviceKinds, contractKinds, ih]

theorem deviceKinds_addDeviceKinds (k : BitVec 3) (q : List NoticeEntry) :
    deviceKinds (addDeviceKinds k q) = some ((deviceKinds q).getD 0 ||| k) := by
  induction q with
  | nil => simp [addDeviceKinds, deviceKinds]
  | cons a t ih => cases a <;> simp [addDeviceKinds, deviceKinds, ih]

/-- The kinds of the device entry are read from the device entries alone. -/
theorem deviceKinds_filter (q : List NoticeEntry) : deviceKinds (q.filter NoticeEntry.isDevice) = deviceKinds q := by
  induction q with
  | nil => rfl
  | cons a t ih =>
    cases a with
    | device ks => rfl
    | contract i g ks => exact ih

theorem NoticesKept.deviceKinds {live : SlotIx → Prop} {q q' : List NoticeEntry} (h : NoticesKept live q q') :
    deviceKinds q' = deviceKinds q := by
  rw [← deviceKinds_filter q', h.device, deviceKinds_filter]

theorem State.mapRecord_view (s : State) (i : SlotIx) (f : Record → Record) (j : SlotIx) :
    (s.mapRecord i f).view j = if j = i then (s.view j).edit f else s.view j := by
  have hs := s.mapRecord_slot i f j
  simp only [State.view, State.observationsOf, State.mapRecord_notices, State.mapRecord_observations, hs]
  split <;> rfl

theorem State.post_view (s : State) (i : SlotIx) (k : NoticeKind) (j : SlotIx) :
    (s.post i k).view j = if j = i then (s.view j).post (noticeBit k) else s.view j := by
  simp only [State.view, State.post, contractKinds_addContractKinds, View.post, noticeBit_ne_zero, if_false, State.observationsOf]
  by_cases e : j = i
  · subst e; simp
  · simp [e]

theorem askedFor_cases (mask : BitVec 3) (k : NoticeKind) (hk : k = .suspect ∨ k = .recovered ∨ k = .blocked) :
    askedFor mask (noticeBit k) = 0 ∨ askedFor mask (noticeBit k) = noticeBit k := by
  rcases hk with rfl | rfl | rfl <;> revert mask <;> decide

theorem State.postMasked_view (s : State) (i : SlotIx) {k : NoticeKind} (hk : k = .suspect ∨ k = .recovered ∨ k = .blocked)
    (mask : BitVec 3) (j : SlotIx) :
    (s.postMasked i k mask).view j = if j = i then (s.view j).post (askedFor mask (noticeBit k)) else s.view j := by
  have asked : mask.setWidth 7 &&& noticeBit k = askedFor mask (noticeBit k) := rfl
  unfold State.postMasked
  rw [asked]
  obtain e | e := askedFor_cases mask k hk
  · rw [if_pos e, e, View.post_none, ite_self]
  · rw [if_neg (by rw [e]; exact noticeBit_ne_zero k), e, State.post_view]

theorem State.abandon_view (s : State) (i j : SlotIx) :
    (s.abandon i).view j = if j = i then (s.view j).abandon i else s.view j := by
  rw [State.abandon, State.mapRecord_view]
  by_cases e : j = i
  · subst e
    simp only [if_true, View.abandon, View.withdraw, View.edit, State.view, State.observationsOf, State.handleOf, Fin.getElem_fin,
      List.filter_filter, View.mk.injEq, true_and]
    exact ⟨rfl, List.filter_congr fun o _ => Bool.and_comm _ _⟩
  · rw [if_neg e, if_neg e]
    simp only [State.view, State.observationsOf, List.filter_filter, View.mk.injEq, true_and]
    refine List.filter_congr fun o _ => ?_
    by_cases ho : o.handle.slot = j
    · have : o.handle ≠ s.handleOf i := fun h => e (by rw [← ho, h]; rfl)
      simp [ho, this]
    · simp [ho]

theorem State.joinMask_view (s : State) (i : SlotIx) (k : BitVec 4) (j : SlotIx) : (s.joinMask i k).view j = s.view j :=
  State.view_congr (by simp) (by simp) (by simp) j
theorem State.leaveMask_view (s : State) (i : SlotIx) (k : BitVec 4) (j : SlotIx) : (s.leaveMask i k).view j = s.view j :=
  State.view_congr (by simp) (by simp) (by simp) j
theorem State.changeMask_view (s : State) (i : SlotIx) (old new : BitVec 4) (j : SlotIx) :
    (s.changeMask i old new).view j = s.view j := State.view_congr (by simp) (by simp) (by simp) j

/-! ## The own part of an entry into a blocked state or into ARMING -/

/-- A contract set aside in a blocked state (R45). -/
def View.setAside (i : SlotIx) (target : ContractState) (v : View) : View :=
  match v.record with
  | some r => ((if isMeasuring r.state then v.withdraw i else v).edit (fun r => r.asideIn target)).post
      (if target = .suspended then 0 else askedFor r.limits.noticeMask (noticeBit .blocked))
  | none => v

theorem View.setAside_of_record {v : View} (hr : v.record = some r) (target : ContractState) : v.setAside i target =
    ((if isMeasuring r.state then v.withdraw i else v).edit (fun r => r.asideIn target)).post
      (if target = .suspended then 0 else askedFor r.limits.noticeMask (noticeBit .blocked)) := by
  simp only [View.setAside, hr]

theorem View.setAside_record (i : SlotIx) (target : ContractState) (v : View) :
    (v.setAside i target).record = v.record.map (fun r => r.asideIn target) := by
  unfold View.setAside
  cases hr : v.record with
  | none => simp [hr]
  | some r =>
    rw [View.post_record, View.edit_record]
    split <;> simp [hr]

theorem State.setAside_view (s : State) (i : SlotIx) (target : ContractState) (j : SlotIx) :
    (s.setAside i target).view j = if j = i then (s.view j).setAside i target else s.view j := by
  unfold State.setAside
  cases hr : s.recordAt i with
  | none =>
    by_cases e : j = i
    · subst e; simp [View.setAside, hr]
    · rw [if_neg e]
  | some r =>
    dsimp only
    have own : ∀ x : State, x = ((if isMeasuring r.state then (s.abandon i).mapRecord i (fun r => { r with strikes := 0 })
        else s).mapRecord i (fun r => { r with state := target })) →
        x.view j = if j = i then (if isMeasuring r.state then (s.view j).withdraw i else s.view j).edit (fun r => r.asideIn target)
          else s.view j := by
      rintro x rfl
      by_cases e : j = i
      · subst e
        split
        · rename_i hm
          simp only [State.mapRecord_view, State.abandon_view, if_true, View.abandon, View.edit_edit]
          refine View.edit_congr fun q hq => ?_
          obtain rfl : r = q := Option.some.inj (hr.symm.trans hq)
          simp [Record.asideIn, Record.idle, hm]
        · rename_i hm
          simp only [State.mapRecord_view, if_true]
          refine View.edit_congr fun q hq => ?_
          obtain rfl : r = q := Option.some.inj (hr.symm.trans hq)
          simp [Record.asideIn, hm]
      · split <;> simp [State.mapRecord_view, State.abandon_view, e]
    by_cases ht : target = .suspended
    · rw [if_pos ht, own _ rfl]
      split
      · rename_i e
        subst e
        rw [View.setAside_of_record (v := s.view j) hr, if_pos ht, View.post_none]
      · rfl
    · rw [if_neg ht, State.postMasked_view _ _ (by simp), own _ rfl]
      by_cases e : j = i
      · subst e
        rw [if_pos rfl, if_pos rfl, if_pos rfl, View.setAside_of_record (v := s.view j) hr, if_neg ht]
      · simp [e]

/-- A staged amendment put in force (R126). -/
def Record.amended (r : Record) (g : Byte) : Record :=
  match r.staged with
  | none => r
  | some a => ({ r with limits := a, staged := none } : Record).recode g

theorem State.applyStaged_view (s : State) (i j : SlotIx) :
    (s.applyStaged i).view j =
      if j = i then (s.view j).edit (fun r => r.amended (s.slots[i.val]'i.isLt).generation) else s.view j := by
  unfold State.applyStaged
  cases hr : s.recordAt i with
  | none =>
    by_cases e : j = i
    · subst e
      rw [if_pos rfl]
      exact (View.edit_of_eq fun r h => by cases hr.symm.trans h).symm
    · rw [if_neg e]
  | some r =>
    dsimp only
    have same : j = i → ∀ q, (s.view j).record = some q → r = q := fun e q hq => by subst e; exact Option.some.inj (hr.symm.trans hq)
    cases hs : r.staged with
    | none =>
      dsimp only
      split
      · rename_i e
        refine (View.edit_of_eq fun q hq => ?_).symm
        obtain rfl := same e q hq
        simp [Record.amended, hs]
      · rfl
    | some a =>
      dsimp only
      have own : (s.mapRecord i (fun r => ({ r with limits := a, staged := none } : Record).recode (s.slots[i]'i.isLt).generation)).view j =
          if j = i then (s.view j).edit (fun r => r.amended (s.slots[i.val]'i.isLt).generation) else s.view j := by
        rw [State.mapRecord_view]
        split
        · rename_i e
          refine View.edit_congr fun q hq => ?_
          obtain rfl := same e q hq
          simp [Record.amended, hs]
        · rfl
      split
      · rw [State.changeMask_view, own]
      · exact own

/-- The record of a contract that has entered ARMING (R46). -/
def Record.rearmedAt (g : Byte) (r : Record) : Record :=
  { r.amended g with
    settleRemaining := (r.amended g).limits.settle.toNat
    strikes := 0
    context := Context.initial
    state := .arming }

theorem State.rearm_view (s : State) (i j : SlotIx) :
    (s.rearm i).view j = if j = i then (s.view j).edit (Record.rearmedAt (s.slots[i.val]'i.isLt).generation) else s.view j := by
  unfold State.rearm
  rw [State.mapRecord_view, State.applyStaged_view]
  split
  · rw [View.edit_edit]; rfl
  · rfl

/-- The record that an entry into ARMING leaves, in the words of the statements. -/
theorem Record.rearmedAt_eq (g : Byte) (r : Record) : r.rearmedAt g = r.armedFrom (r.rearmedAt g).checkCode := by
  unfold Record.rearmedAt Record.armedFrom Record.amended
  cases hs : r.staged with
  | none => simp [hs]
  | some a => simp [Record.recode]

theorem Record.rearmedAt_code (g : Byte) (r : Record) (h : r.checkCode = r.freshCode g) :
    (r.rearmedAt g).checkCode = (r.rearmedAt g).freshCode g := by
  unfold Record.rearmedAt Record.amended
  cases hs : r.staged with
  | none => exact h
  | some a => rfl

end Sys2Proof.Machine
end

