-- ==== Sys2Proof/Proofs/Cascades.lean ====
section
set_option Elab.async false
/-! PROOFS. What the cascade of a health change does to each slot. Where no chain of dependents is longer than the tree allows, the
cascade from a contract become unhealthy edits the views of its dependents, and of the dependents of the healthy ones among them, once
each; `Losses` says this of a whole command, by the health that parents lose. -/

namespace Sys2Proof.Machine

variable {m : SlotIx → Prop} {s t u : State} {i j k d : SlotIx} {r r' : Record}

/-! ## What the frame of an operation says of the tree -/

theorem TableFrame.recordAt_fixed (h : TableFrame m s t) (j : SlotIx) :
    (t.recordAt j).map Record.fixed = (s.recordAt j).map Record.fixed := by
  cases hr : t.recordAt j with
  | some r =>
    obtain ⟨q, hq, hk⟩ := h.record hr
    simp [hq, hk.fixed]
  | none =>
    cases hq : s.recordAt j with
    | none => rfl
    | some q => obtain ⟨r, hr', -⟩ := h.record_of hq; rw [hr] at hr'; cases hr'

theorem TableFrame.dependsOn (h : TableFrame m s t) (d i : SlotIx) : t.dependsOn d i = s.dependsOn d i := by
  have hf := h.recordAt_fixed d
  have hh := h.handleOf i
  unfold State.dependsOn
  rw [hh]
  cases ht : t.recordAt d <;> cases hs : s.recordAt d <;> simp_all

theorem TableFrame.outside (h : TableFrame m s t) : s.sameOutsideTable t :=
  ⟨h.bases, h.pins, h.ref, h.scrub, h.supply, h.inReset, h.pending⟩

/-- No dependent of a dependent has a dependent, and no contract is its own (R113). -/
def State.shallow (s : State) : Prop :=
  ∀ a b c d : SlotIx, s.dependsOn a b = true → s.dependsOn b c = true → ¬ s.dependsOn c d = true

theorem State.shallow_congr (h : ∀ d i, t.dependsOn d i = s.dependsOn d i) (hs : s.shallow) : t.shallow := by
  intro a b c d
  rw [h, h, h]
  exact hs a b c d

theorem TableFrame.shallow (h : TableFrame m s t) (hs : s.shallow) : t.shallow := State.shallow_congr h.dependsOn hs

theorem State.treeSound.shallow (h : s.treeSound) : s.shallow := by
  intro a b c d hab hbc hcd
  obtain ⟨ra, hra, hpa⟩ := State.dependsOn_iff.1 hab
  obtain ⟨rb, hrb, hpb⟩ := State.dependsOn_iff.1 hbc
  obtain ⟨rc, hrc, hpc⟩ := State.dependsOn_iff.1 hcd
  obtain ⟨-, q, hq, -, hg⟩ := h.parent hra hpa
  obtain rfl : rb = q := Option.some.inj (hrb.symm.trans hq)
  obtain ⟨x, hx, none⟩ := hg _ hpb
  obtain rfl : rc = x := Option.some.inj (hrc.symm.trans (State.contractAt_eq_some.1 hx).2)
  rw [hpc] at none
  cases none

theorem State.shallow.not_self (h : s.shallow) (i : SlotIx) : ¬ s.dependsOn i i = true := fun e => h i i i i e e e

/-- A contract names one parent. -/
theorem State.parent_unique (h : s.dependsOn d i = true) (h' : s.dependsOn d j = true) : i = j := by
  obtain ⟨r, hr, hp⟩ := State.dependsOn_iff.1 h
  obtain ⟨q, hq, hp'⟩ := State.dependsOn_iff.1 h'
  obtain rfl : r = q := Option.some.inj (hr.symm.trans hq)
  exact congrArg Handle.slot (Option.some.inj (hp.symm.trans hp'))

/-- The slot holds a healthy contract (R32). -/
def State.healthyAt (s : State) (j : SlotIx) : Prop := ∃ q, s.recordAt j = some q ∧ isHealthy q.state = true

theorem State.healthyAt_of_view (h : t.view j = s.view j) : t.healthyAt j ↔ s.healthyAt j := by
  unfold State.healthyAt; rw [State.recordAt_of_view h]

theorem State.healthyAt_iff (hr : s.recordAt j = some r) : s.healthyAt j ↔ isHealthy r.state = true := by
  simp [State.healthyAt, hr]

theorem isHealthy_isMeasuring {c : ContractState} (h : isHealthy c = true) : isMeasuring c = true := by
  cases c <;> first | rfl | cases h

/-! ## The cascade at one slot -/

/-- The bases that run. -/
def State.runs (s : State) (b : BaseIx) : Bool := decide ((s.bases[b]'b.isLt).state = .running)

theorem State.baseRunning_eq (s : State) (r : Record) : s.baseRunning r = s.runs r.fixed.base := rfl

theorem TableFrame.runs (h : TableFrame m s t) : t.runs = s.runs := by unfold State.runs; rw [h.bases]

/-- What the cascade from a parent become unhealthy does to a slot (R116). -/
def View.cascade (run : BaseIx → Bool) (d : SlotIx) (v : View) : View :=
  match v.record with
  | some r =>
    if isMeasuring r.state = true then v.setAside d .dormant
    else if r.state = .violated ∧ run r.fixed.base = true then v.abandon d
    else v
  | none => v

theorem View.cascade_of_record {v : View} (hr : v.record = some r) (run : BaseIx → Bool) (d : SlotIx) : v.cascade run d =
    if isMeasuring r.state = true then v.setAside d .dormant
    else if r.state = .violated ∧ run r.fixed.base = true then v.abandon d
    else v := by
  simp only [View.cascade, hr]

/-- The record after the cascade has reached it. -/
def Record.cascaded (run : BaseIx → Bool) (r : Record) : Record :=
  if isMeasuring r.state = true then r.asideIn .dormant
  else if r.state = .violated ∧ run r.fixed.base = true then r.idle
  else r

theorem View.cascade_record (run : BaseIx → Bool) (d : SlotIx) (v : View) :
    (v.cascade run d).record = v.record.map (Record.cascaded run) := by
  cases hr : v.record with
  | none => simp [View.cascade, hr]
  | some r =>
    rw [View.cascade_of_record hr]
    unfold Record.cascaded
    split
    · rename_i h; simp [View.setAside_record, hr, h]
    · rename_i h
      split
      · rename_i h'; simp only [View.abandon_record, hr, Option.map_some, if_neg h, if_pos h']
      · rename_i h'; simp only [Option.map_some, if_neg h, if_neg h', hr]

/-- A slot whose contract neither measures nor is VIOLATED stands. -/
theorem View.cascade_of_settled {v : View} (hr : v.record = some r) (hm : isMeasuring r.state = false) (hv : r.state ≠ .violated)
    (run : BaseIx → Bool) (d : SlotIx) : v.cascade run d = v := by
  rw [View.cascade_of_record hr]
  simp [hm, hv]

/-- No contract that the cascade has reached is healthy. -/
theorem View.cascade_unhealthy {run : BaseIx → Bool} {v : View} (hr : (v.cascade run d).record = some r) :
    isHealthy r.state = false := by
  rw [View.cascade_record] at hr
  obtain ⟨q, -, rfl⟩ := Option.map_eq_some_iff.1 hr
  unfold Record.cascaded
  split
  · rfl
  · rename_i hm
    have h : isHealthy q.state = false := by
      rw [← Bool.not_eq_true]
      exact fun h => hm (isHealthy_isMeasuring h)
    split <;> exact h

theorem View.withdraw_withdraw (i : SlotIx) (v : View) : (v.withdraw i).withdraw i = v.withdraw i := by
  simp [View.withdraw, List.filter_filter]

theorem View.abandon_abandon (i : SlotIx) (v : View) : (v.abandon i).abandon i = v.abandon i := by
  have obs : (v.abandon i).abandon i = (((v.withdraw i).withdraw i).edit Record.idle).edit Record.idle := by
    simp [View.abandon, View.withdraw, View.edit]
  rw [obs, View.withdraw_withdraw, View.edit_edit]
  rfl

/-- What the model does to a dependent is the cascade at its slot, and then what is below it if it was healthy. -/
theorem State.setAsideDependent_eq (below : State → SlotIx → State) (s : State) (d : SlotIx) :
    ∃ x : State, (∀ j, x.view j = if j = d then (s.view j).cascade s.runs d else s.view j) ∧ x.trips = s.trips ∧
      TableFrame (fun _ => False) s x ∧
      ((s.healthyAt d ∧ s.setAsideDependent below d = below x d) ∨ (¬ s.healthyAt d ∧ s.setAsideDependent below d = x)) := by
  unfold State.setAsideDependent
  cases hr : s.recordAt d with
  | none =>
    refine ⟨s, fun j => ?_, rfl, .refl _ s, .inr ⟨by simp [State.healthyAt, hr], rfl⟩⟩
    split
    · rename_i e; subst e; simp [View.cascade, hr]
    · rfl
  | some r =>
    have hv : ∀ j, j = d → (s.view j).record = some r := fun j e => by subst e; exact hr
    dsimp only
    rw [State.healthyAt_iff hr]
    by_cases hm : isMeasuring r.state = true
    · rw [if_pos hm]
      refine ⟨s.setAside d .dormant, fun j => ?_, ?_, .setAside hr (isMeasuring_isOpen hm) rfl, ?_⟩
      · rw [State.setAside_view]
        split
        · rename_i e; rw [View.cascade_of_record (hv j e), if_pos hm]
        · rfl
      · unfold State.setAside
        simp [hr, hm]
      · by_cases hh : isHealthy r.state = true <;> simp [hh]
    · have hh : ¬ isHealthy r.state = true := fun h => hm (isHealthy_isMeasuring h)
      rw [if_neg hm]
      by_cases hx : r.state = .violated ∧ s.baseRunning r = true
      · rw [if_pos hx]
        refine ⟨s.abandon d, fun j => ?_, by simp, .abandon d, .inr ⟨hh, rfl⟩⟩
        rw [State.abandon_view]
        split
        · rename_i e; rw [View.cascade_of_record (hv j e), if_neg hm, if_pos (by exact hx)]
        · rfl
      · rw [if_neg hx]
        refine ⟨s, fun j => ?_, rfl, .refl _ s, .inr ⟨hh, rfl⟩⟩
        split
        · rename_i e; rw [View.cascade_of_record (hv j e), if_neg hm, if_neg (by exact hx)]
        · rfl

/-! ## The cascade over the tree -/

/-- A fold whose steps each edit the views of a region of slots of their own. -/
theorem foldl_regions {f : State → SlotIx → State} {ok : State → Prop} {R : SlotIx → SlotIx → Prop} {G : SlotIx → View} {s0 : State}
    (step : ∀ t d, ok t → (∀ j, R d j → t.view j = s0.view j) → ok (f t d) ∧ (∀ j, R d j → (f t d).view j = G j) ∧
      ∀ j, ¬ R d j → (f t d).view j = t.view j)
    (apart : ∀ d d' j, R d j → R d' j → d = d') {l : List SlotIx} (nd : l.Nodup) {t : State} (hok : ok t)
    (ht : ∀ d ∈ l, ∀ j, R d j → t.view j = s0.view j) :
    ok (l.foldl f t) ∧ (∀ d ∈ l, ∀ j, R d j → (l.foldl f t).view j = G j) ∧
      ∀ j, (∀ d ∈ l, ¬ R d j) → (l.foldl f t).view j = t.view j := by
  induction l generalizing t with
  | nil => exact ⟨hok, fun _ h => (by cases h), fun _ _ => rfl⟩
  | cons a l ih =>
    obtain ⟨ha, nd⟩ := List.nodup_cons.1 nd
    obtain ⟨hok', hin, hout⟩ := step t a hok (ht a List.mem_cons_self)
    have later : ∀ d ∈ l, ∀ j, R d j → ¬ R a j := fun d hd j hj hja => ha (apart d a j hj hja ▸ hd)
    obtain ⟨ihok, ihin, ihout⟩ := ih nd hok' (fun d hd j hj => by
      rw [hout j (later d hd j hj)]; exact ht d (List.mem_cons_of_mem _ hd) j hj)
    refine ⟨ihok, fun d hd j hj => ?_, fun j hj => ?_⟩
    · obtain rfl | hd := List.mem_cons.1 hd
      · rw [List.foldl_cons, ihout j (fun d' hd' hj' => ha (apart d' d j hj' hj ▸ hd')), hin j hj]
      · exact ihin d hd j hj
    · rw [List.foldl_cons, ihout j (fun d hd => hj d (List.mem_cons_of_mem _ hd)), hout j (hj a List.mem_cons_self)]

/-- What the cascades keep: the frame of the table, and the lines. -/
structure Calm (s t : State) : Prop where
  frame : TableFrame (fun _ => False) s t
  trips : t.trips = s.trips

theorem Calm.refl (s : State) : Calm s s := ⟨.refl _ s, rfl⟩
theorem Calm.trans (h : Calm s t) (k : Calm t u) : Calm s u := ⟨h.frame.trans k.frame, k.trips.trans h.trips⟩

/-- Below a contract with no dependents the cascade does nothing. -/
theorem State.cascadeDown_of_leaf (h : ∀ e, ¬ s.dependsOn e d = true) (n : Nat) : s.cascadeDown n d = s := by
  cases n with
  | zero => rfl
  | succ n =>
    have stays : ∀ l : List SlotIx, l.foldl (fun s e => if s.dependsOn e d then s.setAsideDependent (State.cascadeDown n) e else s) s
        = s := by
      intro l
      induction l with
      | nil => rfl
      | cons a l ih => rw [List.foldl_cons, if_neg (h a)]; exact ih
    exact stays allSlots

/-- The cascade from a contract whose dependents have none themselves. -/
theorem State.cascadeDown_one (h : ∀ e g, s.dependsOn e d = true → ¬ s.dependsOn g e = true) (n : Nat) :
    Calm s (s.cascadeDown (n + 1) d) ∧
      ∀ j, (s.cascadeDown (n + 1) d).view j = if s.dependsOn j d = true then (s.view j).cascade s.runs j else s.view j := by
  obtain ⟨calm, reached, stood⟩ := foldl_regions (s0 := s) (t := s) (ok := Calm s) (R := fun e j => j = e ∧ s.dependsOn e d = true)
    (G := fun j => (s.view j).cascade s.runs j)
    (f := fun s e => if s.dependsOn e d then s.setAsideDependent (State.cascadeDown n) e else s)
    (fun t e hok hview => by
      rw [hok.frame.dependsOn]
      by_cases he : s.dependsOn e d = true
      · obtain ⟨x, hx, trips, frame, hcase⟩ := t.setAsideDependent_eq (State.cascadeDown n) e
        have result : t.setAsideDependent (State.cascadeDown n) e = x := by
          obtain ⟨-, e'⟩ | ⟨-, e'⟩ := hcase
          · rw [e', State.cascadeDown_of_leaf]
            intro g
            rw [frame.dependsOn, hok.frame.dependsOn]
            exact h e g he
          · exact e'
        rw [if_pos he, result]
        refine ⟨hok.trans ⟨frame, trips⟩, ?_, fun j hj => ?_⟩
        · rintro j ⟨rfl, -⟩
          rw [hx, if_pos rfl, hview j ⟨rfl, he⟩, hok.frame.runs]
        · rw [hx, if_neg (fun e' => hj ⟨e', he⟩)]
      · rw [if_neg he]
        exact ⟨hok, fun j hj => absurd hj.2 he, fun _ _ => rfl⟩)
    (by rintro a b j ⟨rfl, -⟩ ⟨e, -⟩; exact e) nodup_allSlots (.refl s) (fun _ _ _ _ => rfl)
  refine ⟨calm, fun j => ?_⟩
  split
  · rename_i hj; exact reached j (mem_allSlots j) j ⟨rfl, hj⟩
  · rename_i hj; exact stood j fun e _ he => hj (he.1 ▸ he.2)

/-- The slots that the cascade from the contract in slot i reaches: its dependents, and those of its healthy dependents. -/
def State.cascadesTo (s : State) (i j : SlotIx) : Prop :=
  s.dependsOn j i = true ∨ ∃ k, s.healthyAt k ∧ s.dependsOn j k = true ∧ s.dependsOn k i = true

theorem State.shallow.not_cascadesTo_self (h : s.shallow) (i : SlotIx) : ¬ s.cascadesTo i i := by
  rintro (e | ⟨k, -, e, e'⟩)
  · exact h.not_self i e
  · exact h i k i k e e' e

/-- The cascade from a contract become unhealthy. -/
theorem State.cascadeDown_two (h : s.shallow) (n : Nat) (i : SlotIx) :
    Calm s (s.cascadeDown (n + 2) i) ∧
      ∀ j, (s.cascadesTo i j → (s.cascadeDown (n + 2) i).view j = (s.view j).cascade s.runs j) ∧
        (¬ s.cascadesTo i j → (s.cascadeDown (n + 2) i).view j = s.view j) := by
  obtain ⟨calm, reached, stood⟩ := foldl_regions (s0 := s) (t := s) (ok := Calm s)
    (R := fun d j => s.dependsOn d i = true ∧ (j = d ∨ s.healthyAt d ∧ s.dependsOn j d = true))
    (G := fun j => (s.view j).cascade s.runs j)
    (f := fun s d => if s.dependsOn d i then s.setAsideDependent (State.cascadeDown (n + 1)) d else s)
    (fun t d hok hview => by
      rw [hok.frame.dependsOn]
      by_cases hd : s.dependsOn d i = true
      · have self : t.view d = s.view d := hview d ⟨hd, .inl rfl⟩
        obtain ⟨x, hx, trips, frame, hcase⟩ := t.setAsideDependent_eq (State.cascadeDown (n + 1)) d
        rw [if_pos hd]
        obtain ⟨hh, e⟩ | ⟨hh, e⟩ := hcase <;> rw [e]
        · obtain ⟨calm1, view1⟩ := State.cascadeDown_one (s := x) (d := d) (n := n) fun e g he => by
            rw [frame.dependsOn, hok.frame.dependsOn] at he ⊢
            exact fun hg => h g e d i hg he hd
          rw [State.healthyAt_of_view self] at hh
          have dep : ∀ j, x.dependsOn j d = s.dependsOn j d := fun j => by rw [frame.dependsOn, hok.frame.dependsOn]
          refine ⟨(hok.trans ⟨frame, trips⟩).trans calm1, fun j hj => ?_, fun j hj => ?_⟩
          · obtain ⟨-, rfl | ⟨-, hj⟩⟩ := hj
            · rw [view1, dep, if_neg (h.not_self j), hx, if_pos rfl, self, hok.frame.runs]
            · have ne : j ≠ d := fun e => h.not_self d (by rw [e] at hj; exact hj)
              rw [view1, dep, if_pos hj, hx, if_neg ne, hview j ⟨hd, .inr ⟨hh, hj⟩⟩, frame.runs, hok.frame.runs]
          · have ne : j ≠ d := fun e => hj ⟨hd, .inl e⟩
            rw [view1, dep, if_neg (fun hjd => hj ⟨hd, .inr ⟨hh, hjd⟩⟩), hx, if_neg ne]
        · rw [State.healthyAt_of_view self] at hh
          refine ⟨hok.trans ⟨frame, trips⟩, fun j hj => ?_, fun j hj => ?_⟩
          · obtain ⟨-, rfl | ⟨hh', -⟩⟩ := hj
            · rw [hx, if_pos rfl, self, hok.frame.runs]
            · exact absurd hh' hh
          · rw [hx, if_neg (fun e => hj ⟨hd, .inl e⟩)]
      · rw [if_neg hd]
        exact ⟨hok, fun j hj => absurd hj.1 hd, fun _ _ => rfl⟩)
    (by
      rintro a b j ⟨ha, rfl | ⟨-, hja⟩⟩ ⟨hb, e | ⟨-, hjb⟩⟩
      · exact e
      · obtain rfl := State.parent_unique ha hjb
        exact absurd hb (h.not_self _)
      · subst e
        obtain rfl := State.parent_unique hb hja
        exact absurd ha (h.not_self _)
      · exact State.parent_unique hja hjb)
    nodup_allSlots (.refl s) (fun _ _ _ _ => rfl)
  refine ⟨calm, fun j => ⟨?_, fun hj => stood j fun d _ hd => hj ?_⟩⟩
  · rintro (hj | ⟨k, hk, hjk, hki⟩)
    · exact reached j (mem_allSlots j) j ⟨hj, .inl rfl⟩
    · exact reached k (mem_allSlots k) j ⟨hki, .inr ⟨hk, hjk⟩⟩
  · obtain ⟨hd, rfl | ⟨hh, hjd⟩⟩ := hd
    · exact .inl hd
    · exact .inr ⟨d, hh, hjd, hd⟩

end Sys2Proof.Machine
end

