-- ==== Sys2Proof/Proofs/Losses.lean ====
section
set_option Elab.async false
/-! PROOFS. What an operation that may take health from contracts does to the slots on which it does not act of its own accord: the ones
whose parent loses its health are reached by the cascade once, and the others stand. -/

namespace Sys2Proof.Machine

variable {m C D : SlotIx → Prop} {s t u x : State} {i j k d : SlotIx} {r r' : Record} {v : View}

/-! ## The same tree -/

/-- The contracts are those that were there, with their generations and fixed fields. -/
structure SameTree (s t : State) : Prop where
  generation : ∀ j : SlotIx, (t.slots[j.val]'j.isLt).generation = (s.slots[j.val]'j.isLt).generation
  fixed : ∀ j, (t.recordAt j).map Record.fixed = (s.recordAt j).map Record.fixed

theorem SameTree.refl (s : State) : SameTree s s := ⟨fun _ => rfl, fun _ => rfl⟩
theorem SameTree.trans (h : SameTree s t) (k : SameTree t u) : SameTree s u :=
  ⟨fun j => (k.generation j).trans (h.generation j), fun j => (k.fixed j).trans (h.fixed j)⟩

theorem TableFrame.sameTree (h : TableFrame m s t) : SameTree s t := ⟨fun j => (h.slot j).generation, h.recordAt_fixed⟩

theorem SameTree.handleOf (h : SameTree s t) (i : SlotIx) : t.handleOf i = s.handleOf i := by
  simp only [State.handleOf, Fin.getElem_fin, h.generation]

theorem SameTree.dependsOn (h : SameTree s t) (d i : SlotIx) : t.dependsOn d i = s.dependsOn d i := by
  have hf := h.fixed d
  unfold State.dependsOn
  rw [h.handleOf]
  cases ht : t.recordAt d <;> cases hs : s.recordAt d <;> simp_all

theorem SameTree.shallow (h : SameTree s t) (hs : s.shallow) : t.shallow := State.shallow_congr h.dependsOn hs

theorem SameTree.record (h : SameTree s t) (ht : t.recordAt j = some r') : ∃ r, s.recordAt j = some r ∧ r'.fixed = r.fixed := by
  have hf := h.fixed j
  rw [ht] at hf
  cases hs : s.recordAt j with
  | none => rw [hs] at hf; cases hf
  | some r => rw [hs] at hf; exact ⟨r, rfl, Option.some.inj hf⟩

/-- An edit of one slot that keeps its generation and its fixed fields. -/
theorem SameTree.of_one (others : ∀ j, j ≠ k → t.view j = s.view j)
    (generation : (t.slots[k.val]'k.isLt).generation = (s.slots[k.val]'k.isLt).generation)
    (fixed : (t.recordAt k).map Record.fixed = (s.recordAt k).map Record.fixed) : SameTree s t := by
  refine ⟨fun j => ?_, fun j => ?_⟩ <;> by_cases e : j = k
  · subst e; exact generation
  · exact congrArg (fun v : View => v.slot.generation) (others j e)
  · subst e; exact fixed
  · rw [State.recordAt_of_view (others j e)]

/-! ## What a parent allows -/

theorem State.parentAllows_iff {s : State} {r : Record} :
    s.parentAllows r = true ↔ r.fixed.parent = none ∨ ∃ p, r.fixed.parent = some (s.handleOf p) ∧ s.healthyAt p := by
  unfold State.parentAllows
  cases hp : r.fixed.parent with
  | none => simp
  | some h =>
    simp only [reduceCtorEq, false_or, Option.some.injEq]
    cases hc : s.contractAt h with
    | none =>
      simp only [Bool.false_eq_true, false_iff, not_exists, not_and]
      rintro p rfl ⟨q, hq, -⟩
      rw [State.contractAt_eq_some.2 ⟨rfl, hq⟩] at hc
      cases hc
    | some p =>
      obtain ⟨hh, hq⟩ := State.contractAt_eq_some.1 hc
      constructor
      · intro hp; exact ⟨h.slot, hh, p, hq, hp⟩
      · rintro ⟨j, rfl, q, hq', hh'⟩
        obtain rfl : p = q := Option.some.inj (hq.symm.trans hq')
        exact hh'

/-- Whether the contract in a slot names no parent, or a healthy one. -/
def State.allows (s : State) (j : SlotIx) : Bool :=
  match s.recordAt j with
  | some r => s.parentAllows r
  | none => true

theorem State.allows_of_record (hr : s.recordAt j = some r) : s.allows j = s.parentAllows r := by simp only [State.allows, hr]

theorem State.allows_of_dependsOn (h : s.dependsOn j k = true) : s.allows j = true ↔ s.healthyAt k := by
  obtain ⟨r, hr, hp⟩ := State.dependsOn_iff.1 h
  rw [State.allows_of_record hr, State.parentAllows_iff, hp]
  simp only [reduceCtorEq, false_or, Option.some.injEq]
  constructor
  · rintro ⟨p, e, hh⟩
    obtain rfl : k = p := congrArg Handle.slot e
    exact hh
  · intro hh; exact ⟨k, rfl, hh⟩

/-- What a parent allows changes only with the health of a parent. -/
theorem SameTree.parentAllows (h : SameTree s t) (hh : ∀ p, r.fixed.parent = some (s.handleOf p) → s.healthyAt p → t.healthyAt p)
    (ha : s.parentAllows r = true) : t.parentAllows r = true := by
  rw [State.parentAllows_iff] at ha ⊢
  refine ha.imp id ?_
  rintro ⟨p, hp, hhp⟩
  exact ⟨p, by rw [h.handleOf]; exact hp, hh p hp hhp⟩

theorem SameTree.symm (h : SameTree s t) : SameTree t s := ⟨fun j => (h.generation j).symm, fun j => (h.fixed j).symm⟩

theorem SameTree.allows (h : SameTree s t) (hh : ∀ p, s.dependsOn j p = true → s.healthyAt p → t.healthyAt p)
    (ha : s.allows j = true) : t.allows j = true := by
  cases ht : t.recordAt j with
  | none => simp [State.allows, ht]
  | some r' =>
    obtain ⟨r, hr, hf⟩ := h.record ht
    rw [State.allows_of_record hr] at ha
    rw [State.allows_of_record ht]
    have same : t.parentAllows r' = t.parentAllows r := by unfold State.parentAllows; rw [hf]
    rw [same]
    exact h.parentAllows (fun p hp => hh p (State.dependsOn_iff.2 ⟨r, hr, hp⟩)) ha

theorem SameTree.allows_eq (h : SameTree s t) (hh : ∀ p, s.dependsOn j p = true → (t.healthyAt p ↔ s.healthyAt p)) :
    t.allows j = s.allows j := by
  rw [Bool.eq_iff_iff]
  exact ⟨h.symm.allows fun p hp => (hh p (by rwa [h.dependsOn] at hp)).1, h.allows fun p hp => (hh p hp).2⟩

/-- A parent that no longer allows has lost its health. -/
theorem SameTree.lost (h : SameTree s t) (hs : s.allows j = true) (ht : t.allows j = false) :
    ∃ p, s.dependsOn j p = true ∧ s.healthyAt p ∧ ¬ t.healthyAt p := by
  by_contra no
  push Not at no
  rw [h.allows no hs] at ht
  cases ht

/-! ## Losses -/

/-- What an operation that gives health to no contract does to the slots outside a set. -/
structure Losses (C : SlotIx → Prop) (s t : State) : Prop where
  tree : SameTree s t
  runs : t.runs = s.runs
  falls : ∀ j, t.healthyAt j → s.healthyAt j
  struck : ∀ j, ¬ C j → s.allows j = true → t.allows j = false → t.view j = (s.view j).cascade s.runs j
  spared : ∀ j, ¬ C j → t.allows j = s.allows j → t.view j = s.view j

theorem Losses.allows (h : Losses C s t) (ht : t.allows j = true) : s.allows j = true :=
  h.tree.symm.allows (fun p _ => h.falls p) ht

/-- Outside the set a slot stands, or its parent has lost its health and the cascade has reached it. -/
theorem Losses.cases (h : Losses C s t) (hj : ¬ C j) :
    (t.allows j = s.allows j ∧ t.view j = s.view j) ∨
      (s.allows j = true ∧ t.allows j = false ∧ t.view j = (s.view j).cascade s.runs j) := by
  cases ht : t.allows j <;> cases hs : s.allows j
  · exact .inl ⟨rfl, h.spared j hj (ht.trans hs.symm)⟩
  · exact .inr ⟨rfl, rfl, h.struck j hj hs ht⟩
  · rw [h.allows ht] at hs; cases hs
  · exact .inl ⟨rfl, h.spared j hj (ht.trans hs.symm)⟩

theorem Losses.mono (hCD : ∀ j, C j → D j) (h : Losses C s t) : Losses D s t :=
  { h with struck := fun j hj => h.struck j (hj ∘ hCD j), spared := fun j hj => h.spared j (hj ∘ hCD j) }

theorem Losses.refl (C : SlotIx → Prop) (s : State) : Losses C s s :=
  ⟨.refl s, rfl, fun _ h => h, fun j _ hs ht => (by rw [hs] at ht; cases ht), fun _ _ _ => rfl⟩

theorem Losses.trans (h : Losses C s t) (k : Losses D t u) : Losses (fun j => C j ∨ D j) s u where
  tree := h.tree.trans k.tree
  runs := k.runs.trans h.runs
  falls := fun j => h.falls j ∘ k.falls j
  struck := fun j hj hs hu => by
    obtain ⟨ht, hv⟩ | ⟨-, ht, hv⟩ := h.cases (fun hC => hj (.inl hC))
    · rw [k.struck j (fun hD => hj (.inr hD)) (ht.trans hs) hu, hv, h.runs]
    · rw [k.spared j (fun hD => hj (.inr hD)) (hu.trans ht.symm), hv]
  spared := fun j hj hu => by
    obtain ⟨ht, hv⟩ | ⟨hs, ht, hv⟩ := h.cases (fun hC => hj (.inl hC))
    · rw [k.spared j (fun hD => hj (.inr hD)) (hu.trans ht.symm), hv]
    · rw [k.allows (hu.trans hs)] at ht; cases ht

theorem Losses.merge (h : Losses C s t) (k : Losses C t u) : Losses C s u := (h.trans k).mono fun _ hj => hj.elim id id

/-- An operation on one slot that changes its health neither way. -/
theorem Losses.of_steady (others : ∀ j, j ≠ k → t.view j = s.view j) (tree : SameTree s t) (runs : t.runs = s.runs)
    (own : t.healthyAt k ↔ s.healthyAt k) : Losses (· = k) s t := by
  have health : ∀ j, t.healthyAt j ↔ s.healthyAt j := fun j => by
    by_cases e : j = k
    · subst e; exact own
    · exact State.healthyAt_of_view (others j e)
  refine ⟨tree, runs, fun j => (health j).1, fun j _ hs ht => ?_, fun j hj _ => others j hj⟩
  rw [tree.allows_eq fun p _ => health p, hs] at ht
  cases ht

/-- The views after the cascade that a health change to unhealthy brings. -/
theorem State.becameUnhealthy_view (h : x.shallow) (before : ContractState) (k : SlotIx) :
    Calm x (x.becameUnhealthy before k) ∧ (x.becameUnhealthy before k).view k = x.view k ∧
      ∀ j, (isHealthy before = true → x.cascadesTo k j → (x.becameUnhealthy before k).view j = (x.view j).cascade x.runs j) ∧
        (¬ (isHealthy before = true ∧ x.cascadesTo k j) → (x.becameUnhealthy before k).view j = x.view j) := by
  unfold State.becameUnhealthy
  split
  · rename_i hb
    obtain ⟨calm, view⟩ := State.cascadeDown_two h 62 k
    exact ⟨calm, (view k).2 (h.not_cascadesTo_self k), fun j => ⟨fun _ => (view j).1, fun hj => (view j).2 fun e => hj ⟨hb, e⟩⟩⟩
  · rename_i hb
    exact ⟨.refl x, rfl, fun j => ⟨fun e => absurd e hb, fun _ => rfl⟩⟩

/-- An operation on one slot that leaves its contract unhealthy, with the cascade that its health change brings. -/
theorem Losses.of_own (h : s.shallow) (others : ∀ j, j ≠ k → x.view j = s.view j) (tree : SameTree s x) (runs : x.runs = s.runs)
    {before : ContractState} (hb : isHealthy before = true ↔ s.healthyAt k) (own : ¬ x.healthyAt k) :
    Losses (· = k) s (x.becameUnhealthy before k) := by
  have hx := tree.shallow h
  obtain ⟨calm, self, view⟩ := State.becameUnhealthy_view hx before k
  generalize x.becameUnhealthy before k = t at calm self view
  have runs' : t.runs = s.runs := calm.frame.runs.trans runs
  have tree' : SameTree s t := tree.trans calm.frame.sameTree
  have own' : ¬ t.healthyAt k := by rwa [State.healthyAt_of_view self]
  have reached : ∀ j, isHealthy before = true → x.cascadesTo k j → ¬ t.healthyAt j := by
    rintro j hb hj ⟨q, hq, hh⟩
    rw [← State.view_record, (view j).1 hb hj] at hq
    rw [View.cascade_unhealthy hq] at hh
    cases hh
  have stood : ∀ j, j ≠ k → ¬ (isHealthy before = true ∧ x.cascadesTo k j) → t.view j = s.view j := fun j hj hn => by
    rw [(view j).2 hn, others j hj]
  -- the slots other than k that the cascade reaches are those whose parent has lost its health
  have iff : ∀ j, j ≠ k → (s.allows j = true ∧ t.allows j = false → isHealthy before = true ∧ x.cascadesTo k j) ∧
      (isHealthy before = true ∧ x.cascadesTo k j → s.allows j = true ∧ t.allows j = false) := by
    intro j hj
    constructor
    · rintro ⟨hs, ht⟩
      obtain ⟨p, hp, hhs, hht⟩ := tree'.lost hs ht
      by_cases e : p = k
      · subst e
        exact ⟨hb.2 hhs, .inl (by rwa [tree.dependsOn])⟩
      · by_cases hn : isHealthy before = true ∧ x.cascadesTo k p
        · obtain ⟨hb', hk | ⟨k', -, hpk, hkk⟩⟩ := hn
          · exact ⟨hb', .inr ⟨p, (State.healthyAt_of_view (others p e)).2 hhs, by rwa [tree.dependsOn], hk⟩⟩
          · exact absurd hkk (hx j p k' k (by rwa [tree.dependsOn]) hpk)
        · exact absurd ((State.healthyAt_of_view (stood p e hn)).2 hhs) hht
    · rintro ⟨hb', hk | ⟨k', hk', hjk, hkk⟩⟩
      · rw [tree.dependsOn] at hk
        refine ⟨(State.allows_of_dependsOn hk).2 (hb.1 hb'), ?_⟩
        rw [← Bool.not_eq_true, State.allows_of_dependsOn (by rw [tree'.dependsOn]; exact hk)]
        exact own'
      · have hk'k : k' ≠ k := fun e => hx.not_self k (by rw [e] at hkk; exact hkk)
        rw [tree.dependsOn] at hjk
        refine ⟨(State.allows_of_dependsOn hjk).2 ((State.healthyAt_of_view (others k' hk'k)).1 hk'), ?_⟩
        rw [← Bool.not_eq_true, State.allows_of_dependsOn (by rw [tree'.dependsOn]; exact hjk)]
        exact reached k' hb' (.inl hkk)
  refine ⟨tree', runs', fun j hj => ?_, fun j hj hs ht => ?_, fun j hj e => stood j hj fun hn => ?_⟩
  · by_cases e : j = k
    · subst e; exact absurd hj own'
    · by_cases hn : isHealthy before = true ∧ x.cascadesTo k j
      · exact absurd hj (reached j hn.1 hn.2)
      · exact (State.healthyAt_of_view (stood j e hn)).1 hj
  · obtain ⟨hb', hc⟩ := (iff j hj).1 ⟨hs, ht⟩
    rw [(view j).1 hb' hc, others j hj, runs]
  · obtain ⟨hs, ht⟩ := (iff j hj).2 hn
    rw [hs, ht] at e
    cases e

/-- Operations one after another, each on a slot of a list. -/
theorem Losses.foldl {f : State → SlotIx → State} (h : ∀ s i, s.shallow → Losses (· = i) s (f s i)) (l : List SlotIx) {s : State}
    (hs : s.shallow) : Losses (· ∈ l) s (l.foldl f s) := by
  induction l generalizing s with
  | nil => exact .refl _ s
  | cons a l ih =>
    have first := h s a hs
    refine (first.trans (ih (first.tree.shallow hs))).mono fun j hj => ?_
    obtain rfl | hj := hj
    · exact List.mem_cons_self
    · exact List.mem_cons_of_mem _ hj

end Sys2Proof.Machine
end

