-- ==== Sys2Proof/Proofs/Turns.lean ====
section
set_option Elab.async false
/-! PROOFS. The turns that the Table Controller gives to one contract, as functions of its view: the blocking recomputation, a stop
notice, a run notice, SET_PIN, and the cascade from a parent become healthy. -/

namespace Sys2Proof.Machine

variable {m C D : SlotIx → Prop} {s t u x : State} {i j k d : SlotIx} {r r' : Record} {v : View}

/-! ## The views that turns leave -/

@[simp] theorem View.abandon_generation (i : SlotIx) (v : View) : (v.abandon i).slot.generation = v.slot.generation := by
  simp [View.abandon]

@[simp] theorem View.setAside_generation (i : SlotIx) (target : ContractState) (v : View) :
    (v.setAside i target).slot.generation = v.slot.generation := by
  unfold View.setAside
  cases v.record with
  | none => rfl
  | some r =>
    dsimp only
    rw [View.post_slot, View.edit_generation]
    split <;> rfl

@[simp] theorem View.cascade_generation (run : BaseIx → Bool) (d : SlotIx) (v : View) :
    (v.cascade run d).slot.generation = v.slot.generation := by
  unfold View.cascade
  cases v.record with
  | none => rfl
  | some r => dsimp only; split <;> [simp; split <;> simp]

/-- The state that the blocking recomputation gives (R44). -/
def Record.blockedTo (run : BaseIx → Bool) (allowed : Bool) (r : Record) : ContractState :=
  if r.suspended then .suspended else if !run r.fixed.base then .held else if !allowed then .dormant else .arming

theorem State.blockingResult_eq (s : State) (r : Record) : s.blockingResult r = r.blockedTo s.runs (s.parentAllows r) := rfl

theorem Record.blockedTo_cases (run : BaseIx → Bool) (allowed : Bool) (r : Record) :
    r.blockedTo run allowed = .arming ∨ isBlocked (r.blockedTo run allowed) = true := by
  unfold Record.blockedTo
  split <;> [exact .inr rfl; split <;> [exact .inr rfl; split <;> [exact .inr rfl; exact .inl rfl]]]

/-- The blocking recomputation at a slot. -/
def View.recompute (run : BaseIx → Bool) (allowed : Bool) (i : SlotIx) (v : View) : View :=
  match v.record with
  | some r =>
    if isOpen r.state = true then
      if r.blockedTo run allowed = .arming then
        if isMeasuring r.state = true then v else v.edit (Record.rearmedAt v.slot.generation)
      else if r.state = r.blockedTo run allowed then v
      else v.setAside i (r.blockedTo run allowed)
    else v
  | none => v

/-- A stop notice at a slot (R49, R50). -/
def View.stop (run : BaseIx → Bool) (allowed : Bool) (i : SlotIx) (v : View) : View :=
  match v.record with
  | some r =>
    if isMeasuring r.state = true ∨ r.state = .dormant then v.recompute run allowed i
    else if r.state = .violated then v.abandon i
    else v
  | none => v

/-- A run notice at a slot (R49, R50). -/
def View.run (run : BaseIx → Bool) (allowed : Bool) (i : SlotIx) (v : View) : View :=
  match v.record with
  | some r =>
    if r.state = .held then v.recompute run allowed i
    else if r.state = .violated ∧ allowed = true then v.edit Record.idle
    else v
  | none => v

/-- SET_PIN at a slot (R108). -/
def View.restart (run : BaseIx → Bool) (allowed : Bool) (i : SlotIx) (v : View) : View :=
  match v.record with
  | some r =>
    if isMeasuring r.state = true then (v.abandon i).edit (Record.rearmedAt v.slot.generation)
    else if r.state = .violated then
      (if (run r.fixed.base && allowed) = true then v.abandon i else v).edit (fun r => { r with recoveryRun := 0 })
    else v
  | none => v

/-- The cascade from a parent become healthy at a slot (R117). -/
def View.takeUp (run : BaseIx → Bool) (allowed : Bool) (i : SlotIx) (v : View) : View :=
  match v.record with
  | some r =>
    if r.state = .dormant then v.recompute run allowed i
    else if r.state = .violated ∧ run r.fixed.base = true then v.edit Record.idle
    else v
  | none => v

theorem View.recompute_of_record (hr : v.record = some r) (run : BaseIx → Bool) (allowed : Bool) (i : SlotIx) :
    v.recompute run allowed i =
      if isOpen r.state = true then
        if r.blockedTo run allowed = .arming then
          if isMeasuring r.state = true then v else v.edit (Record.rearmedAt v.slot.generation)
        else if r.state = r.blockedTo run allowed then v
        else v.setAside i (r.blockedTo run allowed)
      else v := by
  simp only [View.recompute, hr]

theorem View.stop_of_record (hr : v.record = some r) (run : BaseIx → Bool) (allowed : Bool) (i : SlotIx) :
    v.stop run allowed i =
      if isMeasuring r.state = true ∨ r.state = .dormant then v.recompute run allowed i
      else if r.state = .violated then v.abandon i
      else v := by
  simp only [View.stop, hr]

theorem View.run_of_record (hr : v.record = some r) (run : BaseIx → Bool) (allowed : Bool) (i : SlotIx) :
    v.run run allowed i =
      if r.state = .held then v.recompute run allowed i
      else if r.state = .violated ∧ allowed = true then v.edit Record.idle
      else v := by
  simp only [View.run, hr]

theorem View.restart_of_record (hr : v.record = some r) (run : BaseIx → Bool) (allowed : Bool) (i : SlotIx) :
    v.restart run allowed i =
      if isMeasuring r.state = true then (v.abandon i).edit (Record.rearmedAt v.slot.generation)
      else if r.state = .violated then
        (if (run r.fixed.base && allowed) = true then v.abandon i else v).edit (fun r => { r with recoveryRun := 0 })
      else v := by
  simp only [View.restart, hr]

theorem View.takeUp_of_record (hr : v.record = some r) (run : BaseIx → Bool) (allowed : Bool) (i : SlotIx) :
    v.takeUp run allowed i =
      if r.state = .dormant then v.recompute run allowed i
      else if r.state = .violated ∧ run r.fixed.base = true then v.edit Record.idle
      else v := by
  simp only [View.takeUp, hr]

@[simp] theorem Record.amended_fixed (r : Record) (g : Byte) : (r.amended g).fixed = r.fixed := by
  unfold Record.amended; split <;> rfl
@[simp] theorem Record.rearmedAt_fixed (r : Record) (g : Byte) : (r.rearmedAt g).fixed = r.fixed := by
  simp [Record.rearmedAt]
@[simp] theorem Record.rearmedAt_state (r : Record) (g : Byte) : (r.rearmedAt g).state = .arming := rfl
@[simp] theorem Record.asideIn_state (r : Record) (c : ContractState) : (r.asideIn c).state = c := rfl
@[simp] theorem Record.asideIn_fixed (r : Record) (c : ContractState) : (r.asideIn c).fixed = r.fixed := rfl
@[simp] theorem Record.idle_fixed (r : Record) : r.idle.fixed = r.fixed := rfl
@[simp] theorem Record.idle_state (r : Record) : r.idle.state = r.state := rfl

/-! ## An operation on one slot -/

/-- An operation that gives one contract its turn, with the cascade that a loss of its health brings. -/
structure Turn (F : (BaseIx → Bool) → Bool → SlotIx → View → View) (i : SlotIx) (s t : State) : Prop where
  losses : Losses (· = i) s t
  own : t.view i = F s.runs (s.allows i) i (s.view i)
  trips : t.trips = s.trips

/-- A contract set aside in a blocked state, with its cascade. -/
theorem Turn.enterBlocked (h : s.shallow) (hr : s.recordAt i = some r) (ho : isOpen r.state = true) {target : ContractState}
    (ht : isBlocked target = true) : Turn (fun _ _ i v => v.setAside i target) i s (s.enterBlocked i target) := by
  have frame : TableFrame (fun _ => False) s (s.setAside i target) := .setAside hr ho ht
  have calm := State.becameUnhealthy_view (frame.shallow h) r.state i
  have view := State.setAside_view s i target
  unfold State.enterBlocked
  simp only [hr]
  refine ⟨.of_own h (fun j hj => by rw [view, if_neg hj]) frame.sameTree frame.runs (State.healthyAt_iff hr).symm ?_, ?_, ?_⟩
  · rintro ⟨q, hq, hh⟩
    rw [← State.view_record, view, if_pos rfl, View.setAside_record] at hq
    obtain ⟨q', -, rfl⟩ := Option.map_eq_some_iff.1 hq
    revert hh ht
    rw [Record.asideIn_state]
    cases target <;> simp [isBlocked, isHealthy]
  · rw [calm.2.1, view, if_pos rfl]
  · rw [calm.1.trips]
    unfold State.setAside
    simp only [hr]
    split <;> split <;> simp

theorem State.applyStaged_trips (hr : s.recordAt i = some r) (hv : r.state ≠ .violated) : (s.applyStaged i).trips = s.trips := by
  unfold State.applyStaged
  simp only [hr]
  cases r.staged with
  | none => rfl
  | some a => simp [hv]

/-- An entry into ARMING, with its cascade. -/
theorem Turn.enterArming (h : s.shallow) (hr : s.recordAt i = some r) (ho : isOpen r.state = true) :
    Turn (fun _ _ _ v => v.edit (Record.rearmedAt v.slot.generation)) i s (s.enterArming i) := by
  have frame : TableFrame (fun _ => False) s (s.rearm i) := .rearm hr ho
  have calm := State.becameUnhealthy_view (frame.shallow h) r.state i
  have view := State.rearm_view s i
  unfold State.enterArming
  simp only [hr]
  refine ⟨.of_own h (fun j hj => by rw [view, if_neg hj]) frame.sameTree frame.runs (State.healthyAt_iff hr).symm ?_, ?_, ?_⟩
  · rintro ⟨q, hq, hh⟩
    rw [← State.view_record, view, if_pos rfl, View.edit_record] at hq
    obtain ⟨q', -, rfl⟩ := Option.map_eq_some_iff.1 hq
    cases hh
  · rw [calm.2.1, view, if_pos rfl]; rfl
  · rw [calm.1.trips, State.rearm, State.mapRecord_trips, State.applyStaged_trips hr (isOpen_not_settled ho).1]

theorem Turn.congr {F G : (BaseIx → Bool) → Bool → SlotIx → View → View} (h : Turn F i s t)
    (e : F s.runs (s.allows i) i (s.view i) = G s.runs (s.allows i) i (s.view i)) : Turn G i s t :=
  ⟨h.losses, h.own.trans e, h.trips⟩

/-- A contract that stands at its turn. -/
theorem Turn.stands {F : (BaseIx → Bool) → Bool → SlotIx → View → View} (e : F s.runs (s.allows i) i (s.view i) = s.view i) :
    Turn F i s s := ⟨.refl _ s, e.symm, rfl⟩

/-- An edit of one contract that keeps its health. -/
theorem Turn.of_steady {F : (BaseIx → Bool) → Bool → SlotIx → View → View} (frame : TableFrame m s t)
    (view : ∀ j, t.view j = if j = i then F s.runs (s.allows i) i (s.view i) else s.view j)
    (own : ∀ r r', s.recordAt i = some r → t.recordAt i = some r' → r'.state = r.state)
    (trips : t.trips = s.trips) : Turn F i s t := by
  refine ⟨.of_steady (fun j hj => by rw [view, if_neg hj]) frame.sameTree frame.runs ?_, by rw [view, if_pos rfl], trips⟩
  constructor
  · rintro ⟨q, hq, hh⟩
    obtain ⟨q', hq', -⟩ := frame.record hq
    exact ⟨q', hq', by rw [← own q' q hq' hq]; exact hh⟩
  · rintro ⟨q', hq', hh⟩
    obtain ⟨q, hq, -⟩ := frame.record_of hq'
    exact ⟨q, hq, by rw [own q' q hq' hq]; exact hh⟩

theorem Turn.abandon (s : State) (i : SlotIx) : Turn (fun _ _ i v => v.abandon i) i s (s.abandon i) := by
  refine .of_steady (m := fun _ => False) (.abandon i) (fun j => ?_) (fun r r' hr hr' => ?_) (by simp)
  · rw [State.abandon_view]; split <;> simp [*]
  · simp only [State.abandon_recordAt, hr, Option.map_some, Option.some.injEq] at hr'
    subst hr'; rfl

theorem Turn.unfreeze (s : State) (i : SlotIx) : Turn (fun _ _ _ v => v.edit Record.idle) i s (s.unfreeze i) := by
  refine .of_steady (m := fun _ => False) (.unfreeze i) (fun j => ?_) (fun r r' hr hr' => ?_) (by simp [State.unfreeze])
  · rw [State.unfreeze, State.mapRecord_view]; split <;> simp [*]; rfl
  · simp only [State.unfreeze, State.mapRecord_recordAt, hr, Option.map_some, Option.some.injEq] at hr'
    subst hr'; rfl

theorem Turn.recompute (h : s.shallow) (i : SlotIx) : Turn View.recompute i s (s.recompute i) := by
  unfold State.recompute
  cases hr : s.recordAt i with
  | none => exact .stands (by simp [View.recompute, hr])
  | some r =>
    have hv : (s.view i).record = some r := hr
    have result : s.blockingResult r = r.blockedTo s.runs (s.allows i) := by
      rw [State.blockingResult_eq, State.allows_of_record hr]
    have form := View.recompute_of_record hv s.runs (s.allows i) i
    dsimp only
    rw [result]
    by_cases ho : isOpen r.state = true
    · rw [if_pos ho] at form
      rw [if_pos (by exact ho)]
      by_cases ha : r.blockedTo s.runs (s.allows i) = .arming
      · rw [if_pos ha] at form ⊢
        by_cases hm : isMeasuring r.state = true
        · rw [if_pos hm] at form ⊢; exact .stands form
        · rw [if_neg hm] at form ⊢; exact (Turn.enterArming h hr ho).congr form.symm
      · rw [if_neg ha] at form ⊢
        by_cases he : r.state = r.blockedTo s.runs (s.allows i)
        · rw [if_pos he] at form ⊢; exact .stands form
        · rw [if_neg he] at form ⊢
          exact (Turn.enterBlocked h hr ho ((r.blockedTo_cases _ _).resolve_left ha)).congr form.symm
    · rw [if_neg ho] at form
      rw [if_neg (by exact ho)]
      exact .stands form

theorem Turn.stopSubscriber (h : s.shallow) (i : SlotIx) : Turn View.stop i s (s.stopSubscriber i) := by
  unfold State.stopSubscriber
  cases hr : s.recordAt i with
  | none => exact .stands (by simp [View.stop, hr])
  | some r =>
    have form := View.stop_of_record (v := s.view i) hr s.runs (s.allows i) i
    dsimp only
    by_cases ho : isMeasuring r.state = true ∨ r.state = .dormant
    · rw [if_pos ho] at form
      rw [if_pos (by simpa using ho)]
      exact (Turn.recompute h i).congr form.symm
    · rw [if_neg ho] at form
      rw [if_neg (by simpa using ho)]
      by_cases hv : r.state = .violated
      · rw [if_pos hv] at form ⊢; exact (Turn.abandon s i).congr form.symm
      · rw [if_neg hv] at form ⊢; exact .stands form

theorem Turn.runSubscriber (h : s.shallow) (i : SlotIx) : Turn View.run i s (s.runSubscriber i) := by
  unfold State.runSubscriber
  cases hr : s.recordAt i with
  | none => exact .stands (by simp [View.run, hr])
  | some r =>
    have form := View.run_of_record (v := s.view i) hr s.runs (s.allows i) i
    have al := State.allows_of_record hr
    dsimp only
    by_cases ho : r.state = .held
    · rw [if_pos ho] at form ⊢; exact (Turn.recompute h i).congr form.symm
    · rw [if_neg ho] at form ⊢
      rw [← al]
      by_cases hv : r.state = .violated ∧ s.allows i = true
      · rw [if_pos hv] at form ⊢; exact (Turn.unfreeze s i).congr form.symm
      · rw [if_neg hv] at form ⊢; exact .stands form

theorem Turn.takeUpDependent (h : s.shallow) (i : SlotIx) : Turn View.takeUp i s (s.takeUpDependent i) := by
  unfold State.takeUpDependent
  cases hr : s.recordAt i with
  | none => exact .stands (by simp [View.takeUp, hr])
  | some r =>
    have form := View.takeUp_of_record (v := s.view i) hr s.runs (s.allows i) i
    dsimp only
    by_cases ho : r.state = .dormant
    · rw [if_pos ho] at form ⊢; exact (Turn.recompute h i).congr form.symm
    · rw [if_neg ho] at form ⊢
      by_cases hv : r.state = .violated ∧ s.baseRunning r = true
      · rw [if_pos (by exact hv)] at form
        rw [if_pos hv]; exact (Turn.unfreeze s i).congr form.symm
      · rw [if_neg (by exact hv)] at form
        rw [if_neg hv]; exact .stands form

theorem State.frozen_eq (hv : r.state = .violated) : s.frozen r = !(s.runs r.fixed.base && s.parentAllows r) := by
  simp only [State.frozen, hv, decide_true, Bool.true_and, State.baseRunning_eq]

theorem State.restartRecovery_view (hr : s.recordAt i = some r) (hv : r.state = .violated) (j : SlotIx) :
    (s.restartRecovery i r).view j =
      if j = i then (if (s.runs r.fixed.base && s.allows i) = true then (s.view i).abandon i else s.view i).edit
        (fun r => { r with recoveryRun := 0 })
      else s.view j := by
  unfold State.restartRecovery
  rw [State.mapRecord_view, State.frozen_eq hv, ← State.allows_of_record hr]
  by_cases e : j = i
  · subst e
    rw [if_pos rfl, if_pos rfl]
    cases s.runs r.fixed.base && s.allows j
    · rfl
    · simp [State.abandon_view]
  · rw [if_neg e, if_neg e]
    split
    · rfl
    · rw [State.abandon_view, if_neg e]

theorem Turn.restartMember (h : s.shallow) (i : SlotIx) : Turn View.restart i s (s.restartMember i) := by
  unfold State.restartMember
  cases hr : s.recordAt i with
  | none => exact .stands (by simp [View.restart, hr])
  | some r =>
    have form := View.restart_of_record (v := s.view i) hr s.runs (s.allows i) i
    dsimp only
    by_cases hm : isMeasuring r.state = true
    · rw [if_pos hm] at form ⊢
      have first := Turn.abandon s i
      have second := Turn.enterArming (s := s.abandon i) (i := i) (r := r.idle) (first.losses.tree.shallow h)
        (by simp [hr]; rfl) (isMeasuring_isOpen hm)
      refine ⟨first.losses.merge second.losses, ?_, second.trips.trans first.trips⟩
      rw [second.own, first.own, form, View.abandon_generation]
    · rw [if_neg hm] at form ⊢
      by_cases hv : r.state = .violated
      · rw [if_pos hv] at form ⊢
        refine .of_steady (m := fun _ => False) (.restartRecovery r) (fun j => ?_) (fun q q' hq hq' => ?_) (by simp)
        · rw [State.restartRecovery_view hr hv, form]
        · rw [← State.view_record, State.restartRecovery_view hr hv, if_pos rfl, View.edit_record] at hq'
          obtain ⟨q1, hq1, rfl⟩ := Option.map_eq_some_iff.1 hq'
          obtain rfl : r = q := Option.some.inj (hr.symm.trans hq)
          revert hq1
          split
          · rw [View.abandon_record, State.view_record, hr]; rintro ⟨⟩; rfl
          · rw [State.view_record, hr]; rintro ⟨⟩; rfl
      · rw [if_neg hv] at form ⊢; exact .stands form

end Sys2Proof.Machine
end

