-- ==== Sys2Proof/Proofs/Gains.lean ====
section
set_option Elab.async false
/-! PROOFS. What an operation that gives health to one contract does to the slots: its dependents are taken up once, and the others
stand. -/

namespace Sys2Proof.Machine

variable {m C D : SlotIx → Prop} {s t u x : State} {i j k d : SlotIx} {r r' : Record} {v : View}

/-- Where no contract of the set loses its health, none does, and the slots outside stand. -/
theorem Losses.spares (h : Losses C s t) (sh : s.shallow) (own : ∀ j, C j → s.healthyAt j → t.healthyAt j) :
    (∀ j, t.healthyAt j ↔ s.healthyAt j) ∧ ∀ j, ¬ C j → t.view j = s.view j := by
  -- a contract that lost its health would stand under one that did
  have above : ∀ j, s.healthyAt j → ¬ t.healthyAt j → ∃ p, s.dependsOn j p = true ∧ s.healthyAt p ∧ ¬ t.healthyAt p := by
    intro j hs ht
    by_cases hC : C j
    · exact absurd (own j hC hs) ht
    · obtain ⟨-, hv⟩ | ⟨as, at', -⟩ := h.cases hC
      · exact absurd ((State.healthyAt_of_view hv).2 hs) ht
      · exact h.tree.lost as at'
  have keeps : ∀ j, s.healthyAt j → t.healthyAt j := by
    intro j hs
    by_contra ht
    obtain ⟨p, hp, hps, hpt⟩ := above j hs ht
    obtain ⟨q, hq, hqs, hqt⟩ := above p hps hpt
    obtain ⟨w, hw, -⟩ := above q hqs hqt
    exact sh j p q w hp hq hw
  refine ⟨fun j => ⟨h.falls j, keeps j⟩, fun j hj => h.spared j hj ?_⟩
  exact h.tree.allows_eq fun p _ => ⟨h.falls p, keeps p⟩

/-! ## The cascade from a parent become healthy -/

/-- A dependent taken up is as unhealthy as it was. -/
theorem View.takeUp_healthy {run : BaseIx → Bool} {al : Bool} (hr : v.record = some r) (hh : isHealthy r.state = true) :
    v.takeUp run al i = v := by
  rw [View.takeUp_of_record hr, if_neg (by rintro e; rw [e] at hh; cases hh), if_neg (by rintro ⟨e, -⟩; rw [e] at hh; cases hh)]

theorem takeUpDependent_spares (h : s.shallow) (d : SlotIx) :
    (∀ j, (s.takeUpDependent d).healthyAt j ↔ s.healthyAt j) ∧ ∀ j, j ≠ d → (s.takeUpDependent d).view j = s.view j := by
  have turn := Turn.takeUpDependent h d
  refine turn.losses.spares h ?_
  rintro j rfl ⟨r, hr, hh⟩
  refine (State.healthyAt_of_view ?_).2 ⟨r, hr, hh⟩
  rw [turn.own, View.takeUp_healthy (v := s.view j) hr hh]

/-- The views after the cascade from a healthy contract. -/
theorem State.cascadeUp_view (h : x.shallow) (hi : x.healthyAt i) :
    Calm x (x.cascadeUp i) ∧ (∀ j, (x.cascadeUp i).healthyAt j ↔ x.healthyAt j) ∧
      ∀ j, (x.cascadeUp i).view j = if x.dependsOn j i = true then (x.view j).takeUp x.runs true j else x.view j := by
  obtain ⟨⟨calm, health⟩, reached, stood⟩ := foldl_regions (s0 := x) (t := x)
    (ok := fun t => Calm x t ∧ ∀ j, t.healthyAt j ↔ x.healthyAt j) (R := fun d j => j = d ∧ x.dependsOn d i = true)
    (G := fun j => (x.view j).takeUp x.runs true j)
    (f := fun s d => if s.dependsOn d i then s.takeUpDependent d else s)
    (fun t d hok hview => by
      obtain ⟨calm, health⟩ := hok
      rw [calm.frame.dependsOn]
      by_cases hd : x.dependsOn d i = true
      · have sh := calm.frame.shallow h
        have turn := Turn.takeUpDependent sh d
        obtain ⟨health', stands⟩ := takeUpDependent_spares sh d
        have al : t.allows d = true :=
          (State.allows_of_dependsOn (by rw [calm.frame.dependsOn]; exact hd)).2 ((health i).2 hi)
        rw [if_pos hd]
        refine ⟨⟨calm.trans ⟨.takeUpDependent d, turn.trips⟩, fun j => (health' j).trans (health j)⟩, ?_, fun j hj => ?_⟩
        · rintro j ⟨rfl, -⟩
          rw [turn.own, al, calm.frame.runs, hview j ⟨rfl, hd⟩]
        · exact stands j fun e => hj ⟨e, hd⟩
      · rw [if_neg hd]
        exact ⟨⟨calm, health⟩, fun j hj => absurd hj.2 hd, fun _ _ => rfl⟩)
    (by rintro a b j ⟨rfl, -⟩ ⟨e, -⟩; exact e) nodup_allSlots ⟨.refl x, fun _ => Iff.rfl⟩ (fun _ _ _ _ => rfl)
  refine ⟨calm, health, fun j => ?_⟩
  split
  · rename_i hj; exact reached j (mem_allSlots j) j ⟨rfl, hj⟩
  · rename_i hj; exact stood j fun e _ he => hj (he.1 ▸ he.2)

/-- What an operation that gives health to one contract at most does to the others. -/
structure Gains (k : SlotIx) (s t : State) : Prop where
  tree : SameTree s t
  runs : t.runs = s.runs
  own : t.healthyAt k
  others : ∀ j, j ≠ k → (t.healthyAt j ↔ s.healthyAt j)
  below : ¬ s.healthyAt k → ∀ j, s.dependsOn j k = true → t.view j = (s.view j).takeUp s.runs true j
  rest : ∀ j, j ≠ k → (s.dependsOn j k = true → s.healthyAt k) → t.view j = s.view j

/-- An operation on one contract that leaves it healthy, with the cascade that its health change brings. -/
theorem Gains.of_own (h : s.shallow) (others : ∀ j, j ≠ k → x.view j = s.view j) (tree : SameTree s x) (runs : x.runs = s.runs)
    {before : ContractState} (hb : isHealthy before = true ↔ s.healthyAt k) (own : x.healthyAt k) :
    Gains k s (x.becameHealthy before k) ∧ (x.becameHealthy before k).view k = x.view k ∧ Calm x (x.becameHealthy before k) := by
  have hx := tree.shallow h
  unfold State.becameHealthy
  by_cases hk : s.healthyAt k
  · rw [if_pos (hb.2 hk)]
    exact ⟨⟨tree, runs, own, fun j hj => State.healthyAt_of_view (others j hj), fun hn => absurd hk hn,
      fun j hj _ => others j hj⟩, rfl, .refl x⟩
  · rw [if_neg (hb.not.2 hk)]
    obtain ⟨calm, health, view⟩ := State.cascadeUp_view hx own
    refine ⟨⟨tree.trans calm.frame.sameTree, calm.frame.runs.trans runs, (health k).2 own, fun j hj => ?_, fun _ j hj => ?_,
      fun j hj hs => ?_⟩, ?_, calm⟩
    · rw [health, State.healthyAt_of_view (others j hj)]
    · have ne : j ≠ k := fun e => h.not_self k (by rw [e] at hj; exact hj)
      rw [view, tree.dependsOn, if_pos hj, others j ne, runs]
    · rw [view, tree.dependsOn, if_neg (fun hd => hk (hs hd)), others j hj]
    · rw [view, if_neg (hx.not_self k)]

end Sys2Proof.Machine
end

