-- ==== Sys2Proof/Proofs/Standing.lean ====
section
set_option Elab.async false
/-! PROOFS. The two conditions on a slot of R44 and R31, that its state fits its conditions and that it is still unless it measures, and
what each turn does to them. -/

namespace Sys2Proof.Machine

variable {m C D : SlotIx → Prop} {s t u x : State} {i j k d : SlotIx} {r r' : Record} {v : View}
variable {run run' : BaseIx → Bool} {al al' : Bool}

/-! ## The conditions -/

/-- The state of the contract fits its conditions (R44, R47). -/
def View.fits (run : BaseIx → Bool) (al : Bool) (v : View) : Prop :=
  ∀ r, v.record = some r → (isMeasuring r.state = true → r.blockedTo run al = .arming) ∧
    (isBlocked r.state = true → r.blockedTo run al = r.state) ∧ r.suspensionFits

/-- Whether a contract measures (R31). -/
def Record.measuresIn (run : BaseIx → Bool) (al : Bool) (r : Record) : Bool :=
  isMeasuring r.state || (decide (r.state = .violated) && (run r.fixed.base && al))

/-- The slot has no measurement in flight and no pending observation unless its contract measures (R31). -/
def View.still (run : BaseIx → Bool) (al : Bool) (i : SlotIx) (v : View) : Prop :=
  (∀ r, v.record = some r → r.measuresIn run al = false → r.context = Context.initial ∧ v.obs = []) ∧
    (∀ o ∈ v.obs, o.handle = ⟨i, v.slot.generation⟩) ∧ (v.record = none → v.obs = [])

theorem State.measures_eq (s : State) (r : Record) : s.measures r = r.measuresIn s.runs (s.parentAllows r) := by
  simp only [State.measures, State.frozen, Record.measuresIn, State.baseRunning_eq]
  cases isMeasuring r.state <;> cases decide (r.state = .violated) <;> simp

theorem State.statesFit_iff (s : State) : s.statesFit ↔ ∀ j, (s.view j).fits s.runs (s.allows j) := by
  refine forall_congr' fun j => forall_congr' fun r => ?_
  constructor
  · intro h hr; rw [State.allows_of_record hr]; exact h hr
  · intro h hr; have := h hr; rw [State.allows_of_record hr] at this; exact this

theorem State.mem_observationsOf {o : Observation} : o ∈ s.observationsOf j ↔ o ∈ s.observations ∧ o.handle.slot = j := by
  simp [State.observationsOf]

theorem State.idleUnlessMeasuring_iff (s : State) :
    s.idleUnlessMeasuring ↔ ∀ j, (s.view j).still s.runs (s.allows j) j := by
  constructor
  · rintro ⟨hrec, hobs⟩ j
    have own : ∀ o ∈ s.observationsOf j, ∃ r, s.recordAt j = some r ∧ o.handle = s.handleOf j ∧ s.measures r = true := by
      intro o ho
      obtain ⟨hmem, rfl⟩ := State.mem_observationsOf.1 ho
      obtain ⟨r, hr, hm⟩ := hobs o hmem
      obtain ⟨hh, hr⟩ := State.contractAt_eq_some.1 hr
      exact ⟨r, hr, hh, hm⟩
    refine ⟨fun r hr hm => ?_, fun o ho => ?_, fun hn => List.eq_nil_iff_forall_not_mem.2 fun o ho => ?_⟩
    · rw [State.allows_of_record hr, ← State.measures_eq] at hm
      refine ⟨hrec j r hr hm, List.eq_nil_iff_forall_not_mem.2 fun o ho => ?_⟩
      obtain ⟨q, hq, -, hm'⟩ := own o ho
      obtain rfl : r = q := Option.some.inj (hr.symm.trans hq)
      rw [hm] at hm'; cases hm'
    · obtain ⟨-, -, hh, -⟩ := own o ho; exact hh
    · obtain ⟨q, hq, -⟩ := own o ho
      rw [State.view_record] at hn
      rw [hn] at hq; cases hq
  · intro h
    refine ⟨fun i r hr hm => ?_, fun o ho => ?_⟩
    · rw [State.measures_eq, ← State.allows_of_record hr] at hm
      exact ((h i).1 r hr hm).1
    · have hmem : o ∈ (s.view o.handle.slot).obs := State.mem_observationsOf.2 ⟨ho, rfl⟩
      obtain ⟨hrec, hown, hnone⟩ := h o.handle.slot
      cases hr : s.recordAt o.handle.slot with
      | none => rw [hnone hr] at hmem; cases hmem
      | some r =>
        refine ⟨r, State.contractAt_eq_some.2 ⟨hown o hmem, hr⟩, ?_⟩
        rw [State.measures_eq, ← State.allows_of_record hr, ← Bool.not_eq_false]
        intro hm
        rw [(hrec r hr hm).2] at hmem; cases hmem

/-! ## The blocking recomputation -/

theorem Record.blockedTo_congr (hb : r'.fixed = r.fixed) (hs : r'.suspended = r.suspended) :
    r'.blockedTo run al = r.blockedTo run al := by
  unfold Record.blockedTo; rw [hb, hs]

theorem Record.blockedTo_arming : r.blockedTo run al = .arming ↔ r.suspended = false ∧ run r.fixed.base = true ∧ al = true := by
  unfold Record.blockedTo
  cases r.suspended <;> cases run r.fixed.base <;> cases al <;> simp

theorem Record.blockedTo_suspended : r.blockedTo run al = .suspended ↔ r.suspended = true := by
  unfold Record.blockedTo
  cases r.suspended <;> cases run r.fixed.base <;> cases al <;> simp

theorem Record.blockedTo_held : r.blockedTo run al = .held ↔ r.suspended = false ∧ run r.fixed.base = false := by
  unfold Record.blockedTo
  cases r.suspended <;> cases run r.fixed.base <;> cases al <;> simp

theorem Record.blockedTo_dormant :
    r.blockedTo run al = .dormant ↔ r.suspended = false ∧ run r.fixed.base = true ∧ al = false := by
  unfold Record.blockedTo
  cases r.suspended <;> cases run r.fixed.base <;> cases al <;> simp

@[simp] theorem Record.amended_suspended (r : Record) (g : Byte) : (r.amended g).suspended = r.suspended := by
  unfold Record.amended; split <;> rfl
@[simp] theorem Record.rearmedAt_suspended (r : Record) (g : Byte) : (r.rearmedAt g).suspended = r.suspended := by
  simp [Record.rearmedAt]
@[simp] theorem Record.rearmedAt_context (r : Record) (g : Byte) : (r.rearmedAt g).context = Context.initial := rfl
@[simp] theorem Record.asideIn_suspended (r : Record) (c : ContractState) : (r.asideIn c).suspended = r.suspended := rfl
@[simp] theorem Record.idle_suspended (r : Record) : r.idle.suspended = r.suspended := rfl
@[simp] theorem Record.idle_context (r : Record) : r.idle.context = Context.initial := rfl

/-- A record whose state is what the recomputation gives. -/
theorem View.fits_of_record (hr : v.record = some r) (h : r.state = r.blockedTo run al) : v.fits run al := by
  intro q hq
  obtain rfl : r = q := Option.some.inj (hr.symm.trans hq)
  refine ⟨fun hm => ?_, fun _ => h.symm, fun hs => .inl (by rw [h]; exact Record.blockedTo_suspended.2 hs)⟩
  rw [h] at hm
  exact (r.blockedTo_cases run al).resolve_right fun hb => by
    revert hm hb; generalize r.blockedTo run al = c; cases c <;> simp [isMeasuring, isBlocked]

/-- A contract that neither measures nor is blocked fits with its suspended flag clear, or CORRUPT. -/
theorem View.fits_of_settled (hr : v.record = some r) (h : isOpen r.state = false) (hs : r.suspensionFits) : v.fits run al := by
  intro q hq
  obtain rfl : r = q := Option.some.inj (hr.symm.trans hq)
  obtain ⟨hm, hb⟩ := Bool.or_eq_false_iff.1 h
  exact ⟨fun e => (by rw [hm] at e; cases e), fun e => (by rw [hb] at e; cases e), hs⟩

theorem isBlocked_not_measuring {c : ContractState} (h : isBlocked c = true) : isMeasuring c = false := by
  cases c <;> first | rfl | cases h

/-- The recomputation makes every contract in a measuring or blocked state fit. -/
theorem View.recompute_fits (hv : ∀ r, v.record = some r → r.suspensionFits) : (v.recompute run al i).fits run al := by
  cases hr : v.record with
  | none => simp [View.recompute, hr, View.fits]
  | some r =>
    rw [View.recompute_of_record hr]
    by_cases ho : isOpen r.state = true
    · rw [if_pos ho]
      split
      · rename_i ha
        split
        · rename_i hm
          intro q hq
          obtain rfl : r = q := Option.some.inj (hr.symm.trans hq)
          refine ⟨fun _ => ha, fun hb => ?_, hv r hr⟩
          rw [isBlocked_not_measuring hb] at hm; cases hm
        · refine View.fits_of_record (r := r.rearmedAt v.slot.generation) (by simp [hr]) ?_
          rw [Record.blockedTo_congr (r := r) (by simp) (by simp), ha]; rfl
      · split
        · rename_i he; exact View.fits_of_record hr he
        · exact View.fits_of_record (r := r.asideIn _) (by rw [View.setAside_record, hr]; rfl)
            (Record.blockedTo_congr (r := r) rfl rfl).symm
    · rw [if_neg ho]
      exact View.fits_of_settled hr (Bool.eq_false_iff.2 ho) (hv r hr)

theorem View.fits.suspension (h : v.fits run al) (r : Record) (hr : v.record = some r) : r.suspensionFits := (h r hr).2.2

/-! ## The cascade from above -/

theorem View.cascade_fits (h : v.fits run true) : (v.cascade run' i).fits run false := by
  cases hr : v.record with
  | none => intro q hq; rw [View.cascade_record, hr] at hq; cases hq
  | some r =>
    obtain ⟨hm, hb, hs⟩ := h r hr
    rw [View.cascade_of_record hr]
    split
    · rename_i hmeas
      have fitsDormant := Record.blockedTo_arming.1 (hm hmeas)
      refine View.fits_of_record (r := r.asideIn .dormant) (by rw [View.setAside_record, hr]; rfl) ?_
      rw [Record.blockedTo_congr (r' := r.asideIn .dormant) (r := r) rfl rfl]
      exact (Record.blockedTo_dormant.2 ⟨fitsDormant.1, fitsDormant.2.1, rfl⟩).symm
    · rename_i hmeas
      split
      · rename_i hv
        refine View.fits_of_settled (r := r.idle) (by simp [hr]) (by rw [Record.idle_state, hv.1]; rfl) ?_
        exact hs
      · by_cases hbl : isBlocked r.state = true
        · -- a blocked contract whose parent allows is not DORMANT
          refine View.fits_of_record hr ?_
          have result := hb hbl
          cases hst : r.state with
          | suspended =>
            rw [hst] at result
            exact (Record.blockedTo_suspended.2 (Record.blockedTo_suspended.1 result)).symm
          | held => rw [hst] at result; exact (Record.blockedTo_held.2 (Record.blockedTo_held.1 result)).symm
          | dormant => rw [hst] at result; cases (Record.blockedTo_dormant.1 result).2.2
          | _ => rw [hst] at hbl; cases hbl
        · exact View.fits_of_settled hr (by simp [isOpen, hmeas, hbl]) hs

/-- No observation stays pending of a slot all of whose observations carry its current handle. -/
theorem View.withdraw_obs (h : ∀ o ∈ v.obs, o.handle = ⟨i, v.slot.generation⟩) : (v.withdraw i).obs = [] := by
  simpa [View.withdraw] using h

theorem View.still_of_record (hr : v.record = some r) (hc : r.context = Context.initial) (ho : v.obs = []) : v.still run al i := by
  refine ⟨fun q hq _ => ?_, fun o h => ?_, fun hn => ho⟩
  · obtain rfl : r = q := Option.some.inj (hr.symm.trans hq)
    exact ⟨hc, ho⟩
  · rw [ho] at h; cases h

theorem View.still_of_none (hr : v.record = none) (ho : v.obs = []) : v.still run al i :=
  ⟨fun q hq _ => (by rw [hr] at hq; cases hq), fun o h => (by rw [ho] at h; cases h), fun _ => ho⟩

/-- A contract that measures is still whatever its measurement. -/
theorem View.still_of_measuring (hr : v.record = some r) (hm : r.measuresIn run al = true)
    (ho : ∀ o ∈ v.obs, o.handle = ⟨i, v.slot.generation⟩) : v.still run al i := by
  refine ⟨fun q hq hm' => ?_, ho, fun hn => ?_⟩
  · obtain rfl : r = q := Option.some.inj (hr.symm.trans hq)
    rw [hm] at hm'; cases hm'
  · rw [hr] at hn; cases hn

@[simp] theorem View.setAside_obs (i : SlotIx) (target : ContractState) (v : View) :
    (v.setAside i target).obs = if (v.record.any fun r => isMeasuring r.state) = true then (v.withdraw i).obs else v.obs := by
  unfold View.setAside
  cases v.record with
  | none => rfl
  | some r =>
    dsimp only
    rw [View.post_obs, View.edit_obs]
    simp only [Option.any_some]
    split <;> rfl

/-- A contract set aside is still, if it was still or all its observations were its own. -/
theorem View.setAside_still (hr : v.record = some r) (ho : ∀ o ∈ v.obs, o.handle = ⟨i, v.slot.generation⟩)
    (hs : isMeasuring r.state = false → r.context = Context.initial ∧ v.obs = []) (target : ContractState) :
    (v.setAside i target).still run al i := by
  refine View.still_of_record (r := r.asideIn target) (by rw [View.setAside_record, hr]; rfl) ?_ ?_
  · unfold Record.asideIn
    dsimp only
    split
    · rfl
    · rename_i hm; exact (hs (Bool.eq_false_iff.2 hm)).1
  · rw [View.setAside_obs, hr, Option.any_some]
    split
    · exact View.withdraw_obs ho
    · rename_i hm; exact (hs (Bool.eq_false_iff.2 hm)).2

theorem View.abandon_still (hr : v.record = some r) (ho : ∀ o ∈ v.obs, o.handle = ⟨i, v.slot.generation⟩) :
    (v.abandon i).still run al i :=
  View.still_of_record (r := r.idle) (by simp [hr]) rfl (View.withdraw_obs ho)

theorem View.cascade_still (hrun : ∀ b, run b = true → run' b = true) (h : v.still run true i) :
    (v.cascade run' i).still run false i := by
  obtain ⟨hrec, hown, hnone⟩ := h
  cases hr : v.record with
  | none => exact View.still_of_none (by rw [View.cascade_record, hr]; rfl) (by simp [View.cascade, hr, hnone hr])
  | some r =>
    rw [View.cascade_of_record hr]
    split
    · rename_i hm
      exact View.setAside_still hr hown (fun e => by rw [hm] at e; cases e) _
    · rename_i hm
      split
      · exact View.abandon_still hr hown
      · rename_i hv
        have quiet : r.measuresIn run true = false := by
          simp only [Bool.not_eq_true] at hm
          simp only [Record.measuresIn, hm, Bool.false_or, Bool.and_true, Bool.and_eq_false_iff, decide_eq_false_iff_not]
          by_cases hx : r.state = .violated
          · exact .inr (Bool.eq_false_iff.2 fun e => hv ⟨hx, hrun _ e⟩)
          · exact .inl hx
        obtain ⟨hc, ho⟩ := hrec r hr quiet
        exact View.still_of_record hr hc ho

/-! ## A contract taken up -/

theorem Record.not_measures_of_blocked (h : isBlocked r.state = true) : r.measuresIn run al = false := by
  unfold Record.measuresIn
  rw [isBlocked_not_measuring h]
  cases hs : r.state <;> simp_all [isBlocked]

theorem View.recompute_still (hs : ∀ r, v.record = some r → isMeasuring r.state = false → isOpen r.state = true →
      r.context = Context.initial ∧ v.obs = [])
    (ho : ∀ o ∈ v.obs, o.handle = ⟨i, v.slot.generation⟩) (hrest : ∀ r, v.record = some r → isOpen r.state = false → v.still run al i)
    (hnone : v.record = none → v.obs = []) : (v.recompute run al i).still run al i := by
  cases hr : v.record with
  | none => simpa [View.recompute, hr] using View.still_of_none hr (hnone hr)
  | some r =>
    rw [View.recompute_of_record hr]
    by_cases hop : isOpen r.state = true
    · rw [if_pos hop]
      split
      · split
        · rename_i hm
          exact View.still_of_measuring hr (by simp [Record.measuresIn, hm]) ho
        · refine View.still_of_measuring (r := r.rearmedAt v.slot.generation) (by simp [hr])
            (by simp [Record.measuresIn, isMeasuring]) ?_
          rw [View.edit_obs, View.edit_generation]
          exact ho
      · split
        · rename_i hna he
          have hb : isBlocked r.state = true := by rw [he]; exact (r.blockedTo_cases run al).resolve_left hna
          obtain ⟨hc, hobs⟩ := hs r hr (isBlocked_not_measuring hb) hop
          exact View.still_of_record hr hc hobs
        · exact View.setAside_still hr ho (fun hm => hs r hr hm hop) _
    · rw [if_neg hop]
      exact hrest r hr (Bool.eq_false_iff.2 hop)

/-- What a still slot keeps of a contract in a measuring or blocked state, whatever the conditions become. -/
theorem View.still.blocked (h : v.still run al i) (hr : v.record = some r) (hm : isMeasuring r.state = false)
    (ho : isOpen r.state = true) : r.context = Context.initial ∧ v.obs = [] := by
  have hb : isBlocked r.state = true := by simpa [isOpen, hm] using ho
  exact h.1 r hr (Record.not_measures_of_blocked hb)

theorem View.takeUp_fits (h : v.fits run false) : (v.takeUp run true i).fits run true := by
  cases hr : v.record with
  | none => simp [View.takeUp, hr, View.fits]
  | some r =>
    obtain ⟨hm, hb, hs⟩ := h r hr
    rw [View.takeUp_of_record hr]
    split
    · exact View.recompute_fits h.suspension
    · rename_i hd
      split
      · rename_i hv
        exact View.fits_of_settled (r := r.idle) (by simp [hr]) (by rw [Record.idle_state, hv.1]; rfl) hs
      · intro q hq
        obtain rfl : r = q := Option.some.inj (hr.symm.trans hq)
        refine ⟨fun hmeas => ?_, fun hbl => ?_, hs⟩
        · cases (Record.blockedTo_arming.1 (hm hmeas)).2.2
        · have result := hb hbl
          cases hst : r.state with
          | suspended => rw [hst] at result; exact Record.blockedTo_suspended.2 (Record.blockedTo_suspended.1 result)
          | held => rw [hst] at result; exact Record.blockedTo_held.2 (Record.blockedTo_held.1 result)
          | dormant => exact absurd hst hd
          | _ => rw [hst] at hbl; cases hbl

theorem View.takeUp_still (h : v.still run false i) : (v.takeUp run true i).still run true i := by
  obtain ⟨hrec, hown, hnone⟩ := h
  cases hr : v.record with
  | none => simpa [View.takeUp, hr] using View.still_of_none hr (hnone hr)
  | some r =>
    rw [View.takeUp_of_record hr]
    split
    · rename_i hd
      refine View.recompute_still (fun q hq hm ho => ?_) hown (fun q hq ho => ?_) hnone
      · exact View.still.blocked ⟨hrec, hown, hnone⟩ hq hm ho
      · obtain rfl : r = q := Option.some.inj (hr.symm.trans hq)
        rw [hd] at ho; cases ho
    · split
      · rename_i hv
        have quiet : r.measuresIn run false = false := by simp [Record.measuresIn, hv.1, isMeasuring]
        exact View.still_of_record (r := r.idle) (by simp [hr]) rfl (hrec r hr quiet).2
      · rename_i hv
        refine ⟨fun q hq hm => ?_, hown, hnone⟩
        obtain rfl : r = q := Option.some.inj (hr.symm.trans hq)
        refine hrec r hr ?_
        unfold Record.measuresIn at hm ⊢
        rw [(Bool.or_eq_false_iff.1 hm).1]
        simp

/-! ## Notices and SET_PIN -/

/-- What a stop notice needs of a slot: that a contract that does not measure and is not VIOLATED is still. -/
def View.stoppable (i : SlotIx) (v : View) : Prop :=
  (∀ r, v.record = some r → isMeasuring r.state = false → r.state ≠ .violated → r.context = Context.initial ∧ v.obs = []) ∧
    (∀ o ∈ v.obs, o.handle = ⟨i, v.slot.generation⟩) ∧ (v.record = none → v.obs = [])

theorem View.still.stoppable (h : v.still run al i) : v.stoppable i :=
  ⟨fun r hr hm hv => h.1 r hr (by simp [Record.measuresIn, hm, hv]), h.2.1, h.2.2⟩

theorem View.cascade_stoppable (h : v.stoppable i) : (v.cascade run i).stoppable i := by
  obtain ⟨hrec, hown, hnone⟩ := h
  cases hr : v.record with
  | none =>
    have same : v.cascade run i = v := by simp [View.cascade, hr]
    rw [same]; exact ⟨hrec, hown, hnone⟩
  | some r =>
    rw [View.cascade_of_record hr]
    split
    · rename_i hm
      exact (View.setAside_still (run := run) (al := false) hr hown (fun e => by rw [hm] at e; cases e) _).stoppable
    · split
      · exact (View.abandon_still (run := run) (al := false) hr hown).stoppable
      · exact ⟨hrec, hown, hnone⟩

/-- A stop notice leaves a contract fitting, where the bases that run are some of those that ran. -/
theorem View.stop_fits (hrun : ∀ b, run b = true → run' b = true) (h : v.fits run' al) : (v.stop run al i).fits run al := by
  cases hr : v.record with
  | none => simp [View.stop, hr, View.fits]
  | some r =>
    obtain ⟨hm, hb, hs⟩ := h r hr
    rw [View.stop_of_record hr]
    split
    · exact View.recompute_fits h.suspension
    · rename_i ho
      rw [not_or] at ho
      split
      · rename_i hv
        exact View.fits_of_settled (r := r.idle) (by simp [hr]) (by rw [Record.idle_state, hv]; rfl) hs
      · intro q hq
        obtain rfl : r = q := Option.some.inj (hr.symm.trans hq)
        refine ⟨fun hmeas => absurd hmeas ho.1, fun hbl => ?_, hs⟩
        have result := hb hbl
        cases hst : r.state with
        | suspended => rw [hst] at result; exact Record.blockedTo_suspended.2 (Record.blockedTo_suspended.1 result)
        | held =>
          rw [hst] at result
          obtain ⟨h1, h2⟩ := Record.blockedTo_held.1 result
          exact Record.blockedTo_held.2 ⟨h1, Bool.eq_false_iff.2 fun e => by rw [hrun _ e] at h2; cases h2⟩
        | dormant => exact absurd hst ho.2
        | _ => rw [hst] at hbl; cases hbl

theorem View.stop_still (h : v.stoppable i) : (v.stop run al i).still run al i := by
  obtain ⟨hrec, hown, hnone⟩ := h
  cases hr : v.record with
  | none => simpa [View.stop, hr] using View.still_of_none hr (hnone hr)
  | some r =>
    rw [View.stop_of_record hr]
    split
    · rename_i ho
      refine View.recompute_still (fun q hq hm hop => hrec q hq hm (isOpen_not_settled hop).1) hown (fun q hq hop => ?_) hnone
      obtain rfl : r = q := Option.some.inj (hr.symm.trans hq)
      obtain hm | hd := ho
      · rw [isMeasuring_isOpen hm] at hop; cases hop
      · rw [hd] at hop; cases hop
    · rename_i ho
      rw [not_or] at ho
      split
      · exact View.abandon_still hr hown
      · rename_i hv
        obtain ⟨hc, hobs⟩ := hrec r hr (Bool.eq_false_iff.2 ho.1) hv
        exact View.still_of_record hr hc hobs

/-- A run notice leaves a contract fitting whose base has begun to run. -/
theorem View.run_fits (hrun : ∀ b, run' b = true → run b = true) (h : v.fits run' al) : (v.run run al i).fits run al := by
  cases hr : v.record with
  | none => simp [View.run, hr, View.fits]
  | some r =>
    obtain ⟨hm, hb, hs⟩ := h r hr
    rw [View.run_of_record hr]
    split
    · exact View.recompute_fits h.suspension
    · rename_i hheld
      split
      · rename_i hv
        exact View.fits_of_settled (r := r.idle) (by simp [hr]) (by rw [Record.idle_state, hv.1]; rfl) hs
      · intro q hq
        obtain rfl : r = q := Option.some.inj (hr.symm.trans hq)
        refine ⟨fun hmeas => ?_, fun hbl => ?_, hs⟩
        · obtain ⟨h1, h2, h3⟩ := Record.blockedTo_arming.1 (hm hmeas)
          exact Record.blockedTo_arming.2 ⟨h1, hrun _ h2, h3⟩
        · have result := hb hbl
          cases hst : r.state with
          | suspended => rw [hst] at result; exact Record.blockedTo_suspended.2 (Record.blockedTo_suspended.1 result)
          | dormant =>
            rw [hst] at result
            obtain ⟨h1, h2, h3⟩ := Record.blockedTo_dormant.1 result
            exact Record.blockedTo_dormant.2 ⟨h1, hrun _ h2, h3⟩
          | held => exact absurd hst hheld
          | _ => rw [hst] at hbl; cases hbl

theorem View.run_still (hrun : ∀ b, run' b = true → run b = true) (h : v.still run' al i) : (v.run run al i).still run al i := by
  obtain ⟨hrec, hown, hnone⟩ := h
  cases hr : v.record with
  | none => simpa [View.run, hr] using View.still_of_none hr (hnone hr)
  | some r =>
    rw [View.run_of_record hr]
    split
    · rename_i hheld
      refine View.recompute_still (fun q hq hm ho => View.still.blocked ⟨hrec, hown, hnone⟩ hq hm ho) hown (fun q hq ho => ?_) hnone
      obtain rfl : r = q := Option.some.inj (hr.symm.trans hq)
      rw [hheld] at ho; cases ho
    · split
      · rename_i hv
        refine ⟨fun q hq hm => ?_, by simpa using hown, fun hn => hnone (by simpa using hn)⟩
        simp only [View.edit_record, hr, Option.map_some, Option.some.injEq] at hq
        subst hq
        refine ⟨rfl, (hrec r hr ?_).2⟩
        simp only [Record.measuresIn, Record.idle_state, Record.idle_fixed, hv.1, hv.2, decide_true, Bool.true_and, Bool.and_true,
          Bool.or_eq_false_iff] at hm ⊢
        exact ⟨hm.1, Bool.eq_false_iff.2 fun e => by rw [hrun _ e] at hm; cases hm.2⟩
      · refine ⟨fun q hq hm => ?_, hown, hnone⟩
        obtain rfl : r = q := Option.some.inj (hr.symm.trans hq)
        refine hrec r hr ?_
        unfold Record.measuresIn at hm ⊢
        obtain ⟨h1, h2⟩ := Bool.or_eq_false_iff.1 hm
        rw [h1, Bool.false_or]
        rw [Bool.and_eq_false_iff] at h2 ⊢
        refine h2.imp id fun h3 => ?_
        rw [Bool.and_eq_false_iff] at h3 ⊢
        exact h3.imp (fun e => Bool.eq_false_iff.2 fun e' => by rw [hrun _ e'] at e; cases e) id

/-- An entry into ARMING of a contract that measures in a measuring state fits. -/
theorem View.rearmed_fits {w : View} (h : v.fits run al) (hr : v.record = some r) (hm : isMeasuring r.state = true)
    (hw : w.record = some r') (hst : r'.state = .arming) (hf : r'.fixed = r.fixed) (hs : r'.suspended = r.suspended) :
    w.fits run al := by
  refine View.fits_of_record hw ?_
  rw [Record.blockedTo_congr hf hs, (h r hr).1 hm, hst]

theorem View.restart_fits (h : v.fits run al) : (v.restart run al i).fits run al := by
  cases hr : v.record with
  | none => simp [View.restart, hr, View.fits]
  | some r =>
    rw [View.restart_of_record hr]
    split
    · rename_i hm
      exact View.rearmed_fits (r' := r.idle.rearmedAt v.slot.generation) h hr hm (by simp [hr]) rfl (by simp) (by simp)
    · split
      · rename_i hv
        have hs : r.suspensionFits := h.suspension r hr
        have settled : isOpen r.state = false := by rw [hv]; rfl
        split
        · exact View.fits_of_settled (r := { r.idle with recoveryRun := 0 }) (by simp [hr]) settled hs
        · exact View.fits_of_settled (r := { r with recoveryRun := 0 }) (by simp [hr]) settled hs
      · exact h

theorem View.restart_still (h : v.still run al i) : (v.restart run al i).still run al i := by
  obtain ⟨hrec, hown, hnone⟩ := h
  cases hr : v.record with
  | none => simpa [View.restart, hr] using View.still_of_none hr (hnone hr)
  | some r =>
    rw [View.restart_of_record hr]
    split
    · refine View.still_of_record (r := (r.idle).rearmedAt v.slot.generation) (by simp [hr]) rfl ?_
      rw [View.edit_obs]; exact View.withdraw_obs hown
    · split
      · rename_i hv
        split
        · refine View.still_of_record (r := { r.idle with recoveryRun := 0 }) (by simp [hr]) rfl ?_
          rw [View.edit_obs]; exact View.withdraw_obs hown
        · refine ⟨fun q hq hm => ?_, by simpa using hown, fun hn => hnone (by simpa using hn)⟩
          simp only [View.edit_record, hr, Option.map_some, Option.some.injEq] at hq
          subst hq
          exact hrec r hr hm
      · exact ⟨hrec, hown, hnone⟩

/-! ## Over the slots -/

/-- A condition on each slot that the cascade keeps holds after losses of every slot outside the set. -/
theorem Losses.keeps {P : SlotIx → Bool → View → Prop} (h : Losses C s t)
    (hc : ∀ j v, P j true v → P j false (v.cascade s.runs j)) (hj : ¬ C j) (hP : P j (s.allows j) (s.view j)) :
    P j (t.allows j) (t.view j) := by
  obtain ⟨ha, hv⟩ | ⟨hs, ht, hv⟩ := h.cases hj
  · rw [ha, hv]; exact hP
  · rw [ht, hv]; rw [hs] at hP; exact hc j _ hP

/-- No turn changes what the contract's own parent allows. -/
theorem Losses.allows_own (h : Losses (· = k) s t) (sh : s.shallow) : t.allows k = s.allows k := by
  refine h.tree.allows_eq fun p hp => ?_
  have hpk : p ≠ k := fun e => sh.not_self k (by rw [e] at hp; exact hp)
  obtain ⟨-, hv⟩ | ⟨hs, ht, -⟩ := h.cases (j := p) hpk
  · exact State.healthyAt_of_view hv
  · obtain ⟨q, hq, hqs, hqt⟩ := h.tree.lost hs ht
    have hqk : q ≠ k := fun e => sh k p k p hp (by rw [e] at hq; exact hq) hp
    obtain ⟨-, hv⟩ | ⟨hs', ht', -⟩ := h.cases (j := q) hqk
    · exact absurd ((State.healthyAt_of_view hv).2 hqs) hqt
    · obtain ⟨w, hw, -⟩ := h.tree.lost hs' ht'
      exact absurd hw (sh k p q w hp hq)

/-- Turns one after another: a condition that the slots outside have, and that each turn brings about, holds of every slot. -/
theorem Turn.foldl_keeps {F : (BaseIx → Bool) → Bool → SlotIx → View → View} {f : State → SlotIx → State}
    {P Q : SlotIx → Bool → View → Prop} (turn : ∀ s i, s.shallow → Turn F i s (f s i))
    (hP : ∀ j v, P j true v → P j false (v.cascade s.runs j)) (hQ : ∀ j v, Q j true v → Q j false (v.cascade s.runs j))
    (hF : ∀ j a v, Q j a v → P j a (F s.runs a j v)) (l : List SlotIx) (nd : l.Nodup) (sh : s.shallow)
    (inside : ∀ j ∈ l, Q j (s.allows j) (s.view j)) (outside : ∀ j, j ∉ l → P j (s.allows j) (s.view j)) :
    ∀ j, P j ((l.foldl f s).allows j) ((l.foldl f s).view j) := by
  induction l generalizing s with
  | nil => exact fun j => outside j List.not_mem_nil
  | cons a l ih =>
    obtain ⟨ha, nd⟩ := List.nodup_cons.1 nd
    have ta := turn s a sh
    refine ih (s := f s a) (by rw [ta.losses.runs]; exact hP) (by rw [ta.losses.runs]; exact hQ) (by rw [ta.losses.runs]; exact hF)
      nd (ta.losses.tree.shallow sh) (fun j hj => ?_) (fun j hj => ?_)
    · exact ta.losses.keeps hQ (fun e => ha (e ▸ hj)) (inside j (List.mem_cons_of_mem _ hj))
    · by_cases e : j = a
      · subst e
        rw [ta.losses.allows_own sh, ta.own]
        exact hF j _ _ (inside j List.mem_cons_self)
      · exact ta.losses.keeps hP e (outside j fun h => (List.mem_cons.1 h).elim e hj)

end Sys2Proof.Machine
end

