-- ==== Sys2Proof/Proofs/OwnTurns.lean ====
section
set_option Elab.async false
/-! PROOFS. The operations on one contract that a command names or an observation judges: what they do to the others, and what they keep
of the conditions on its own slot. -/

namespace Sys2Proof.Machine

variable {m C D : SlotIx → Prop} {s t u x : State} {i j k d : SlotIx} {r r' q : Record} {v w : View}
variable {run run' : BaseIx → Bool} {al al' : Bool}

/-! ## Edits of one slot -/

/-- An edit of one slot that keeps the tree and the bases. -/
structure OneSlot (k : SlotIx) (s x : State) : Prop where
  others : ∀ j, j ≠ k → x.view j = s.view j
  tree : SameTree s x
  runs : x.runs = s.runs

theorem OneSlot.refl (k : SlotIx) (s : State) : OneSlot k s s := ⟨fun _ _ => rfl, .refl s, rfl⟩

theorem OneSlot.trans (h : OneSlot k s t) (l : OneSlot k t u) : OneSlot k s u :=
  ⟨fun j hj => (l.others j hj).trans (h.others j hj), h.tree.trans l.tree, l.runs.trans h.runs⟩

theorem OneSlot.of_frame (frame : TableFrame m s x) (view : ∀ j, j ≠ k → x.view j = s.view j) : OneSlot k s x :=
  ⟨view, frame.sameTree, frame.runs⟩

theorem OneSlot.mapRecord {f : Record → Record} (hf : ∀ r, (f r).fixed = r.fixed) : OneSlot k s (s.mapRecord k f) := by
  refine ⟨fun j hj => by rw [State.mapRecord_view, if_neg hj], .of_one (k := k) (fun j hj => by rw [State.mapRecord_view, if_neg hj])
    (State.mapRecord_generation _ _ _ _) ?_, by unfold State.runs; simp⟩
  rw [State.mapRecord_recordAt]
  cases s.recordAt k <;> simp [hf]

theorem OneSlot.abandon (s : State) (k : SlotIx) : OneSlot k s (s.abandon k) :=
  .of_frame (m := fun _ => False) (.abandon k) fun j hj => by rw [State.abandon_view, if_neg hj]

theorem OneSlot.applyStaged (s : State) (k : SlotIx) : OneSlot k s (s.applyStaged k) :=
  .of_frame (m := fun _ => False) (.applyStaged k) fun j hj => by rw [State.applyStaged_view, if_neg hj]

theorem OneSlot.of_view (slots : t.slots = s.slots) (bases : t.bases = s.bases) (others : ∀ j, j ≠ k → t.view j = s.view j) :
    OneSlot k s t :=
  ⟨others, ⟨fun j => by rw [slots], fun j => by rw [State.recordAt_congr slots]⟩, by unfold State.runs; rw [bases]⟩

theorem OneSlot.post (s : State) (k : SlotIx) (n : NoticeKind) : OneSlot k s (s.post k n) :=
  .of_view (by simp) (by simp) fun j hj => by rw [State.post_view, if_neg hj]

theorem OneSlot.postMasked (s : State) (k : SlotIx) {n : NoticeKind} (hn : n = .suspect ∨ n = .recovered ∨ n = .blocked)
    (mask : BitVec 3) : OneSlot k s (s.postMasked k n mask) :=
  .of_view (by simp) (by simp) fun j hj => by rw [State.postMasked_view s k hn, if_neg hj]

theorem OneSlot.joinMask (s : State) (k : SlotIx) (mask : BitVec 4) : OneSlot k s (s.joinMask k mask) :=
  .of_view (by simp) (by simp) fun j _ => State.joinMask_view ..
theorem OneSlot.leaveMask (s : State) (k : SlotIx) (mask : BitVec 4) : OneSlot k s (s.leaveMask k mask) :=
  .of_view (by simp) (by simp) fun j _ => State.leaveMask_view ..
theorem OneSlot.changeMask (s : State) (k : SlotIx) (old new : BitVec 4) : OneSlot k s (s.changeMask k old new) :=
  .of_view (by simp) (by simp) fun j _ => State.changeMask_view ..

theorem OneSlot.steady (h : OneSlot k s t) (own : t.healthyAt k ↔ s.healthyAt k) : Losses (· = k) s t :=
  .of_steady h.others h.tree h.runs own

theorem OneSlot.loses (h : OneSlot k s x) (sh : s.shallow) {before : ContractState} (hb : isHealthy before = true ↔ s.healthyAt k)
    (own : ¬ x.healthyAt k) : Losses (· = k) s (x.becameUnhealthy before k) := .of_own sh h.others h.tree h.runs hb own

/-! ## What an operation keeps of its own slot -/

/-- An operation keeps the conditions on its own slot. -/
def Kept (i : SlotIx) (s t : State) : Prop :=
  ((s.view i).fits s.runs (s.allows i) → (t.view i).fits s.runs (s.allows i)) ∧
    ((s.view i).fits s.runs (s.allows i) → (s.view i).still s.runs (s.allows i) i → (t.view i).still s.runs (s.allows i) i)

/-- A contract that measures has nothing to block it. -/
theorem View.fits.arming (h : v.fits run al) (hr : v.record = some r) (hm : r.measuresIn run al = true) :
    r.blockedTo run al = .arming := by
  obtain ⟨hmeas, -, hs⟩ := h r hr
  by_cases hx : isMeasuring r.state = true
  · exact hmeas hx
  · simp only [Record.measuresIn, hx, Bool.false_or, Bool.and_eq_true, decide_eq_true_eq] at hm
    refine Record.blockedTo_arming.2 ⟨Bool.eq_false_iff.2 fun e => ?_, hm.2.1, hm.2.2⟩
    obtain e' | e' := hs e <;> rw [hm.1] at e' <;> cases e'

/-- A contract that measured and does so still. -/
theorem Kept.of_measuring (hr : s.recordAt i = some r) (hm : s.measures r = true) (hr' : (t.view i).record = some r')
    (hf : r'.fixed = r.fixed) (hs : r'.suspended = r.suspended) (hst : isMeasuring r'.state = true ∨ r'.state = .violated)
    (ho : ∀ o ∈ (t.view i).obs, o ∈ (s.view i).obs)
    (hg : (t.view i).slot.generation = (s.view i).slot.generation) : Kept i s t := by
  rw [State.measures_eq, ← State.allows_of_record hr] at hm
  have arming : (s.view i).fits s.runs (s.allows i) → r'.blockedTo s.runs (s.allows i) = .arming := fun h =>
    (Record.blockedTo_congr hf hs).trans (h.arming hr hm)
  refine ⟨fun h p hp => ?_, fun h ⟨_, hown, _⟩ => ?_⟩
  · obtain rfl : r' = p := Option.some.inj (hr'.symm.trans hp)
    refine ⟨fun _ => arming h, fun hb => ?_, fun hsus => ?_⟩
    · obtain e | e := hst
      · rw [isBlocked_not_measuring hb] at e; cases e
      · rw [e] at hb; cases hb
    · rw [(Record.blockedTo_arming.1 (arming h)).1] at hsus; cases hsus
  · refine View.still_of_measuring hr' ?_ fun o h => by rw [hown o (ho o h), hg]
    obtain e | e := hst
    · simp [Record.measuresIn, e]
    · obtain ⟨-, h2, h3⟩ := Record.blockedTo_arming.1 (arming h)
      simp [Record.measuresIn, e, h2, h3]

/-- A contract put in the state that the recomputation gives, still. -/
theorem Kept.of_blocked (hr' : (t.view i).record = some r') (hst : (s.view i).fits s.runs (s.allows i) →
      r'.state = r'.blockedTo s.runs (s.allows i))
    (hstill : (s.view i).still s.runs (s.allows i) i → r'.context = Context.initial ∧ (t.view i).obs = []) : Kept i s t :=
  ⟨fun h => View.fits_of_record hr' (hst h), fun _ h => (hstill h).elim (View.still_of_record hr')⟩

/-- A contract that measures and is blocked no more. -/
theorem Kept.of_settled (hr' : (t.view i).record = some r') (hst : isOpen r'.state = false)
    (hs : (s.view i).fits s.runs (s.allows i) → r'.suspensionFits)
    (hstill : (s.view i).still s.runs (s.allows i) i → r'.context = Context.initial ∧ (t.view i).obs = []) : Kept i s t :=
  ⟨fun h => View.fits_of_settled hr' hst (hs h), fun _ h => (hstill h).elim (View.still_of_record hr')⟩

/-- An edit that keeps the state, the fixed fields, the suspended flag and the measurement. -/
theorem Kept.of_shape (hr : s.recordAt i = some r) (hr' : (t.view i).record = some r') (hf : r'.fixed = r.fixed)
    (hst : r'.state = r.state) (hs : r'.suspended = r.suspended) (hc : r'.context = r.context)
    (ho : ∀ o ∈ (t.view i).obs, o ∈ (s.view i).obs)
    (hg : (t.view i).slot.generation = (s.view i).slot.generation) : Kept i s t := by
  refine ⟨fun h p hp => ?_, fun _ ⟨hrec, hown, hnone⟩ => ⟨fun p hp hm => ?_, fun o h => by rw [hown o (ho o h), hg], fun hn => ?_⟩⟩
  · obtain rfl : r' = p := Option.some.inj (hr'.symm.trans hp)
    have h' := h r hr
    unfold Record.suspensionFits at h' ⊢
    rw [hst, Record.blockedTo_congr hf hs, hs]
    exact h'
  · obtain rfl : r' = p := Option.some.inj (hr'.symm.trans hp)
    unfold Record.measuresIn at hm
    rw [hst, hf] at hm
    obtain ⟨h1, h2⟩ := hrec r hr hm
    exact ⟨hc.trans h1, List.eq_nil_iff_forall_not_mem.2 fun o h => by have := ho o h; rw [h2] at this; cases this⟩
  · rw [hr'] at hn; cases hn

/-! ## SUSPEND, RESUME, CLEAR -/

theorem SameTree.allows_own (h : SameTree s t) (sh : s.shallow) (hh : ∀ p, p ≠ k → (t.healthyAt p ↔ s.healthyAt p)) :
    t.allows k = s.allows k :=
  h.allows_eq fun p hp => hh p fun e => sh.not_self k (by rw [e] at hp; exact hp)

theorem OneSlot.allows_own (h : OneSlot k s t) (sh : s.shallow) : t.allows k = s.allows k :=
  h.tree.allows_own sh fun p hp => State.healthyAt_of_view (h.others p hp)

/-- An edit of one record of a slot, as a view. -/
theorem State.mapRecord_view_self (s : State) (i : SlotIx) (f : Record → Record) : (s.mapRecord i f).view i = (s.view i).edit f := by
  rw [State.mapRecord_view, if_pos rfl]

/-- The contract set aside by SUSPEND, with its cascade. -/
theorem suspend_loses (sh : s.shallow) (hr : s.recordAt i = some r) (ho : isOpen r.state = true) :
    Losses (· = i) s ((s.mapRecord i (fun r => { r with suspended := true })).enterBlocked i .suspended) ∧
      ((s.mapRecord i (fun r => { r with suspended := true })).enterBlocked i .suspended).view i =
        ((s.view i).edit (fun r => { r with suspended := true })).setAside i .suspended ∧
      Kept i s ((s.mapRecord i (fun r => { r with suspended := true })).enterBlocked i .suspended) := by
  have flag : OneSlot i s (s.mapRecord i (fun r => { r with suspended := true })) := .mapRecord fun _ => rfl
  have hr' : (s.mapRecord i (fun r => { r with suspended := true })).recordAt i = some { r with suspended := true } := by simp [hr]
  have turn := Turn.enterBlocked (flag.tree.shallow sh) hr' ho (target := .suspended) rfl
  have view : _ = ((s.view i).edit (fun r => { r with suspended := true })).setAside i .suspended :=
    turn.own.trans (by rw [State.mapRecord_view_self])
  have health : (s.mapRecord i (fun r => { r with suspended := true })).healthyAt i ↔ s.healthyAt i := by
    rw [State.healthyAt_iff hr', State.healthyAt_iff hr]
  have hv : ((s.view i).edit (fun r => { r with suspended := true })).record = some { r with suspended := true } := by simp [hr]
  refine ⟨(flag.steady health).merge turn.losses, view, ?_⟩
  refine Kept.of_blocked (r' := ({ r with suspended := true } : Record).asideIn .suspended) ?_ (fun _ => ?_) (fun h => ?_)
  · rw [view, View.setAside_record, hv]; rfl
  · exact (Record.blockedTo_suspended.2 rfl).symm
  · have hown := h.2.1
    have blocked : isMeasuring r.state = false → r.context = Context.initial ∧ (s.view i).obs = [] := fun hm =>
      View.still.blocked h hr hm ho
    have still := View.setAside_still (run := s.runs) (al := s.allows i) (i := i) hv (by rw [View.edit_obs, View.edit_generation]; exact hown) (by rw [View.edit_obs]; exact blocked) .suspended
    rw [view]
    refine still.1 _ (by rw [View.setAside_record, hv]; rfl) ?_
    exact Record.not_measures_of_blocked rfl

/-- The contract after RESUME. -/
theorem resume_loses (sh : s.shallow) (hr : s.recordAt i = some r) (hst : r.state = .suspended) :
    Losses (· = i) s ((s.mapRecord i (fun r => { r with suspended := false })).recompute i) ∧
      ((s.mapRecord i (fun r => { r with suspended := false })).recompute i).view i =
        ((s.view i).edit (fun r => { r with suspended := false })).recompute s.runs (s.allows i) i ∧
      Kept i s ((s.mapRecord i (fun r => { r with suspended := false })).recompute i) := by
  have flag : OneSlot i s (s.mapRecord i (fun r => { r with suspended := false })) := .mapRecord fun _ => rfl
  have hr' : (s.mapRecord i (fun r => { r with suspended := false })).recordAt i = some { r with suspended := false } := by simp [hr]
  have turn := Turn.recompute (flag.tree.shallow sh) i
  have view : _ = ((s.view i).edit (fun r => { r with suspended := false })).recompute s.runs (s.allows i) i :=
    turn.own.trans (by rw [State.mapRecord_view_self, flag.runs, flag.allows_own sh])
  have health : (s.mapRecord i (fun r => { r with suspended := false })).healthyAt i ↔ s.healthyAt i := by
    rw [State.healthyAt_iff hr', State.healthyAt_iff hr]
  have hv : ((s.view i).edit (fun r => { r with suspended := false })).record = some { r with suspended := false } := by simp [hr]
  have only : ∀ {q}, ((s.view i).edit (fun r => { r with suspended := false })).record = some q → q = { r with suspended := false } :=
    fun hq => Option.some.inj (hq.symm.trans hv)
  refine ⟨(flag.steady health).merge turn.losses, view, fun _ => ?_, fun _ h => ?_⟩
  · rw [view]
    exact View.recompute_fits fun q hq hs => by rw [only hq] at hs; cases hs
  · rw [view]
    have ho : isOpen r.state = true := by rw [hst]; rfl
    have hm : isMeasuring r.state = false := by rw [hst]; rfl
    refine View.recompute_still (fun q hq _ _ => ?_) (by rw [View.edit_obs, View.edit_generation]; exact h.2.1) (fun q hq hop => ?_)
      (fun hn => by rw [hv] at hn; cases hn)
    · rw [only hq, View.edit_obs]
      have quiet := View.still.blocked (v := s.view i) h hr hm ho
      exact quiet
    · rw [only hq] at hop
      exact absurd ho (by rw [Bool.not_eq_true]; exact hop)

/-- What CLEAR does to a record that it takes out of VIOLATED. -/
def Record.clearedTo (c : ContractState) (r : Record) : Record :=
  { r with state := c, recovered := false, recoveryRun := 0 }

/-- The blocked state that a frozen contract enters by CLEAR (R40). -/
def Record.clearTarget (run : BaseIx → Bool) (r : Record) : ContractState := if run r.fixed.base then .dormant else .held

theorem State.clearFrozen_view (hr : s.recordAt i = some r) (hv : r.state = .violated) (j : SlotIx) :
    (s.clearFrozen i r).view j =
      if j = i then ((s.view i).edit (Record.clearedTo (r.clearTarget s.runs))).post (askedFor r.limits.noticeMask (noticeBit .blocked))
      else s.view j := by
  have ht : (if s.baseRunning r = true then ContractState.dormant else .held) = r.clearTarget s.runs := rfl
  unfold State.clearFrozen
  simp only [ht]
  rw [State.enterBlocked_of_violated (r := { r with recovered := false, recoveryRun := 0 }) (by simp [hr]) hv,
    if_neg (by unfold Record.clearTarget; split <;> simp), State.postMasked_view _ _ (by simp), State.mapRecord_view,
    State.leaveMask_view, State.mapRecord_view]
  by_cases e : j = i
  · subst e
    simp only [if_true, View.edit_edit]
    rfl
  · simp only [if_neg e]

theorem clearFrozen_loses (hr : s.recordAt i = some r) (hv : r.state = .violated) (hf : s.frozen r = true) :
    Losses (· = i) s (s.clearFrozen i r) ∧ Kept i s (s.clearFrozen i r) := by
  have view := State.clearFrozen_view hr hv
  have frame : TableFrame (fun _ => True) s (s.clearFrozen i r) := .clearFrozen hr trivial hv
  have rec' : ((s.clearFrozen i r).view i).record = some (r.clearedTo (r.clearTarget s.runs)) := by
    rw [view, if_pos rfl, View.post_record, View.edit_record, State.view_record, hr]; rfl
  have blocked : isBlocked (r.clearTarget s.runs) = true := by unfold Record.clearTarget; split <;> rfl
  have own : (s.clearFrozen i r).healthyAt i ↔ s.healthyAt i := by
    rw [State.healthyAt_iff hr, State.healthyAt_iff rec', hv]
    revert blocked
    show isBlocked (r.clearTarget s.runs) = true → (isHealthy (r.clearTarget s.runs) = true ↔ _)
    cases r.clearTarget s.runs <;> simp [isBlocked, isHealthy]
  have cond : s.runs r.fixed.base = false ∨ s.allows i = false := by
    rw [State.frozen_eq hv, ← State.allows_of_record hr] at hf
    simpa [Bool.and_eq_false_iff] using hf
  refine ⟨(OneSlot.of_frame frame fun j hj => by rw [view, if_neg hj]).steady own, Kept.of_blocked rec' (fun h => ?_) (fun h => ?_)⟩
  · -- the target is the first of the conditions that froze the contract
    have hs : r.suspended = false := Bool.eq_false_iff.2 fun e => by
      obtain e' | e' := h.suspension r hr e <;> rw [hv] at e' <;> cases e'
    have same : (r.clearedTo (r.clearTarget s.runs)).blockedTo s.runs (s.allows i) = r.blockedTo s.runs (s.allows i) :=
      Record.blockedTo_congr rfl rfl
    rw [same]
    show r.clearTarget s.runs = _
    unfold Record.clearTarget
    cases hb : s.runs r.fixed.base
    · exact (Record.blockedTo_held.2 ⟨hs, hb⟩).symm
    · exact (Record.blockedTo_dormant.2 ⟨hs, hb, cond.resolve_left (by simp [hb])⟩).symm
  · have quiet : r.measuresIn s.runs (s.allows i) = false := by
      simp only [Record.measuresIn, hv, isMeasuring, decide_true, Bool.true_and, Bool.false_or, Bool.and_eq_false_iff]
      exact cond
    obtain ⟨hc, ho⟩ := h.1 r hr quiet
    refine ⟨hc, ?_⟩
    rw [view, if_pos rfl, View.post_obs, View.edit_obs, ho]

/-- A contract that CLEAR takes to CONFORMING: its own part. -/
theorem State.clearToConforming_eq (s : State) (i : SlotIx) (a : Limits) :
    s.clearToConforming i a = ((s.mapRecord i (fun r =>
      { r with state := .conforming, recovered := false, recoveryRun := 0, strikes := 0 })).leaveMask i a.tripMask).becameHealthy
        .violated i := rfl

theorem clearToConforming_gains (sh : s.shallow) (hr : s.recordAt i = some r) (hv : r.state = .violated) (hf : s.frozen r = false) :
    Gains i s (s.clearToConforming i r.limits) ∧ Kept i s (s.clearToConforming i r.limits) ∧
      (s.clearToConforming i r.limits).view i = (s.view i).edit (fun r =>
        { r with state := .conforming, recovered := false, recoveryRun := 0, strikes := 0 }) ∧
      (s.clearToConforming i r.limits).trips = (s.leaveMask i r.limits.tripMask).trips := by
  let x := (s.mapRecord i (fun r => { r with state := .conforming, recovered := false, recoveryRun := 0, strikes := 0 })).leaveMask i
    r.limits.tripMask
  have one : OneSlot i s x :=
    (OneSlot.mapRecord (f := fun r => { r with state := .conforming, recovered := false, recoveryRun := 0, strikes := 0 })
      fun _ => rfl).trans (.leaveMask _ _ _)
  have hx : x.view i = (s.view i).edit (fun r => { r with state := .conforming, recovered := false, recoveryRun := 0, strikes := 0 }) := by
    rw [State.leaveMask_view, State.mapRecord_view_self]
  have own : x.healthyAt i := ⟨{ r with state := .conforming, recovered := false, recoveryRun := 0, strikes := 0 }, by
    rw [← State.view_record, hx]; simp [hr], rfl⟩
  obtain ⟨gains, view, calm⟩ := Gains.of_own sh one.others one.tree one.runs (before := .violated)
    (by rw [State.healthyAt_iff hr, hv]) own
  rw [State.clearToConforming_eq]
  refine ⟨gains, ?_, view.trans hx, calm.trips.trans ?_⟩
  · have measures : s.measures r = true := by simp [State.measures, hv, hf]
    refine Kept.of_measuring hr measures
      (r' := { r with state := .conforming, recovered := false, recoveryRun := 0, strikes := 0 }) ?_ rfl rfl (.inl rfl) ?_ ?_ <;>
      rw [view, hx]
    · simp [hr]
    · simp
    · simp
  · apply Vector.ext
    intro n hn
    have line := fun t : State => State.leaveMask_line t i r.limits.tripMask ⟨n, hn⟩
    rw [line s, line]
    simp

end Sys2Proof.Machine
end

