-- ==== Sys2Proof/Proofs/Judgements.lean ====
section
set_option Elab.async false
/-! PROOFS. What a counted observation does: the record after the state rule as a function of the record before it, the kinds posted, the
lines joined and left, and the health that the other contracts see change. -/

namespace Sys2Proof.Machine

variable {m C D : SlotIx → Prop} {s t u x : State} {i j k d : SlotIx} {r r' q : Record} {v w : View}
variable {run run' : BaseIx → Bool} {al al' : Bool}

/-! ## The state rule on a record -/

/-- The record of a contract that enters VIOLATED (R36). -/
def Record.violating (r : Record) : Record := { r with state := .violated, strikes := 0, recoveryRun := 0, recovered := false }

/-- An out-of-window observation in ARMING or CONFORMING (R33, R34). -/
def Record.firstStruck (r : Record) : Record :=
  if 2 ≤ r.limits.tolerance.toNat then { r with state := .suspect, strikes := 1 } else r.violating

/-- The state rule of VIOLATED (R37 to R39). -/
def Record.ruledViolated (d : Verdict) (band : Bool) (r : Record) : Record :=
  if d ≠ .inWindow then { r with recoveryRun := 0, recovered := false }
  else if !band then { r with recoveryRun := 0 }
  else if r.recovered then r
  else if r.recoveryRun + 1 < r.limits.recoveryCount.toNat then { r with recoveryRun := r.recoveryRun + 1 }
  else if r.fixed.latching then { r with recovered := true, recoveryRun := 0 }
  else { r with state := .conforming, strikes := 0, recoveryRun := 0 }

/-- The state rule (R33 to R39), but for the entry into DONE. -/
def Record.ruled (d : Verdict) (band : Bool) (r : Record) : Record :=
  match r.state with
  | .arming => if d = .inWindow then { r with state := .conforming, strikes := 0 } else r.firstStruck
  | .conforming => if d = .inWindow then r else r.firstStruck
  | .suspect =>
    if d = .inWindow then { r with state := .conforming, strikes := 0 }
    else if r.limits.tolerance.toNat ≤ r.strikes + 1 then r.violating
    else { r with strikes := r.strikes + 1 }
  | .violated => r.ruledViolated d band
  | _ => r

theorem Record.ruledViolated_keeps (d : Verdict) (band : Bool) (r : Record) :
    (r.ruledViolated d band).fixed = r.fixed ∧ (r.ruledViolated d band).suspended = r.suspended ∧
      (r.ruledViolated d band).context = r.context := by
  unfold Record.ruledViolated
  repeat' split
  all_goals exact ⟨rfl, rfl, rfl⟩

theorem Record.firstStruck_keeps (r : Record) :
    r.firstStruck.fixed = r.fixed ∧ r.firstStruck.suspended = r.suspended ∧ r.firstStruck.context = r.context := by
  unfold Record.firstStruck
  split <;> exact ⟨rfl, rfl, rfl⟩

/-- The state rule leaves the fixed fields, the suspended flag and the context. -/
theorem Record.ruled_keeps (d : Verdict) (band : Bool) (r : Record) :
    (r.ruled d band).fixed = r.fixed ∧ (r.ruled d band).suspended = r.suspended ∧ (r.ruled d band).context = r.context := by
  unfold Record.ruled
  cases r.state with
  | arming => dsimp only; split <;> [exact ⟨rfl, rfl, rfl⟩; exact r.firstStruck_keeps]
  | conforming => dsimp only; split <;> [exact ⟨rfl, rfl, rfl⟩; exact r.firstStruck_keeps]
  | suspect => dsimp only; split <;> [exact ⟨rfl, rfl, rfl⟩; split <;> exact ⟨rfl, rfl, rfl⟩]
  | violated => exact r.ruledViolated_keeps d band
  | _ => exact ⟨rfl, rfl, rfl⟩

theorem Record.ruled_fixed (d : Verdict) (band : Bool) (r : Record) : (r.ruled d band).fixed = r.fixed := (r.ruled_keeps d band).1
theorem Record.ruled_suspended (d : Verdict) (band : Bool) (r : Record) : (r.ruled d band).suspended = r.suspended :=
  (r.ruled_keeps d band).2.1
theorem Record.ruled_context (d : Verdict) (band : Bool) (r : Record) : (r.ruled d band).context = r.context :=
  (r.ruled_keeps d band).2.2

theorem Record.ruledViolated_state (d : Verdict) (band : Bool) (h : r.state = .violated) :
    (r.ruledViolated d band).state = .conforming ∨ (r.ruledViolated d band).state = .violated := by
  unfold Record.ruledViolated
  repeat' split
  all_goals first | exact .inl rfl | exact .inr h

theorem Record.firstStruck_state (r : Record) : r.firstStruck.state = .suspect ∨ r.firstStruck.state = .violated := by
  unfold Record.firstStruck
  split <;> [exact .inl rfl; exact .inr rfl]

/-- A contract that was judged measures, or is VIOLATED. -/
theorem Record.ruled_state (d : Verdict) (band : Bool) (h : isMeasuring r.state = true ∨ r.state = .violated) :
    isMeasuring (r.ruled d band).state = true ∨ (r.ruled d band).state = .violated := by
  have struck : isMeasuring r.firstStruck.state = true ∨ r.firstStruck.state = .violated :=
    r.firstStruck_state.imp (fun e => by rw [e]; rfl) id
  unfold Record.ruled
  cases hst : r.state with
  | arming => dsimp only; split <;> [exact .inl rfl; exact struck]
  | conforming => dsimp only; split <;> [exact .inl (by rw [hst]; rfl); exact struck]
  | suspect =>
    dsimp only
    split
    · exact .inl rfl
    · split
      · exact .inr rfl
      · exact .inl rfl
  | violated => exact (Record.ruledViolated_state d band hst).imp (fun e => by rw [e]; rfl) id
  | _ => rw [hst] at h; obtain h | h := h <;> cases h

/-- The kinds that the state rule posts, but for the entry into DONE (R57). -/
def Record.ruledKinds (d : Verdict) (band : Bool) (r : Record) : BitVec 7 :=
  if r.state = .violated then
    if (r.ruledViolated d band).state = .conforming ∨ (r.recovered = false ∧ (r.ruledViolated d band).recovered = true) then
      askedFor r.limits.noticeMask (noticeBit .recovered)
    else 0
  else if (r.ruled d band).state = .violated then noticeBit .violated
  else if (r.ruled d band).state = .suspect ∧ r.state ≠ .suspect then askedFor r.limits.noticeMask (noticeBit .suspect)
  else 0

/-- The lines after the state rule: joined at an entry into VIOLATED, left at a recovery (R36, R38). -/
def State.ruledLines (x : State) (i : SlotIx) (d : Verdict) (band : Bool) (r : Record) : Vector TripLine 4 :=
  if r.state ≠ .violated ∧ (r.ruled d band).state = .violated then (x.joinMask i r.limits.tripMask).trips
  else if r.state = .violated ∧ (r.ruled d band).state = .conforming then (x.leaveMask i r.limits.tripMask).trips
  else x.trips

/-! ## One ruling -/

/-- What a ruling on the contract in slot i does. -/
structure Ruling (i : SlotIx) (x t : State) (v : View) (l : Vector TripLine 4) : Prop where
  view : t.view i = v
  trips : t.trips = l
  change : (t.healthyAt i ∧ Gains i x t) ∨ (¬ t.healthyAt i ∧ Losses (· = i) x t)

theorem Gains.of_steady (h : OneSlot k s t) (hs : s.healthyAt k) (ht : t.healthyAt k) : Gains k s t :=
  ⟨h.tree, h.runs, ht, fun j hj => State.healthyAt_of_view (h.others j hj), fun hn => absurd hs hn, fun j hj _ => h.others j hj⟩

/-- An edit that leaves the health of the contract as it was. -/
theorem Ruling.of_steady (h : OneSlot i x t) (own : t.healthyAt i ↔ x.healthyAt i) (view : t.view i = v) (trips : t.trips = x.trips) :
    Ruling i x t v x.trips := by
  refine ⟨view, trips, ?_⟩
  by_cases hx : x.healthyAt i
  · exact .inl ⟨own.2 hx, .of_steady h hx (own.2 hx)⟩
  · exact .inr ⟨own.not.2 hx, h.steady own⟩

theorem Ruling.stands (x : State) (i : SlotIx) : Ruling i x x (x.view i) x.trips := .of_steady (.refl i x) Iff.rfl rfl rfl

/-- An edit after which the contract is healthy, with its cascade. -/
theorem Ruling.gains (sh : x.shallow) (h : OneSlot i x u) (hr : x.recordAt i = some r) (own : u.healthyAt i) (view : u.view i = v) :
    Ruling i x (u.becameHealthy r.state i) v u.trips := by
  obtain ⟨gains, same, calm⟩ := Gains.of_own sh h.others h.tree h.runs (State.healthyAt_iff hr).symm own
  exact ⟨same.trans view, calm.trips, .inl ⟨gains.own, gains⟩⟩

/-- An edit after which the contract is unhealthy, with its cascade. -/
theorem Ruling.loses (sh : x.shallow) (h : OneSlot i x u) (hr : x.recordAt i = some r) (own : ¬ u.healthyAt i) (view : u.view i = v) :
    Ruling i x (u.becameUnhealthy r.state i) v u.trips := by
  obtain ⟨calm, same, -⟩ := State.becameUnhealthy_view (h.tree.shallow sh) r.state i
  exact ⟨same.trans view, calm.trips, .inr ⟨by rwa [State.healthyAt_of_view same], h.loses sh (State.healthyAt_iff hr).symm own⟩⟩

theorem Ruling.congr {l l' : Vector TripLine 4} (h : Ruling i x t v l) (hv : v = w) (hl : l = l') : Ruling i x t w l' := hv ▸ hl ▸ h

theorem Ruling.enterConforming (sh : x.shallow) (hr : x.recordAt i = some r) : Ruling i x (x.enterConforming i r.state)
    ((x.view i).edit (fun r => { r with state := .conforming, strikes := 0 })) x.trips := by
  refine (Ruling.gains sh (.mapRecord fun _ => by rfl) hr ?_ (State.mapRecord_view_self ..)).congr rfl (by simp)
  exact (State.healthyAt_iff (r := { r with state := .conforming, strikes := 0 }) (by simp [hr])).2 rfl

theorem Ruling.enterSuspect (sh : x.shallow) (hr : x.recordAt i = some r) (mask : BitVec 3) :
    Ruling i x (x.enterSuspect i r.state mask)
      (((x.view i).edit (fun r => { r with state := .suspect, strikes := 1 })).post (askedFor mask (noticeBit .suspect))) x.trips := by
  have one : OneSlot i x (x.mapRecord i (fun r => { r with state := .suspect, strikes := 1 })) := .mapRecord fun _ => rfl
  refine (Ruling.gains sh (one.trans (.postMasked _ _ (by simp) mask)) hr ?_ ?_).congr rfl (by simp)
  · exact (State.healthyAt_iff (r := { r with state := .suspect, strikes := 1 }) (by simp [hr])).2 rfl
  · rw [State.postMasked_view _ _ (by simp), if_pos rfl, State.mapRecord_view_self]

theorem Ruling.enterViolated (sh : x.shallow) (hr : x.recordAt i = some r) (mask : BitVec 4) :
    Ruling i x (x.enterViolated i r.state mask) (((x.view i).edit Record.violating).post (noticeBit .violated))
      (x.joinMask i mask).trips := by
  have one : OneSlot i x (((x.mapRecord i Record.violating).joinMask i mask).post i .violated) :=
    ((OneSlot.mapRecord fun _ => by rfl).trans (.joinMask _ _ _)).trans (.post _ _ _)
  refine (Ruling.loses sh one hr ?_ ?_).congr rfl ?_
  · rw [State.healthyAt_iff (r := r.violating)]
    · simp [Record.violating, isHealthy]
    · rw [State.post_recordAt, State.joinMask_recordAt, State.mapRecord_recordAt, hr]; rfl
  · rw [State.post_view, if_pos rfl, State.joinMask_view, State.mapRecord_view_self]
  · apply Vector.ext
    intro n hn
    have line := fun t : State => State.joinMask_line t i mask ⟨n, hn⟩
    rw [State.post_trips, line x, line]
    simp

theorem Ruling.recover (sh : x.shallow) (hr : x.recordAt i = some r) (hv : r.state = .violated) (a : Limits) :
    Ruling i x (x.recover i a) (((x.view i).edit (fun r => { r with state := .conforming, strikes := 0, recoveryRun := 0 })).post
      (askedFor a.noticeMask (noticeBit .recovered))) (x.leaveMask i a.tripMask).trips := by
  have one : OneSlot i x (((x.mapRecord i (fun r => { r with state := .conforming, strikes := 0, recoveryRun := 0 })).leaveMask i
      a.tripMask).postMasked i .recovered a.noticeMask) :=
    ((OneSlot.mapRecord (f := fun r => { r with state := .conforming, strikes := 0, recoveryRun := 0 }) fun _ => rfl).trans
      (.leaveMask _ _ _)).trans (.postMasked _ _ (by simp) _)
  unfold State.recover
  rw [← hv]
  refine (Ruling.gains sh one hr ?_ ?_).congr rfl ?_
  · exact (State.healthyAt_iff (r := { r with state := .conforming, strikes := 0, recoveryRun := 0 }) (by simp [hr])).2 rfl
  · rw [State.postMasked_view _ _ (by simp), if_pos rfl, State.leaveMask_view, State.mapRecord_view_self]
  · apply Vector.ext
    intro n hn
    have line := fun t : State => State.leaveMask_line t i a.tripMask ⟨n, hn⟩
    rw [State.postMasked_trips, line x, line]
    simp

/-- An edit of the one record that leaves its state. -/
theorem Ruling.mapRecord {f : Record → Record} (hr : x.recordAt i = some r) (hf : ∀ r, (f r).fixed = r.fixed)
    (hst : ∀ r, (f r).state = r.state) : Ruling i x (x.mapRecord i f) ((x.view i).edit f) x.trips := by
  refine .of_steady (.mapRecord hf) ?_ (State.mapRecord_view_self ..) (by simp)
  rw [State.healthyAt_iff hr, State.healthyAt_iff (r := f r) (by simp [hr]), hst]

theorem Ruling.setRecovered (hr : x.recordAt i = some r) (a : Limits) : Ruling i x (x.setRecovered i a)
    (((x.view i).edit (fun r => { r with recovered := true, recoveryRun := 0 })).post
      (askedFor a.noticeMask (noticeBit .recovered))) x.trips := by
  have one : OneSlot i x (x.setRecovered i a) := OneSlot.trans (.mapRecord fun _ => by rfl) (.postMasked _ _ (by simp) _)
  have view : (x.setRecovered i a).view i = ((x.view i).edit (fun r => { r with recovered := true, recoveryRun := 0 })).post
      (askedFor a.noticeMask (noticeBit .recovered)) := by
    rw [State.setRecovered, State.postMasked_view _ _ (by simp), if_pos rfl, State.mapRecord_view_self]
  refine .of_steady one ?_ view (by simp [State.setRecovered])
  rw [State.healthyAt_iff hr, State.healthyAt_iff (r := { r with recovered := true, recoveryRun := 0 })]
  rw [← State.view_record, view]; simp [hr]

/-- The entry into DONE (R42). -/
theorem Ruling.enterDone (hr : x.recordAt i = some r) (ha : r.state = .arming) : Ruling i x (x.enterDone i)
    ((((x.view i).abandon i).edit (fun r => { r with state := .done })).post (noticeBit .done)) x.trips := by
  have one : OneSlot i x (x.enterDone i) :=
    ((OneSlot.abandon x i).trans (.mapRecord fun _ => by rfl)).trans (.post _ _ _)
  have view : (x.enterDone i).view i =
      (((x.view i).abandon i).edit (fun r => { r with state := .done })).post (noticeBit .done) := by
    rw [State.enterDone, State.post_view, if_pos rfl, State.mapRecord_view_self, State.abandon_view, if_pos rfl]
  refine .of_steady one ?_ view (by simp [State.enterDone])
  rw [State.healthyAt_iff hr, State.healthyAt_iff (r := { r.idle with state := .done })]
  · simp [ha, isHealthy]
  · rw [← State.view_record, view]; simp [hr]

/-! ## The state rule on a state -/

theorem View.edit_const {f : Record → Record} (hr : v.record = some r) : v.edit f = v.edit (fun _ => f r) :=
  View.edit_congr fun q hq => by rw [Option.some.inj (hr.symm.trans hq)]

/-- The view of a slot with another record. -/
def View.put (r : Record) (v : View) : View := v.edit fun _ => r

theorem View.put_self (hr : v.record = some r) : v.put r = v :=
  View.edit_of_eq fun _ hq => Option.some.inj (hr.symm.trans hq)

theorem View.edit_eq_put {f : Record → Record} (hr : v.record = some r) : v.edit f = v.put (f r) := View.edit_const hr

@[simp] theorem View.put_record (r : Record) (v : View) : (v.put r).record = v.record.map (fun _ => r) := View.edit_record _ _
@[simp] theorem View.put_obs (r : Record) (v : View) : (v.put r).obs = v.obs := rfl
@[simp] theorem View.put_kinds (r : Record) (v : View) : (v.put r).kinds = v.kinds := rfl
@[simp] theorem View.put_generation (r : Record) (v : View) : (v.put r).slot.generation = v.slot.generation := by simp [View.put]

/-- A ruling, in terms of the record after it. -/
def State.ruledBy (x : State) (i : SlotIx) (d : Verdict) (band : Bool) (r : Record) (t : State) : Prop :=
  Ruling i x t (((x.view i).put (r.ruled d band)).post (r.ruledKinds d band)) (x.ruledLines i d band r)

theorem State.ruledBy_of {d : Verdict} {band : Bool} {l : Vector TripLine 4} {n : BitVec 7} (h : Ruling i x t v l)
    (hv : v = ((x.view i).put q).post n) (hq : r.ruled d band = q) (hn : r.ruledKinds d band = n)
    (hl : x.ruledLines i d band r = l) : x.ruledBy i d band r t := by
  unfold State.ruledBy
  rw [hq, hn, hl, ← hv]
  exact h

/-- An out-of-window observation in ARMING or CONFORMING. -/
theorem firstStrike_ruled (sh : x.shallow) (hr : x.recordAt i = some r) {d : Verdict} {band : Bool}
    (hst : r.state = .arming ∨ r.state = .conforming) (hd : d ≠ .inWindow) : x.ruledBy i d band r (x.firstStrike i r) := by
  have rule : r.ruled d band = r.firstStruck := by
    unfold Record.ruled
    obtain e | e := hst <;> simp [e, hd]
  have hv : r.state ≠ .violated := by obtain e | e := hst <;> simp [e]
  have hs : r.state ≠ .suspect := by obtain e | e := hst <;> simp [e]
  unfold State.firstStrike
  split
  · rename_i ht
    have rule' : r.ruled d band = { r with state := .suspect, strikes := 1 } := by rw [rule]; exact if_pos ht
    refine State.ruledBy_of (Ruling.enterSuspect sh hr _) (by rw [View.edit_eq_put (v := x.view i) hr]) rule' ?_ ?_
    · simp [Record.ruledKinds, rule', hv, hs]
    · simp [State.ruledLines, rule', hv]
  · rename_i ht
    have rule' : r.ruled d band = r.violating := by rw [rule]; exact if_neg ht
    refine State.ruledBy_of (Ruling.enterViolated sh hr _) (by rw [View.edit_eq_put (v := x.view i) hr]) rule' ?_ ?_
    · simp [Record.ruledKinds, rule', hv, Record.violating]
    · simp [State.ruledLines, rule', hv, Record.violating]

/-- The state rule of VIOLATED. -/
theorem judgeViolated_ruled (sh : x.shallow) (hr : x.recordAt i = some r) (hv : r.state = .violated) (d : Verdict) (band : Bool) :
    x.ruledBy i d band r (x.judgeViolated i r d band) := by
  have rule : r.ruled d band = r.ruledViolated d band := by simp [Record.ruled, hv]
  have kinds : r.ruledKinds d band =
      if (r.ruledViolated d band).state = .conforming ∨ (r.recovered = false ∧ (r.ruledViolated d band).recovered = true) then
        askedFor r.limits.noticeMask (noticeBit .recovered) else 0 := by simp [Record.ruledKinds, hv]
  have lines : x.ruledLines i d band r =
      if (r.ruledViolated d band).state = .conforming then (x.leaveMask i r.limits.tripMask).trips else x.trips := by
    simp [State.ruledLines, hv, rule]
  have put : ∀ f : Record → Record, (x.view i).edit f = ((x.view i).put (f r)).post 0 := fun f => by
    rw [View.edit_eq_put (v := x.view i) hr, View.post_none]
  unfold State.judgeViolated
  split
  · rename_i hd
    have rule' : r.ruledViolated d band = { r with recoveryRun := 0, recovered := false } := if_pos hd
    exact State.ruledBy_of (Ruling.mapRecord hr (fun _ => rfl) fun _ => rfl) (put _) (rule.trans rule')
      (by simp [kinds, rule', hv]) (by simp [lines, rule', hv])
  · rename_i hd
    split
    · rename_i hb
      have rule' : r.ruledViolated d band = { r with recoveryRun := 0 } := by rw [Record.ruledViolated, if_neg hd, if_pos hb]
      exact State.ruledBy_of (Ruling.mapRecord hr (fun _ => rfl) fun _ => rfl) (put _) (rule.trans rule')
        (by simp [kinds, rule', hv]) (by simp [lines, rule', hv])
    · rename_i hb
      split
      · rename_i hrec
        have rule' : r.ruledViolated d band = r := by rw [Record.ruledViolated, if_neg hd, if_neg hb, if_pos hrec]
        exact State.ruledBy_of (Ruling.stands x i) (by rw [View.put_self (v := x.view i) hr, View.post_none]) (rule.trans rule')
          (by simp [kinds, rule', hv]) (by simp [lines, rule', hv])
      · rename_i hrec
        split
        · rename_i hlt
          have rule' : r.ruledViolated d band = { r with recoveryRun := r.recoveryRun + 1 } := by
            rw [Record.ruledViolated, if_neg hd, if_neg hb, if_neg hrec, if_pos hlt]
          exact State.ruledBy_of (Ruling.mapRecord hr (fun _ => rfl) fun _ => rfl) (put _) (rule.trans rule')
            (by simp [kinds, rule', hv]) (by simp [lines, rule', hv])
        · rename_i hlt
          split
          · rename_i hl
            have rule' : r.ruledViolated d band = { r with recovered := true, recoveryRun := 0 } := by
              rw [Record.ruledViolated, if_neg hd, if_neg hb, if_neg hrec, if_neg hlt, if_pos hl]
            exact State.ruledBy_of (Ruling.setRecovered hr _) (by rw [View.edit_eq_put (v := x.view i) hr]) (rule.trans rule')
              (by simp [kinds, rule', hv, Bool.eq_false_iff.2 hrec]) (by simp [lines, rule', hv])
          · rename_i hl
            have rule' : r.ruledViolated d band = { r with state := .conforming, strikes := 0, recoveryRun := 0 } := by
              rw [Record.ruledViolated, if_neg hd, if_neg hb, if_neg hrec, if_neg hlt, if_neg hl]
            exact State.ruledBy_of (Ruling.recover sh hr hv _) (by rw [View.edit_eq_put (v := x.view i) hr]) (rule.trans rule')
              (by simp [kinds, rule']) (by simp [lines, rule'])

/-- The state rule, but for the entry into DONE. -/
theorem applyStateRule_ruled (sh : x.shallow) (hr : x.recordAt i = some r) (hdone : ¬ (r.state = .arming ∧ r.fixed.oneshot = true))
    (d : Verdict) (band : Bool) : x.ruledBy i d band r (x.applyStateRule i r d band) := by
  have put : ∀ f : Record → Record, (x.view i).edit f = ((x.view i).put (f r)).post 0 := fun f => by
    rw [View.edit_eq_put (v := x.view i) hr, View.post_none]
  have stays : r.ruled d band = r → r.state ≠ .violated → x.ruledBy i d band r x := fun rule hv =>
    State.ruledBy_of (Ruling.stands x i) (by rw [View.put_self (v := x.view i) hr, View.post_none]) rule
      (by simp [Record.ruledKinds, rule, hv]) (by simp [State.ruledLines, rule, hv])
  unfold State.applyStateRule
  cases hst : r.state with
  | arming =>
    dsimp only
    rw [if_neg (fun h => hdone ⟨hst, h⟩)]
    split
    · rename_i hd
      have rule : r.ruled d band = { r with state := .conforming, strikes := 0 } := by simp [Record.ruled, hst, hd]
      rw [← hst]
      exact State.ruledBy_of (Ruling.enterConforming sh hr) (put _) rule (by simp [Record.ruledKinds, rule, hst])
        (by simp [State.ruledLines, rule, hst])
    · rename_i hd; exact firstStrike_ruled sh hr (.inl hst) hd
  | conforming =>
    dsimp only
    split
    · rename_i hd; exact stays (by simp [Record.ruled, hst, hd]) (by simp [hst])
    · rename_i hd; exact firstStrike_ruled sh hr (.inr hst) hd
  | suspect =>
    dsimp only
    split
    · rename_i hd
      have rule : r.ruled d band = { r with state := .conforming, strikes := 0 } := by simp [Record.ruled, hst, hd]
      rw [← hst]
      exact State.ruledBy_of (Ruling.enterConforming sh hr) (put _) rule (by simp [Record.ruledKinds, rule, hst])
        (by simp [State.ruledLines, rule, hst])
    · rename_i hd
      split
      · rename_i ht
        have rule : r.ruled d band = r.violating := by simp [Record.ruled, hst, hd, ht]
        rw [← hst]
        exact State.ruledBy_of (Ruling.enterViolated sh hr _) (by rw [View.edit_eq_put (v := x.view i) hr]) rule
          (by simp [Record.ruledKinds, rule, hst, Record.violating]) (by simp [State.ruledLines, rule, hst, Record.violating])
      · rename_i ht
        have rule : r.ruled d band = { r with strikes := r.strikes + 1 } := by simp [Record.ruled, hst, hd, ht]
        exact State.ruledBy_of (Ruling.mapRecord hr (fun _ => rfl) fun _ => rfl) (put _) rule
          (by simp [Record.ruledKinds, rule, hst]) (by simp [State.ruledLines, rule, hst])
  | violated => exact judgeViolated_ruled sh hr hst d band
  | suspended => exact stays (by simp [Record.ruled, hst]) (by simp [hst])
  | held => exact stays (by simp [Record.ruled, hst]) (by simp [hst])
  | dormant => exact stays (by simp [Record.ruled, hst]) (by simp [hst])
  | done => exact stays (by simp [Record.ruled, hst]) (by simp [hst])
  | corrupt => exact stays (by simp [Record.ruled, hst]) (by simp [hst])

theorem applyStateRule_done (hst : r.state = .arming) (ho : r.fixed.oneshot = true) (d : Verdict) (band : Bool) :
    x.applyStateRule i r d band = x.enterDone i := by
  simp [State.applyStateRule, hst, ho]

end Sys2Proof.Machine
end

