-- ==== Sys2Proof/Proofs/OneContract.lean ====
section
set_option Elab.async false
/-! PROOFS. AMEND, the entry into CORRUPT and the taking of an observation as a whole: the view of the contract's own slot, what the
others see, and what is kept of the conditions on its slot. -/

namespace Sys2Proof.Machine

variable {m C D : SlotIx → Prop} {s t u x : State} {i j k d : SlotIx} {r r' q : Record} {v w : View}
variable {run run' : BaseIx → Bool} {al al' : Bool}

/-! ## AMEND -/

/-- A record with new limits in force and no staged amendment (R128). -/
def Record.under (g : Byte) (a : Limits) (r : Record) : Record := ({ r with limits := a, staged := none } : Record).recode g

/-- A record with a staged amendment (R124). -/
def Record.staging (g : Byte) (a : Limits) (r : Record) : Record := ({ r with staged := some a } : Record).recode g

theorem State.stage_view (s : State) (i : SlotIx) (a : Limits) :
    (s.stage i a).view i = (s.view i).edit (Record.staging (s.slots[i.val]'i.isLt).generation a) := State.mapRecord_view_self ..

theorem stage_loses (hr : s.recordAt i = some r) (a : Limits) : Losses (· = i) s (s.stage i a) ∧ Kept i s (s.stage i a) := by
  have view := s.stage_view i a
  have rec' : ((s.stage i a).view i).record = some (r.staging (s.slots[i.val]'i.isLt).generation a) := by rw [view]; simp [hr]
  refine ⟨(OneSlot.mapRecord fun _ => by rfl).steady ?_, Kept.of_shape hr rec' rfl rfl rfl rfl ?_ ?_⟩
  · have own := State.healthyAt_iff (s := s.stage i a) rec'
    rw [State.healthyAt_iff hr]
    exact own
  · rw [view]; simp
  · rw [view]; simp

/-- What AMEND in immediate mode does to the view of the contract's slot (R128). -/
def View.amend (run : BaseIx → Bool) (al : Bool) (a : Limits) (i : SlotIx) (v : View) : View :=
  match v.record with
  | some r =>
    if isMeasuring r.state = true then
      ((v.edit (Record.under v.slot.generation a)).abandon i).edit (Record.rearmedAt v.slot.generation)
    else if r.state = .violated then
      (if (run r.fixed.base && al) = true then (v.edit (Record.under v.slot.generation a)).abandon i
        else v.edit (Record.under v.slot.generation a)).edit (fun r => { r with recoveryRun := 0 })
    else v.edit (Record.under v.slot.generation a)
  | none => v

theorem View.amend_of_record (hr : v.record = some r) (a : Limits) : v.amend run al a i =
    if isMeasuring r.state = true then
      ((v.edit (Record.under v.slot.generation a)).abandon i).edit (Record.rearmedAt v.slot.generation)
    else if r.state = .violated then
      (if (run r.fixed.base && al) = true then (v.edit (Record.under v.slot.generation a)).abandon i
        else v.edit (Record.under v.slot.generation a)).edit (fun r => { r with recoveryRun := 0 })
    else v.edit (Record.under v.slot.generation a) := by
  simp only [View.amend, hr]

theorem amendNow_loses (sh : s.shallow) (hr : s.recordAt i = some r) (a : Limits) :
    Losses (· = i) s (s.amendNow i r a) ∧ (s.amendNow i r a).view i = (s.view i).amend s.runs (s.allows i) a i := by
  have hv : (s.view i).record = some r := hr
  have force : OneSlot i s (s.mapRecord i (Record.under (s.slots[i.val]'i.isLt).generation a)) := .mapRecord fun _ => by rfl
  have hr1 : (s.mapRecord i (Record.under (s.slots[i.val]'i.isLt).generation a)).recordAt i = some (r.under (s.slots[i.val]'i.isLt).generation a) := by
    simp [hr]
  have health1 : (s.mapRecord i (Record.under (s.slots[i.val]'i.isLt).generation a)).healthyAt i ↔ s.healthyAt i := by
    rw [State.healthyAt_iff hr, State.healthyAt_iff hr1]; rfl
  have view1 := s.mapRecord_view_self i (Record.under (s.slots[i.val]'i.isLt).generation a)
  have form := View.amend_of_record (i := i) (run := s.runs) (al := s.allows i) hv a
  have now : s.amendNow i r a =
      if isMeasuring r.state = true then
        ((s.mapRecord i (Record.under (s.slots[i.val]'i.isLt).generation a)).abandon i).enterArming i
      else if r.state = .violated then
        ((s.mapRecord i (Record.under (s.slots[i.val]'i.isLt).generation a)).restartRecovery i r).changeMask i r.limits.tripMask a.tripMask
      else s.mapRecord i (Record.under (s.slots[i.val]'i.isLt).generation a) := rfl
  rw [now, form]
  by_cases hm : isMeasuring r.state = true
  · rw [if_pos hm, if_pos hm]
    have first := Turn.abandon (s.mapRecord i (Record.under (s.slots[i.val]'i.isLt).generation a)) i
    have second := Turn.enterArming (s := (s.mapRecord i (Record.under (s.slots[i.val]'i.isLt).generation a)).abandon i) (i := i)
      (r := (r.under (s.slots[i.val]'i.isLt).generation a).idle) (first.losses.tree.shallow (force.tree.shallow sh)) (by simp [hr]; rfl)
      (isMeasuring_isOpen hm)
    refine ⟨((force.steady health1).merge first.losses).merge second.losses, ?_⟩
    rw [second.own, first.own, view1, View.abandon_generation, View.edit_generation]
    rfl
  · rw [if_neg hm, if_neg hm]
    by_cases hviol : r.state = .violated
    · rw [if_pos hviol, if_pos hviol]
      have same : (s.mapRecord i (Record.under (s.slots[i.val]'i.isLt).generation a)).restartRecovery i r =
          (s.mapRecord i (Record.under (s.slots[i.val]'i.isLt).generation a)).restartRecovery i (r.under (s.slots[i.val]'i.isLt).generation a) := rfl
      have view2 := State.restartRecovery_view hr1 (show (r.under (s.slots[i.val]'i.isLt).generation a).state = .violated from hviol)
      have one : OneSlot i s (((s.mapRecord i (Record.under (s.slots[i.val]'i.isLt).generation a)).restartRecovery i r).changeMask i
          r.limits.tripMask a.tripMask) := by
        refine (force.trans (.of_frame (m := fun _ => False) (.restartRecovery r) fun j hj => ?_)).trans (.changeMask _ _ _ _)
        rw [same, view2, if_neg hj]
      have view : (((s.mapRecord i (Record.under (s.slots[i.val]'i.isLt).generation a)).restartRecovery i r).changeMask i
          r.limits.tripMask a.tripMask).view i =
          (if (s.runs r.fixed.base && s.allows i) = true then ((s.view i).edit (Record.under (s.view i).slot.generation a)).abandon i
            else (s.view i).edit (Record.under (s.view i).slot.generation a)).edit (fun r => { r with recoveryRun := 0 }) := by
        rw [State.changeMask_view, same, view2, if_pos rfl, view1, force.runs, force.allows_own sh]
        rfl
      refine ⟨one.steady ?_, view⟩
      rw [State.healthyAt_iff hr]
      have rec' : ∃ q, ((((s.mapRecord i (Record.under (s.slots[i.val]'i.isLt).generation a)).restartRecovery i r).changeMask i
          r.limits.tripMask a.tripMask).view i).record = some q ∧ q.state = r.state := by
        rw [view]
        split
        · exact ⟨{ (r.under (s.slots[i.val]'i.isLt).generation a).idle with recoveryRun := 0 }, by simp [hr], rfl⟩
        · exact ⟨{ r.under (s.slots[i.val]'i.isLt).generation a with recoveryRun := 0 }, by simp [hr], rfl⟩
      obtain ⟨q, hq, hst⟩ := rec'
      rw [State.healthyAt_iff hq, hst]
    · rw [if_neg hviol, if_neg hviol]
      exact ⟨force.steady health1, view1⟩

theorem amendNow_kept (sh : s.shallow) (hr : s.recordAt i = some r) (a : Limits) : Kept i s (s.amendNow i r a) := by
  have hv : (s.view i).record = some r := hr
  obtain ⟨-, view⟩ := amendNow_loses sh hr a
  rw [View.amend_of_record hv] at view
  by_cases hm : isMeasuring r.state = true
  · rw [if_pos hm] at view
    refine Kept.of_measuring hr (r' := ((r.under (s.slots[i.val]'i.isLt).generation a).idle).rearmedAt (s.slots[i.val]'i.isLt).generation)
      (by simp [State.measures, hm]) ?_ (by simp [Record.under, Record.recode]) (by simp [Record.under, Record.recode]) (.inl rfl) ?_ ?_
    · rw [view]; simp [hr]
    · rw [view, View.edit_obs]
      intro o ho
      exact (List.mem_filter.1 ho).1
    · rw [view]; simp
  · rw [if_neg hm] at view
    by_cases hviol : r.state = .violated
    · rw [if_pos hviol] at view
      by_cases hmeas : (s.runs r.fixed.base && s.allows i) = true
      · rw [if_pos hmeas] at view
        refine Kept.of_measuring hr (r' := { (r.under (s.slots[i.val]'i.isLt).generation a).idle with recoveryRun := 0 }) ?_ ?_ rfl rfl
          (.inr hviol) ?_ ?_
        · rw [State.measures_eq, ← State.allows_of_record hr]; simp [Record.measuresIn, hviol, hmeas]
        · rw [view]; simp [hr]
        · rw [view, View.edit_obs]
          intro o ho
          exact (List.mem_filter.1 ho).1
        · rw [view]; simp
      · rw [if_neg hmeas] at view
        refine Kept.of_shape hr (r' := { r.under (s.slots[i.val]'i.isLt).generation a with recoveryRun := 0 }) ?_ rfl rfl rfl rfl ?_ ?_
        · rw [view]; simp [hr]
        · rw [view]; simp
        · rw [view]; simp
    · rw [if_neg hviol] at view
      refine Kept.of_shape hr (r' := r.under (s.slots[i.val]'i.isLt).generation a) ?_ rfl rfl rfl rfl ?_ ?_
      · rw [view]; simp [hr]
      · rw [view]; simp
      · rw [view]; simp

/-! ## The entry into CORRUPT -/

theorem State.unsubscribe_view (s : State) (i j : SlotIx) : ((s.unsubscribePins i).unsubscribeBases i).view j = s.view j :=
  State.view_congr (by simp) (by simp) (by simp) j

/-- What the contract's own part of an entry into CORRUPT does to its view (R51). -/
def View.corrupt (measured : Bool) (i : SlotIx) (v : View) : View :=
  ((if measured = true then v.abandon i else v).edit (fun r => { r with state := .corrupt })).post (noticeBit .corrupt)

theorem State.markCorrupt_view (s : State) (i : SlotIx) (r : Record) (j : SlotIx) :
    (s.markCorrupt i r).view j = if j = i then (s.view i).corrupt (s.measures r) i else s.view j := by
  unfold State.markCorrupt
  rw [State.post_view, State.joinMask_view, State.mapRecord_view, State.unsubscribe_view]
  by_cases e : j = i
  · subst e
    simp only [if_true, View.corrupt]
    split <;> simp [State.abandon_view]
  · rw [if_neg e, if_neg e, if_neg e]
    split
    · rw [State.abandon_view, if_neg e]
    · rfl

theorem View.corrupt_record (hr : v.record = some r) (measured : Bool) : (v.corrupt measured i).record =
    some { (if measured = true then r.idle else r) with state := .corrupt } := by
  unfold View.corrupt
  split <;> simp [hr]

theorem State.markCorrupt_runs (s : State) (i : SlotIx) (r : Record) : (s.markCorrupt i r).runs = s.runs := by
  funext b
  simp only [State.runs, Fin.getElem_fin, State.markCorrupt_base]

theorem markCorrupt_oneSlot (hr : s.recordAt i = some r) : OneSlot i s (s.markCorrupt i r) := by
  have view := State.markCorrupt_view s i r
  have others : ∀ j, j ≠ i → (s.markCorrupt i r).view j = s.view j := fun j hj => by rw [view, if_neg hj]
  refine ⟨others, .of_one (k := i) others ?_ ?_, State.markCorrupt_runs ..⟩
  · rw [← State.view_slot, view, if_pos rfl]
    unfold View.corrupt
    split <;> simp
  · rw [← State.view_record, view, if_pos rfl, View.corrupt_record (v := s.view i) hr, hr]
    split <;> rfl

theorem enterCorrupt_loses (sh : s.shallow) (hr : s.recordAt i = some r) :
    Losses (· = i) s (s.enterCorrupt i r) ∧ (s.enterCorrupt i r).view i = (s.view i).corrupt (s.measures r) i ∧
      Kept i s (s.enterCorrupt i r) := by
  have hv : (s.view i).record = some r := hr
  have one := markCorrupt_oneSlot hr
  have view0 : (s.markCorrupt i r).view i = (s.view i).corrupt (s.measures r) i := by rw [State.markCorrupt_view, if_pos rfl]
  have own : ¬ (s.markCorrupt i r).healthyAt i := by
    rw [State.healthyAt_iff (r := { (if s.measures r = true then r.idle else r) with state := .corrupt })]
    · simp [isHealthy]
    · rw [← State.view_record, view0, View.corrupt_record hv]
  obtain ⟨-, same, -⟩ := State.becameUnhealthy_view (one.tree.shallow sh) r.state i
  have view : (s.enterCorrupt i r).view i = (s.view i).corrupt (s.measures r) i := same.trans view0
  refine ⟨one.loses sh (State.healthyAt_iff hr).symm own, view, ?_⟩
  refine Kept.of_settled (r' := { (if s.measures r = true then r.idle else r) with state := .corrupt }) ?_ rfl
    (fun _ _ => .inr rfl) fun h => ?_
  · rw [view, View.corrupt_record hv]
  · rw [view]
    by_cases hm : s.measures r = true
    · simp only [View.corrupt, hm, if_true, View.post_obs, View.edit_obs]
      exact ⟨rfl, View.withdraw_obs h.2.1⟩
    · have quiet := h.1 r hr (by rw [State.allows_of_record hr, ← State.measures_eq]; exact Bool.eq_false_iff.2 hm)
      simp only [View.corrupt, if_neg hm, View.post_obs, View.edit_obs]
      exact quiet

/-! ## The taking of an observation -/

theorem firstObservation_of_split {h : Handle} {o : Observation} {older newer : List Observation} (ho : o.handle = h)
    (hx : ∀ x ∈ older, x.handle ≠ h) : firstObservation h (older ++ o :: newer) = some (o, older ++ newer) := by
  induction older with
  | nil => simp [firstObservation, ho]
  | cons a l ih =>
    obtain ⟨ha, hl⟩ := List.forall_mem_cons.1 hx
    simp [firstObservation, ha, ih hl]

theorem firstObservation_of_none {h : Handle} {l : List Observation} (hx : ∀ x ∈ l, x.handle ≠ h) : firstObservation h l = none := by
  induction l with
  | nil => rfl
  | cons a l ih =>
    obtain ⟨ha, hl⟩ := List.forall_mem_cons.1 hx
    simp [firstObservation, ha, ih hl]

/-- The observation taken is one that is pending. -/
theorem firstObservation_split {h : Handle} {l rest : List Observation} {o : Observation}
    (e : firstObservation h l = some (o, rest)) : o.handle = h ∧ ∃ older newer, l = older ++ o :: newer ∧ rest = older ++ newer := by
  induction l generalizing rest with
  | nil => cases e
  | cons a t ih =>
    simp only [firstObservation] at e
    split at e
    · rename_i ha; cases e; exact ⟨ha, [], t, rfl, rfl⟩
    · split at e
      · cases e
      · rename_i o' t' h'
        cases e
        obtain ⟨ho, older, newer, h1, h2⟩ := ih h'
        exact ⟨ho, a :: older, newer, by simp [h1], by simp [h2]⟩

/-- The state with an observation taken out of the queue. -/
def State.without (s : State) (rest : List Observation) : State := { s with observations := rest }

@[simp] theorem State.without_recordAt (s : State) (rest : List Observation) (j : SlotIx) :
    (s.without rest).recordAt j = s.recordAt j := rfl
@[simp] theorem State.without_trips (s : State) (rest : List Observation) : (s.without rest).trips = s.trips := rfl

theorem State.without_oneSlot {o : Observation} {older newer : List Observation} (hs : s.observations = older ++ o :: newer)
    (ho : o.handle.slot = i) : OneSlot i s (s.without (older ++ newer)) := by
  refine .of_view rfl rfl fun j hj => ?_
  have ne : o.handle.slot ≠ j := fun e => hj (e.symm.trans ho)
  simp [State.view, State.observationsOf, State.without, hs, ne]

theorem State.without_obs {o : Observation} {older newer : List Observation} (hs : s.observations = older ++ o :: newer) (j : SlotIx) :
    ∀ o' ∈ ((s.without (older ++ newer)).view j).obs, o' ∈ (s.view j).obs := by
  intro o' ho'
  obtain ⟨hm, hj⟩ := State.mem_observationsOf.1 ho'
  refine State.mem_observationsOf.2 ⟨?_, hj⟩
  rw [hs]
  have hm' : o' ∈ older ++ newer := hm
  simp only [List.mem_append, List.mem_cons] at hm' ⊢
  tauto

/-- The record after steps 1 to 3 of R30: a staged amendment in force, and the observation classified and recorded. -/
def Record.counted (g : Byte) (o : Observation) (r : Record) : Record :=
  { r.amended g with
    last := some { verdict := classify (r.amended g).limits o.value, value := o.value, serial := o.serial }
    stats := (r.amended g).stats.count (classify (r.amended g).limits o.value) o.value }

@[simp] theorem Record.amended_state (r : Record) (g : Byte) : (r.amended g).state = r.state := by
  unfold Record.amended; split <;> rfl
@[simp] theorem Record.amended_context (r : Record) (g : Byte) : (r.amended g).context = r.context := by
  unfold Record.amended; split <;> rfl
theorem Record.amended_limits (r : Record) (g : Byte) : (r.amended g).limits = r.staged.getD r.limits := by
  unfold Record.amended; split <;> simp_all [Record.recode]
@[simp] theorem Record.counted_fixed (r : Record) (g : Byte) (o : Observation) : (r.counted g o).fixed = r.fixed :=
  Record.amended_fixed r g
@[simp] theorem Record.counted_state (r : Record) (g : Byte) (o : Observation) : (r.counted g o).state = r.state :=
  Record.amended_state r g
@[simp] theorem Record.counted_suspended (r : Record) (g : Byte) (o : Observation) : (r.counted g o).suspended = r.suspended :=
  Record.amended_suspended r g
@[simp] theorem Record.counted_context (r : Record) (g : Byte) (o : Observation) : (r.counted g o).context = r.context :=
  Record.amended_context r g
theorem Record.counted_limits (r : Record) (g : Byte) (o : Observation) : (r.counted g o).limits = r.staged.getD r.limits :=
  Record.amended_limits r g

/-- The state after steps 1 to 3 of R30. -/
def State.counted (s : State) (i : SlotIx) (r : Record) (o : Observation) : State :=
  (s.applyStaged i).recordObservation i (classify (r.amended (s.slots[i.val]'i.isLt).generation).limits o.value) o

theorem State.counted_view (hr : s.recordAt i = some r) (o : Observation) (j : SlotIx) :
    (s.counted i r o).view j = if j = i then (s.view i).put (r.counted (s.slots[i.val]'i.isLt).generation o) else s.view j := by
  unfold State.counted State.recordObservation
  rw [State.mapRecord_view, State.applyStaged_view]
  by_cases e : j = i
  · subst e
    simp only [if_true, View.edit_edit]
    exact View.edit_eq_put (v := s.view j) hr
  · rw [if_neg e, if_neg e, if_neg e]

theorem State.counted_recordAt (hr : s.recordAt i = some r) (o : Observation) :
    (s.counted i r o).recordAt i = some (r.counted (s.slots[i.val]'i.isLt).generation o) := by
  rw [← State.view_record, State.counted_view hr, if_pos rfl]; simp [hr]

@[simp] theorem State.counted_trips (s : State) (i : SlotIx) (r : Record) (o : Observation) :
    (s.counted i r o).trips = (s.applyStaged i).trips := by
  simp [State.counted, State.recordObservation]

theorem State.counted_oneSlot (s : State) (i : SlotIx) (r : Record) (o : Observation) : OneSlot i s (s.counted i r o) :=
  (OneSlot.applyStaged s i).trans (.mapRecord fun _ => by rfl)

theorem State.judge_eq (hr : s.recordAt i = some r) (o : Observation) : s.judge i o =
    (s.counted i r o).applyStateRule i (r.counted (s.slots[i.val]'i.isLt).generation o)
      (classify (r.amended (s.slots[i.val]'i.isLt).generation).limits o.value) (inBand (r.amended (s.slots[i.val]'i.isLt).generation).limits o.value) := by
  have staged : (s.applyStaged i).recordAt i = some (r.amended (s.slots[i.val]'i.isLt).generation) := by
    rw [← State.view_record, State.applyStaged_view, if_pos rfl, View.edit_record, State.view_record, hr]; rfl
  have counted := State.counted_recordAt hr o
  unfold State.counted at counted
  unfold State.judge
  simp only [staged, counted]
  rfl

theorem Gains.steady_left (h : OneSlot k s x) (own : x.healthyAt k ↔ s.healthyAt k) (sh : s.shallow) (g : Gains k x t) :
    Gains k s t where
  tree := h.tree.trans g.tree
  runs := g.runs.trans h.runs
  own := g.own
  others := fun j hj => (g.others j hj).trans (State.healthyAt_of_view (h.others j hj))
  below := fun hn j hj => by
    have ne : j ≠ k := fun e => sh.not_self k (by rw [e] at hj; exact hj)
    rw [g.below (own.not.2 hn) j (by rw [h.tree.dependsOn]; exact hj), h.others j ne, h.runs]
  rest := fun j hj hs => (g.rest j hj fun hd => own.2 (hs (by rwa [h.tree.dependsOn] at hd))).trans (h.others j hj)

/-- A ruling seen from the state before the observation was taken. -/
theorem Ruling.left (h : Ruling i x t v l) (one : OneSlot i s x) (own : x.healthyAt i ↔ s.healthyAt i) (sh : s.shallow) :
    (t.healthyAt i ∧ Gains i s t) ∨ (¬ t.healthyAt i ∧ Losses (· = i) s t) :=
  h.change.imp (fun ⟨a, g⟩ => ⟨a, g.steady_left one own sh⟩) fun ⟨a, l⟩ => ⟨a, (one.steady own).merge l⟩

/-- A counted observation of a contract that measures, taken out of the queue and judged. -/
theorem judge_ruled (sh : s.shallow) (hr : s.recordAt i = some r) {o : Observation} {older newer : List Observation}
    (hs : s.observations = older ++ o :: newer) (ho : o.handle.slot = i)
    (hdone : ¬ (r.state = .arming ∧ r.fixed.oneshot = true)) :
    let x := (s.without (older ++ newer)).counted i r o
    let q := r.counted (s.slots[i.val]'i.isLt).generation o
    x.ruledBy i (classify q.limits o.value) (inBand q.limits o.value) q ((s.without (older ++ newer)).judge i o) ∧
      OneSlot i s x ∧ (x.healthyAt i ↔ s.healthyAt i) := by
  intro x q
  have one : OneSlot i s x := (State.without_oneSlot hs ho).trans (State.counted_oneSlot _ _ _ _)
  have hq : x.recordAt i = some q := State.counted_recordAt (s := s.without (older ++ newer)) hr o
  have health : x.healthyAt i ↔ s.healthyAt i := by rw [State.healthyAt_iff hq, State.healthyAt_iff hr, Record.counted_state]
  refine ⟨?_, one, health⟩
  rw [State.judge_eq (s := s.without (older ++ newer)) hr o]
  exact applyStateRule_ruled (one.tree.shallow sh) hq (by simpa [q] using hdone) _ _

theorem judge_done (hr : s.recordAt i = some r) {o : Observation} {older newer : List Observation}
    (hs : s.observations = older ++ o :: newer) (ho : o.handle.slot = i) (hst : r.state = .arming) (hone : r.fixed.oneshot = true) :
    let x := (s.without (older ++ newer)).counted i r o
    Ruling i x ((s.without (older ++ newer)).judge i o)
      ((((x.view i).abandon i).edit (fun r => { r with state := .done })).post (noticeBit .done)) x.trips ∧
      OneSlot i s x ∧ (x.healthyAt i ↔ s.healthyAt i) := by
  intro x
  have one : OneSlot i s x := (State.without_oneSlot hs ho).trans (State.counted_oneSlot _ _ _ _)
  have hq : x.recordAt i = some (r.counted (s.slots[i.val]'i.isLt).generation o) := State.counted_recordAt (s := s.without (older ++ newer)) hr o
  have health : x.healthyAt i ↔ s.healthyAt i := by rw [State.healthyAt_iff hq, State.healthyAt_iff hr, Record.counted_state]
  refine ⟨?_, one, health⟩
  rw [State.judge_eq (s := s.without (older ++ newer)) hr o, applyStateRule_done (by simpa using hst) (by simpa using hone)]
  exact Ruling.enterDone hq (by simpa using hst)

end Sys2Proof.Machine
end

