-- ==== Sys2Proof/Proofs/Effects.lean ====
section
set_option Elab.async false
/-! PROOFS. `Effect`: every command and event by what it does to the health of the contracts. From a state with no chain of dependents
longer than the tree allows, each takes health from some contracts, gives it to one, or leaves it. -/

namespace Sys2Proof.Machine

variable {m C D : SlotIx → Prop} {s t u x : State} {i j k d : SlotIx} {r r' q : Record} {c : Instr}

/-! ## Steps that leave every state -/

/-- The same slots for the Table Controller, on the same running bases. -/
structure Alike (s t : State) : Prop where
  view : ∀ j, t.view j = s.view j
  runs : t.runs = s.runs

theorem Alike.refl (s : State) : Alike s s := ⟨fun _ => rfl, rfl⟩

/-- A step that leaves the state, the suspended flag and the fixed fields of every contract, and gives a measurement to none that does
not measure. -/
structure Quiet (s t : State) : Prop where
  tree : SameTree s t
  runs : t.runs = s.runs
  state : ∀ j, (t.recordAt j).map (fun r => (r.state, r.suspended)) = (s.recordAt j).map fun r => (r.state, r.suspended)
  still : ∀ j, (s.view j).still s.runs (s.allows j) j → (t.view j).still s.runs (s.allows j) j

theorem Quiet.trans (h : Quiet s t) (k : Quiet t u) (ha : ∀ j, t.allows j = s.allows j) : Quiet s u where
  tree := h.tree.trans k.tree
  runs := k.runs.trans h.runs
  state := fun j => (k.state j).trans (h.state j)
  still := fun j hj => by have := k.still j; rw [h.runs, ha] at this; exact this (h.still j hj)

theorem Quiet.record (h : Quiet s t) (hr : t.recordAt j = some r') :
    ∃ r, s.recordAt j = some r ∧ r'.fixed = r.fixed ∧ r'.state = r.state ∧ r'.suspended = r.suspended := by
  obtain ⟨r, hs, hf⟩ := h.tree.record hr
  have e := h.state j
  rw [hr, hs] at e
  obtain ⟨e1, e2⟩ := Prod.mk.inj (Option.some.inj e)
  exact ⟨r, hs, hf, e1, e2⟩

theorem Quiet.healthyAt (h : Quiet s t) (j : SlotIx) : t.healthyAt j ↔ s.healthyAt j := by
  have e := congrArg (Option.map Prod.fst) (h.state j)
  simp only [Option.map_map] at e
  unfold State.healthyAt
  cases ht : t.recordAt j <;> cases hs : s.recordAt j <;> simp_all

theorem Quiet.allows (h : Quiet s t) (j : SlotIx) : t.allows j = s.allows j := h.tree.allows_eq fun p _ => h.healthyAt p

/-- A step after which every slot holds the same record and pending observations. -/
theorem Quiet.of_records (generation : ∀ j : SlotIx, (t.slots[j.val]'j.isLt).generation = (s.slots[j.val]'j.isLt).generation)
    (record : ∀ j, t.recordAt j = s.recordAt j) (runs : t.runs = s.runs) (obs : t.observations = s.observations) : Quiet s t where
  tree := ⟨generation, fun j => by rw [record]⟩
  runs := runs
  state := fun j => by rw [record]
  still := fun j => by
    unfold View.still
    rw [State.view_record, State.view_record, record, State.view_obs, State.view_obs, State.observationsOf, State.observationsOf, obs,
      State.view_slot, State.view_slot, generation]
    exact id

/-- A step that changes no slot, no entry and no observation. -/
theorem Quiet.of_slots (slots : t.slots = s.slots) (runs : t.runs = s.runs) (obs : t.observations = s.observations) : Quiet s t :=
  .of_records (fun j => by rw [slots]) (State.recordAt_congr slots) runs obs

theorem Quiet.refl (s : State) : Quiet s s := .of_slots rfl rfl rfl

/-- A context that changes of a contract that measures, and observations that become pending of it. -/
theorem Quiet.context (hr : s.recordAt i = some r) (hm : s.measures r = true) (y : Context) {l : List Observation}
    (hl : ∀ o ∈ l, o.handle = s.handleOf i)
    (slots : t.slots = (s.mapRecord i (fun r => { r with context := y })).slots) (runs : t.runs = s.runs)
    (obs : t.observations = s.observations ++ l) : Quiet s t := by
  have rec' : ∀ j, t.recordAt j = (s.mapRecord i (fun r => { r with context := y })).recordAt j := State.recordAt_congr slots
  have gen : ∀ j : SlotIx, (t.slots[j.val]'j.isLt).generation = (s.slots[j.val]'j.isLt).generation := fun j => by
    rw [slots]; exact State.mapRecord_generation ..
  have own : t.recordAt i = some { r with context := y } := by rw [rec']; simp [hr]
  have other : ∀ j, j ≠ i → t.recordAt j = s.recordAt j := fun j hj => by rw [rec', State.mapRecord_recordAt_ne _ _ _ hj]
  refine ⟨⟨gen, fun j => ?_⟩, runs, fun j => ?_, fun j hj => ?_⟩
  · by_cases e : j = i
    · subst e; rw [own, hr]; rfl
    · rw [other j e]
  · by_cases e : j = i
    · subst e; rw [own, hr]; rfl
    · rw [other j e]
  · by_cases e : j = i
    · subst e
      refine View.still_of_measuring (r := { r with context := y }) own ?_ fun o ho => ?_
      · rw [State.measures_eq, ← State.allows_of_record hr] at hm; exact hm
      · obtain ⟨ho, hslot⟩ := State.mem_observationsOf.1 ho
        rw [State.view_slot, gen]
        rw [obs, List.mem_append] at ho
        obtain ho | ho := ho
        · exact hj.2.1 o (State.mem_observationsOf.2 ⟨ho, hslot⟩)
        · exact hl o ho
    · have same : t.observationsOf j = s.observationsOf j := by
        have none : l.filter (fun o => decide (o.handle.slot = j)) = [] := by
          simp only [List.filter_eq_nil_iff, decide_eq_true_eq]
          intro o ho e'
          rw [hl o ho] at e'
          exact e e'.symm
        unfold State.observationsOf
        rw [obs, List.filter_append, none, List.append_nil]
      unfold View.still at hj ⊢
      rw [State.view_record, other j e, State.view_obs, same, State.view_slot, gen]
      exact hj

theorem Quiet.handOn (ms : List SlotIx) (ev : Record → ContextEvent) : Quiet s (s.handOn ms ev) := by
  rw [State.handOn_eq]
  induction ms generalizing s with
  | nil => exact .refl s
  | cons a l ih =>
    have first : Quiet s (s.handTo a ev) := by
      obtain e | ⟨r, hr, hm, e⟩ := State.handTo_cases s a ev <;> rw [e]
      · exact .refl s
      · refine .context hr hm (l := []) ({ r.context with inbox := r.context.inbox ++ [ev r] }) (by simp)
          (congrArg State.slots (State.mapRecord_congr_at hr rfl)) (by unfold State.runs; simp) (by simp)
    exact first.trans ih first.allows

theorem Quiet.afterStep (hr : s.recordAt i = some r) (hm : s.measures r = true) (n : Word16) (y : StepResult) :
    Quiet s (s.afterStep i n y) := by
  refine .context hr hm y.1 (l := match y.2 with | none => [] | some v => [⟨s.handleOf i, v, n⟩]) (fun o ho => ?_)
    (State.afterStep_slots ..) ?_ (State.afterStep_observations ..)
  · cases hy : y.2 with
    | none => rw [hy] at ho; cases ho
    | some v =>
      rw [hy] at ho
      obtain rfl := List.mem_singleton.1 ho
      rfl
  · unfold State.runs
    rw [State.afterStep_keeps State.bases (by simp) (fun _ _ => rfl)]

theorem Quiet.takeEdge (s : State) (i : SlotIx) : Quiet s (s.takeEdge i) := by
  unfold State.takeEdge
  cases hr : s.recordAt i with
  | none => exact .refl s
  | some r =>
    dsimp only
    by_cases hm : s.measures r = true
    · rw [if_neg (by simp [hm])]
      split
      · exact .refl s
      · exact .afterStep hr hm _ _
    · rw [if_pos (by simp [hm])]; exact .refl s

theorem Quiet.takeBoundary (s : State) (i : SlotIx) (p : Record → Word16 → Bool) : Quiet s (s.takeBoundary i p) := by
  unfold State.takeBoundary
  cases hr : s.recordAt i with
  | none => exact .refl s
  | some r =>
    dsimp only
    by_cases hm : s.measures r = true
    · rw [if_neg (by simp [hm])]
      split
      · exact .refl s
      · split
        · exact .afterStep hr hm _ _
        · exact .refl s
    · rw [if_pos (by simp [hm])]; exact .refl s

/-- The bases that run after an edit of one. -/
theorem State.setBase_runs {b : BaseIx} {y : TimeBase} (h : y.state = .running ↔ (s.bases[b.val]'b.isLt).state = .running) :
    (s.setBase b y).runs = s.runs := by
  funext a
  by_cases e : a = b
  · subst e; simp [State.runs, h]
  · simp [State.runs, State.setBase_get_ne, e]

theorem Quiet.setBase {b : BaseIx} {y : TimeBase} (h : y.state = .running ↔ (s.bases[b.val]'b.isLt).state = .running) :
    Quiet s (s.setBase b y) := .of_slots rfl (State.setBase_runs h) rfl

theorem Quiet.ackContract (s : State) (i : SlotIx) (left : BitVec 7) : Quiet s (s.ackContract i left) := by
  have slot := State.ackContract_slot s i left
  refine .of_records (fun j => ?_) (State.ackContract_recordAt s i left) ?_
    (State.ackContract_keeps State.observations (by simp) (fun _ _ => rfl) s i left)
  · rw [slot]; split <;> rfl
  · unfold State.runs
    rw [State.ackContract_keeps State.bases (by simp) (fun _ _ => rfl)]

theorem Quiet.emptyStatistics (s : State) (i : SlotIx) : Quiet s (s.mapRecord i (fun r => { r with stats := Statistics.empty })) := by
  have view := State.mapRecord_view s i (fun r => { r with stats := Statistics.empty })
  refine ⟨(OneSlot.mapRecord fun _ => by rfl).tree, by unfold State.runs; simp, fun j => ?_, fun j hj => ?_⟩
  · rw [← State.view_record, view]
    split
    · rw [View.edit_record, State.view_record]; cases s.recordAt j <;> rfl
    · rfl
  · rw [view]
    split
    · obtain ⟨hrec, hown, hnone⟩ := hj
      refine ⟨fun q hq hm => ?_, by simpa using hown, fun hn => hnone (by simpa using hn)⟩
      rw [View.edit_record] at hq
      obtain ⟨r, hr, rfl⟩ := Option.map_eq_some_iff.1 hq
      exact hrec r hr hm
    · exact hj

/-! ## The effects -/

/-- What a command or event does to the health of the contracts. -/
inductive Effect (c : Instr) (s : State) : State → Prop
  | quiet {t : State} (h : Quiet s t) : Effect c s t
  | loses {i : SlotIx} {t : State} (h : Losses (· = i) s t) (k : Kept i s t) : Effect c s t
  | gains {i : SlotIx} {t : State} (h : Gains i s t) (k : Kept i s t) : Effect c s t
  | stopped {x : State} {named : BaseIx → Bool} (view : ∀ j, x.view j = s.view j)
      (runs : ∀ b, x.runs b = true → s.runs b = true) (stops : ∀ b, s.runs b = true → x.runs b = false → named b = true)
      (members : x.subscribersOf named = s.subscribersOf named) (claims : ∀ j ∈ s.subscribersOf named, s.claims c j) :
      Effect c s (x.stopNotice named)
  | started {x : State} {named : BaseIx → Bool} (view : ∀ j, x.view j = s.view j)
      (runs : ∀ b, s.runs b = true → x.runs b = true) (starts : ∀ b, s.runs b = false → x.runs b = true → named b = true)
      (members : x.subscribersOf named = s.subscribersOf named) : Effect c s (x.runNotice named)
  | repinned {x : State} {l : List SlotIx} (alike : Alike s x) (claims : ∀ j ∈ l, s.claims c j) :
      Effect c s (l.foldl State.restartMember x)
  | created {o : CreateBytes} {i : SlotIx} (hparent : createParentError s (parentOf o.parent) = none)
      (hfree : (s.slots[i.val]'i.isLt).body = .free) : Effect c s (s.place i o)
  | retired {i : SlotIx} {r : Record} (hr : s.recordAt i = some r) (hd : r.dependents = 0) : Effect c s (s.retireContract i r)
  | cleared {t : State} (h : ∀ j, t.recordAt j = none) (ho : t.observations = []) : Effect c s t
  | storage {i : SlotIx} {x : StorageFault} {t : State} (hc : c = .storageChange i x) (h : ∀ j, t.healthyAt j ↔ s.healthyAt j) :
      Effect c s t

/-- The effect of a command or event, the port and the scrubber apart. -/
def Effected (c : Instr) (s t : State) : Prop := ∃ p y u, Effect c (s.withPort p y) u ∧ Alike u t

theorem Effect.effected (h : Effect c s t) : Effected c s t := ⟨s.port, s.scrub, t, h, .refl t⟩

theorem Effected.of_quiet (h : Quiet s t) : Effected c s t := (Effect.quiet h).effected

theorem Effected.stays (c : Instr) (s : State) : Effected c s s := (Effect.quiet (.refl s)).effected

theorem Effected.endFrame {n : Nat} {act : State → State}
    (h : s.receiving → Effected c (s.frameEnded n) (act (s.frameEnded n))) : Effected c s (s.endFrame n act) := by
  obtain ⟨-, e⟩ | ⟨hr, e⟩ := s.endFrame_cases n act <;> rw [e]
  · exact ⟨s.port, s.scrub, s, .quiet (.refl s), fun _ => rfl, rfl⟩
  · obtain ⟨p, y, u, heff, halike⟩ := h hr
    exact ⟨p, y, u, heff, halike⟩

theorem Effected.serve {k : Command} {f : Frame} {block : State → Answer} (sh : s.shallow)
    (h : ∀ s, s.shallow → Effect c s (block s).state) : Effected c s (s.serve k f block) :=
  .endFrame fun _ =>
    ⟨_, _, _, h (s.frameEnded (commandLength k + f.fill)) sh, ⟨fun _ => rfl, rfl⟩⟩

theorem Effected.whileOperating {act : State → State} (h : Effected c s (act s)) : Effected c s (s.whileOperating act) := by
  cases hr : s.inReset
  · rw [State.whileOperating_of_running hr]; exact h
  · rw [State.whileOperating_of_reset hr]; exact .stays c s

/-! ## The commands on one contract -/

theorem suspendBlock_effect (h : HandleBytes) (sh : s.shallow) : Effect c s (suspendBlock h s).state := by
  unfold suspendBlock
  obtain ⟨e, p, hb⟩ | ⟨i, r, -, -, -, hr, hb⟩ := withContract_cases s h none _ <;> rw [hb]
  · exact .quiet (.refl s)
  · dsimp only
    split
    · rename_i ho
      have hopen : isOpen r.state = true := by revert ho; cases r.state <;> decide
      obtain ⟨loses, -, kept⟩ := suspend_loses sh hr hopen
      exact .loses loses kept
    · split <;> exact .quiet (.refl s)

theorem resumeBlock_effect (h : HandleBytes) (sh : s.shallow) : Effect c s (resumeBlock h s).state := by
  unfold resumeBlock
  obtain ⟨e, p, hb⟩ | ⟨i, r, -, -, -, hr, hb⟩ := withContract_cases s h none _ <;> rw [hb]
  · exact .quiet (.refl s)
  · dsimp only
    split
    · rename_i hst
      obtain ⟨loses, -, kept⟩ := resume_loses sh hr hst
      exact .loses loses kept
    · exact .quiet (.refl s)

theorem clearBlock_effect (h : HandleBytes) (sh : s.shallow) : Effect c s (clearBlock h s).state := by
  unfold clearBlock
  obtain ⟨e, p, hb⟩ | ⟨i, r, -, -, -, hr, hb⟩ := withContract_cases s h none _ <;> rw [hb]
  · exact .quiet (.refl s)
  · dsimp only
    split
    · rename_i hv
      split
      · exact .quiet (.refl s)
      · dsimp only [ok]
        split
        · rename_i hf
          obtain ⟨loses, kept⟩ := clearFrozen_loses hr hv hf
          exact .loses loses kept
        · rename_i hf
          obtain ⟨gains, kept, -⟩ := clearToConforming_gains sh hr hv (Bool.eq_false_iff.2 hf)
          exact .gains gains kept
    · exact .quiet (.refl s)

theorem amendBlock_effect (o : AmendBytes) (sh : s.shallow) : Effect c s (amendBlock o s).state := by
  unfold amendBlock
  obtain ⟨e, p, hb⟩ | ⟨i, r, -, -, -, hr, hb⟩ := withContract_cases s o.handle (amendFieldError o) _ <;> rw [hb]
  · exact .quiet (.refl s)
  · dsimp only
    split
    · exact .quiet (.refl s)
    · split
      · exact .quiet (.refl s)
      · dsimp only
        split
        · obtain ⟨loses, kept⟩ := stage_loses hr (limitsOf o.limits)
          exact .loses loses kept
        · exact .loses (amendNow_loses sh hr _).1 (amendNow_kept sh hr _)

/-! ## Observations -/

/-- A contract that measures and goes on, or enters DONE, after a judgement. -/
theorem judge_effect (sh : s.shallow) (hr : s.recordAt i = some r) (hm : s.measures r = true) {o : Observation}
    {older newer : List Observation} (hs : s.observations = older ++ o :: newer) (ho : o.handle.slot = i) :
    Effect c s ((s.without (older ++ newer)).judge i o) := by
  have obs : ∀ o' ∈ (((s.without (older ++ newer)).counted i r o).view i).obs, o' ∈ (s.view i).obs := by
    rw [State.counted_view (s := s.without (older ++ newer)) hr, if_pos rfl, View.put_obs]
    exact State.without_obs hs i
  have gen : (((s.without (older ++ newer)).counted i r o).view i).slot.generation = (s.view i).slot.generation := by
    rw [State.counted_view (s := s.without (older ++ newer)) hr, if_pos rfl, View.put_generation]
    rfl
  have hq : (((s.without (older ++ newer)).counted i r o).view i).record = some (r.counted (s.slots[i.val]'i.isLt).generation o) :=
    State.counted_recordAt (s := s.without (older ++ newer)) hr o
  by_cases hdone : r.state = .arming ∧ r.fixed.oneshot = true
  · obtain ⟨ruling, one, own⟩ := judge_done hr hs ho hdone.1 hdone.2
    have kept : Kept i s ((s.without (older ++ newer)).judge i o) := by
      refine Kept.of_settled (r' := { (r.counted (s.slots[i.val]'i.isLt).generation o).idle with state := .done }) ?_ rfl (fun h e => ?_)
        fun h => ?_
      · rw [ruling.view]; simp [hq]
      · have hsus := h.suspension r hr (by simpa [Record.idle] using e)
        rw [hdone.1] at hsus
        obtain h' | h' := hsus <;> cases h'
      · refine ⟨rfl, ?_⟩
        rw [ruling.view, View.post_obs, View.edit_obs]
        refine View.withdraw_obs fun o' ho' => ?_
        rw [h.2.1 o' (obs o' ho'), gen]
    obtain ⟨-, g⟩ | ⟨-, l⟩ := ruling.left one own sh
    · exact .gains g kept
    · exact .loses l kept
  · obtain ⟨ruling, one, own⟩ := judge_ruled sh hr hs ho hdone
    generalize classify (r.counted (s.slots[i.val]'i.isLt).generation o).limits o.value = d at ruling
    generalize inBand (r.counted (s.slots[i.val]'i.isLt).generation o).limits o.value = band at ruling
    have hst : isMeasuring r.state = true ∨ r.state = .violated := by
      simp only [State.measures, Bool.or_eq_true, Bool.and_eq_true, decide_eq_true_eq] at hm
      exact hm.imp id And.left
    have kept : Kept i s ((s.without (older ++ newer)).judge i o) := by
      refine Kept.of_measuring hr hm (r' := (r.counted (s.slots[i.val]'i.isLt).generation o).ruled d band) ?_ ?_ ?_ ?_ ?_ ?_
      · rw [ruling.view]; simp [hq]
      · exact (Record.ruled_fixed _ _ _).trans (Record.counted_fixed _ _ _)
      · exact (Record.ruled_suspended _ _ _).trans (Record.counted_suspended _ _ _)
      · exact Record.ruled_state _ _ (by simpa using hst)
      · rw [ruling.view, View.post_obs, View.put_obs]; exact obs
      · rw [ruling.view, View.post_slot, View.put_generation]; exact gen
    obtain ⟨-, g⟩ | ⟨-, l⟩ := ruling.left one own sh
    · exact .gains g kept
    · exact .loses l kept

/-- An observation taken out of the queue and not judged. -/
theorem Quiet.without {o : Observation} {older newer : List Observation} (hs : s.observations = older ++ o :: newer) :
    Quiet s (s.without (older ++ newer)) := by
  refine ⟨⟨fun _ => rfl, fun _ => rfl⟩, rfl, fun _ => rfl, fun j ⟨hrec, hown, hnone⟩ => ?_⟩
  have sub := State.without_obs hs j
  have empty : (s.view j).obs = [] → ((s.without (older ++ newer)).view j).obs = [] := fun e =>
    List.eq_nil_iff_forall_not_mem.2 fun o' ho' => by have := sub o' ho'; rw [e] at this; cases this
  exact ⟨fun r hr hm => (hrec r hr hm).imp id empty, fun o' ho' => hown o' (sub o' ho'), fun hn => empty (hnone hn)⟩

theorem settle_quiet (s : State) (i : SlotIx) :
    Quiet s (s.mapRecord i (fun r => { r with settleRemaining := r.settleRemaining - 1 })) := by
  have view := State.mapRecord_view s i (fun r => { r with settleRemaining := r.settleRemaining - 1 })
  refine ⟨(OneSlot.mapRecord fun _ => by rfl).tree, by unfold State.runs; simp, fun j => ?_, fun j hj => ?_⟩
  · rw [← State.view_record, view]
    split
    · rw [View.edit_record, State.view_record]; cases s.recordAt j <;> rfl
    · rfl
  · rw [view]
    split
    · obtain ⟨hrec, hown, hnone⟩ := hj
      refine ⟨fun q hq hm => ?_, by simpa using hown, fun hn => hnone (by simpa using hn)⟩
      rw [View.edit_record] at hq
      obtain ⟨r, hr, rfl⟩ := Option.map_eq_some_iff.1 hq
      exact hrec r hr hm
    · exact hj

theorem observationTaken_effect (sh : s.shallow) {h : Handle} {o : Observation} {rest : List Observation}
    (e : firstObservation h s.observations = some (o, rest)) : Effect c s ((s.without rest).takeObservation o) := by
  obtain ⟨-, older, newer, hs, rfl⟩ := firstObservation_split e
  unfold State.takeObservation
  have same : (s.without (older ++ newer)).contractAt o.handle = s.contractAt o.handle := rfl
  rw [same]
  cases hr : s.contractAt o.handle with
  | none => exact .quiet (.without hs)
  | some r =>
    have hrec := (State.contractAt_eq_some.1 hr).2
    dsimp only
    split
    · exact .quiet (.without hs)
    · rename_i hm
      split
      · exact .quiet ((Quiet.without hs).trans (settle_quiet _ _) (Quiet.without hs).allows)
      · have measures : (s.without (older ++ newer)).measures r = true := by simpa using hm
        exact judge_effect sh hrec measures hs rfl

end Sys2Proof.Machine
end

