-- ==== Sys2Proof/Proofs/EveryEffect.lean ====
section
set_option Elab.async false
/-! PROOFS. The effect of every command and event, and the two conditions that every step keeps by it: a contract's state fits its
conditions (R44, R47), and a contract that does not measure is still (R31). -/

namespace Sys2Proof.Machine

variable {m C D : SlotIx → Prop} {s t u x : State} {i j k d : SlotIx} {r r' q : Record} {c : Instr}

/-! ## The time bases and the pins -/

theorem mem_subscribersOf {named : BaseIx → Bool} :
    j ∈ s.subscribersOf named ↔ ∃ b : BaseIx, named b = true ∧ j ∈ (s.bases[b.val]'b.isLt).subscribers := by
  simp only [State.subscribersOf, List.mem_filter, mem_allSlots, true_and, List.any_eq_true, Bool.and_eq_true, List.contains_eq_mem,
    decide_eq_true_eq, Fin.getElem_fin]
  exact ⟨fun ⟨b, _, h⟩ => ⟨b, h⟩, fun ⟨b, h⟩ => ⟨b, mem_allBases b, h⟩⟩

theorem subscribersOf_nodup (s : State) (named : BaseIx → Bool) : (s.subscribersOf named).Nodup := nodup_allSlots.filter _

theorem subscribersOf_congr (h : ∀ b : BaseIx, (t.bases[b.val]'b.isLt).subscribers = (s.bases[b.val]'b.isLt).subscribers) (named : BaseIx → Bool) :
    t.subscribersOf named = s.subscribersOf named := by
  simp only [State.subscribersOf, Fin.getElem_fin, h]

theorem State.setBase_subscribers {b : BaseIx} {y : TimeBase} (h : y.subscribers = (s.bases[b.val]'b.isLt).subscribers) (a : BaseIx) :
    ((s.setBase b y).bases[a.val]'a.isLt).subscribers = (s.bases[a.val]'a.isLt).subscribers := by
  by_cases e : a = b
  · subst e; simp [h]
  · simp [State.setBase_get_ne, e]

theorem State.setBase_runs_eq {b : BaseIx} {y : TimeBase} (a : BaseIx) :
    (s.setBase b y).runs a = if a = b then decide (y.state = .running) else s.runs a := by
  by_cases e : a = b
  · subst e; simp [State.runs]
  · simp [State.runs, State.setBase_get_ne, e]

theorem State.setBase_view (s : State) (b : BaseIx) (y : TimeBase) (j : SlotIx) : (s.setBase b y).view j = s.view j := rfl

theorem State.setChannel_alike (s : State) (p : PinIx) (y : PinChannel) : Alike s (s.setChannel p y) := ⟨fun _ => rfl, rfl⟩

theorem State.runs_iff {b : BaseIx} : s.runs b = true ↔ (s.bases[b.val]'b.isLt).state = .running := by simp [State.runs]

theorem setTimebaseBlock_effect (base tap : Byte) (modulus : Word16) : Effect c s (setTimebaseBlock base tap modulus s).state := by
  unfold setTimebaseBlock
  obtain ⟨-, hb⟩ | ⟨b, -, hb⟩ := withBase_cases s base _ <;> rw [hb]
  · exact .quiet (.refl s)
  · dsimp only
    split
    · exact .quiet (.refl s)
    · split
      · exact .quiet (.setBase Iff.rfl)
      · exact .quiet (.refl s)

theorem startTimebaseBlock_effect (base : Byte) : Effect c s (startTimebaseBlock base s).state := by
  unfold startTimebaseBlock
  obtain ⟨-, hb⟩ | ⟨b, -, hb⟩ := withBase_cases s base _ <;> rw [hb]
  · exact .quiet (.refl s)
  · split
    · exact .quiet (.refl s)
    · split
      · exact .quiet (.refl s)
      · refine .started (x := s.setBase b { (s.bases[b]'b.isLt) with state := .running, counter := 0, serial := 0, divider := 0 })
          (State.setBase_view s b _) (fun a ha => ?_) (fun a ha ha' => ?_)
          (subscribersOf_congr (State.setBase_subscribers (by simp)) _)
        · rw [State.setBase_runs_eq]; split <;> [rfl; exact ha]
        · rw [State.setBase_runs_eq] at ha'
          split at ha'
          · rename_i e; simpa using e
          · rw [ha] at ha'; cases ha'

theorem stopTimebaseBlock_effect (f : Frame) (base : Byte) : Effect (.stopTimebase f base) s (stopTimebaseBlock base s).state := by
  unfold stopTimebaseBlock
  obtain ⟨-, hb⟩ | ⟨b, hbase, hb⟩ := withBase_cases s base _ <;> rw [hb]
  · exact .quiet (.refl s)
  · split
    · exact .quiet (.refl s)
    · dsimp only [ok, State.stopBase]
      split
      · refine .stopped (x := s.setBase b { (s.bases[b]'b.isLt) with state := .stopped }) (State.setBase_view s b _) (fun a ha => ?_)
          (fun a ha ha' => ?_) (subscribersOf_congr (State.setBase_subscribers (by simp)) _) (fun j hj => ?_)
        · rw [State.setBase_runs_eq] at ha
          split at ha
          · simp at ha
          · exact ha
        · rw [State.setBase_runs_eq] at ha'
          split at ha'
          · rename_i e; simpa using e
          · rw [ha] at ha'; cases ha'
        · obtain ⟨a, ha, mem⟩ := mem_subscribersOf.1 hj
          obtain rfl : a = b := by simpa using ha
          exact ⟨a, hbase, mem⟩
      · rename_i hst
        exact .quiet (.setBase (by simpa using hst))

theorem clearFaultBlock_effect : Effect c s (clearFaultBlock s).state := by
  unfold clearFaultBlock
  split
  · let x : State := allBases.foldl (fun s b => s.setBase b (s.bases[b]'b.isLt).resume) (s.setSupervision .normal)
    have base : ∀ b : BaseIx, x.bases[b.val]'b.isLt = (s.bases[b.val]'b.isLt).resume := State.mapBases_base (s.setSupervision .normal) TimeBase.resume
    have keep : ∀ {β : Type} (get : State → β) (_ : ∀ s b y, get (State.setBase s b y) = get s),
        get x = get (s.setSupervision .normal) := fun get h => State.mapBases_keeps get h _ _
    refine .started (x := x) (State.view_congr (keep State.slots fun _ _ _ => rfl) (keep State.notices fun _ _ _ => rfl)
      (keep State.observations fun _ _ _ => rfl)) (fun a ha => ?_) (fun a ha ha' => ?_) (subscribersOf_congr (fun a => ?_) _)
    · rw [State.runs_iff] at ha ⊢
      rw [base]; unfold TimeBase.resume; split <;> [rfl; exact ha]
    · rw [State.runs_iff, base] at ha'
      unfold TimeBase.resume at ha'
      split at ha'
      · rename_i e; simpa using e
      · rw [← State.runs_iff, ha] at ha'; cases ha'
    · rw [base]; unfold TimeBase.resume; split <;> rfl
  · exact .quiet (.refl s)
  · exact .quiet (.refl s)

theorem handOnLoss_effect (postFirst : Bool) {y : RefChecker} :
    Effected (.referenceLoss postFirst) s (State.handOnLoss { s with ref := y } postFirst) := by
  let x1 : State := allLines.foldl (fun s l => s.setLine l (s.trips[l]'l.isLt).lose) (State.setSupervision { s with ref := y } .referenceFault)
  let x2 : State := allBases.foldl (fun s b => s.setBase b (s.bases[b]'b.isLt).stall) x1
  have keep : ∀ {β : Type} (get : State → β) (_ : ∀ s b y, get (State.setBase s b y) = get s)
      (_ : ∀ s l y, get (State.setLine s l y) = get s), get x2 = get (State.setSupervision { s with ref := y } .referenceFault) :=
    fun get h h' => (State.mapBases_keeps get h _ _).trans (State.mapLines_keeps get h' _ _)
  have base : ∀ b : BaseIx, x2.bases[b.val]'b.isLt = (s.bases[b.val]'b.isLt).stall := fun b =>
    (State.mapBases_base x1 TimeBase.stall b).trans
      (congrArg (fun v : Vector TimeBase 4 => (v[b.val]'b.isLt).stall) (State.mapLines_keeps State.bases (fun _ _ _ => rfl) _ _))
  have view : ∀ j, x2.view j = s.view j := State.view_congr (keep State.slots (fun _ _ _ => rfl) fun _ _ _ => rfl)
    (keep State.notices (fun _ _ _ => rfl) fun _ _ _ => rfl) (keep State.observations (fun _ _ _ => rfl) fun _ _ _ => rfl)
  have posted : ∀ (z : State) j, (z.postDevice .referenceLost).view j = z.view j := fun z j => by
    unfold State.view State.postDevice
    simp only [contractKinds_addDeviceKinds]
    rfl
  have stopped : ∀ z : State, (∀ j, z.view j = s.view j) → z.bases = x2.bases →
      Effect (.referenceLoss postFirst) s (z.stopNotice fun b => decide ((s.bases[b]'b.isLt).state = .running)) := by
    intro z hz hbases
    have base' : ∀ b : BaseIx, z.bases[b.val]'b.isLt = (s.bases[b.val]'b.isLt).stall := fun b => by rw [hbases, base]
    refine .stopped hz (fun a ha => ?_) (fun a ha _ => ?_) (subscribersOf_congr (fun a => ?_) _) (fun j hj => ?_)
    · rw [State.runs_iff, base'] at ha
      unfold TimeBase.stall at ha
      split at ha
      · cases ha
      · exact State.runs_iff.2 ha
    · simpa using State.runs_iff.1 ha
    · rw [base']; unfold TimeBase.stall; split <;> rfl
    · obtain ⟨a, ha, mem⟩ := mem_subscribersOf.1 hj
      exact ⟨a, by simpa using ha, mem⟩
  unfold State.handOnLoss
  dsimp only
  split
  · exact (stopped (x2.postDevice .referenceLost) (fun j => (posted x2 j).trans (view j)) rfl).effected
  · exact ⟨s.port, s.scrub, _, stopped x2 view rfl, posted _, rfl⟩

theorem setPinBlock_effect (f : Frame) (pin setting : Byte) : Effect (.setPin f pin setting) s (setPinBlock pin setting s).state := by
  unfold setPinBlock
  split
  · exact .quiet (.refl s)
  · rename_i p hp
    split
    · exact .quiet (.refl s)
    · dsimp only [ok, State.setFilter]
      have claims : ∀ j ∈ (s.pins[p]'p.isLt).subscribers, s.claims (.setPin f pin setting) j := fun j hj =>
        ⟨p, indexOf_eq_some.1 hp, hj⟩
      exact Effect.repinned (s.setChannel_alike p _) claims

theorem State.edgeArrives_runs (s : State) : s.edgeArrives.runs = s.runs := by
  funext b
  simp only [State.runs, Fin.getElem_fin, State.edgeArrives_base]
  unfold TimeBase.countEdge
  split <;> rfl

theorem detectReturn_quiet (s : State) : Quiet s s.detectReturn := by
  unfold State.detectReturn
  split
  · exact .of_slots rfl rfl rfl
  · exact .refl s

theorem refclkEdge_quiet (s : State) : Quiet s s.refclkEdge := by
  obtain ⟨-, e⟩ | ⟨-, -, e⟩ | ⟨-, -, e⟩ := s.refclkEdge_cases <;> rw [e]
  · exact .of_slots rfl rfl rfl
  · exact .refl s
  · have first : Quiet s s.edgeArrives :=
      .of_slots (State.edgeArrives_slots s) (State.edgeArrives_runs s) (State.edgeArrives_observations s)
    exact first.trans (detectReturn_quiet _) first.allows

/-! ## The contract table -/

theorem createBlock_effect (o : CreateBytes) : Effect c s (createBlock o s).state := by
  unfold createBlock
  split
  · exact .quiet (.refl s)
  · split
    · exact .quiet (.refl s)
    · rename_i hparent
      split
      · exact .quiet (.refl s)
      · split
        · exact .quiet (.refl s)
        · rename_i i hi
          exact .created hparent (by simpa using List.find?_some (p := fun i : SlotIx => decide ((s.slots[i]'i.isLt).body = .free)) hi)

theorem retireBlock_effect (h : HandleBytes) (y : Byte) : Effect c s (retireBlock h y s).state := by
  unfold retireBlock
  obtain ⟨e, p, hb⟩ | ⟨i, r, -, -, -, hr, hb⟩ := withContract_cases s h (optionsError y) _ <;> rw [hb]
  · exact .quiet (.refl s)
  · dsimp only
    split
    · exact .quiet (.refl s)
    · rename_i hd
      split
      · exact .quiet (.refl s)
      · exact .retired hr (Nat.eq_zero_of_not_pos hd)

theorem queryBlock_effect (h : HandleBytes) (y : Byte) : Effect c s (queryBlock h y s).state := by
  unfold queryBlock
  obtain ⟨e, p, hb⟩ | ⟨i, r, -, -, -, -, hb⟩ := withContract_cases s h (optionsError y) _ <;> rw [hb]
  · exact .quiet (.refl s)
  · dsimp only [ok]
    split
    · exact .quiet (.emptyStatistics s i)
    · exact .quiet (.refl s)

theorem ackNoticeBlock_effect (h : HandleBytes) (y : Byte) : Effect c s (ackNoticeBlock h y s).state := by
  unfold ackNoticeBlock
  split
  · unfold ackDeviceBlock
    split
    · exact .quiet (.refl s)
    · split
      · exact .quiet (.refl s)
      · exact .quiet (.of_slots rfl rfl rfl)
  · split
    · exact .quiet (.refl s)
    · split
      · exact .quiet (.refl s)
      · split
        · exact .quiet (.refl s)
        · split
          · exact .quiet (.refl s)
          · exact .quiet (.ackContract ..)

theorem setLine_quiet (l : LineIx) (y : TripLine) : Quiet s (s.setLine l y) := .of_slots rfl rfl rfl

theorem withLine_effect (line : Byte) {act : LineIx → Answer} (h : ∀ l, Effect c s (act l).state) :
    Effect c s (withLine s line act).state := by
  obtain ⟨-, hb⟩ | ⟨l, -, hb⟩ := withLine_cases s line act <;> rw [hb]
  · exact .quiet (.refl s)
  · exact h l

theorem resetBlocks_effect {b : Bool} {v : Supply} {y : RefChecker} :
    Effect c s { s.resetBlocks with inReset := b, supply := v, ref := y } := by
  refine .cleared (fun j => State.recordAt_of_free ?_) rfl
  simp [State.resetBlocks, Slot.atReset]

theorem takeReport_effect (h : Handle) (sh : s.shallow) : Effect c s (s.takeReport h) := by
  unfold State.takeReport
  cases hr : s.contractAt h with
  | none => exact .quiet (.refl s)
  | some r =>
    dsimp only
    split
    · exact .quiet (.refl s)
    · obtain ⟨loses, -, kept⟩ := enterCorrupt_loses sh (State.contractAt_eq_some.1 hr).2
      exact .loses loses kept

theorem storageChange_health {y : StorageFault} (hr : s.recordAt i = some r) (j : SlotIx) :
    (s.setSlot i ⟨(StorageFault.apply (s.slots[i.val]'i.isLt).generation r y).1,
      .live (StorageFault.apply (s.slots[i.val]'i.isLt).generation r y).2⟩).healthyAt j ↔ s.healthyAt j := by
  have state : (StorageFault.apply (s.slots[i.val]'i.isLt).generation r y).2.state = r.state := by cases y <;> rfl
  by_cases e : j = i
  · subst e
    rw [State.healthyAt_iff hr, State.healthyAt_iff (r := (StorageFault.apply (s.slots[j.val]'j.isLt).generation r y).2), state]
    simp [State.recordAt]
  · unfold State.healthyAt State.recordAt
    simp [State.setSlot_get_ne, e]

/-! ## Every command and event -/

/-- The effect of the command or event that a step carries out. -/
theorem exec_effect (sh : s.shallow) (h : exec c s = .next t) : Effected c s t := by
  have stays : ∀ {c : Instr} {s : State}, Effect c s s := .quiet (.refl _)
  cases c with
  | nop f => cases h; exact .serve sh fun s _ => stays
  | identify f => cases h; exact .serve sh fun s _ => stays
  | readStatus f => cases h; exact .serve sh fun s _ => stays
  | repeatReply f =>
    cases h
    refine .endFrame fun _ => ?_
    split
    · exact .stays _ _
    · exact Effected.of_quiet (.of_slots rfl rfl rfl)
  | create f o => cases h; exact .serve sh fun s _ => createBlock_effect o
  | amend f o => cases h; exact .serve sh fun s sh => amendBlock_effect o sh
  | suspend f h' => cases h; exact .serve sh fun s sh => suspendBlock_effect h' sh
  | resume f h' => cases h; exact .serve sh fun s sh => resumeBlock_effect h' sh
  | clear f h' => cases h; exact .serve sh fun s sh => clearBlock_effect h' sh
  | retire f h' x => cases h; exact .serve sh fun s _ => retireBlock_effect h' x
  | query f h' x => cases h; exact .serve sh fun s _ => queryBlock_effect h' x
  | list f => cases h; exact .serve sh fun s _ => stays
  | wipeTable f => cases h; exact .serve sh fun s _ => .cleared (State.wipe_recordAt s) rfl
  | readNotices f => cases h; exact .serve sh fun s _ => stays
  | ackNotice f h' x => cases h; exact .serve sh fun s _ => ackNoticeBlock_effect h' x
  | setTimebase f b tp md => cases h; exact .serve sh fun s _ => setTimebaseBlock_effect b tp md
  | startTimebase f b => cases h; exact .serve sh fun s _ => startTimebaseBlock_effect b
  | stopTimebase f b => cases h; exact .serve sh fun s _ => stopTimebaseBlock_effect f b
  | readTimebase f b =>
    cases h
    refine .serve sh fun s _ => ?_
    obtain ⟨-, hb⟩ | ⟨b, -, hb⟩ := withBase_cases s b _ <;> rw [hb] <;> exact stays
  | setPin f p n => cases h; exact .serve sh fun s _ => setPinBlock_effect f p n
  | readPins f => cases h; exact .serve sh fun s _ => stays
  | setTrip f l p =>
    cases h
    refine .serve sh fun s _ => withLine_effect l fun l => ?_
    split <;> [exact stays; exact .quiet (setLine_quiet l _)]
  | releaseTrip f l =>
    cases h
    refine .serve sh fun s _ => withLine_effect l fun l => ?_
    split <;> [exact stays; split <;> [exact stays; exact .quiet (setLine_quiet l _)]]
  | forceTrip f l => cases h; exact .serve sh fun s _ => withLine_effect l fun l => .quiet (setLine_quiet l _)
  | readTrips f => cases h; exact .serve sh fun s _ => stays
  | clearFault f => cases h; exact .serve sh fun s _ => clearFaultBlock_effect
  | resetDevice f => cases h; exact .endFrame fun _ => resetBlocks_effect.effected
  | frameBegin =>
    cases h
    repeat' split
    all_goals exact Effected.of_quiet (.of_slots rfl rfl rfl)
  | emptyFrame => cases h; exact .endFrame fun _ => .stays _ _
  | frameRefused bytes =>
    cases h
    split
    · exact .stays _ s
    · exact .endFrame fun _ => .of_quiet (.of_slots rfl rfl rfl)
  | firstSample levels =>
    cases h
    refine .whileOperating (.of_quiet ?_)
    have keep : ∀ {β : Type} (get : State → β) (_ : ∀ s p y, get (State.setChannel s p y) = get s),
        get (allPins.foldl (fun s p => s.setChannel p ((s.pins[p]'p.isLt).firstSample (levels.getLsbD p.val))) s) = get s :=
      fun get hg => foldl_keeps get _ (fun s p => hg s p _) _ s
    exact .of_slots (keep State.slots fun _ _ _ => rfl) (by unfold State.runs; rw [keep State.bases fun _ _ _ => rfl])
      (keep State.observations fun _ _ _ => rfl)
  | edgeProduced p =>
    cases h
    refine .whileOperating ?_
    dsimp only
    split
    · have first : Quiet s (s.setChannel p
          { (s.pins[p]'p.isLt) with raw := !(s.pins[p]'p.isLt).level, level := !(s.pins[p]'p.isLt).level, runCount := 0, due := false }) :=
        .of_slots rfl rfl rfl
      exact .of_quiet (first.trans (.handOn _ _) first.allows)
    · exact .stays _ s
  | gateBoundary b =>
    cases h
    refine .whileOperating ?_
    dsimp only
    split
    · have first : Quiet s (s.setBase b
          { (s.bases[b]'b.isLt) with counter := 0, serial := (s.bases[b]'b.isLt).serial + 1, divider := 0 }) := .setBase Iff.rfl
      exact .of_quiet (first.trans (.handOn _ _) first.allows)
    · exact .stays _ s
  | edgeTaken i => cases h; exact .whileOperating (.of_quiet (.takeEdge s i))
  | boundaryTaken i => cases h; exact .whileOperating (.of_quiet (.takeBoundary s i _))
  | silenceLimit i => cases h; exact .whileOperating (.of_quiet (.takeBoundary s i _))
  | observationTaken h' =>
    cases h
    refine .whileOperating ?_
    split
    · exact .stays _ s
    · rename_i e; exact (observationTaken_effect sh e).effected
  | referenceLoss postFirst =>
    cases h
    dsimp only
    split
    · exact Effected.of_quiet (.of_slots rfl rfl rfl)
    · split
      · exact .stays _ s
      · split
        · exact Effected.of_quiet (.of_slots rfl rfl rfl)
        · exact handOnLoss_effect postFirst
  | referenceReturn =>
    cases h
    refine .whileOperating ?_
    split
    · exact .of_quiet (refclkEdge_quiet s)
    · exact .stays _ s
  | storageChange i x =>
    cases h
    split
    · exact .stays _ s
    · rename_i r hr; exact (Effect.storage rfl (storageChange_health hr)).effected
  | scrubberVisit => cases h; exact .whileOperating (.of_quiet (.of_slots rfl rfl rfl))
  | mismatchReport h' =>
    cases h
    refine .whileOperating ?_
    split
    · have heff := takeReport_effect (c := .mismatchReport h')
        (s := { s with scrub := { s.scrub with reports := s.scrub.reports.erase h' } }) h' sh
      exact ⟨s.port, _, _, heff, .refl _⟩
    · exact .stays _ s
  | powerOnReset => cases h; exact (Effect.cleared (fun j => State.recordAt_of_free (by simp [State.enterReset, State.resetBlocks, Slot.atReset])) rfl).effected
  | resetInput => cases h; exact (Effect.cleared (fun j => State.recordAt_of_free (by simp [State.enterReset, State.resetBlocks, Slot.atReset])) rfl).effected
  | resetRelease =>
    cases h
    split
    · exact resetBlocks_effect.effected
    · exact .stays _ s
  | pinSample p level => cases h; exact .whileOperating (.of_quiet (.of_slots rfl rfl rfl))
  | baseTickEnd b =>
    cases h
    refine .whileOperating ?_
    dsimp only
    split
    · exact .of_quiet (.setBase Iff.rfl)
    · exact .stays _ s
  | goodPeriod => cases h; exact .of_quiet (refclkEdge_quiet s)
  | vddAt1V2 rising =>
    cases h
    repeat' split
    all_goals exact Effected.of_quiet (.of_slots rfl rfl rfl)

end Sys2Proof.Machine
end

