-- ==== Sys2Proof/Proofs/StateInvariants.lean ====
section
set_option Elab.async false
/-! PROOFS. Every step but a change in storage keeps every contract's state fitting its conditions (R44, R47), and every contract that
does not measure still (R31). -/

namespace Sys2Proof.Machine

variable {m C D : SlotIx → Prop} {s t u x : State} {i j k d : SlotIx} {r r' q : Record} {c : Instr} {v w : View}
variable {run run' : BaseIx → Bool} {al al' : Bool}

/-! ## A condition on every slot -/

/-- Every slot has a condition that what its parent allows and its view decide. -/
def State.all (s : State) (P : (BaseIx → Bool) → Bool → SlotIx → View → Prop) : Prop := ∀ j, P s.runs (s.allows j) j (s.view j)

theorem Alike.recordAt (h : Alike s t) (j : SlotIx) : t.recordAt j = s.recordAt j := State.recordAt_of_view (h.view j)

theorem SameTree.of_view (h : ∀ j, t.view j = s.view j) : SameTree s t :=
  ⟨fun j => congrArg (fun v : View => v.slot.generation) (h j), fun j => by rw [State.recordAt_of_view (h j)]⟩

theorem allows_of_view (h : ∀ j, t.view j = s.view j) (j : SlotIx) : t.allows j = s.allows j :=
  (SameTree.of_view h).allows_eq fun p _ => State.healthyAt_of_view (h p)

theorem Alike.all {P : (BaseIx → Bool) → Bool → SlotIx → View → Prop} (h : Alike s t) (hs : s.all P) : t.all P := fun j => by
  rw [h.runs, allows_of_view h.view, h.view]; exact hs j

/-- The same of losses from a set, where each slot of the set has the condition. -/
theorem Losses.all {P : (BaseIx → Bool) → Bool → SlotIx → View → Prop} (h : Losses (· = i) s t) (sh : s.shallow)
    (hc : ∀ j v, P s.runs true j v → P s.runs false j (v.cascade s.runs j)) (hs : s.all P)
    (own : P s.runs (s.allows i) i (t.view i)) : t.all P := fun j => by
  rw [h.runs]
  by_cases e : j = i
  · subst e; rw [h.allows_own sh]; exact own
  · exact h.keeps (P := fun j a v => P s.runs a j v) hc e (hs j)

theorem Gains.allows_own (h : Gains k s t) (sh : s.shallow) : t.allows k = s.allows k := h.tree.allows_own sh h.others

theorem Gains.all {P : (BaseIx → Bool) → Bool → SlotIx → View → Prop} (h : Gains i s t) (sh : s.shallow)
    (hc : ∀ j v, P s.runs false j v → P s.runs true j (v.takeUp s.runs true j)) (hs : s.all P)
    (own : P s.runs (s.allows i) i (t.view i)) : t.all P := fun j => by
  rw [h.runs]
  by_cases e : j = i
  · subst e; rw [h.allows_own sh]; exact own
  · by_cases hd : s.dependsOn j i = true ∧ ¬ s.healthyAt i
    · obtain ⟨hd, hi⟩ := hd
      have before : s.allows j = false := by rw [← Bool.not_eq_true, State.allows_of_dependsOn hd]; exact hi
      have after : t.allows j = true := (State.allows_of_dependsOn (by rw [h.tree.dependsOn]; exact hd)).2 h.own
      have hj := hs j
      rw [before] at hj
      rw [after, h.below hi j hd]
      exact hc j _ hj
    · have hh : s.dependsOn j i = true → s.healthyAt i := fun e' => Classical.not_not.1 fun hn => hd ⟨e', hn⟩
      have same : t.allows j = s.allows j := h.tree.allows_eq fun p hp => by
        by_cases e' : p = i
        · subst e'; exact ⟨fun _ => hh hp, fun _ => h.own⟩
        · exact h.others p e'
      rw [same, h.rest j e hh]
      exact hs j

/-- Turns that keep a condition on the slot itself, one after another. -/
theorem Turn.foldl_all {F : (BaseIx → Bool) → Bool → SlotIx → View → View} {f : State → SlotIx → State}
    {P : (BaseIx → Bool) → Bool → SlotIx → View → Prop} (turn : ∀ s i, s.shallow → Turn F i s (f s i))
    (hP : ∀ run j v, P run true j v → P run false j (v.cascade run j)) (hF : ∀ run a j v, P run a j v → P run a j (F run a j v))
    (l : List SlotIx) (sh : s.shallow) (hs : s.all P) : (l.foldl f s).all P := by
  induction l generalizing s with
  | nil => exact hs
  | cons a l ih =>
    have ta := turn s a sh
    refine ih (ta.losses.tree.shallow sh) (ta.losses.all sh (hP _) hs ?_)
    rw [ta.own]
    exact hF _ _ _ _ (hs a)

/-! ## Records that move with their conditions -/

/-- An edit that keeps what decides whether a state fits. -/
theorem View.edit_fits {f : Record → Record} (hf : ∀ r, (f r).fixed = r.fixed ∧ (f r).state = r.state ∧ (f r).suspended = r.suspended)
    (h : v.fits run al) : (v.edit f).fits run al := by
  intro q hq
  rw [View.edit_record] at hq
  obtain ⟨r, hr, rfl⟩ := Option.map_eq_some_iff.1 hq
  obtain ⟨h1, h2, h3⟩ := hf r
  have h' := h r hr
  unfold Record.suspensionFits at h' ⊢
  rw [Record.blockedTo_congr h1 h3, h2, h3]
  exact h'

theorem View.edit_still {f : Record → Record} (hf : ∀ r, (f r).fixed = r.fixed ∧ (f r).state = r.state ∧ (f r).context = r.context)
    (h : v.still run al i) : (v.edit f).still run al i := by
  obtain ⟨hrec, hown, hnone⟩ := h
  refine ⟨fun q hq hm => ?_, by rw [View.edit_obs, View.edit_generation]; exact hown, fun hn => hnone (by simpa using hn)⟩
  rw [View.edit_record] at hq
  obtain ⟨r, hr, rfl⟩ := Option.map_eq_some_iff.1 hq
  obtain ⟨h1, h2, h3⟩ := hf r
  unfold Record.measuresIn at hm
  rw [h1, h2] at hm
  rw [h3]
  exact hrec r hr hm

/-- A condition on the state goes by the one base that the record names. -/
theorem View.fits_of_base (h : v.fits run al) (hb : ∀ r, v.record = some r → r.state ≠ .corrupt → run' r.fixed.base = run r.fixed.base) :
    v.fits run' al := by
  intro r hr
  have h' := h r hr
  by_cases e : r.state = .corrupt
  · rw [e] at h' ⊢
    exact ⟨fun e' => (by cases e'), fun e' => (by cases e'), h'.2.2⟩
  · have same : r.blockedTo run' al = r.blockedTo run al := by unfold Record.blockedTo; rw [hb r hr e]
    rw [same]; exact h'

theorem View.still_of_base (h : v.still run al i) (hb : ∀ r, v.record = some r → r.state ≠ .corrupt → run' r.fixed.base = run r.fixed.base) :
    v.still run' al i := by
  refine ⟨fun r hr hm => h.1 r hr ?_, h.2⟩
  by_cases e : r.state = .corrupt
  · simp [Record.measuresIn, e, isMeasuring]
  · unfold Record.measuresIn at hm ⊢; rw [← hb r hr e]; exact hm

/-! ## CREATE and RETIRE -/

theorem State.parentAllows_of_fixed (s : State) (h : r'.fixed = r.fixed) : s.parentAllows r' = s.parentAllows r := by
  unfold State.parentAllows; rw [h]

/-- What a parent allows, where the parent stands with its handle and its health. -/
theorem parentAllows_of_named (h : ∀ k : Handle, r.fixed.parent = some k → t.handleOf k.slot = s.handleOf k.slot ∧
    (t.healthyAt k.slot ↔ s.healthyAt k.slot)) : t.parentAllows r = s.parentAllows r := by
  rw [Bool.eq_iff_iff, State.parentAllows_iff, State.parentAllows_iff]
  refine or_congr Iff.rfl (exists_congr fun p => ?_)
  constructor
  · rintro ⟨hp, hh⟩
    obtain ⟨h1, h2⟩ := h _ hp
    exact ⟨h1 ▸ hp, h2.1 hh⟩
  · rintro ⟨hp, hh⟩
    obtain ⟨h1, h2⟩ := h _ hp
    exact ⟨hp.trans (congrArg some h1.symm), h2.2 hh⟩

/-- The view of a slot whose record may have lost or gained a dependent. -/
theorem view_of_recount {p : Prop} [Decidable p] {f : Nat → Nat} (slot : t.slots[j.val]'j.isLt =
    if p then (s.slots[j.val]'j.isLt).edit (Record.recount f) else s.slots[j.val]'j.isLt) (obs : t.observationsOf j = s.observationsOf j) :
    ∃ g : Record → Record, (∀ r, (g r).fixed = r.fixed ∧ (g r).state = r.state ∧ (g r).suspended = r.suspended ∧
      (g r).context = r.context) ∧ (t.view j).slot = ((s.view j).edit g).slot ∧ (t.view j).obs = ((s.view j).edit g).obs := by
  by_cases hp : p
  · rw [if_pos hp] at slot
    exact ⟨Record.recount f, fun _ => ⟨rfl, rfl, rfl, rfl⟩, slot, obs⟩
  · rw [if_neg hp] at slot
    refine ⟨id, fun _ => ⟨rfl, rfl, rfl, rfl⟩, ?_, obs⟩
    rw [View.edit_of_eq (f := id) fun _ _ => rfl]
    exact slot

theorem View.record_of_slot (h : v.slot = w.slot) : v.record = w.record := by unfold View.record; rw [h]

theorem View.fits_of_slot (h : v.slot = w.slot) (hw : w.fits run al) : v.fits run al := by
  intro r hr; rw [View.record_of_slot h] at hr; exact hw r hr

theorem View.still_of_slot (h : v.slot = w.slot) (ho : v.obs = w.obs) (hw : w.still run al i) : v.still run al i := by
  unfold View.still; rw [View.record_of_slot h, ho, h]; exact hw

/-- The health of a slot whose record may have lost or gained a dependent. -/
theorem healthyAt_of_recount {p : Prop} [Decidable p] {f : Nat → Nat}
    (h : t.recordAt j = (s.recordAt j).map fun r => if p then r.recount f else r) : t.healthyAt j ↔ s.healthyAt j := by
  unfold State.healthyAt
  rw [h]
  cases s.recordAt j with
  | none => simp
  | some r => simp only [Option.map_some, Option.some.injEq, exists_eq_left']; split <;> rfl

/-- The condition on every slot after CREATE. -/
theorem place_all {o : CreateBytes} (hp : createParentError s (parentOf o.parent) = none) (hi : (s.slots[i.val]'i.isLt).body = .free)
    (ht : s.treeSound) (hs : s.statesFit) :
    (s.place i o).statesFit ∧ (s.idleUnlessMeasuring → (s.place i o).idleUnlessMeasuring) := by
  have parents := createParentError_eq_none.1 hp
  have free := State.recordAt_of_free hi
  have runs : (s.place i o).runs = s.runs := by
    funext b
    simp only [State.runs, Fin.getElem_fin, State.place_base]
    split <;> rfl
  -- every parent named is a contract that was there
  have allowed : ∀ q : Record, (∀ k, q.fixed.parent = some k → ∃ p, s.contractAt k = some p) →
      (s.place i o).parentAllows q = s.parentAllows q := fun q hq => parentAllows_of_named fun k hk => by
    obtain ⟨p, hc⟩ := hq k hk
    have ne : k.slot ≠ i := fun e => by
      have := (State.contractAt_eq_some.1 hc).2
      rw [e, free] at this; cases this
    exact ⟨State.place_handleOf_ne s o ne, healthyAt_of_recount (State.place_recordAt_ne s o ne)⟩
  have other : ∀ j, j ≠ i → (s.place i o).allows j = s.allows j := fun j hj => by
    cases hr : s.recordAt j with
    | none =>
      have none' : (s.place i o).recordAt j = none := by rw [State.place_recordAt_ne s o hj, hr]; rfl
      simp [State.allows, hr, none']
    | some r =>
      have hr' := State.place_recordAt_ne s o hj
      rw [hr, Option.map_some] at hr'
      rw [State.allows_of_record hr', State.allows_of_record hr, ← allowed r fun k hk => (ht.1 j r k hr hk).imp fun _ h => h.1]
      exact State.parentAllows_of_fixed _ (by split <;> rfl)
  have own : (s.place i o).allows i = s.parentAllows (s.created i o) := by
    rw [State.allows_of_record (State.place_recordAt_self hp hi)]
    exact allowed _ fun k hk => (parents k hk).imp fun _ h => h.1
  have obs : ∀ j, (s.place i o).observationsOf j = s.observationsOf j := fun j => by simp [State.observationsOf]
  have newState : (s.created i o).state = (s.created i o).blockedTo s.runs (s.parentAllows (s.created i o)) := rfl
  refine ⟨(State.statesFit_iff _).2 fun j => ?_, fun hidle => (State.idleUnlessMeasuring_iff _).2 fun j => ?_⟩
  · by_cases e : j = i
    · subst e
      refine View.fits_of_record (State.place_recordAt_self hp hi) ?_
      rw [own, runs]; exact newState
    · obtain ⟨g, hg, slot, -⟩ := view_of_recount (State.place_slot_ne s o e) (obs j)
      rw [runs, other j e]
      exact View.fits_of_slot slot (View.edit_fits (fun r => ⟨(hg r).1, (hg r).2.1, (hg r).2.2.1⟩) ((State.statesFit_iff s).1 hs j))
  · have before := (State.idleUnlessMeasuring_iff s).1 hidle
    by_cases e : j = i
    · subst e
      refine View.still_of_record (State.place_recordAt_self hp hi) rfl ?_
      have none' := (before j).2.2 free
      exact (obs j).trans none'
    · obtain ⟨g, hg, slot, obs'⟩ := view_of_recount (State.place_slot_ne s o e) (obs j)
      rw [runs, other j e]
      exact View.still_of_slot slot obs' (View.edit_still (fun r => ⟨(hg r).1, (hg r).2.1, (hg r).2.2.2⟩) (before j))

/-- The condition on every slot after RETIRE. -/
theorem retire_all (hr : s.recordAt i = some r) (hd : r.dependents = 0) (ht : s.treeSound) (hs : s.statesFit) :
    (s.retireContract i r).statesFit ∧ (s.idleUnlessMeasuring → (s.retireContract i r).idleUnlessMeasuring) := by
  have childless : ∀ d, s.dependsOn d i = false := fun d => by
    have := ht.2 i r hr
    rw [hd] at this
    exact Bool.eq_false_iff.2 (List.countP_eq_zero.1 this.symm d (mem_allSlots d))
  have runs : (s.retireContract i r).runs = s.runs := by
    funext b
    simp only [State.runs, Fin.getElem_fin, State.retireContract_base]
  have none' := State.retireContract_recordAt_self s i r
  have other : ∀ j, j ≠ i → (s.retireContract i r).allows j = s.allows j := fun j hj => by
    have hr' := State.retireContract_recordAt_ne s r hj
    cases hq : s.recordAt j with
    | none =>
      rw [hq] at hr'
      simp only [State.allows, hq]
      rw [hr']; rfl
    | some q =>
      rw [hq, Option.map_some] at hr'
      have named : (s.retireContract i r).parentAllows q = s.parentAllows q := parentAllows_of_named fun k hk => by
        obtain ⟨p, hc, -⟩ := ht.1 j q k hq hk
        obtain ⟨hh, -⟩ := State.contractAt_eq_some.1 hc
        have ne : k.slot ≠ i := fun e => by
          have := childless j
          rw [← Bool.not_eq_true, State.dependsOn_iff] at this
          exact this ⟨q, hq, by rw [hk, hh, e]⟩
        exact ⟨State.retireContract_handleOf s i r k.slot, healthyAt_of_recount (State.retireContract_recordAt_ne s r ne)⟩
      rw [State.allows_of_record hr', State.allows_of_record hq, ← named]
      exact State.parentAllows_of_fixed _ (by split <;> rfl)
  have obs : ∀ j, j ≠ i → (s.retireContract i r).observationsOf j = s.observationsOf j := fun j hj => by
    simp only [State.observationsOf, State.retireContract_observations, List.filter_filter]
    refine List.filter_congr fun o _ => ?_
    by_cases ho : o.handle.slot = j
    · have : o.handle ≠ s.handleOf i := fun h => hj (by rw [← ho, h]; rfl)
      simp [ho, this]
    · simp [ho]
  refine ⟨(State.statesFit_iff _).2 fun j => ?_, fun hidle => (State.idleUnlessMeasuring_iff _).2 fun j => ?_⟩
  · by_cases e : j = i
    · subst e
      intro q hq
      rw [State.view_record, none'] at hq; cases hq
    · obtain ⟨g, hg, slot, -⟩ := view_of_recount (State.retireContract_slot_ne s r e) (obs j e)
      rw [runs, other j e]
      exact View.fits_of_slot slot (View.edit_fits (fun r => ⟨(hg r).1, (hg r).2.1, (hg r).2.2.1⟩) ((State.statesFit_iff s).1 hs j))
  · have before := (State.idleUnlessMeasuring_iff s).1 hidle
    by_cases e : j = i
    · subst e
      refine View.still_of_none none' ?_
      have all := View.withdraw_obs (v := s.view j) (before j).2.1
      simp only [State.view_obs, State.observationsOf, State.retireContract_observations]
      rw [List.filter_filter]
      simp only [View.withdraw, State.view_obs, State.observationsOf, List.filter_filter] at all
      rw [← all]
      exact List.filter_congr fun o _ => Bool.and_comm _ _
    · obtain ⟨g, hg, slot, obs'⟩ := view_of_recount (State.retireContract_slot_ne s r e) (obs j e)
      rw [runs, other j e]
      exact View.still_of_slot slot obs' (View.edit_still (fun r => ⟨(hg r).1, (hg r).2.1, (hg r).2.2.2⟩) (before j))

/-! ## Every effect -/

/-- A base named by no subscriber's record has not moved, where the subscriber sets are exact. -/
theorem base_of_not_subscriber {named : BaseIx → Bool} (hsub : s.subscribersExact) (hj : j ∉ s.subscribersOf named)
    (hmoved : ∀ b, run' b ≠ run b → named b = true) :
    ∀ r, (s.view j).record = some r → r.state ≠ .corrupt → run' r.fixed.base = run r.fixed.base := by
  intro r hr hc
  by_contra hne
  exact hj (mem_subscribersOf.2 ⟨r.fixed.base, hmoved _ hne, (hsub.1 _ j).2 ⟨r, hr, hc, rfl⟩⟩)

theorem Quiet.statesFit (h : Quiet s t) (hs : s.statesFit) : t.statesFit := by
  rw [State.statesFit_iff] at hs ⊢
  intro j r' hr'
  obtain ⟨r, hr, hf, hst, hsus⟩ := h.record hr'
  have h' := hs j r hr
  unfold Record.suspensionFits at h' ⊢
  rw [h.runs, h.allows, Record.blockedTo_congr hf hsus, hst, hsus]
  exact h'

theorem Quiet.idle (h : Quiet s t) (hs : s.idleUnlessMeasuring) : t.idleUnlessMeasuring := by
  rw [State.idleUnlessMeasuring_iff] at hs ⊢
  intro j
  rw [h.runs, h.allows]
  exact h.still j (hs j)

/-- Every effect but a change in storage keeps the states fitting. -/
theorem Effect.statesFit (h : Effect c s t) (hc : Instr.isStorage c = false) (ht : s.treeSound) (hsub : s.subscribersExact)
    (hs : s.statesFit) : t.statesFit := by
  have sh := ht.shallow
  have local' := (State.statesFit_iff s).1 hs
  cases h with
  | quiet h => exact h.statesFit hs
  | loses h k => exact (State.statesFit_iff _).2 (h.all (P := fun run al _ v => v.fits run al) sh (fun _ _ => View.cascade_fits) local' (k.1 (local' _)))
  | gains h k => exact (State.statesFit_iff _).2 (h.all (P := fun run al _ v => v.fits run al) sh (fun _ _ => View.takeUp_fits) local' (k.1 (local' _)))
  | @stopped x named view runs stops members _ =>
    have moved : ∀ b, x.runs b ≠ s.runs b → named b = true := fun b hb => by
      cases hx : x.runs b <;> cases hy : s.runs b <;> simp_all
    rw [State.statesFit_iff]
    intro j
    have turns := Turn.foldl_keeps (s := x) (F := View.stop) (f := State.stopSubscriber) (P := fun _ a v => v.fits x.runs a)
      (Q := fun _ a v => v.fits s.runs a) (fun s i h => .stopSubscriber h i) (fun _ _ => View.cascade_fits) (fun _ _ => View.cascade_fits)
      (fun _ _ _ => View.stop_fits runs) (x.subscribersOf named) (subscribersOf_nodup _ _) ((SameTree.of_view view).shallow sh)
      (fun j _ => by rw [allows_of_view view, view]; exact local' j)
      (fun j hj => by
        rw [allows_of_view view, view]
        exact View.fits_of_base (local' j) (base_of_not_subscriber hsub (by rwa [members] at hj) moved)) j
    have same : (x.stopNotice named).runs = x.runs :=
      (Losses.foldl (fun s i h => (Turn.stopSubscriber h i).losses) _ ((SameTree.of_view view).shallow sh)).runs
    rw [same]
    exact turns
  | @started x named view runs starts members =>
    have moved : ∀ b, x.runs b ≠ s.runs b → named b = true := fun b hb => by
      cases hx : x.runs b <;> cases hy : s.runs b <;> simp_all
    rw [State.statesFit_iff]
    intro j
    have turns := Turn.foldl_keeps (s := x) (F := View.run) (f := State.runSubscriber) (P := fun _ a v => v.fits x.runs a)
      (Q := fun _ a v => v.fits s.runs a) (fun s i h => .runSubscriber h i) (fun _ _ => View.cascade_fits) (fun _ _ => View.cascade_fits)
      (fun _ _ _ => View.run_fits runs) (x.subscribersOf named) (subscribersOf_nodup _ _) ((SameTree.of_view view).shallow sh)
      (fun j _ => by rw [allows_of_view view, view]; exact local' j)
      (fun j hj => by
        rw [allows_of_view view, view]
        exact View.fits_of_base (local' j) (base_of_not_subscriber hsub (by rwa [members] at hj) moved)) j
    have same : (x.runNotice named).runs = x.runs :=
      (Losses.foldl (fun s i h => (Turn.runSubscriber h i).losses) _ ((SameTree.of_view view).shallow sh)).runs
    rw [same]
    exact turns
  | @repinned x l alike _ =>
    exact (State.statesFit_iff _).2 (Turn.foldl_all (P := fun run al _ v => v.fits run al) (fun s i h => .restartMember h i)
      (fun _ _ _ => View.cascade_fits) (fun _ _ _ _ => View.restart_fits) l ((SameTree.of_view alike.view).shallow sh)
      (alike.all local'))
  | created hp hi => exact (place_all hp hi ht hs).1
  | retired hr hd => exact (retire_all hr hd ht hs).1
  | cleared h _ => intro j r hr; rw [h j] at hr; cases hr
  | storage e _ => rw [e] at hc; cases hc

/-- Every effect but a change in storage keeps the contracts that do not measure still. -/
theorem Effect.idle (h : Effect c s t) (hc : Instr.isStorage c = false) (ht : s.treeSound) (hsub : s.subscribersExact)
    (hs : s.statesFit) (hidle : s.idleUnlessMeasuring) : t.idleUnlessMeasuring := by
  have sh := ht.shallow
  have fit := (State.statesFit_iff s).1 hs
  have local' := (State.idleUnlessMeasuring_iff s).1 hidle
  cases h with
  | quiet h => exact h.idle hidle
  | loses h k =>
    exact (State.idleUnlessMeasuring_iff _).2 (h.all (P := fun run al j v => v.still run al j) sh
      (fun _ _ => View.cascade_still fun _ => id) local' (k.2 (fit _) (local' _)))
  | gains h k =>
    exact (State.idleUnlessMeasuring_iff _).2 (h.all (P := fun run al j v => v.still run al j) sh (fun _ _ => View.takeUp_still) local'
      (k.2 (fit _) (local' _)))
  | @stopped x named view runs stops members _ =>
    have moved : ∀ b, x.runs b ≠ s.runs b → named b = true := fun b hb => by
      cases hx : x.runs b <;> cases hy : s.runs b <;> simp_all
    rw [State.idleUnlessMeasuring_iff]
    intro j
    have turns := Turn.foldl_keeps (s := x) (F := View.stop) (f := State.stopSubscriber) (P := fun j a v => v.still x.runs a j)
      (Q := fun j _ v => v.stoppable j) (fun s i h => .stopSubscriber h i) (fun _ _ => View.cascade_still fun _ => id)
      (fun _ _ => View.cascade_stoppable)
      (fun _ _ _ => View.stop_still) (x.subscribersOf named) (subscribersOf_nodup _ _) ((SameTree.of_view view).shallow sh)
      (fun j _ => by rw [view]; exact (local' j).stoppable)
      (fun j hj => by
        rw [allows_of_view view, view]
        exact View.still_of_base (local' j) (base_of_not_subscriber hsub (by rwa [members] at hj) moved)) j
    have same : (x.stopNotice named).runs = x.runs :=
      (Losses.foldl (fun s i h => (Turn.stopSubscriber h i).losses) _ ((SameTree.of_view view).shallow sh)).runs
    rw [same]
    exact turns
  | @started x named view runs starts members =>
    have moved : ∀ b, x.runs b ≠ s.runs b → named b = true := fun b hb => by
      cases hx : x.runs b <;> cases hy : s.runs b <;> simp_all
    rw [State.idleUnlessMeasuring_iff]
    intro j
    have turns := Turn.foldl_keeps (s := x) (F := View.run) (f := State.runSubscriber) (P := fun j a v => v.still x.runs a j)
      (Q := fun j a v => v.still s.runs a j) (fun s i h => .runSubscriber h i) (fun _ _ => View.cascade_still fun _ => id)
      (fun _ _ => View.cascade_still runs)
      (fun _ _ _ => View.run_still runs) (x.subscribersOf named) (subscribersOf_nodup _ _) ((SameTree.of_view view).shallow sh)
      (fun j _ => by rw [allows_of_view view, view]; exact local' j)
      (fun j hj => by
        rw [allows_of_view view, view]
        exact View.still_of_base (local' j) (base_of_not_subscriber hsub (by rwa [members] at hj) moved)) j
    have same : (x.runNotice named).runs = x.runs :=
      (Losses.foldl (fun s i h => (Turn.runSubscriber h i).losses) _ ((SameTree.of_view view).shallow sh)).runs
    rw [same]
    exact turns
  | @repinned x l alike _ =>
    exact (State.idleUnlessMeasuring_iff _).2 (Turn.foldl_all (P := fun run al j v => v.still run al j)
      (fun s i h => .restartMember h i) (fun _ _ _ => View.cascade_still fun _ => id) (fun _ _ _ _ => View.restart_still) l
      ((SameTree.of_view alike.view).shallow sh) (alike.all local'))
  | created hp hi => exact (place_all hp hi ht hs).2 hidle
  | retired hr hd => exact (retire_all hr hd ht hs).2 hidle
  | cleared h ho =>
    refine ⟨fun j r hr => ?_, fun o h' => ?_⟩
    · rw [h j] at hr; cases hr
    · rw [ho] at h'; cases h'
  | storage e _ => rw [e] at hc; cases hc

theorem Alike.statesFit (h : Alike s t) (hs : s.statesFit) : t.statesFit := 
  (State.statesFit_iff _).2 (h.all (P := fun run al _ v => v.fits run al) ((State.statesFit_iff s).1 hs))

theorem Alike.idle (h : Alike s t) (hs : s.idleUnlessMeasuring) : t.idleUnlessMeasuring :=
  (State.idleUnlessMeasuring_iff _).2
    (h.all (P := fun run al j v => v.still run al j) ((State.idleUnlessMeasuring_iff s).1 hs))

theorem step_effected (ht : s.treeSound) (h : step s = .next t) : t = s ∨ ∃ c rest, s.pending = c :: rest ∧
    Effected c { s with pending := rest } t := by
  unfold step at h
  split at h
  · cases h; exact .inl rfl
  · rename_i c rest hp
    have sound : ({ s with pending := rest } : State).treeSound := ht
    exact .inr ⟨c, rest, hp, exec_effect sound.shallow h⟩

end Sys2Proof.Machine

section
open Sys2Proof Sys2Proof.Machine

/-- Settles O14: the state of a contract changes by its own command, by its base, or by its parent's health, and each of the three
leaves it where the blocking recomputation would. -/
theorem statesStayFit : Obligations.StatesStayFit := by
  intro s t hs hsub ht hst h
  obtain rfl | ⟨c, rest, hp, p, y, u, heff, halike⟩ := step_effected ht h
  · exact hs
  · exact halike.statesFit (heff.statesFit (State.storageHolds_front hst hp) ht hsub hs)

/-- Settles O15: whatever ends a contract's measuring abandons its measurement. -/
theorem measurementEndsWithMeasuring : Obligations.MeasurementEndsWithMeasuring := by
  intro s t hidle hs hsub ht hst h
  obtain rfl | ⟨c, rest, hp, p, y, u, heff, halike⟩ := step_effected ht h
  · exact hidle
  · exact halike.idle (heff.idle (State.storageHolds_front hst hp) ht hsub hs hidle)

end
end

