-- ==== Sys2Proof/Proofs/Health.lean ====
section
set_option Elab.async false
/-! PROOFS. What a change of a contract's health does to the contracts below it, whatever command or event makes it so; and how a
contract leaves VIOLATED. -/

namespace Sys2Proof.Machine

variable {m C D : SlotIx → Prop} {s t u x : State} {i j k d g : SlotIx} {r r' q : Record} {c : Instr} {v w : View}
variable {run run' : BaseIx → Bool} {al al' : Bool}

/-! ## The words of the statements as views -/

theorem State.nonePending_iff : t.nonePending j ↔ ∀ o ∈ (t.view j).obs, o.handle ≠ ⟨j, (t.view j).slot.generation⟩ := by
  constructor
  · intro h o ho
    exact h o (State.mem_observationsOf.1 ho).1
  · intro h o ho e
    exact h o (State.mem_observationsOf.2 ⟨ho, by rw [e]; rfl⟩) e

theorem State.posted_iff {n : BitVec 7} : s.posted t j n ↔ (t.view j).kinds = ((s.view j).post n).kinds := by
  unfold State.posted View.post
  split <;> rfl

theorem View.withdraw_none (i : SlotIx) (v : View) : ∀ o ∈ (v.withdraw i).obs, o.handle ≠ ⟨i, v.slot.generation⟩ := by
  intro o ho
  simpa [View.withdraw] using (List.mem_filter.1 ho).2

theorem View.abandon_none (i : SlotIx) (v : View) :
    ∀ o ∈ (v.abandon i).obs, o.handle ≠ ⟨i, (v.abandon i).slot.generation⟩ := by
  rw [View.abandon_generation]; exact View.withdraw_none i v

theorem View.setAside_none (hr : v.record = some r) (hm : isMeasuring r.state = true) (i : SlotIx) (target : ContractState) :
    ∀ o ∈ (v.setAside i target).obs, o.handle ≠ ⟨i, (v.setAside i target).slot.generation⟩ := by
  rw [View.setAside_generation, View.setAside_obs, hr, Option.any_some, if_pos hm]
  exact View.withdraw_none i v

theorem View.setAside_kinds (hr : v.record = some r) {target : ContractState} (ht : target ≠ .suspended) :
    (v.setAside i target).kinds = (v.post (askedFor r.limits.noticeMask (noticeBit .blocked))).kinds := by
  rw [View.setAside_of_record hr, if_neg ht]
  unfold View.post
  split
  · rw [View.edit_kinds]; split <;> rfl
  · simp only [View.edit_kinds]; split <;> rfl

theorem State.nonePending_of_view (h : t.view j = v) (hv : ∀ o ∈ v.obs, o.handle ≠ ⟨j, v.slot.generation⟩) : t.nonePending j := by
  rw [State.nonePending_iff, h]; exact hv

/-- The cascade at a slot, in the words of the statements. -/
theorem cascadeSetsAside_of_view (hq : s.recordAt j = some q) (hv : t.view j = (s.view j).cascade t.runs j) :
    s.cascadeSetsAside t j q := by
  have hv' : (s.view j).record = some q := hq
  unfold State.cascadeSetsAside
  rw [View.cascade_of_record hv'] at hv
  by_cases hm : isMeasuring q.state = true
  · rw [if_pos hm] at hv ⊢
    refine ⟨?_, ?_, State.nonePending_of_view hv (View.setAside_none hv' hm _ _)⟩
    · rw [← State.view_record, hv, View.setAside_record, hv']; rfl
    · rw [State.posted_iff, hv, View.setAside_kinds hv' (by simp)]; rfl
  · rw [if_neg hm] at hv ⊢
    by_cases hx : q.state = .violated ∧ t.baseRunning q = true
    · rw [if_pos (by exact hx)] at hv
      rw [if_pos hx]
      refine ⟨?_, ?_, State.nonePending_of_view hv (View.abandon_none _ _)⟩
      · rw [← State.view_record, hv, View.abandon_record, hv']; rfl
      · rw [State.posted_iff, hv, View.abandon_kinds, View.post_none]
    · rw [if_neg (by exact hx)] at hv
      rw [if_neg hx]
      exact State.stands_iff.2 hv

/-- An entry into ARMING at a slot, in the words of the statements. -/
theorem armed_of_view (hq : s.recordAt j = some q) (hv : (t.view j).slot = ((s.view j).edit (Record.rearmedAt (s.view j).slot.generation)).slot) :
    s.armed t j q := by
  have rec' : t.recordAt j = some (q.rearmedAt (s.slots[j.val]'j.isLt).generation) := by
    rw [← State.view_record, View.record_of_slot hv]; simp [hq]
  have gen : (t.slots[j.val]'j.isLt).generation = (s.slots[j.val]'j.isLt).generation := by
    have := congrArg Slot.generation hv
    rwa [View.edit_generation] at this
  refine ⟨_, rec', Record.rearmedAt_eq _ _, fun h => ?_⟩
  simp only [State.codeAgrees, Fin.getElem_fin, decide_eq_true_eq] at h ⊢
  rw [gen]
  exact Record.rearmedAt_code _ _ h

/-! ## Losses of health -/

/-- The contract that acts of its own accord does not stand under one that lost its health. -/
theorem Losses.own_not_below (h : Losses (· = k) s t) (sh : s.shallow) (hd : s.dependsOn d i = true) (hs : s.healthyAt i)
    (ht : ¬ t.healthyAt i) : d ≠ k := by
  rintro rfl
  have al := h.allows_own sh
  rw [(State.allows_of_dependsOn hd).2 hs, State.allows_of_dependsOn (by rw [h.tree.dependsOn]; exact hd)] at al
  exact ht al

/-- Nor does it stand two below one that lost its health. -/
theorem Losses.own_not_far_below (h : Losses (· = k) s t) (sh : s.shallow) (hg : s.dependsOn g d = true) (hd : s.dependsOn d i = true)
    (hs : s.healthyAt i) (ht : ¬ t.healthyAt i) : g ≠ k := by
  rintro rfl
  by_cases e : i = g
  · subst e; exact sh i d i d hg hd hg
  · obtain ⟨-, hv⟩ | ⟨as, at', -⟩ := h.cases e
    · exact ht ((State.healthyAt_of_view hv).2 hs)
    · obtain ⟨p, hp, -⟩ := h.tree.lost as at'
      exact sh g d i p hg hd hp

/-- A dependent of a contract that lost its health, outside the set, has been reached by the cascade. -/
theorem Losses.below_lost (h : Losses C s t) (hj : ¬ C d) (hd : s.dependsOn d i = true) (hs : s.healthyAt i) (ht : ¬ t.healthyAt i) :
    t.view d = (s.view d).cascade s.runs d :=
  h.struck d hj ((State.allows_of_dependsOn hd).2 hs)
    (by rw [← Bool.not_eq_true, State.allows_of_dependsOn (by rw [h.tree.dependsOn]; exact hd)]; exact ht)

/-- A dependent of a contract that was unhealthy, outside the set, stands. -/
theorem Losses.below_unhealthy (h : Losses C s t) (hj : ¬ C g) (hg : s.dependsOn g d = true) (hs : ¬ s.healthyAt d) :
    t.view g = s.view g := by
  refine h.spared g hj (h.tree.allows_eq fun p hp => ?_)
  obtain rfl := State.parent_unique hg hp
  exact ⟨fun ht => absurd (h.falls _ ht) hs, fun h' => absurd h' hs⟩

/-- A contract that the cascade has reached, or that stands, outside the set: it is unhealthy when its parent has lost its health. -/
theorem Losses.unhealthy_of_view (hv : t.view d = (s.view d).cascade run d) : ¬ t.healthyAt d := by
  rintro ⟨q, hq, hh⟩
  rw [← State.view_record, hv] at hq
  rw [View.cascade_unhealthy hq] at hh
  cases hh

/-- Turns that give and take no health change the health of none. -/
theorem runNotice_health (sh : s.shallow) (l : List SlotIx) (j : SlotIx) :
    (l.foldl State.runSubscriber s).healthyAt j ↔ s.healthyAt j := by
  induction l generalizing s with
  | nil => exact Iff.rfl
  | cons a l ih =>
    have turn := Turn.runSubscriber sh a
    obtain ⟨health, -⟩ := turn.losses.spares sh fun k hk hs => by
      subst hk
      obtain ⟨r, hr, hh⟩ := hs
      refine (State.healthyAt_of_view ?_).2 ⟨r, hr, hh⟩
      rw [turn.own, View.run_of_record (v := s.view k) hr, if_neg (by rintro e; rw [e] at hh; cases hh),
        if_neg (by rintro ⟨e, -⟩; rw [e] at hh; cases hh)]
    exact (ih (turn.losses.tree.shallow sh)).trans (health j)

/-- The health of a contract that a CREATE or RETIRE leaves in its slot. -/
theorem place_health {o : CreateBytes} (hi : (s.slots[i.val]'i.isLt).body = .free) (hr : s.recordAt j = some r) :
    (s.place i o).healthyAt j ↔ s.healthyAt j := by
  have ne : j ≠ i := fun e => by rw [e, State.recordAt_of_free hi] at hr; cases hr
  exact healthyAt_of_recount (State.place_recordAt_ne s o ne)

theorem retire_health (hr' : (s.retireContract i r).recordAt j = some r') : (s.retireContract i r).healthyAt j ↔ s.healthyAt j := by
  have ne : j ≠ i := fun e => by rw [e, State.retireContract_recordAt_self] at hr'; cases hr'
  exact healthyAt_of_recount (State.retireContract_recordAt_ne s r ne)

/-- A contract that a command or event makes unhealthy is made so by losses, from a set that its dependents are in only by a claim. -/
theorem Effect.losses (h : Effect c s t) (sh : s.shallow) (hr : s.recordAt i = some r) (hs : s.healthyAt i)
    (hr' : t.recordAt i = some r') (ht : ¬ t.healthyAt i) : ∃ (x : State) (C : SlotIx → Prop), (∀ j, x.view j = s.view j) ∧
      Losses C x t ∧ ∀ d i, x.dependsOn d i = true → x.healthyAt i → ¬ t.healthyAt i →
        (¬ s.claims c d → ¬ C d) ∧ ∀ g, x.dependsOn g d = true → ¬ s.claims c g → ¬ C g := by
  cases h with
  | quiet h => exact absurd ((h.healthyAt i).2 hs) ht
  | loses h k => exact ⟨s, _, fun _ => rfl, h, fun d i hd hs ht =>
      ⟨fun _ => h.own_not_below sh hd hs ht, fun g hg _ => h.own_not_far_below sh hg hd hs ht⟩⟩
  | @gains k _ h _ =>
    by_cases e : i = k
    · subst e; exact absurd h.own ht
    · exact absurd ((h.others i e).2 hs) ht
  | @stopped x named view runs stops members claims =>
    refine ⟨x, (· ∈ x.subscribersOf named), view,
      .foldl (fun s i h => (Turn.stopSubscriber h i).losses) _ ((SameTree.of_view view).shallow sh), fun d i _ _ _ => ⟨fun hc hd => hc (claims d (members ▸ hd)), fun g _ hc hg => hc (claims g (members ▸ hg))⟩⟩
  | @started x named view runs starts members =>
    refine absurd ((runNotice_health ((SameTree.of_view view).shallow sh) (x.subscribersOf named) i).2 ?_) ht
    exact (State.healthyAt_of_view (view i)).2 hs
  | @repinned x l alike claims =>
    exact ⟨x, (· ∈ l), alike.view,
      .foldl (fun s i h => (Turn.restartMember h i).losses) _ ((SameTree.of_view alike.view).shallow sh),
      fun d i _ _ _ => ⟨fun hc hd => hc (claims d hd), fun g _ hc hg => hc (claims g hg)⟩⟩
  | created hp hi => exact absurd ((place_health hi hr).2 hs) ht
  | retired => exact absurd ((retire_health hr').2 hs) ht
  | cleared h _ => rw [h i] at hr'; cases hr'
  | storage _ h => exact absurd ((h i).2 hs) ht

/-- A contract that a command or event makes healthy is given its health by one operation. -/
theorem Effect.gained (h : Effect c s t) (sh : s.shallow) (hr : s.recordAt i = some r) (hs : ¬ s.healthyAt i)
    (hr' : t.recordAt i = some r') (ht : t.healthyAt i) : Gains i s t := by
  cases h with
  | quiet h => exact absurd ((h.healthyAt i).1 ht) hs
  | loses h k => exact absurd (h.falls i ht) hs
  | @gains k _ h _ =>
    by_cases e : i = k
    · subst e; exact h
    · exact absurd ((h.others i e).1 ht) hs
  | @stopped x named view =>
    have losses : Losses _ x _ :=
      .foldl (fun s i h => (Turn.stopSubscriber h i).losses) (x.subscribersOf named) ((SameTree.of_view view).shallow sh)
    exact absurd ((State.healthyAt_of_view (view i)).1 (losses.falls i ht)) hs
  | @started x named view =>
    exact absurd ((State.healthyAt_of_view (view i)).1
      ((runNotice_health ((SameTree.of_view view).shallow sh) (x.subscribersOf named) i).1 ht)) hs
  | @repinned x l alike =>
    have losses : Losses _ x _ :=
      .foldl (fun s i h => (Turn.restartMember h i).losses) l ((SameTree.of_view alike.view).shallow sh)
    exact absurd ((State.healthyAt_of_view (alike.view i)).1 (losses.falls i ht)) hs
  | created hp hi => exact absurd ((place_health hi hr).1 ht) hs
  | retired => exact absurd ((retire_health hr').1 ht) hs
  | cleared h _ => rw [h i] at hr'; cases hr'
  | storage _ h => exact absurd ((h i).1 ht) hs

/-! ## Gains of health -/

/-- A dependent taken up, in the words of the statements, where its state fitted its conditions under an unhealthy parent. -/
theorem cascadeTakesUp_of_view (hq : s.recordAt j = some q) (hfit : (s.view j).fits s.runs (s.allows j))
    (hv : t.view j = (s.view j).takeUp s.runs true j) : s.cascadeTakesUp t j q := by
  have hv' : (s.view j).record = some q := hq
  unfold State.cascadeTakesUp
  rw [View.takeUp_of_record hv'] at hv
  by_cases hd : q.state = .dormant
  · rw [if_pos hd] at hv ⊢
    have blocked := (hfit q hv').2.1 (by rw [hd]; rfl)
    rw [hd] at blocked
    obtain ⟨h1, h2, -⟩ := Record.blockedTo_dormant.1 blocked
    have arming : q.blockedTo s.runs true = .arming := Record.blockedTo_arming.2 ⟨h1, h2, rfl⟩
    rw [View.recompute_of_record hv', if_pos (by rw [hd]; rfl), if_pos arming, if_neg (by rw [hd]; simp [isMeasuring])] at hv
    exact ⟨armed_of_view hq (by rw [hv]), by rw [State.posted_iff, hv, View.edit_kinds, View.post_none]⟩
  · rw [if_neg hd] at hv ⊢
    by_cases hx : q.state = .violated ∧ s.baseRunning q = true
    · rw [if_pos (by exact hx)] at hv
      rw [if_pos hx]
      refine ⟨?_, by rw [State.posted_iff, hv, View.edit_kinds, View.post_none]⟩
      rw [← State.view_record, hv, View.edit_record, hv']; rfl
    · rw [if_neg (by exact hx)] at hv
      rw [if_neg hx]
      exact State.stands_iff.2 hv

/-! ## How a contract leaves VIOLATED -/

/-- A contract that is healthy stands while the dependents of another are taken up. -/
theorem State.takeUpDependent_recordAt (hr : s.recordAt i = some r) (hh : isHealthy r.state = true) (d : SlotIx) :
    (s.takeUpDependent d).recordAt i = some r := by
  unfold State.takeUpDependent
  cases hq : s.recordAt d with
  | none => exact hr
  | some q =>
    have ne : ∀ st, isHealthy st = false → q.state = st → i ≠ d := fun st hst hqs e => by
      subst e
      obtain rfl : r = q := Option.some.inj (hr.symm.trans hq)
      rw [hqs, hst] at hh; cases hh
    dsimp only
    split
    · rename_i hd
      have hne := ne _ rfl hd
      have edited : ∀ y : State, y.view i = s.view i → (y.becameUnhealthy q.state d).recordAt i = some r := fun y hy => by
        rw [State.becameUnhealthy, hd, if_neg (by simp [isHealthy]), State.recordAt_of_view hy, hr]
      unfold State.recompute
      simp only [hq]
      split
      · split
        · split
          · exact hr
          · unfold State.enterArming
            simp only [hq]
            exact edited _ (by rw [State.rearm_view, if_neg hne])
        · split
          · exact hr
          · unfold State.enterBlocked
            simp only [hq]
            exact edited _ (by rw [State.setAside_view, if_neg hne])
      · exact hr
    · split
      · rename_i hv
        rw [State.unfreeze, State.mapRecord_recordAt_ne _ _ _ (ne _ rfl hv.1), hr]
      · exact hr

theorem State.becameHealthy_recordAt (hr : s.recordAt i = some r) (hh : isHealthy r.state = true) (before : ContractState)
    (k : SlotIx) : (s.becameHealthy before k).recordAt i = some r := by
  unfold State.becameHealthy
  split
  · exact hr
  · unfold State.cascadeUp
    generalize allSlots = l
    induction l generalizing s with
    | nil => exact hr
    | cons a l ih =>
      refine ih ?_
      show (if s.dependsOn a k = true then s.takeUpDependent a else s : State).recordAt i = some r
      split
      · exact State.takeUpDependent_recordAt hr hh a
      · exact hr

theorem clearFrozen_recordAt (hr : s.recordAt i = some r) (hv : r.state = .violated) :
    (s.clearFrozen i r).recordAt i = some (r.clearedTo (r.clearTarget s.runs)) := by
  rw [← State.view_record, State.clearFrozen_view hr hv, if_pos rfl, View.post_record, View.edit_record, State.view_record, hr]; rfl

theorem clearToConforming_recordAt (hr : s.recordAt i = some r) (a : Limits) : (s.clearToConforming i a).recordAt i =
    some { r with state := .conforming, recovered := false, recoveryRun := 0, strikes := 0 } :=
  State.becameHealthy_recordAt (by simp [hr]) rfl _ _

/-- CLEAR leaves a contract VIOLATED, or its recovered flag was set. -/
theorem clearBlock_violated {h : HandleBytes} (hr : s.recordAt i = some r) (hv : r.state = .violated) (hi : h.slot.toNat = i.val) :
    ∃ r', (clearBlock h s).state.recordAt i = some r' ∧ (r'.state = .violated ∨
      ((r'.state = .conforming ∨ r'.state = .held ∨ r'.state = .dormant) ∧ r.recovered = true)) := by
  unfold clearBlock
  obtain ⟨e, p, hb⟩ | ⟨j, q, hj, -, -, hq, hb⟩ := withContract_cases s h none _ <;> rw [hb]
  · exact ⟨r, hr, .inl hv⟩
  · obtain rfl : i = j := Fin.ext (hi.symm.trans hj)
    obtain rfl : r = q := Option.some.inj (hr.symm.trans hq)
    dsimp only
    rw [if_pos hv]
    split
    · exact ⟨r, hr, .inl hv⟩
    · rename_i hrec
      have flag : r.recovered = true := by simpa using hrec
      dsimp only [ok]
      split
      · refine ⟨_, clearFrozen_recordAt hr hv, .inr ⟨?_, flag⟩⟩
        show r.clearTarget s.runs = _ ∨ r.clearTarget s.runs = _ ∨ r.clearTarget s.runs = _
        unfold Record.clearTarget
        split <;> simp
      · exact ⟨_, clearToConforming_recordAt hr _, .inr ⟨.inl rfl, flag⟩⟩

/-- The state rule of VIOLATED leaves a contract VIOLATED, or its recovery run was completed. -/
theorem judgeViolated_violated (hr : s.recordAt i = some r) (hv : r.state = .violated) (d : Verdict) (band : Bool) :
    ∃ r', (s.judgeViolated i r d band).recordAt i = some r' ∧ (r'.state = .violated ∨ (r'.state = .conforming ∧
      r.fixed.latching = false ∧ r.limits.recoveryCount.toNat ≤ r.recoveryRun + 1)) := by
  have edit : ∀ f : Record → Record, (∀ r, (f r).state = r.state) → ∃ r', (s.mapRecord i f).recordAt i = some r' ∧
      (r'.state = .violated ∨ (r'.state = .conforming ∧ r.fixed.latching = false ∧
        r.limits.recoveryCount.toNat ≤ r.recoveryRun + 1)) := fun f hf => ⟨f r, by simp [hr], .inl ((hf r).trans hv)⟩
  unfold State.judgeViolated
  split
  · exact edit _ fun _ => rfl
  · split
    · exact edit _ fun _ => rfl
    · split
      · exact ⟨r, hr, .inl hv⟩
      · split
        · exact edit _ fun _ => rfl
        · rename_i hlt
          split
          · exact ⟨{ r with recovered := true, recoveryRun := 0 }, by simp [State.setRecovered, hr], .inl hv⟩
          · rename_i hl
            refine ⟨{ r with state := .conforming, strikes := 0, recoveryRun := 0 }, ?_, .inr ⟨rfl, by simpa using hl, by omega⟩⟩
            exact State.becameHealthy_recordAt (by simp [hr]) rfl _ _

/-- Taking an observation leaves a contract VIOLATED, or its recovery run was completed. -/
theorem takeObservation_violated {o : Observation} (hr : s.recordAt i = some r) (hv : r.state = .violated) (ho : o.handle.slot = i) :
    ∃ r', (s.takeObservation o).recordAt i = some r' ∧ (r'.state = .violated ∨ (r'.state = .conforming ∧
      r.fixed.latching = false ∧ (r.staged.getD r.limits).recoveryCount.toNat ≤ r.recoveryRun + 1)) := by
  unfold State.takeObservation
  cases hc : s.contractAt o.handle with
  | none => exact ⟨r, hr, .inl hv⟩
  | some q =>
    have hq := (State.contractAt_eq_some.1 hc).2
    rw [ho] at hq ⊢
    obtain rfl : r = q := Option.some.inj (hr.symm.trans hq)
    dsimp only
    split
    · exact ⟨r, hr, .inl hv⟩
    · rw [if_neg (by simp [hv])]
      rw [State.judge_eq hr, State.applyStateRule, Record.counted_state, hv]
      obtain ⟨r', hr', h⟩ := judgeViolated_violated (State.counted_recordAt hr o) ((Record.counted_state r _ o).trans hv) _ _
      refine ⟨r', hr', h.imp id fun ⟨h1, h2, h3⟩ => ⟨h1, ?_, ?_⟩⟩
      · rwa [Record.counted_fixed] at h2
      · rw [Record.counted_limits] at h3
        have same : (r.counted (s.slots[i.val]'i.isLt).generation o).recoveryRun = r.recoveryRun := by
          show (r.amended _).recoveryRun = _
          unfold Record.amended; split <;> rfl
        rwa [same] at h3

/-- Every other move keeps a contract VIOLATED, or takes it to CORRUPT or out of its slot in the ways that the spec lists. -/
theorem Move.violated (h : Move c s t) (hm : ¬ Instr.mayEnd c i) (hr : s.recordAt i = some r) (hv : r.state = .violated) :
    (∃ r', t.recordAt i = some r' ∧ (r'.state = .violated ∨ (r'.state = .corrupt ∧ ∃ h, c = .mismatchReport h ∧ h.slot = i))) ∨
    (t.recordAt i = none ∧ ((∃ f h x, c = .retire f h x ∧ h.slot.toNat = i.val ∧ optionSet x = true) ∨
      (∃ f, c = .wipeTable f) ∨ t.inReset = true ∨ s.inReset = true)) := by
  have kept : ∀ r', t.recordAt i = some r' → r'.state = r.state →
      ∃ r', t.recordAt i = some r' ∧ (r'.state = .violated ∨ (r'.state = .corrupt ∧ ∃ h, c = .mismatchReport h ∧ h.slot = i)) :=
    fun r' hr' e => ⟨r', hr', .inl (e.trans hv)⟩
  cases h with
  | work h =>
    obtain ⟨r', hr', hw⟩ := h.record_of hr
    exact .inl (kept r' hr' (hw.settled hm (.inl hv)))
  | release => exact .inl (kept r hr rfl)
  | @create f o k _ _ _ _ hfree =>
    have ne : i ≠ k := fun e => by rw [e, State.recordAt_of_free hfree] at hr; cases hr
    refine .inl (kept _ ((State.place_recordAt_ne s o ne).trans (by rw [hr]; rfl)) ?_)
    split <;> rfl
  | @retire f h x k q hc hi hq _ hx =>
    by_cases e : i = k
    · subst e
      obtain rfl : r = q := Option.some.inj (hr.symm.trans hq)
      exact .inr ⟨State.retireContract_recordAt_self .., .inl ⟨f, h, x, hc, hi, hx (.inl hv)⟩⟩
    · refine .inl (kept _ ((State.retireContract_recordAt_ne s q e).trans (by rw [hr]; rfl)) ?_)
      split <;> rfl
  | @wipe f hc => exact .inr ⟨State.wipe_recordAt s i, .inr (.inl ⟨f, hc⟩)⟩
  | ackDevice => exact .inl (kept r hr rfl)
  | ackContract => exact .inl (kept r ((State.ackContract_recordAt ..).trans hr) rfl)
  | @corrupt h q _ hc hq _ ht =>
    have marked : (s.markCorrupt h.slot q).recordAt i = some (if i = h.slot then r.corrupted (s.measures q) else r) := by
      rw [State.markCorrupt_recordAt, hr]; rfl
    obtain ⟨r', hr', hw⟩ := ht.record_of marked
    refine .inl ⟨r', hr', ?_⟩
    by_cases e : i = h.slot
    · rw [if_pos e] at hw
      refine .inr ⟨hw.corrupt ?_, h, hc, e.symm⟩
      unfold Record.corrupted
      split <;> rfl
    · rw [if_neg e] at hw
      exact .inl ((hw.settled id (.inl hv)).trans hv)
  | @storage k x q _ hq =>
    by_cases e : i = k
    · subst e
      obtain rfl : r = q := Option.some.inj (hr.symm.trans hq)
      refine .inl (kept (StorageFault.apply (s.slots[i.val]'i.isLt).generation r x).2 (by simp [State.recordAt]) ?_)
      cases x <;> rfl
    · exact .inl (kept r ((State.recordAt_congr_slot (State.setSlot_get_ne _ _ _ e)).trans hr) rfl)
  | reset _ hb => exact .inr ⟨State.resetBlocks_recordAt s i, .inr (.inr hb.symm)⟩

/-- A step idles on an empty queue, or carries out the command at its front. -/
theorem step_front (h : step s = .next t) : (s.pending = [] ∧ t = s) ∨
    ∃ c rest, s.pending = c :: rest ∧ exec c { s with pending := rest } = .next t := by
  unfold step at h
  split at h
  · rename_i hp; cases h; exact .inl ⟨hp, rfl⟩
  · rename_i c rest hp; exact .inr ⟨c, rest, hp, h⟩

/-- CLEAR and a judgement of the contract's own are the two ways that are left. -/
theorem exec_mayEnd_violated (hm : Instr.mayEnd c i) (h : exec c s = .next t) (hr : s.recordAt i = some r) (hv : r.state = .violated) :
    ∃ r', t.recordAt i = some r' ∧ (r'.state = .violated ∨
      (r'.state = .conforming ∧ r.fixed.latching = false ∧ (r.staged.getD r.limits).recoveryCount.toNat ≤ r.recoveryRun + 1 ∧
        ∃ h, c = .observationTaken h ∧ h.slot = i) ∨
      ((r'.state = .conforming ∨ r'.state = .held ∨ r'.state = .dormant) ∧ r.recovered = true ∧
        ∃ f h, c = .clear f h ∧ h.slot.toNat = i.val)) := by
  obtain ⟨f, h', rfl, hi⟩ | ⟨h', rfl, hi⟩ := hm
  · cases h
    show ∃ r', (s.serve .clear f (clearBlock h')).recordAt i = some r' ∧ _
    obtain ⟨-, e⟩ | ⟨-, e⟩ := s.serve_cases .clear f (clearBlock h') <;> rw [e]
    · exact ⟨r, hr, .inl hv⟩
    · have frame : (s.frameEnded (commandLength .clear + f.fill)).recordAt i = some r := hr
      obtain ⟨r', hr', he⟩ := clearBlock_violated frame hv hi
      exact ⟨r', hr', he.imp id fun ⟨h1, h2⟩ => .inr ⟨h1, h2, f, h', rfl, hi⟩⟩
  · cases h
    unfold State.whileOperating
    split
    · exact ⟨r, hr, .inl hv⟩
    · dsimp only
      split
      · exact ⟨r, hr, .inl hv⟩
      · rename_i o rest e
        have left : (s.without rest).recordAt i = some r := hr
        obtain ⟨r', hr', he⟩ := takeObservation_violated left hv (o := o) (by rw [(firstObservation_some e).1, hi])
        exact ⟨r', hr', he.imp id fun ⟨h1, h2, h3⟩ => .inl ⟨h1, h2, h3, h', rfl, hi⟩⟩

end Sys2Proof.Machine

section
open Sys2Proof Sys2Proof.Machine

/-- Settles O18: of all the moves only CLEAR, a judgement, RETIRE, WIPE_TABLE, a reset and a mismatch report end the state. -/
theorem violationPersists : Obligations.ViolationPersists := by
  intro s t i r h hr hv
  obtain ⟨-, rfl⟩ | ⟨c, rest, hp, hx⟩ := step_front h
  · rw [hr]; exact .inl hv
  by_cases hm : Instr.mayEnd c i
  · obtain ⟨r', hr', he⟩ := exec_mayEnd_violated hm hx hr hv
    rw [hr']
    obtain he | ⟨h1, h2, h3, h', rfl, hi⟩ | ⟨h1, h2, f, h', rfl, hi⟩ := he
    · exact .inl he
    · exact .inr (.inr (.inl ⟨h1, h2, h3, h', rest, hp, hi⟩))
    · exact .inr (.inr (.inr ⟨h1, h2, f, h', rest, hp, hi⟩))
  · obtain ⟨p, x, u, q, y, move, rfl⟩ := (exec_moved hx).move
    have hr0 : ({ s with port := p, scrub := x, pending := rest } : State).recordAt i = some r := hr
    obtain ⟨r', hr', he⟩ | ⟨hn, he⟩ := move.violated hm hr0 hv
    · rw [show (u.withPort q y).recordAt i = some r' from hr']
      obtain he | ⟨he, h', rfl, hi⟩ := he
      · exact .inl he
      · exact .inr (.inl ⟨he, h', rest, hp, hi⟩)
    · rw [show (u.withPort q y).recordAt i = none from hn]
      obtain ⟨f, h', b, rfl, hi, hb⟩ | ⟨f, rfl⟩ | hres := he
      · exact .inl ⟨f, h', b, rest, hp, hi, hb⟩
      · exact .inr (.inl ⟨f, rest, hp⟩)
      · exact .inr (.inr hres)

/-- Settles O41: the contract lost its health in losses, and so the cascade has reached its dependents, and their own when they lost
theirs. -/
theorem unhealthyParentSetsDependentsAside : Obligations.UnhealthyParentSetsDependentsAside := by
  intro c s t i d r r' q ht h hr hh hr' hh' hd hq hclaim
  have sh := ht.shallow
  obtain ⟨p, y, u, heff, alike⟩ := exec_effect sh h
  have hs : s.healthyAt i := ⟨r, hr, hh⟩
  have hu : ¬ u.healthyAt i := by
    rw [← State.healthyAt_of_view (alike.view i), State.healthyAt_iff hr', hh']; simp
  obtain ⟨x, C, view, losses, claims⟩ := heff.losses sh hr hs ((alike.recordAt i).symm.trans hr') hu
  have tree : SameTree (s.withPort p y) x := .of_view view
  have healthy : ∀ j, x.healthyAt j ↔ s.healthyAt j := fun j => State.healthyAt_of_view (view j)
  have cascade : ∀ j, u.view j = (x.view j).cascade x.runs j → t.view j = (s.view j).cascade t.runs j := fun j hj => by
    rw [alike.view, hj, alike.runs, losses.runs, view]; rfl
  have dx : x.dependsOn d i = true := by rw [tree.dependsOn]; exact hd
  obtain ⟨hCd, hCg⟩ := claims d i dx ((healthy i).2 hs) hu
  have reached := losses.below_lost (hCd hclaim) dx ((healthy i).2 hs) hu
  refine ⟨cascadeSetsAside_of_view hq (cascade d reached), fun g z hg hz hgc => ?_⟩
  have gx : x.dependsOn g d = true := by rw [tree.dependsOn]; exact hg
  have hud : ¬ u.healthyAt d := Losses.unhealthy_of_view reached
  by_cases hqd : isHealthy q.state = true
  · rw [if_pos hqd]
    have hsd : x.healthyAt d := (healthy d).2 ⟨q, hq, hqd⟩
    exact cascadeSetsAside_of_view hz (cascade g (losses.below_lost (hCg g gx hgc) gx hsd hud))
  · rw [if_neg hqd]
    have hsd : ¬ x.healthyAt d := (healthy d).not.2 (by rw [State.healthyAt_iff hq]; exact hqd)
    refine State.stands_iff.2 ?_
    rw [alike.view, losses.below_unhealthy (hCg g gx hgc) gx hsd, view]; rfl

/-- Settles O42: the contract was given its health by its own command or judgement, which takes up its dependents and no one else. -/
theorem healthyParentReleasesDependents : Obligations.HealthyParentReleasesDependents := by
  intro c s t i d r r' q ht hfit h hr hh hr' hh' hd hq
  have sh := ht.shallow
  obtain ⟨p, y, u, heff, alike⟩ := exec_effect sh h
  have hs : ¬ s.healthyAt i := by rw [State.healthyAt_iff hr, hh]; simp
  have hu : u.healthyAt i := (State.healthyAt_of_view (alike.view i)).1 ⟨r', hr', hh'⟩
  have gains := heff.gained sh hr hs ((alike.recordAt i).symm.trans hr') hu
  refine ⟨cascadeTakesUp_of_view hq ((State.statesFit_iff s).1 hfit d) ?_, fun g hg => State.stands_iff.2 ?_⟩
  · rw [alike.view, gains.below hs d hd]; rfl
  · have ne : g ≠ i := fun e => sh g d g d hg (by rw [e]; exact hd) hg
    rw [alike.view, gains.rest g ne fun e => ?_]
    · rfl
    · obtain rfl := State.parent_unique hg e
      exact absurd hd (sh.not_self d)

end
end

