-- ==== Sys2Proof/Proofs/FrameBytes.lean ====
section
set_option Elab.async false
/-! PROOFS. Frames and commands are each other's inverse, and what R173 refuses (O20, O22, O25). -/

namespace Sys2Proof.Machine

variable {s : State} {c : Command} {f : Frame} {ops : List Byte} {i : Instr}

/-! ## Codes -/

theorem commandOfByte_commandByte (c : Command) : commandOfByte (commandByte c) = some c := by
  cases c <;> rfl

theorem commandByte_of_commandOfByte {b : Byte} (h : commandOfByte b = some c) : commandByte c = b := by
  simpa using List.find?_some h

/-! ## Operands -/

theorem word32_be32 (w : Word32) :
    word32 (w.extractLsb' 24 8) (w.extractLsb' 16 8) (w.extractLsb' 8 8) (w.extractLsb' 0 8) = w := by
  apply BitVec.eq_of_getLsbD_eq
  intro k hk
  simp only [word32, BitVec.getLsbD_append, BitVec.getLsbD_extractLsb']
  grind

theorem be32_word32 (a b c d : Byte) : be32 (word32 a b c d) = [a, b, c, d] := by
  simp only [be32, List.cons.injEq, and_true]
  refine ⟨?_, ?_, ?_, ?_⟩ <;> apply BitVec.eq_of_getLsbD_eq <;> intro k hk <;>
    simp only [word32, BitVec.getLsbD_append, BitVec.getLsbD_extractLsb'] <;> grind

theorem word16_be16 (w : Word16) : word16 (w.extractLsb' 8 8) (w.extractLsb' 0 8) = w := by
  apply BitVec.eq_of_getLsbD_eq
  intro k hk
  simp only [word16, BitVec.getLsbD_append, BitVec.getLsbD_extractLsb']
  grind

theorem be16_word16 (a b : Byte) : be16 (word16 a b) = [a, b] := by
  simp only [be16, List.cons.injEq, and_true]
  refine ⟨?_, ?_⟩ <;> apply BitVec.eq_of_getLsbD_eq <;> intro k hk <;>
    simp only [word16, BitVec.getLsbD_append, BitVec.getLsbD_extractLsb'] <;> grind

theorem limitsOfOperands_bytes (a0 a1 a2 a3 b0 b1 b2 b3 c0 c1 c2 c3 t r sl se tm nm : Byte) :
    limitsOfOperands [a0, a1, a2, a3, b0, b1, b2, b3, c0, c1, c2, c3, t, r, sl, se, tm, nm] =
      some ⟨word32 a0 a1 a2 a3, word32 b0 b1 b2 b3, word32 c0 c1 c2 c3, t, r, sl, se, tm, nm⟩ := rfl

theorem limitsOfOperands_limitOperands (a : LimitBytes) : limitsOfOperands (limitOperands a) = some a := by
  refine (limitsOfOperands_bytes ..).trans ?_
  rw [word32_be32, word32_be32, word32_be32]

theorem limitsOfOperands_of_length {l : List Byte} (h : l.length = 18) :
    ∃ a, limitsOfOperands l = some a ∧ limitOperands a = l := by
  match l, h with
  | [_, _, _, _, _, _, _, _, _, _, _, _, _, _, _, _, _, _], _ =>
    refine ⟨_, limitsOfOperands_bytes .., ?_⟩
    simp only [limitOperands, be32_word32, List.cons_append, List.nil_append]

/-! ## The parts of a command -/

theorem frameParts_length (h : frameParts i = some (c, f, ops)) : ops.length = operandCount c := by
  cases i <;> cases h <;> rfl

theorem commandOfParts_create (p k x b fl ps pg : Byte) (t : List Byte) :
    commandOfParts .create f (p :: k :: x :: b :: fl :: ps :: pg :: t) = (limitsOfOperands t).map (fun a =>
      .create f { pin := p, kind := k, sense := x, base := b, flags := fl, parent := ⟨ps, pg⟩, limits := a }) := rfl

theorem commandOfParts_amend (hs hg m : Byte) (t : List Byte) : commandOfParts .amend f (hs :: hg :: m :: t) =
    (limitsOfOperands t).map (fun a => .amend f { handle := ⟨hs, hg⟩, mode := m, limits := a }) := rfl

theorem commandOfParts_setTimebase (b t m0 m1 : Byte) :
    commandOfParts .setTimebase f [b, t, m0, m1] = some (.setTimebase f b t (word16 m0 m1)) := rfl

theorem commandOfParts_of_frameParts (h : frameParts i = some (c, f, ops)) : commandOfParts c f ops = some i := by
  cases i
  case create f' o =>
    obtain ⟨rfl, rfl, rfl⟩ : .create = c ∧ f' = f ∧ _ = ops := by simpa only [frameParts, Option.some.injEq, Prod.mk.injEq] using h
    exact (commandOfParts_create _ _ _ _ _ _ _ (limitOperands o.limits)).trans (by rw [limitsOfOperands_limitOperands]; rfl)
  case amend f' o =>
    obtain ⟨rfl, rfl, rfl⟩ : .amend = c ∧ f' = f ∧ _ = ops := by simpa only [frameParts, Option.some.injEq, Prod.mk.injEq] using h
    exact (commandOfParts_amend _ _ _ (limitOperands o.limits)).trans (by rw [limitsOfOperands_limitOperands]; rfl)
  case setTimebase f' b t m =>
    obtain ⟨rfl, rfl, rfl⟩ : .setTimebase = c ∧ f' = f ∧ _ = ops := by
      simpa only [frameParts, Option.some.injEq, Prod.mk.injEq] using h
    exact (commandOfParts_setTimebase ..).trans (by rw [word16_be16])
  all_goals cases h
  all_goals rfl

/-- Operand bytes of the right number spell a command. -/
theorem exists_commandOfParts (f : Frame) (h : ops.length = operandCount c) :
    ∃ i, commandOfParts c f ops = some i ∧ frameParts i = some (c, f, ops) := by
  cases c
  case create =>
    match ops, h with
    | p :: k :: x :: b :: fl :: ps :: pg :: t, h =>
      obtain ⟨a, ha, spelt⟩ := limitsOfOperands_of_length (l := t) (Nat.add_right_cancel (m := 7) h)
      refine ⟨_, (commandOfParts_create p k x b fl ps pg t).trans (by rw [ha]; rfl), ?_⟩
      simp only [frameParts, spelt, List.cons_append, List.nil_append]
  case amend =>
    match ops, h with
    | hs :: hg :: m :: t, h =>
      obtain ⟨a, ha, spelt⟩ := limitsOfOperands_of_length (l := t) (Nat.add_right_cancel (m := 3) h)
      refine ⟨_, (commandOfParts_amend hs hg m t).trans (by rw [ha]; rfl), ?_⟩
      simp only [frameParts, spelt, List.cons_append, List.nil_append]
  case setTimebase =>
    match ops, h with
    | [b, t, m0, m1], _ =>
      exact ⟨_, commandOfParts_setTimebase b t m0 m1, by simp only [frameParts, be16_word16, List.cons_append, List.nil_append]⟩
  case retire | query | ackNotice =>
    obtain ⟨x, y, z, rfl⟩ := List.length_eq_three.1 h
    exact ⟨_, rfl, rfl⟩
  case suspend | resume | clear | setPin | setTrip =>
    obtain ⟨x, y, rfl⟩ := List.length_eq_two.1 h
    exact ⟨_, rfl, rfl⟩
  case startTimebase | stopTimebase | readTimebase | releaseTrip | forceTrip =>
    obtain ⟨x, rfl⟩ := List.length_eq_one_iff.1 h
    exact ⟨_, rfl, rfl⟩
  all_goals
    obtain rfl := List.length_eq_zero_iff.1 h
    exact ⟨_, rfl, rfl⟩

/-! ## The bytes of a frame -/

/-- The number of bytes that a command code asks of its frame, fill apart (R171). -/
def frameNeed (code : Byte) : Nat := match commandOfByte code with | some c => 3 + operandCount c | none => 3

theorem frameNeed_of_command {code : Byte} (hc : commandOfByte code = some c) : frameNeed code = operandCount c + 3 := by
  unfold frameNeed
  rw [hc]
  exact Nat.add_comm _ _

theorem three_le_frameNeed (code : Byte) : 3 ≤ frameNeed code := by
  unfold frameNeed
  split <;> omega

/-- The checks of R173 on two bytes or more, in their order. -/
theorem frameRefusal_eq (code tag : Byte) (rest : List Byte) : frameRefusal (code :: tag :: rest) =
    if (code :: tag :: rest).length < frameNeed code then some .badLength
    else if (code :: tag :: rest).getD (frameNeed code - 1) 0 ≠ crc8 ((code :: tag :: rest).take (frameNeed code - 1)) then
      some .badCheck
    else if (commandOfByte code).isNone then some .badCommand
    else if ((code :: tag :: rest).drop (frameNeed code)).any (fun b => decide (b ≠ 0xFF)) then some .badLength
    else none := by
  show (if (code :: tag :: rest).length < 3 then _ else _) = _
  split
  · rename_i h
    rw [if_pos (Nat.lt_of_lt_of_le h (three_le_frameNeed code))]
  · rfl

theorem ite_some_eq_none {α : Type} {p : Prop} [Decidable p] {a : α} {x : Option α} :
    (if p then some a else x) = none ↔ ¬ p ∧ x = none := by
  split <;> simp_all

/-- A list that has a byte at place k, with nothing but fill after it. -/
theorem eq_append_cons_fill {rest : List Byte} {k : Nat} (h : k < rest.length) (fill : ∀ b ∈ rest.drop (k + 1), b = 0xFF) :
    rest = rest.take k ++ rest.getD k 0 :: List.replicate (rest.drop (k + 1)).length 0xFF := by
  rw [← List.eq_replicate_of_mem fill, List.getD_eq_getElem rest 0 h, List.getElem_cons_drop, List.take_append_drop]

/-- A frame that R173 lets pass: a code of the table, a tag, as many operands as the code asks, their CRC-8, and fill. -/
theorem frameRefusal_eq_none_iff {code tag : Byte} {rest : List Byte} (hc : commandOfByte code = some c) :
    frameRefusal (code :: tag :: rest) = none ↔ ∃ ops fill, ops.length = operandCount c ∧
      rest = ops ++ crc8 (code :: tag :: ops) :: List.replicate fill 0xFF := by
  rw [frameRefusal_eq, hc, frameNeed_of_command hc, ite_some_eq_none, ite_some_eq_none, ite_some_eq_none, ite_some_eq_none]
  show ¬ rest.length + 2 < operandCount c + 3 ∧ ¬ rest.getD (operandCount c) 0 ≠ crc8 (code :: tag :: rest.take (operandCount c)) ∧
    _ ∧ ¬ (rest.drop (operandCount c + 1)).any (fun b => decide (b ≠ 0xFF)) = true ∧ _ ↔ _
  constructor
  · rintro ⟨hlen, hcrc, -, hfill, -⟩
    refine ⟨rest.take (operandCount c), (rest.drop (operandCount c + 1)).length, by rw [List.length_take]; omega, ?_⟩
    rw [← Decidable.not_not.1 hcrc]
    exact eq_append_cons_fill (by omega) (by simpa using hfill)
  · rintro ⟨ops, fill, hl, rfl⟩
    simp [← hl]

/-! ## Frames and commands -/

theorem frameBytes_eq_some {bytes : List Byte} (h : frameBytes i = some bytes) : ∃ c f ops, frameParts i = some (c, f, ops) ∧
    bytes = commandByte c :: f.tag :: (ops ++ crc8 (commandByte c :: f.tag :: ops) :: List.replicate f.fill 0xFF) := by
  unfold frameBytes at h
  split at h
  · cases h
  · rename_i c f ops hp
    cases h
    exact ⟨c, f, ops, hp, by simp⟩

theorem frameBytes_of_frameParts (h : frameParts i = some (c, f, ops)) : frameBytes i =
    some (commandByte c :: f.tag :: (ops ++ crc8 (commandByte c :: f.tag :: ops) :: List.replicate f.fill 0xFF)) := by
  unfold frameBytes
  rw [h]
  simp

/-- Bytes that R173 lets pass are the command of their parts. -/
theorem commandOfFrame_of_parts {tag : Byte} {fill : Nat} (hl : ops.length = operandCount c) :
    commandOfFrame (commandByte c :: tag :: (ops ++ crc8 (commandByte c :: tag :: ops) :: List.replicate fill 0xFF)) =
      commandOfParts c { tag := tag, fill := fill } ops := by
  have hc := commandOfByte_commandByte c
  simp only [commandOfFrame, (frameRefusal_eq_none_iff (tag := tag) hc).2 ⟨ops, fill, hl, rfl⟩, hc]
  congr 1
  · congr 1
    simp only [commandLength, List.length_cons, List.length_append, List.length_replicate]
    omega
  · rw [← hl, List.take_left]

/-- The bytes of a frame that R173 refuses. -/
theorem commandOfFrame_of_refusal {bytes : List Byte} (h : (frameRefusal bytes).isSome = true) :
    commandOfFrame bytes = some (.frameRefused bytes) := by
  obtain ⟨e, he⟩ := Option.isSome_iff_exists.1 h
  match bytes with
  | [] => cases he
  | [_] => rfl
  | code :: tag :: rest => simp only [commandOfFrame, he]

/-- Bytes that R173 does not refuse hold a code of the table. -/
theorem exists_command_of_frameRefusal {code tag : Byte} {rest : List Byte} (h : frameRefusal (code :: tag :: rest) = none) :
    ∃ c, commandOfByte code = some c := by
  rw [frameRefusal_eq, ite_some_eq_none, ite_some_eq_none, ite_some_eq_none] at h
  obtain ⟨-, -, hc, -⟩ := h
  exact Option.ne_none_iff_exists'.1 (by simpa using hc)

/-! ## Refusals -/

theorem exec_frameRefused_of_receiving (h : s.receiving) {bytes : List Byte} {e : ResultCode} (he : frameRefusal bytes = some e) :
    exec (.frameRefused bytes) s =
      .next (s.replied bytes.length ⟨e, bytes.getD 1 0, bytes.getD 0 0, []⟩) := by
  show Host.Outcome.next (match frameRefusal bytes with | none => s | some e => _) = _
  rw [he]
  exact congrArg Host.Outcome.next (State.endFrame_of_receiving h _ _)

theorem exec_repeatReply_of_receiving (h : s.receiving) (f : Frame) : exec (.repeatReply f) s = .next
    (match s.port.reply with
     | some _ => s.frameEnded (3 + f.fill)
     | none => s.replied (3 + f.fill) ⟨.noReply, f.tag, 0x03, []⟩) :=
  congrArg Host.Outcome.next (State.endFrame_of_receiving h _ _)

end Sys2Proof.Machine

section
open Sys2Proof Sys2Proof.Machine

/-- Settles O20: the frame that R173 lets pass is the code, tag, operands, CRC and fill of one command. -/
theorem frameRoundTrip : Obligations.FrameRoundTrip := by
  refine ⟨fun i bytes h => ?_, fun bytes => ?_⟩
  · obtain ⟨c, f, ops, hp, rfl⟩ := frameBytes_eq_some h
    rw [commandOfFrame_of_parts (frameParts_length hp)]
    exact commandOfParts_of_frameParts hp
  · cases hr : frameRefusal bytes with
    | some e => exact ⟨_, commandOfFrame_of_refusal (by rw [hr]; rfl), .inr (.inr ⟨rfl, rfl⟩)⟩
    | none =>
      match bytes with
      | [] => exact ⟨.emptyFrame, rfl, .inr (.inl ⟨rfl, rfl⟩)⟩
      | [_] => cases hr
      | code :: tag :: rest =>
        obtain ⟨c, hc⟩ := exists_command_of_frameRefusal hr
        obtain ⟨ops, fill, hl, rfl⟩ := (frameRefusal_eq_none_iff hc).1 hr
        obtain rfl := commandByte_of_commandOfByte hc
        obtain ⟨i, hi, hp⟩ := exists_commandOfParts ⟨tag, fill⟩ hl
        exact ⟨i, (commandOfFrame_of_parts hl).trans hi, .inl (frameBytes_of_frameParts hp)⟩

/-- Settles O22: the checks of R173 in their order. -/
theorem refusedFrames : Obligations.RefusedFrames := by
  intro s h
  refine ⟨fun b => exec_frameRefused_of_receiving h rfl, fun code tag rest n hn => ?_⟩
  obtain rfl : n = frameNeed code := hn
  have refusal := frameRefusal_eq code tag rest
  refine ⟨fun short => ?_, fun long crc => ?_, fun long crc none => ?_, fun long crc some fill => ?_⟩ <;>
    refine exec_frameRefused_of_receiving (bytes := code :: tag :: rest) h (refusal.trans ?_)
  · rw [if_pos short]
  · rw [if_neg (Nat.not_lt.2 long), if_pos crc]
  · rw [if_neg (Nat.not_lt.2 long), if_neg (not_not_intro crc), if_pos (by rw [none]; rfl)]
  · rw [if_neg (Nat.not_lt.2 long), if_neg (not_not_intro crc), if_neg (by simpa using some), if_pos]
    obtain ⟨b, hb, hne⟩ := fill
    exact List.any_eq_true.2 ⟨b, hb, by simpa using hne⟩

/-- Settles O25. -/
theorem repeatKeepsTheReply : Obligations.RepeatKeepsTheReply := by
  refine fun f s h => ⟨fun hr => ?_, fun hr => ?_⟩ <;> rw [exec_repeatReply_of_receiving h]
  · obtain ⟨r, hr⟩ := Option.ne_none_iff_exists'.1 hr
    rw [hr]
    rfl
  · rw [hr]

end
end

