-- ==== Sys2Proof/Proofs/PortAndResets.lean ====
section
set_option Elab.async false
/-! PROOFS. The step itself, how frames begin and end, and the resets (O1, O3, O4, O21, O26, O27). -/

namespace Sys2Proof.Machine

variable {s t : State} {c : Instr} {i : SlotIx} {x : PortLines}

/-! ## Every block at its reset values -/

theorem State.resetBlocks_blocksAtReset (s : State) (b : Bool) (v : Supply) (x : RefChecker) :
    ({ s.resetBlocks with inReset := b, supply := v, ref := x } : State).blocksAtReset := by
  refine ⟨fun i => ?_, fun b => ?_, fun p => ?_, fun l => ?_, rfl, rfl, rfl, rfl, rfl, rfl⟩
  · simp [Slot.atReset]
  · simp [TimeBase.atReset]
  · simp [PinChannel.atReset]
  · simp [TripLine.atReset]

theorem State.reset_blocksAtReset : State.reset.blocksAtReset := State.reset.resetBlocks_blocksAtReset _ _ _

theorem State.reset_recordAt (i : SlotIx) : State.reset.recordAt i = none := State.resetBlocks_recordAt State.reset i

/-- What holds of every record holds of the empty table. -/
theorem State.reset_records {p : SlotIx → Record → Prop} : ∀ i r, State.reset.recordAt i = some r → p i r := by
  intro i r h
  rw [State.reset_recordAt] at h
  cases h

theorem State.reset_noticesSound : State.reset.noticesSound := by
  refine ⟨List.pairwise_singleton _ _, ?_, fun _ _ => rfl, fun i h => ?_⟩
  · show ∀ e ∈ [NoticeEntry.device 1], e.nonempty
    simp [NoticeEntry.nonempty]
  · obtain ⟨slots, -⟩ := State.reset_blocksAtReset
    rw [(slots i).2] at h
    cases h

theorem State.reset_setsCanonical : State.reset.setsCanonical := by
  obtain ⟨-, bases, pins, lines, -⟩ := State.reset_blocksAtReset
  refine ⟨fun b => ?_, fun p => ?_, fun l => ?_⟩
  · obtain ⟨-, -, -, -, -, empty⟩ := bases b
    rw [empty]; exact SlotSet.canonical_nil
  · obtain ⟨-, -, -, -, empty⟩ := pins p
    rw [empty]; exact ⟨SlotSet.canonical_nil, Nat.zero_le _⟩
  · obtain ⟨-, -, -, empty⟩ := lines l
    rw [empty]; exact SlotSet.canonical_nil

theorem State.reset_basesSound : State.reset.basesSound := by
  intro b
  obtain ⟨-, bases, -⟩ := State.reset_blocksAtReset
  obtain ⟨-, modulus, stopped, -⟩ := bases b
  rw [modulus, stopped]
  exact ⟨by decide, fun h => (by cases h), fun h => (by cases h)⟩

theorem State.reset_subscribersExact : State.reset.subscribersExact := by
  obtain ⟨-, bases, pins, -⟩ := State.reset_blocksAtReset
  refine ⟨fun b i => ?_, fun p i => ?_⟩
  · obtain ⟨-, -, -, -, -, empty⟩ := bases b
    rw [empty]; simp [State.reset_recordAt]
  · obtain ⟨-, -, -, -, empty⟩ := pins p
    rw [empty]; simp [State.reset_recordAt]

theorem State.reset_contributorsExact : State.reset.contributorsExact := by
  intro l i
  obtain ⟨-, -, -, lines, -⟩ := State.reset_blocksAtReset
  obtain ⟨-, -, -, empty⟩ := lines l
  rw [empty]; simp [State.reset_recordAt]

/-! ## The end of a frame -/

/-- A rising edge of CS# with no frame begun, or in reset, ends none. -/
theorem exec_frame_of_not_receiving (h : ¬ s.receiving) (hc : (frameParts c).isSome = true ∨ c = .emptyFrame ∨
    ∃ bytes, c = .frameRefused bytes ∧ (frameRefusal bytes).isSome = true) : exec c s = .next s.csRaised := by
  have ended : ∀ rx act, Host.Outcome.next (φ := Fault) (ρ := Refusal) (s.endFrame rx act) = .next s.csRaised := fun rx act =>
    congrArg Host.Outcome.next (State.endFrame_of_not_receiving h rx act)
  obtain hc | rfl | ⟨bytes, rfl, hb⟩ := hc
  · cases c <;> cases hc
    all_goals exact ended _ _
  · exact ended _ _
  · obtain ⟨e, he⟩ := Option.isSome_iff_exists.1 hb
    show Host.Outcome.next (match frameRefusal bytes with | none => s | some e => _) = _
    rw [he]
    exact ended _ _

theorem State.summaryStatus_getLsbD (s : State) (k : Nat) : s.summaryStatus.getLsbD k =
    ((((s.alertAsserted && decide (k = 7) && decide (k < 8) || s.anyLineAsserted && decide (k = 6) && decide (k < 8)) ||
      s.faultTerm && decide (k = 5) && decide (k < 8)) || s.port.reply.isSome && decide (k = 4) && decide (k < 8)) ||
      (0x0A#8).getLsbD k) := by
  simp only [State.summaryStatus, BitVec.getLsbD_or, getLsbD_flagBit]
  rfl

theorem State.summaryStatus_bits (s : State) :
    s.summaryStatus.getLsbD 7 = decide (s.notices ≠ []) ∧ (s.summaryStatus.getLsbD 6 = true ↔ ∃ l : LineIx, ¬ s.lineReleased l) ∧
      s.summaryStatus.getLsbD 5 = decide (s.ref.supervision ≠ .normal) ∧ s.summaryStatus.getLsbD 4 = s.port.reply.isSome ∧
      s.summaryStatus.extractLsb' 0 4 = 0b1010 := by
  refine ⟨?_, ?_, ?_, ?_, ?_⟩
  · rw [State.summaryStatus_getLsbD]; cases h : s.notices <;> simp [State.alertAsserted, h]
  · rw [State.summaryStatus_getLsbD]; simp [State.anyLineAsserted, State.lineAsserted_iff]
  · rw [State.summaryStatus_getLsbD]; simp [State.faultTerm]
  · rw [State.summaryStatus_getLsbD]; simp
  · apply BitVec.eq_of_getLsbD_eq
    intro k hk
    rw [BitVec.getLsbD_extractLsb', State.summaryStatus_getLsbD]
    interval_cases k <;> simp

end Sys2Proof.Machine

section
open Sys2Proof Sys2Proof.Machine

/-- Settles O1. -/
theorem stepTakesTheFrontCommand : Obligations.StepTakesTheFrontCommand :=
  ⟨fun c rest s h => by simp only [step, h], fun s h => by simp only [step, h]⟩

/-- Settles O3. -/
theorem resetValues : Obligations.ResetValues :=
  ⟨State.reset_blocksAtReset, rfl, rfl, rfl, rfl, rfl, fun l => by simp [State.tripDrivenLow, State.lineAsserted, State.reset, State.faultTerm], rfl⟩

/-- Settles O4: the table, the sets and the queue at reset are empty but for the device entry. -/
theorem soundAtReset : Obligations.SoundAtReset := by
  refine ⟨State.reset_setsCanonical, State.reset_noticesSound, State.reset_basesSound, ?_, ?_, ?_, State.reset_records,
    State.reset_records, State.reset_subscribersExact, State.reset_contributorsExact, State.treeSound_of_empty State.reset_recordAt,
    State.reset_records, ⟨State.reset_records, ?_⟩, ?_, State.reset_records, State.reset_records⟩
  · refine ⟨?_, ?_, ?_⟩ <;> simp [State.reset]
  · refine ⟨?_, ?_⟩ <;> simp [State.reset]
  · intro h; cases h
  · intro o h; cases h
  · intro i g ks h
    obtain ⟨-, -, -, -, notices, -⟩ := State.reset_blocksAtReset
    simp [notices] at h

/-- Settles O26. -/
theorem resetsBegin : Obligations.ResetsBegin := by
  refine ⟨fun f s h => ⟨(s.frameEnded (3 + f.fill)).enterReset, congrArg Host.Outcome.next (State.endFrame_of_receiving h _ _),
      State.resetBlocks_blocksAtReset _ true _ _, rfl, rfl, rfl, rfl⟩,
    fun s => ⟨_, rfl, State.resetBlocks_blocksAtReset s true _ _, rfl, rfl, rfl, rfl⟩,
    fun s => ⟨_, rfl, State.resetBlocks_blocksAtReset s true _ _, rfl, rfl, rfl, ?_⟩⟩
  cases s.supply <;> rfl

/-- Settles O27. -/
theorem releaseAndSupply : Obligations.ReleaseAndSupply := by
  refine ⟨fun s h v => ⟨_, congrArg Host.Outcome.next (if_pos ⟨h, v⟩), State.resetBlocks_blocksAtReset s false _ _, rfl, rfl, rfl, rfl⟩,
    fun s h => congrArg Host.Outcome.next (if_neg ?_), fun s h => ?_, fun s h => ?_, fun s h => ?_, fun s v h => ?_, fun s v h => ?_⟩
  · rintro ⟨h', v⟩
    rcases h with h | h
    · rw [h] at h'; cases h'
    · exact v h
  · exact congrArg Host.Outcome.next (if_pos ⟨rfl, h⟩)
  · exact congrArg Host.Outcome.next ((if_neg (by simp)).trans (if_pos ⟨rfl, h⟩))
  · simp [State.tripDrivenLow, State.alertDrivenLow, State.sdoDriven, h]
  · simp [State.tripDrivenLow, State.alertDrivenLow, State.sdoDriven, h, v]
  · refine ⟨fun l => ?_, ?_, fun hc => ?_⟩
    · simp [State.tripDrivenLow, State.lineAsserted, State.faultTerm, h, v, or_assoc]
    · simp [State.alertDrivenLow, State.alertAsserted, h, v]
    · simp [State.sdoDriven, hc]

/-- Settles O21. -/
theorem framesBeginAndEnd : Obligations.FramesBeginAndEnd := by
  refine ⟨fun s h hc hf => ⟨s.summaryStatus, ?_, s.summaryStatus_bits⟩,
    fun s h => congrArg Host.Outcome.next (State.endFrame_of_receiving h _ _), fun s h hc => ?_, fun c s h hc => ?_, fun x sdi h => ?_,
    fun x sdi h => ?_, fun x t hc h => ?_, fun x bytes unfinished c t hx hu hc h => ?_, fun x => ⟨fun hv hc h => ?_, fun h => ?_⟩⟩
  · show Host.Outcome.next (if s.port.csLow then s else if s.inReset then _ else match s.port.frame with | .receiving => s | .idle => _) = _
    rw [hc, h, hf]
    simp only [Bool.false_eq_true, if_false, State.outboundStream]
    cases s.port.reply <;> rfl
  · show Host.Outcome.next (if s.port.csLow then s else if s.inReset then _ else _) = _
    rw [hc, h]
    rfl
  · refine exec_frame_of_not_receiving (fun hr => ?_) hc
    obtain ⟨hr, hf⟩ := hr
    rcases h with h | h
    · rw [hr] at h; cases h
    · rw [hf] at h; cases h
  · obtain ⟨-, rise, fall⟩ | ⟨hn, -⟩ := x.sclk_cases sdi
    · rw [rise, fall, PortLines.take]
      simp [bytesOfBits_length]
    · exact absurd h hn
  · obtain ⟨hr, -⟩ | ⟨-, rise, fall⟩ := x.sclk_cases sdi
    · exact absurd hr h
    · exact ⟨rise, fall⟩
  · simp only [PortLines.edge, hc, Bool.false_eq_true, if_false, State.afterCommand_next h]
  · have bits : bytesOfBits x.taken = bytes := by
      rw [hx]
      exact (bytesOfBits_bitsOfByte bytes unfinished).trans (by rw [bytesOfBits_short hu, List.append_nil])
    rw [PortLines.csRise_eq (by rw [bits]; exact hc), State.afterCommand_next h]
  · simp [PortLines.sdo, State.sdoDriven, hv, hc, h, State.outboundBit, State.outboundByte]
  · rcases h with h | h | h <;> simp [PortLines.sdo, State.sdoDriven, h]

end
end

