-- ==== Sys2Proof/Proofs/Refusals.lean ====
section
set_option Elab.async false
/-! PROOFS. A refusal changes nothing but the port (O19). -/

namespace Sys2Proof.Machine

variable {s t : State} {a : Answer} {c : Instr} {f : Frame}

/-- An answer that is a refusal leaves the state as it was. -/
def Answer.clean (s : State) (a : Answer) : Prop := 0x10 ≤ (resultByte a.result).toNat → a.state = s

theorem clean_refuse {e : ResultCode} {p : List Byte} : (refuse s e p).clean s := fun _ => rfl

theorem clean_ok {p : List Byte} : (ok t p).clean s := fun h => absurd (show 0x10 ≤ (resultByte .ok).toNat from h) (by decide)

theorem clean_withContract {h : HandleBytes} {fields : Option Byte} {act : SlotIx → Record → Answer}
    (ha : ∀ i r, (act i r).clean s) : (withContract s h fields act).clean s := by
  obtain ⟨e, p, hb⟩ | ⟨i, r, -, -, -, -, hb⟩ := withContract_cases s h fields act <;> rw [hb]
  · exact clean_refuse
  · exact ha i r

theorem clean_withBase {b : Byte} {act : BaseIx → Answer} (ha : ∀ b, (act b).clean s) : (withBase s b act).clean s := by
  obtain ⟨-, hb⟩ | ⟨b, -, hb⟩ := withBase_cases s b act <;> rw [hb]
  · exact clean_refuse
  · exact ha b

theorem clean_withLine {l : Byte} {act : LineIx → Answer} (ha : ∀ l, (act l).clean s) : (withLine s l act).clean s := by
  obtain ⟨-, hb⟩ | ⟨l, -, hb⟩ := withLine_cases s l act <;> rw [hb]
  · exact clean_refuse
  · exact ha l

theorem createBlock_clean (o : CreateBytes) : (createBlock o s).clean s := by
  unfold createBlock
  split
  · exact clean_refuse
  · split
    · exact clean_refuse
    · split
      · exact clean_refuse
      · split
        · exact clean_refuse
        · exact clean_ok

theorem amendBlock_clean (o : AmendBytes) : (amendBlock o s).clean s := by
  refine clean_withContract fun i r => ?_
  split
  · exact clean_refuse
  · split
    · exact clean_refuse
    · intro h
      dsimp only at h
      split at h <;> exact absurd h (by decide)

theorem suspendBlock_clean (h : HandleBytes) : (suspendBlock h s).clean s := by
  refine clean_withContract fun i r => ?_
  split
  · exact clean_ok
  · split <;> exact clean_refuse

theorem resumeBlock_clean (h : HandleBytes) : (resumeBlock h s).clean s := by
  refine clean_withContract fun i r => ?_
  split
  · exact clean_ok
  · exact clean_refuse

theorem clearBlock_clean (h : HandleBytes) : (clearBlock h s).clean s := by
  refine clean_withContract fun i r => ?_
  split
  · split
    · exact clean_refuse
    · exact clean_ok
  · exact clean_refuse

theorem retireBlock_clean (h : HandleBytes) (x : Byte) : (retireBlock h x s).clean s := by
  refine clean_withContract fun i r => ?_
  split
  · exact clean_refuse
  · split
    · exact clean_refuse
    · exact clean_ok

theorem queryBlock_clean (h : HandleBytes) (x : Byte) : (queryBlock h x s).clean s :=
  clean_withContract fun _ _ => clean_ok

theorem ackNoticeBlock_clean (h : HandleBytes) (kinds : Byte) : (ackNoticeBlock h kinds s).clean s := by
  unfold ackNoticeBlock
  split
  · unfold ackDeviceBlock
    split
    · exact clean_refuse
    · split
      · exact clean_refuse
      · exact clean_ok
  · split
    · exact clean_refuse
    · split
      · exact clean_refuse
      · split
        · exact clean_refuse
        · split
          · exact clean_refuse
          · exact clean_ok

theorem setTimebaseBlock_clean (base tap : Byte) (modulus : Word16) : (setTimebaseBlock base tap modulus s).clean s := by
  refine clean_withBase fun b => ?_
  split
  · exact clean_refuse
  · split
    · exact clean_ok
    · exact clean_refuse

theorem startTimebaseBlock_clean (base : Byte) : (startTimebaseBlock base s).clean s := by
  refine clean_withBase fun b => ?_
  split
  · exact clean_refuse
  · split
    · exact clean_refuse
    · exact clean_ok

theorem stopTimebaseBlock_clean (base : Byte) : (stopTimebaseBlock base s).clean s := by
  refine clean_withBase fun b => ?_
  split
  · exact clean_refuse
  · exact clean_ok

theorem setPinBlock_clean (pin setting : Byte) : (setPinBlock pin setting s).clean s := by
  unfold setPinBlock
  split
  · exact clean_refuse
  · split
    · exact clean_refuse
    · exact clean_ok

theorem setTripBlock_clean (line policy : Byte) : (setTripBlock line policy s).clean s := by
  refine clean_withLine fun l => ?_
  split
  · exact clean_refuse
  · exact clean_ok

theorem releaseTripBlock_clean (line : Byte) : (releaseTripBlock line s).clean s := by
  refine clean_withLine fun l => ?_
  split
  · exact clean_refuse
  · split
    · exact clean_refuse
    · exact clean_ok

theorem clearFaultBlock_clean : (clearFaultBlock s).clean s := by
  unfold clearFaultBlock
  split
  · exact clean_ok
  · exact clean_refuse
  · exact clean_refuse

/-- A refusal of a command that is served changes the port alone. -/
theorem serve_refusal {k : Command} {block : State → Answer} (h : s.receiving) (hb : ∀ s, (block s).clean s) {r : Reply}
    (hr : (s.serve k f block).port.reply = some r) (he : 0x10 ≤ (resultByte r.result).toNat) :
    s.serve k f block = s.replied (s.serve k f block).port.rxCount r := by
  rw [State.serve_of_receiving h] at hr ⊢
  obtain rfl := Option.some.inj (hr.symm.trans (Answer.served_reply ..))
  have same := hb (s.frameEnded (commandLength k + f.fill)) he
  unfold Answer.served
  rw [same]
  rfl

end Sys2Proof.Machine

section
open Sys2Proof Sys2Proof.Machine

/-- Settles O19: no block that refuses has touched the state. -/
theorem refusalChangesNothing : Obligations.RefusalChangesNothing := by
  intro c s t r hc hw h ht hr he
  cases c with
  | nop | identify | readStatus | list | wipeTable | readNotices | readPins | readTrips =>
    cases ht; exact serve_refusal h (fun _ => clean_ok) hr he
  | create f o => cases ht; exact serve_refusal h (fun _ => createBlock_clean o) hr he
  | amend f o => cases ht; exact serve_refusal h (fun _ => amendBlock_clean o) hr he
  | suspend f h' => cases ht; exact serve_refusal h (fun _ => suspendBlock_clean h') hr he
  | resume f h' => cases ht; exact serve_refusal h (fun _ => resumeBlock_clean h') hr he
  | clear f h' => cases ht; exact serve_refusal h (fun _ => clearBlock_clean h') hr he
  | retire f h' x => cases ht; exact serve_refusal h (fun _ => retireBlock_clean h' x) hr he
  | query f h' x => cases ht; exact serve_refusal h (fun _ => queryBlock_clean h' x) hr he
  | ackNotice f h' x => cases ht; exact serve_refusal h (fun _ => ackNoticeBlock_clean h' x) hr he
  | setTimebase f b tp md => cases ht; exact serve_refusal h (fun _ => setTimebaseBlock_clean b tp md) hr he
  | startTimebase f b => cases ht; exact serve_refusal h (fun _ => startTimebaseBlock_clean b) hr he
  | stopTimebase f b => cases ht; exact serve_refusal h (fun _ => stopTimebaseBlock_clean b) hr he
  | readTimebase f b => cases ht; exact serve_refusal h (fun _ => clean_withBase fun _ => clean_ok) hr he
  | setPin f p n => cases ht; exact serve_refusal h (fun _ => setPinBlock_clean p n) hr he
  | setTrip f l p => cases ht; exact serve_refusal h (fun _ => setTripBlock_clean l p) hr he
  | releaseTrip f l => cases ht; exact serve_refusal h (fun _ => releaseTripBlock_clean l) hr he
  | forceTrip f l => cases ht; exact serve_refusal h (fun _ => clean_withLine fun _ => clean_ok) hr he
  | clearFault f => cases ht; exact serve_refusal h (fun _ => clearFaultBlock_clean) hr he
  | repeatReply f =>
    rw [exec_repeatReply_of_receiving h] at ht
    cases ht
    cases hs : s.port.reply with
    | none =>
      rw [hs] at hr
      cases hr
      rfl
    | some r' =>
      simp only [hs] at hr ⊢
      obtain rfl : r' = r := Option.some.inj (hs.symm.trans hr)
      unfold State.frameEnded State.replied
      rw [← hs]
  | resetDevice f =>
    rw [show exec (.resetDevice f) s = .next (s.frameEnded (commandLength .resetDevice + f.fill)).enterReset from
      congrArg Host.Outcome.next (State.endFrame_of_receiving h _ _)] at ht
    cases ht
    cases hr
  | frameRefused bytes =>
    obtain ⟨e, hb⟩ := Option.isSome_iff_exists.1 hw
    rw [exec_frameRefused_of_receiving h hb] at ht
    cases ht
    cases hr
    rfl
  | frameBegin | emptyFrame | firstSample | edgeProduced | gateBoundary | edgeTaken | boundaryTaken | silenceLimit | observationTaken
  | referenceLoss | referenceReturn | storageChange | scrubberVisit | mismatchReport | powerOnReset | resetInput | resetRelease
  | pinSample | baseTickEnd | goodPeriod | vddAt1V2 =>
    obtain hc | ⟨bytes, hc⟩ := hc <;> cases hc

end
end

