-- ==== Sys2Proof/Proofs/FieldChecks.lean ====
section
set_option Elab.async false
/-! PROOFS. The checks on operand fields, in their order (O28, O29, O53). -/

namespace Sys2Proof.Machine

variable {s : State} {f : Frame} {i : SlotIx} {P : Nat → Prop} {l : List (Byte × Bool)}

/-! ## Lists of checks -/

/-- A list of checks in field order says of each field number under 16 whether it fails. -/
structure Checks (l : List (Byte × Bool)) (P : Nat → Prop) : Prop where
  fails : ∀ n : Fin 16, P n.val ↔ (BitVec.ofNat 8 n.val, true) ∈ l
  ordered : l.Pairwise (fun a b => a.1.toNat < b.1.toNat)
  small : ∀ a ∈ l, a.1.toNat < 16

theorem firstFailing_eq_none (h : ∀ n, (n, true) ∉ l) : firstFailing l = none := by
  induction l with
  | nil => rfl
  | cons a l ih =>
    obtain ⟨n, b⟩ := a
    cases b with
    | true => exact absurd List.mem_cons_self (h n)
    | false => exact ih fun n hn => h n (List.mem_cons_of_mem _ hn)

theorem firstFailing_eq_some {n : Byte} (ordered : l.Pairwise (fun a b => a.1.toNat < b.1.toNat)) (hn : (n, true) ∈ l)
    (first : ∀ m : Byte, m.toNat < n.toNat → (m, true) ∉ l) : firstFailing l = some n := by
  induction l with
  | nil => cases hn
  | cons a l ih =>
    obtain ⟨head, tail⟩ := List.pairwise_cons.1 ordered
    obtain ⟨m, b⟩ := a
    cases b with
    | true =>
      obtain e | hn := List.mem_cons.1 hn
      · cases e; rfl
      · exact absurd List.mem_cons_self (first m (head _ hn))
    | false =>
      obtain e | hn := List.mem_cons.1 hn
      · cases e
      · exact ih tail hn fun m hm hl => first m hm (List.mem_cons_of_mem _ hl)

theorem Checks.none (h : Checks l P) (hP : ∀ n : Fin 16, ¬ P n.val) : firstFailing l = none :=
  firstFailing_eq_none fun n hn => hP ⟨n.toNat, h.small _ hn⟩ ((h.fails _).2 (by simpa using hn))

theorem Checks.some (h : Checks l P) {n : Fin 16} (hn : P n.val) (first : ∀ m : Fin 16, m < n → ¬ P m.val) :
    firstFailing l = some (BitVec.ofNat 8 n.val) := by
  have small : (BitVec.ofNat 8 n.val).toNat = n.val := toNat_byteOf (by omega)
  refine firstFailing_eq_some h.ordered ((h.fails n).1 hn) fun m hm hl => ?_
  rw [small] at hm
  exact first ⟨m.toNat, h.small _ hl⟩ hm ((h.fails _).2 (by simpa using hl))

/-! ## The checks themselves -/

theorem word_above_one (w : Word32) : (w ≠ 0 ∧ w ≠ 1) ↔ 1 < w.toNat := by
  rw [ne_eq, ne_eq, ← BitVec.toNat_inj, ← BitVec.toNat_inj]
  simp
  omega

theorem loBadForKind_iff (k : Kind) (a : LimitBytes) : loBadForKind k a = true ↔ k = .level ∧ 1 < a.lo.toNat := by
  simp only [loBadForKind, decide_eq_true_eq, word_above_one]

theorem hiBelowLo_iff (a : LimitBytes) : hiBelowLo a = true ↔ a.hi.toNat < a.lo.toNat := decide_eq_true_iff

theorem hiBadForKind_iff (k : Kind) (a : LimitBytes) :
    hiBadForKind k a = true ↔ (k = .duty ∧ 1000 < a.hi.toNat) ∨ (k = .level ∧ 1 < a.hi.toNat) := by
  simp only [hiBadForKind, decide_eq_true_eq, word_above_one]

theorem marginTooWide_iff (a : LimitBytes) : marginTooWide a = true ↔ (a.hi.toNat - a.lo.toNat) / 2 < a.margin.toNat :=
  decide_eq_true_iff

theorem marginBadForKind_iff (k : Kind) (a : LimitBytes) : marginBadForKind k a = true ↔ k = .level ∧ a.margin ≠ 0 :=
  decide_eq_true_iff

theorem outside1to15_iff (b : Byte) : outside1to15 b = true ↔ b = 0 ∨ 15 < b.toNat := decide_eq_true_iff

theorem oneshotNot1_iff (x : Bool) (b : Byte) : oneshotNot1 x b = true ↔ x = true ∧ b ≠ 1 := by simp [oneshotNot1]

theorem settleAbove7_iff (b : Byte) : settleAbove7 b = true ↔ 7 < b.toNat := decide_eq_true_iff

/-- The bits from the k-th on are clear in the bytes below 2^k, and in no others. -/
theorem and_highBits_eq_zero (b : Byte) (k : Nat) : b &&& BitVec.allOnes 8 <<< k = 0 ↔ b.toNat < 2 ^ k := by
  have small : b.toNat / 2 ^ k * 2 ^ k < 2 ^ 8 := Nat.lt_of_le_of_lt (Nat.div_mul_le_self ..) b.isLt
  rw [← BitVec.shiftLeft_ushiftRight, ← BitVec.toNat_inj, BitVec.toNat_shiftLeft, BitVec.toNat_ushiftRight, Nat.shiftLeft_eq,
    Nat.shiftRight_eq_div_pow, Nat.mod_eq_of_lt small]
  exact (mul_eq_zero_iff_right (Nat.two_pow_pos k).ne').trans (Nat.div_eq_zero_iff_lt (Nat.two_pow_pos k))

theorem tripMaskUndefined_iff (b : Byte) : tripMaskUndefined b = true ↔ 15 < b.toNat :=
  decide_eq_true_iff.trans ((not_congr (and_highBits_eq_zero b 4)).trans Nat.not_lt)

theorem oneshotTrips_iff (x : Bool) (b : Byte) : oneshotTrips x b = true ↔ x = true ∧ b ≠ 0 := by simp [oneshotTrips]

theorem noticeMaskUndefined_iff (b : Byte) : noticeMaskUndefined b = true ↔ 7 < b.toNat :=
  decide_eq_true_iff.trans ((not_congr (and_highBits_eq_zero b 3)).trans Nat.not_lt)

theorem flagsUndefined_iff (b : Byte) : b &&& 0xF8 ≠ 0 ↔ 7 < b.toNat :=
  (not_congr (and_highBits_eq_zero b 3)).trans Nat.not_lt

theorem optionsUndefined_iff (b : Byte) : b &&& 0xFE = 0 ↔ b.toNat ≤ 1 :=
  (and_highBits_eq_zero b 1).trans Nat.lt_succ_iff

/-! ## AMEND, RETIRE, QUERY -/

/-- The first pass of AMEND, in the words of the statements (R122). -/
theorem amendField_checks (o : AmendBytes) : Checks
    [(2, decide (o.mode ≠ 0x01 ∧ o.mode ≠ 0x02)), (8, hiBelowLo o.limits), (9, marginTooWide o.limits),
      (10, outside1to15 o.limits.tolerance), (11, outside1to15 o.limits.recoveryCount), (12, outside1to15 o.limits.silenceLimit),
      (13, settleAbove7 o.limits.settle), (14, tripMaskUndefined o.limits.tripMask),
      (15, noticeMaskUndefined o.limits.noticeMask)] o.fieldFails where
  fails n := by
    fin_cases n <;> simp [AmendBytes.fieldFails, LimitBytes.setFails, hiBelowLo_iff, marginTooWide_iff, outside1to15_iff,
      settleAbove7_iff, tripMaskUndefined_iff, noticeMaskUndefined_iff]
  ordered := by simp
  small := by simp

/-- The second pass of AMEND, in the words of the statements (R123). -/
theorem amendRecord_checks (fx : Fixed) (a : LimitBytes) : Checks
    [(7, loBadForKind fx.kind a), (8, hiBadForKind fx.kind a), (9, marginBadForKind fx.kind a),
      (10, oneshotNot1 fx.oneshot a.tolerance), (11, oneshotNot1 fx.oneshot a.recoveryCount),
      (14, oneshotTrips fx.oneshot a.tripMask)] (a.kindFails fx.kind fx.oneshot) where
  fails n := by
    fin_cases n <;> simp [LimitBytes.kindFails, loBadForKind_iff, hiBadForKind_iff, marginBadForKind_iff, oneshotNot1_iff,
      oneshotTrips_iff]
  ordered := by simp
  small := by simp

theorem options_checks (x : Byte) : Checks [(2, decide (1 < x.toNat))] (fun n => n = 2 ∧ 1 < x.toNat) where
  fails n := by fin_cases n <;> simp
  ordered := by simp
  small := by simp

theorem optionsError_eq (x : Byte) : optionsError x = firstFailing [(2, decide (1 < x.toNat))] := by
  unfold optionsError
  by_cases h : x.toNat ≤ 1
  · rw [if_pos ((optionsUndefined_iff x).2 h)]
    simp [firstFailing, Nat.not_lt.2 h]
  · rw [if_neg (mt (optionsUndefined_iff x).1 h)]
    simp [firstFailing, Nat.not_le.1 h]

theorem no_checks : Checks [] (fun _ => False) where
  fails n := by simp
  ordered := List.Pairwise.nil
  small := by simp

/-! ## The handle checks -/

theorem withContract_slot_above {h : HandleBytes} (above : 63 < h.slot.toNat) (fields : Option Byte)
    (act : SlotIx → Record → Answer) : withContract s h fields act = refuse s .badField [1] := by
  simp only [withContract, indexOf_eq_none.2 above]

theorem withContract_field {h : HandleBytes} (within : h.slot.toNat ≤ 63) (n : Byte) (act : SlotIx → Record → Answer) :
    withContract s h (some n) act = refuse s .badField [n] := by
  have hi : indexOf 64 h.slot = some ⟨h.slot.toNat, by omega⟩ := indexOf_eq_some.2 rfl
  simp only [withContract, hi]

theorem withContract_stale {h : HandleBytes} (hi : h.slot.toNat = i.val) (hg : (s.slots[i]'i.isLt).generation ≠ h.generation)
    (act : SlotIx → Record → Answer) : withContract s h none act = refuse s .staleHandle := by
  simp only [withContract, indexOf_eq_some.2 hi, if_pos hg]

theorem withContract_none {h : HandleBytes} (hi : h.slot.toNat = i.val) (hg : (s.slots[i]'i.isLt).generation = h.generation)
    (hr : s.recordAt i = none) (act : SlotIx → Record → Answer) : withContract s h none act = refuse s .noContract := by
  simp only [withContract, indexOf_eq_some.2 hi, if_neg (not_not_intro hg), hr]

theorem serve_refuse (hs : s.receiving) (k : Command) (f : Frame) {block : State → Answer} {e : ResultCode} {p : List Byte}
    (hb : block (s.frameEnded (commandLength k + f.fill)) = refuse (s.frameEnded (commandLength k + f.fill)) e p) :
    s.serve k f block = s.replied (commandLength k + f.fill) ⟨e, f.tag, commandByte k, p⟩ := by
  rw [State.serve_of_receiving hs, hb, State.served_refuse]

/-- The checks on the handle of a command, in their order, before its block acts on the contract. -/
theorem exec_handle_checks (hs : s.receiving) (hl : Checks l P) {c : Instr} {k : Command} {h : HandleBytes} {ops : List Byte}
    {act : State → SlotIx → Record → Answer} (len : ops.length = operandCount k)
    (he : exec c s = .next (s.serve k f (fun s => withContract s h (firstFailing l) (act s)))) :
    let refusedWith := fun (e : ResultCode) (payload : List Byte) =>
      exec c s = .next (s.replied (3 + ops.length + f.fill) ⟨e, f.tag, commandByte k, payload⟩)
    (63 < h.slot.toNat → refusedWith .badField [1]) ∧
    (∀ n : Fin 16, h.slot.toNat ≤ 63 → P n.val → (∀ m : Fin 16, m < n → ¬ P m.val) →
      refusedWith .badField [BitVec.ofNat 8 n.val]) ∧
    (∀ i : SlotIx, h.slot.toNat = i.val → (∀ n : Fin 16, ¬ P n.val) → (s.slots[i]'i.isLt).generation ≠ h.generation →
      refusedWith .staleHandle []) ∧
    (∀ i : SlotIx, h.slot.toNat = i.val → (∀ n : Fin 16, ¬ P n.val) → (s.slots[i]'i.isLt).generation = h.generation →
      s.recordAt i = none → refusedWith .noContract []) := by
  rw [len]
  refine ⟨fun above => ?_, fun n within hn first => ?_, fun i hi hP hg => ?_, fun i hi hP hg hr => ?_⟩ <;>
    refine he.trans (congrArg Host.Outcome.next (serve_refuse hs k f ?_))
  · exact withContract_slot_above above _ _
  · rw [hl.some hn first, withContract_field within]
  · rw [hl.none hP]
    exact withContract_stale (s := s.frameEnded (commandLength k + f.fill)) hi hg _
  · rw [hl.none hP]
    exact withContract_none (s := s.frameEnded (commandLength k + f.fill)) hi hg hr _

theorem retireBlock_eq (h : HandleBytes) (x : Byte) : retireBlock h x = fun s =>
    withContract s h (firstFailing [(2, decide (1 < x.toNat))]) (fun i r =>
      if 0 < r.dependents then refuse s .hasDependents [byteOf r.dependents]
      else if (r.state = .violated ∨ r.state = .corrupt) ∧ optionSet x = false then refuse s .inViolation
      else ok (s.retireContract i r) [slotCode ((s.retireContract i r).slots[i]'i.isLt).body]) := by
  funext s
  rw [← optionsError_eq]
  rfl

theorem queryBlock_eq (h : HandleBytes) (x : Byte) : queryBlock h x = fun s =>
    withContract s h (firstFailing [(2, decide (1 < x.toNat))]) (fun i r =>
      ok (if optionSet x then s.mapRecord i (fun r => { r with stats := Statistics.empty }) else s) (s.queryPayload i r)) := by
  funext s
  rw [← optionsError_eq]
  rfl

/-! ## CREATE -/

theorem kindOfCode_kindCode (k : Kind) : kindOfCode (kindCode k) = some k := by cases k <;> rfl

theorem kindCode_of_kindOfCode {b : Byte} {k : Kind} (h : kindOfCode b = some k) : kindCode k = b := by
  unfold kindOfCode at h
  split_ifs at h with h0 h1 h2 h3 h4 h5 <;> (obtain rfl := Option.some.inj h; exact Eq.symm ‹_›)

theorem kindOfCode_eq_none (b : Byte) : kindOfCode b = none ↔ 5 < b.toNat := by
  simp only [kindOfCode, ← BitVec.toNat_inj]
  split_ifs <;> simp_all <;> omega

theorem senseAllowed_iff {o : CreateBytes} {k : Kind} (hk : kindCode k = o.kind) : senseAllowed k o.sense = true ↔ o.senseFits := by
  unfold CreateBytes.senseFits
  rw [← hk]
  clear hk
  generalize o.sense = b
  cases k <;> simp [senseAllowed, kindCode, ← BitVec.toNat_inj]
  omega

/-- The amendable fields of CREATE are checked alone and against the one kind that the kind code gives. -/
theorem createField_amendable {o : CreateBytes} {k : Kind} (hk : kindCode k = o.kind) {n : Nat} (hn : 7 ≤ n) :
    o.fieldFails n ↔ o.limits.setFails n ∨ o.limits.kindFails k (createOneshot o) n := by
  obtain ⟨m, rfl⟩ := Nat.exists_eq_add_of_le' hn
  refine or_congr Iff.rfl ⟨fun ⟨k', hk', h⟩ => ?_, fun h => ⟨k, hk, h⟩⟩
  obtain rfl : k' = k := Option.some.inj (by rw [← kindOfCode_kindCode, ← kindOfCode_kindCode, hk', hk])
  exact h

/-- The fields of CREATE from the third on, in the words of the statements, once the kind is one (R13). -/
theorem createField_checks {o : CreateBytes} {k : Kind} (hk : kindCode k = o.kind) :
    Checks (createChecks o k) (fun n => 3 ≤ n ∧ o.fieldFails n) where
  fails n := by
    have field3 : o.fieldFails 3 ↔ ¬ o.senseFits := Iff.rfl
    have field4 : o.fieldFails 4 ↔ 3 < o.base.toNat := Iff.rfl
    have field5 : o.fieldFails 5 ↔ 7 < o.flags.toNat ∨ (createOneshot o = true ∧ createLatching o = true) := Iff.rfl
    have field6 : o.fieldFails 6 ↔ o.parent.slot ≠ 0xFF ∧ 63 < o.parent.slot.toNat := Iff.rfl
    fin_cases n <;> simp [createChecks, field3, field4, field5, field6, and_comm, createField_amendable hk, LimitBytes.setFails,
      LimitBytes.kindFails, loBadForKind_iff, hiBelowLo_iff, hiBadForKind_iff, marginTooWide_iff, marginBadForKind_iff,
      outside1to15_iff, oneshotNot1_iff, settleAbove7_iff, tripMaskUndefined_iff, oneshotTrips_iff, noticeMaskUndefined_iff,
      ← flagsUndefined_iff, ← senseAllowed_iff hk]
  ordered := by simp [createChecks]
  small := by simp [createChecks]

theorem createFieldError_of_fails {o : CreateBytes} {n : Fin 16} (h1 : 1 ≤ n.val) (hn : o.fieldFails n.val)
    (first : ∀ m : Fin 16, 1 ≤ m.val → m < n → ¬ o.fieldFails m.val) : createFieldError o = some (BitVec.ofNat 8 n.val) := by
  unfold createFieldError
  by_cases e1 : n = 1
  · subst e1; exact if_pos (show 23 < o.pin.toNat from hn)
  rw [if_neg (show ¬ 23 < o.pin.toNat from first 1 le_rfl (by omega))]
  by_cases e2 : n = 2
  · subst e2; rw [(kindOfCode_eq_none _).2 hn]; rfl
  obtain ⟨k, hk⟩ := Option.ne_none_iff_exists'.1 (mt (kindOfCode_eq_none _).1 (first 2 (by decide) (by omega)))
  rw [hk]
  refine (createField_checks (kindCode_of_kindOfCode hk)).some ⟨by omega, hn⟩ fun m hm ⟨_, hf⟩ => ?_
  exact first m (by omega) hm hf

theorem createFieldError_of_passes {o : CreateBytes} (h : o.passes) : createFieldError o = none := by
  unfold createFieldError
  rw [if_neg (show ¬ 23 < o.pin.toNat from h 1 le_rfl)]
  obtain ⟨k, hk⟩ := Option.ne_none_iff_exists'.1 (mt (kindOfCode_eq_none _).1 (h 2 (by decide)))
  rw [hk]
  exact (createField_checks (kindCode_of_kindOfCode hk)).none fun n ⟨h3, hf⟩ => h n (by omega) hf

/-! ## AMEND against the record -/

theorem amendBlock_of_live {o : AmendBytes} {r : Record} (hi : o.handle.slot.toNat = i.val) (hf : ∀ n : Fin 16, ¬ o.fieldFails n.val)
    (hg : (s.slots[i]'i.isLt).generation = o.handle.generation) (hr : s.recordAt i = some r) : amendBlock o s =
      if r.state = .done ∨ r.state = .corrupt then refuse s .wrongState
      else
        match amendRecordError r.fixed o.limits with
        | some n => refuse s .badField [n]
        | none =>
          let s' := if o.mode = 0x01 then s.stage i (limitsOf o.limits) else s.amendNow i r (limitsOf o.limits)
          { state := s', result := if r.staged.isSome then .okReplaced else .ok, payload := [s'.stateByte i] } := by
  unfold amendBlock
  rw [show amendFieldError o = none from (amendField_checks o).none hf]
  exact withContract_of_live hi hg hr _

end Sys2Proof.Machine

section
open Sys2Proof Sys2Proof.Machine

/-- Settles O28: the six commands share the checks on their handle, each with its own later fields. -/
theorem handleChecks : Obligations.HandleChecks := by
  intro c f h k ops s hc hp hs
  cases c with
  | amend f' o => cases hc; cases hp; exact exec_handle_checks hs (amendField_checks o) rfl rfl
  | suspend f' h' => cases hc; cases hp; exact exec_handle_checks hs no_checks rfl rfl
  | resume f' h' => cases hc; cases hp; exact exec_handle_checks hs no_checks rfl rfl
  | clear f' h' => cases hc; cases hp; exact exec_handle_checks hs no_checks rfl rfl
  | retire f' h' x =>
    cases hc; cases hp
    exact exec_handle_checks hs (options_checks x) rfl (congrArg (fun b => Host.Outcome.next (s.serve .retire f b)) (retireBlock_eq h x))
  | query f' h' x =>
    cases hc; cases hp
    exact exec_handle_checks hs (options_checks x) rfl (congrArg (fun b => Host.Outcome.next (s.serve .query f b)) (queryBlock_eq h x))
  | _ => cases hc

/-- Settles O29. -/
theorem createFieldChecks : Obligations.CreateFieldChecks := by
  intro f o s n hs h1 hn first
  refine congrArg Host.Outcome.next (serve_refuse hs .create f ?_)
  simp only [createBlock, createFieldError_of_fails h1 hn first]

/-- Settles O53. -/
theorem amendChecks : Obligations.AmendChecks := by
  intro f o s i r hs hi hf hg hr
  have block := amendBlock_of_live (s := s.frameEnded (commandLength .amend + f.fill)) hi hf hg hr
  refine ⟨fun hst => ?_, fun n hd hc hn first => ?_⟩ <;> refine congrArg Host.Outcome.next (serve_refuse hs .amend f (block.trans ?_))
  · exact if_pos hst
  · rw [if_neg (by rintro (h | h) <;> contradiction)]
    rw [show amendRecordError r.fixed o.limits = _ from (amendRecord_checks r.fixed o.limits).some hn first]

end
end

