-- ==== Sys2Proof/Proofs/TableCommands.lean ====
section
set_option Elab.async false
/-! PROOFS. CREATE, RETIRE, QUERY and WIPE_TABLE on the contract table (O30 to O34). -/

namespace Sys2Proof.Machine

variable {s t : State} {f : Frame} {i j : SlotIx} {o : CreateBytes} {r : Record}

/-! ## Answers -/

@[simp] theorem ok_state (s : State) (p : List Byte) : (ok s p).state = s := rfl

theorem serve_answer (hs : s.receiving) (k : Command) (f : Frame) {block : State → Answer} {a : Answer}
    (hb : block (s.frameEnded (commandLength k + f.fill)) = a) : s.serve k f block = a.served k f := by
  rw [State.serve_of_receiving hs, hb]

/-- The port after a command that its block answered over the state of the frame's end. -/
theorem answered_served {rx : Nat} {a : Answer} (hp : a.state.port = (s.frameEnded rx).port) (k : Command) (f : Frame) :
    s.answered (a.served k f) rx ⟨a.result, f.tag, commandByte k, a.payload⟩ := by
  unfold State.answered
  rw [show (a.served k f).port = { a.state.port with reply := some ⟨a.result, f.tag, commandByte k, a.payload⟩ } from rfl, hp]
  rfl

/-! ## The operands of CREATE -/

theorem fin_ofNat_eq {n : Nat} [NeZero n] {i : Fin n} {b : Byte} (h : b.toNat = i.val) : Fin.ofNat n b.toNat = i := by
  rw [h]; exact Fin.ofNat_val_eq_self i

theorem parentOf_of_slot {h : HandleBytes} (hi : h.slot.toNat = i.val) : parentOf h = some ⟨i, h.generation⟩ := by
  have named : h.slot ≠ 0xFF := fun e => by rw [e] at hi; have := i.isLt; simp at hi; omega
  rw [parentOf, if_neg named, fin_ofNat_eq hi]

theorem parentOf_of_absent {h : HandleBytes} (hi : h.slot = 0xFF) : parentOf h = none := if_pos hi

theorem createParentError_of_accepted (h : s.parentAccepted o) : createParentError s (parentOf o.parent) = none := by
  obtain h | ⟨i, hi, p, hp, h1, h2, h3, h4⟩ := h
  · rw [parentOf_of_absent h]; rfl
  · rw [parentOf_of_slot hi, createParentError_eq_none]
    intro h' e
    obtain rfl := Option.some.inj e
    exact ⟨p, hp, h1, h2, h3, h4⟩

theorem lowestFree_eq_none (h : ∀ i : SlotIx, (s.slots[i]'i.isLt).body ≠ .free) : s.lowestFree = none := by
  unfold State.lowestFree
  rw [List.find?_eq_none]
  intro i _
  simpa using h i

theorem lowestFree_eq_some (hi : (s.slots[i]'i.isLt).body = .free) (first : ∀ j : SlotIx, j < i → (s.slots[j]'j.isLt).body ≠ .free) :
    s.lowestFree = some i := by
  unfold State.lowestFree
  rw [List.find?_eq_some_iff_getElem]
  refine ⟨by simpa using hi, i.val, by simp [allSlots], by simp [allSlots], fun j hj => ?_⟩
  simpa [allSlots] using first ⟨j, by omega⟩ hj

theorem setWidth_of_lt {w : Nat} {b : Byte} (h : b.toNat < 2 ^ w) : (b.setWidth w).setWidth 8 = b := by
  apply BitVec.eq_of_toNat_eq
  rw [BitVec.toNat_setWidth, BitVec.toNat_setWidth, Nat.mod_eq_of_lt h, Nat.mod_eq_of_lt b.isLt]

/-- Operand bytes that pass their checks are the limits that they spell (R8). -/
theorem gives_limitsOf {a : LimitBytes} (h : ∀ n : Fin 16, ¬ a.setFails n.val) : a.gives (limitsOf a) := by
  have tolerance : ¬ (a.tolerance = 0 ∨ 15 < a.tolerance.toNat) := h 10
  have recoveryCount : ¬ (a.recoveryCount = 0 ∨ 15 < a.recoveryCount.toNat) := h 11
  have silenceLimit : ¬ (a.silenceLimit = 0 ∨ 15 < a.silenceLimit.toNat) := h 12
  have settle : ¬ 7 < a.settle.toNat := h 13
  have tripMask : ¬ 15 < a.tripMask.toNat := h 14
  have noticeMask : ¬ 7 < a.noticeMask.toNat := h 15
  exact ⟨rfl, rfl, rfl, setWidth_of_lt (by omega), setWidth_of_lt (by omega), setWidth_of_lt (by omega),
    setWidth_of_lt (by omega), setWidth_of_lt (by omega), setWidth_of_lt (by omega)⟩

theorem passes_setFails (h : o.passes) (n : Fin 16) : ¬ o.limits.setFails n.val := by
  intro hn
  by_cases h7 : 7 ≤ n.val
  · obtain ⟨m, hm⟩ := Nat.exists_eq_add_of_le' h7
    refine h n (by omega) ?_
    rw [hm] at hn ⊢
    exact .inl hn
  · have : n.val < 7 := Nat.not_le.1 h7
    interval_cases h : n.val <;> exact hn

theorem passes_kind (h : o.passes) : kindCode (fixedOf o).kind = o.kind := by
  obtain ⟨k, hk⟩ := Option.ne_none_iff_exists'.1 (mt (kindOfCode_eq_none _).1 (h 2 (by decide)))
  show kindCode ((kindOfCode o.kind).getD .level) = o.kind
  rw [hk]
  exact kindCode_of_kindOfCode hk

theorem passes_sense (h : o.passes) : (fixedOf o).sense.setWidth 8 = o.sense := by
  refine setWidth_of_lt ?_
  obtain ⟨-, h | h⟩ | ⟨-, -, h⟩ | ⟨-, h⟩ := Classical.not_not.1 (h 3 (by decide))
  · rw [h]; decide
  · rw [h]; decide
  · exact Nat.lt_succ_iff.2 h
  · rw [h]; decide

/-! ## CREATE -/

theorem createBlock_of_passes (h : o.passes) : createBlock o s =
    match createParentError s (parentOf o.parent) with
    | some e => refuse s e
    | none =>
      if 8 ≤ (s.pins[(fixedOf o).pin]'(fixedOf o).pin.isLt).subscribers.length then refuse s .pinFull
      else
        match s.lowestFree with
        | none => refuse s .tableFull [byteOf s.drainingCount]
        | some i => ok (s.place i o) [slotByte i, ((s.place i o).slots[i]'i.isLt).generation, slotCode ((s.place i o).slots[i]'i.isLt).body] := by
  unfold createBlock
  rw [createFieldError_of_passes h] <;> rfl

theorem exec_create_refuse (hs : s.receiving) (f : Frame) {e : ResultCode} {p : List Byte}
    (hb : createBlock o (s.frameEnded (28 + f.fill)) = refuse (s.frameEnded (28 + f.fill)) e p) :
    exec (.create f o) s = .next (s.replied (28 + f.fill) ⟨e, f.tag, 0x08, p⟩) :=
  congrArg Host.Outcome.next (serve_refuse hs .create f hb)

theorem toNat_drainingCount (s : State) : (byteOf s.drainingCount).toNat = s.drainingCount := by
  have := s.slotCounts_add
  exact toNat_byteOf (by omega)

theorem toNat_liveCount (s : State) : (byteOf s.liveCount).toNat = s.liveCount := by
  have := s.slotCounts_add
  exact toNat_byteOf (by omega)

/-- An edit of the slots that meet a condition, as the statements write it. -/
theorem State.edit_if_eq (s : State) (j : SlotIx) (p : Prop) [Decidable p] (f : Record → Record) :
    (if p then (s.slots[j.val]'j.isLt).edit f else s.slots[j.val]'j.isLt) =
      match s.recordAt j with
      | some q => if p then ⟨(s.slots[j.val]'j.isLt).generation, .live (f q)⟩ else (s.slots[j.val]'j.isLt)
      | none => (s.slots[j.val]'j.isLt) := by
  unfold State.recordAt Slot.edit
  simp only [Fin.getElem_fin]
  cases (s.slots[j.val]'j.isLt).body <;> simp

theorem State.place_pins (s : State) (i : SlotIx) (o : CreateBytes) : (s.place i o).pins = s.pins.set (fixedOf o).pin.val
    { (s.pins[(fixedOf o).pin]'(fixedOf o).pin.isLt) with subscribers := SlotSet.insert i (s.pins[(fixedOf o).pin]'(fixedOf o).pin.isLt).subscribers } (fixedOf o).pin.isLt := by
  refine Vector.ext fun n hn => ?_
  rw [State.place_channel s i o ⟨n, hn⟩, Vector.getElem_set]
  by_cases e : (fixedOf o).pin.val = n
  · subst e; simp
  · rw [if_neg (fun h => e (congrArg Fin.val h).symm), if_neg e]

theorem State.place_bases (s : State) (i : SlotIx) (o : CreateBytes) : (s.place i o).bases = s.bases.set (fixedOf o).base.val
    { (s.bases[(fixedOf o).base]'(fixedOf o).base.isLt) with subscribers := SlotSet.insert i (s.bases[(fixedOf o).base]'(fixedOf o).base.isLt).subscribers }
    (fixedOf o).base.isLt := by
  refine Vector.ext fun n hn => ?_
  rw [State.place_base s i o ⟨n, hn⟩, Vector.getElem_set]
  by_cases e : (fixedOf o).base.val = n
  · subst e; simp
  · rw [if_neg (fun h => e (congrArg Fin.val h).symm), if_neg e]

/-- The initial state of a contract (R16). -/
theorem State.created_state (s : State) (i : SlotIx) (o : CreateBytes) : (s.created i o).state =
    if createSuspended o = true then .suspended
    else if (s.bases[(fixedOf o).base]'(fixedOf o).base.isLt).state ≠ .running then .held
    else if s.parentAllows (s.created i o) = false then .dormant
    else .arming := by
  show s.blockingResult (s.created i o) = _
  by_cases h : (s.bases[(fixedOf o).base.val]'(fixedOf o).base.isLt).state = .running <;>
    simp [State.blockingResult, State.baseRunning, show (s.created i o).suspended = createSuspended o from rfl, h]

/-! ## RETIRE and QUERY -/

theorem optionSet_iff (x : Byte) (h : x.toNat ≤ 1) : optionSet x = true ↔ x = 1 := by
  rw [optionSet, BitVec.getLsbD, Nat.testBit_zero, decide_eq_true_iff, ← BitVec.toNat_inj, Nat.mod_eq_of_lt (Nat.lt_succ_iff.2 h)]
  rfl

theorem options_pass {x : Byte} (h : x.toNat ≤ 1) : firstFailing [(2, decide (1 < x.toNat))] = none :=
  (options_checks x).none fun _ ⟨_, hx⟩ => Nat.not_lt.2 h hx

theorem retireBlock_of_live {h : HandleBytes} {x : Byte} (hx : x.toNat ≤ 1) (hi : h.slot.toNat = i.val)
    (hg : (s.slots[i]'i.isLt).generation = h.generation) (hr : s.recordAt i = some r) : retireBlock h x s =
      if 0 < r.dependents then refuse s .hasDependents [byteOf r.dependents]
      else if (r.state = .violated ∨ r.state = .corrupt) ∧ optionSet x = false then refuse s .inViolation
      else ok (s.retireContract i r) [slotCode ((s.retireContract i r).slots[i]'i.isLt).body] := by
  rw [retireBlock_eq, options_pass hx]
  exact withContract_of_live hi hg hr _

theorem queryBlock_of_live {h : HandleBytes} {x : Byte} (hx : x.toNat ≤ 1) (hi : h.slot.toNat = i.val)
    (hg : (s.slots[i]'i.isLt).generation = h.generation) (hr : s.recordAt i = some r) : queryBlock h x s =
      ok (if optionSet x then s.mapRecord i (fun r => { r with stats := Statistics.empty }) else s) (s.queryPayload i r) := by
  rw [queryBlock_eq, options_pass hx]
  exact withContract_of_live hi hg hr _

/-- The kinds that an entry of slot i takes, every other entry as it stands. -/
def NoticeEntry.withKinds (i : SlotIx) (k : BitVec 7) : NoticeEntry → NoticeEntry
  | .contract j g ks => .contract j g (if j = i then ks ||| k else ks)
  | .device ks => .device ks

theorem map_withKinds_of_none {i : SlotIx} {k : BitVec 7} {q : List NoticeEntry} (h : some i ∉ q.map NoticeEntry.owner) :
    q.map (NoticeEntry.withKinds i k) = q := by
  induction q with
  | nil => rfl
  | cons e t ih =>
    rw [List.map_cons, List.mem_cons, not_or] at h
    rw [List.map_cons, ih h.2]
    cases e with
    | device => rfl
    | contract j g ks =>
      have : j ≠ i := fun e => h.1 (by rw [e]; rfl)
      simp only [NoticeEntry.withKinds, if_neg this]

theorem addContractKinds_eq_map {i : SlotIx} {g : Byte} {k : BitVec 7} {q : List NoticeEntry}
    (nodup : (q.map NoticeEntry.owner).Nodup) (h : some i ∈ q.map NoticeEntry.owner) :
    addContractKinds i g k q = q.map (NoticeEntry.withKinds i k) := by
  induction q with
  | nil => cases h
  | cons e t ih =>
    rw [List.map_cons, List.nodup_cons] at nodup
    rw [List.map_cons, List.mem_cons] at h
    cases e with
    | device ks =>
      rw [List.map_cons, ← ih nodup.2 (h.resolve_left (by simp [NoticeEntry.owner]))]
      rfl
    | contract j g' ks =>
      by_cases e : j = i
      · subst e
        rw [List.map_cons, map_withKinds_of_none nodup.1]
        simp [addContractKinds, NoticeEntry.withKinds]
      · rw [List.map_cons, ← ih nodup.2 (h.resolve_left fun h' => e (Option.some.inj h').symm)]
        simp [addContractKinds, NoticeEntry.withKinds, e]

theorem State.retireContract_notices_eq (hn : s.noticesSound) (i : SlotIx) (r : Record) :
    (s.retireContract i r).notices = s.notices.map (NoticeEntry.withKinds i 0x40) := by
  obtain ⟨differ, -⟩ := hn
  rw [State.retireContract_notices]
  split
  · rename_i h
    exact addContractKinds_eq_map ((pairwise_differ_iff _).1 differ) ((s.hasEntry_iff i).1 h)
  · rename_i h
    exact (map_withKinds_of_none (mt (s.hasEntry_iff i).2 h)).symm

/-! ## WIPE_TABLE -/

theorem exec_wipeTable_of_receiving (hs : s.receiving) (f : Frame) : exec (.wipeTable f) s =
    .next ((ok (s.frameEnded (3 + f.fill)).wipe [byteOf s.liveCount, byteOf s.drainingCount]).served .wipeTable f) :=
  congrArg Host.Outcome.next (State.serve_of_receiving hs _ _ _)

end Sys2Proof.Machine

section
open Sys2Proof Sys2Proof.Machine

/-- Settles O30. -/
theorem createRelationChecks : Obligations.CreateRelationChecks := by
  intro f o s hs hp
  have block := createBlock_of_passes (s := s.frameEnded (28 + f.fill)) hp
  refine ⟨fun i hi => ?_, fun ha p hpin full => ?_, fun ha hpin full => ?_⟩
  · have refused : ∀ e, createParentError (s.frameEnded (28 + f.fill)) (some ⟨i, o.parent.generation⟩) = some e →
        exec (.create f o) s = .next (s.replied (28 + f.fill) ⟨e, f.tag, 0x08, []⟩) := fun e he => by
      refine exec_create_refuse hs f (block.trans ?_)
      rw [parentOf_of_slot hi, he]
    refine ⟨fun hg => refused _ (if_pos hg), fun hg hr => refused _ ?_, fun p hg hr => ⟨fun hw => refused _ ?_, fun h1 h2 h3 h4 => refused _ ?_⟩⟩ <;>
      refine (if_neg (not_not_intro hg)).trans ?_
    · rw [show (s.frameEnded (28 + f.fill)).recordAt i = none from hr]
    · rw [show (s.frameEnded (28 + f.fill)).recordAt i = some p from hr]
      exact if_pos hw
    · rw [show (s.frameEnded (28 + f.fill)).recordAt i = some p from hr]
      refine (if_neg (by rw [h1]; rintro (h | h | h) <;> contradiction)).trans (if_pos h4)
  · have accepted := createParentError_of_accepted (s := s.frameEnded (28 + f.fill)) ha
    obtain rfl : (fixedOf o).pin = p := fin_ofNat_eq hpin
    refine exec_create_refuse hs f (block.trans ?_)
    rw [accepted]
    exact if_pos full
  · have accepted := createParentError_of_accepted (s := s.frameEnded (28 + f.fill)) ha
    refine ⟨byteOf s.drainingCount, exec_create_refuse hs f (block.trans ?_), toNat_drainingCount s⟩
    rw [accepted]
    have pin : 23 ≥ o.pin.toNat := Nat.not_lt.1 (hp 1 le_rfl)
    refine (if_neg (Nat.not_le.2 ?_)).trans ?_
    · exact hpin (fixedOf o).pin (by show o.pin.toNat = o.pin.toNat % 24; omega)
    · rw [lowestFree_eq_none (s := s.frameEnded (28 + f.fill)) full]
      rfl

/-- Settles O31: the record, the two sets and the parent's count are all that the placing of a contract writes. -/
theorem createPlacesTheContract : Obligations.CreatePlacesTheContract := by
  intro f o s i p b hs hp ha hpin hbase room free first
  obtain rfl : (fixedOf o).pin = p := fin_ofNat_eq hpin
  obtain rfl : (fixedOf o).base = b := fin_ofNat_eq hbase
  have accepted := createParentError_of_accepted ha
  have block : createBlock o (s.frameEnded (28 + f.fill)) = ok ((s.frameEnded (28 + f.fill)).place i o)
      [slotByte i, (((s.frameEnded (28 + f.fill)).place i o).slots[i]'i.isLt).generation,
        slotCode (((s.frameEnded (28 + f.fill)).place i o).slots[i]'i.isLt).body] := by
    refine (createBlock_of_passes hp).trans ?_
    rw [createParentError_of_accepted (s := s.frameEnded (28 + f.fill)) ha,
      lowestFree_eq_some (s := s.frameEnded (28 + f.fill)) free first]
    exact if_neg (Nat.not_le.2 room)
  have placed := State.place_slot_self (s := s.frameEnded (28 + f.fill)) accepted free
  refine ⟨_, s.created i o, congrArg Host.Outcome.next (serve_answer hs .create f block),
    State.place_recordAt_self (s := s.frameEnded (28 + f.fill)) accepted free, congrArg Slot.generation placed, ?_, rfl, passes_kind hp,
    passes_sense hp, rfl, parentOf_of_absent, fun j => parentOf_of_slot, rfl, rfl, gives_limitsOf (passes_setFails hp), rfl, rfl, rfl, rfl,
    rfl, rfl, rfl, rfl, rfl, rfl, ?_, s.created_state i o, (s.frameEnded (28 + f.fill)).place_pins i o,
    (s.frameEnded (28 + f.fill)).place_bases i o, fun j hj => ?_, by simp, by simp, by simp, by simp, by simp, by simp, by simp, by simp⟩
  · have payload : [slotByte i, (((s.frameEnded (28 + f.fill)).place i o).slots[i]'i.isLt).generation,
        slotCode (((s.frameEnded (28 + f.fill)).place i o).slots[i]'i.isLt).body] =
        [BitVec.ofNat 8 i.val, (s.slots[i]'i.isLt).generation + 1, stateCode (s.created i o).state] := by
      rw [Fin.getElem_fin, placed]; rfl
    rw [← payload]
    exact answered_served (by simp) .create f
  · rw [State.codeAgrees_iff, Answer.served_slots, ok_state, placed]
    exact s.created_code i o
  · exact ((s.frameEnded (28 + f.fill)).place_slot_ne o hj).trans ((s.frameEnded (28 + f.fill)).edit_if_eq j _ _)

/-- Settles O32. -/
theorem retireRemovesTheContract : Obligations.RetireRemovesTheContract := by
  intro f h x s i r hs hn hi hx hg hr
  have block := retireBlock_of_live (s := s.frameEnded (6 + f.fill)) hx hi hg hr
  refine ⟨fun hd => congrArg Host.Outcome.next (serve_refuse hs .retire f (block.trans (if_pos hd))),
    fun hd hst h0 => congrArg Host.Outcome.next (serve_refuse hs .retire f (block.trans ?_)), fun hd hst => ?_⟩
  · rw [if_neg (by omega), if_pos ⟨hst, by subst h0; rfl⟩]
    rfl
  · have taken : retireBlock h x (s.frameEnded (6 + f.fill)) = ok ((s.frameEnded (6 + f.fill)).retireContract i r)
        [slotCode (((s.frameEnded (6 + f.fill)).retireContract i r).slots[i]'i.isLt).body] := by
      refine block.trans ?_
      rw [if_neg (by omega), if_neg]
      rintro ⟨hv, hf⟩
      obtain ⟨h1, h2⟩ | rfl := hst
      · exact hv.elim h1 h2
      · cases hf
    have self := (s.frameEnded (6 + f.fill)).retireContract_slot_self i r
    refine ⟨_, congrArg Host.Outcome.next (serve_answer hs .retire f taken), ?_, self,
      State.retireContract_notices_eq (s := s.frameEnded (6 + f.fill)) hn i r, (s.frameEnded (6 + f.fill)).retireContract_base i r,
      (s.frameEnded (6 + f.fill)).retireContract_channel i r, (s.frameEnded (6 + f.fill)).retireContract_line i r,
      (s.frameEnded (6 + f.fill)).retireContract_observations i r, fun j hj => ?_, by simp, by simp, by simp, by simp, by simp⟩
    · have payload : slotCode (((s.frameEnded (6 + f.fill)).retireContract i r).slots[i]'i.isLt).body = if s.hasEntry i then 0x0A else 0x00 := by
        rw [Fin.getElem_fin, self]
        show slotCode (if s.hasEntry i then SlotBody.draining else .free) = _
        cases s.hasEntry i <;> rfl
      rw [← payload]
      exact answered_served (by simp) .retire f
    · exact ((s.frameEnded (6 + f.fill)).retireContract_slot_ne r hj).trans ((s.frameEnded (6 + f.fill)).edit_if_eq j _ _)

/-- Settles O34. -/
theorem wipeEmptiesTheTable : Obligations.WipeEmptiesTheTable := by
  intro f s hs
  have exec := exec_wipeTable_of_receiving hs f
  have slot := (s.frameEnded (3 + f.fill)).wipe_slot
  have base := (s.frameEnded (3 + f.fill)).wipe_base
  have pin := (s.frameEnded (3 + f.fill)).wipe_channel
  have line := (s.frameEnded (3 + f.fill)).wipe_line
  have notices := (s.frameEnded (3 + f.fill)).wipe_notices
  have observations := (s.frameEnded (3 + f.fill)).wipe_observations
  have port := (s.frameEnded (3 + f.fill)).wipe_port
  have ref := (s.frameEnded (3 + f.fill)).wipe_ref
  have scrub := (s.frameEnded (3 + f.fill)).wipe_scrub
  have supply := (s.frameEnded (3 + f.fill)).wipe_supply
  have inReset := (s.frameEnded (3 + f.fill)).wipe_inReset
  have pending := (s.frameEnded (3 + f.fill)).wipe_pending
  generalize (s.frameEnded (3 + f.fill)).wipe = t at *
  refine ⟨_, byteOf s.liveCount, byteOf s.drainingCount, exec, answered_served port .wipeTable f, toNat_liveCount s,
    toNat_drainingCount s, ?_⟩
  rw [Answer.served_slots, Answer.served_bases, Answer.served_pins, Answer.served_trips, Answer.served_notices,
    Answer.served_observations, Answer.served_ref, Answer.served_scrub, Answer.served_supply, Answer.served_inReset,
    Answer.served_pending, ok_state]
  refine ⟨slot, base, pin, line, notices.trans ?_, observations, ref, scrub, supply, inReset, pending⟩
  exact List.filter_congr fun e _ => by cases e <;> rfl

end
end

