-- ==== Sys2Proof/Proofs/QueryPayload.lean ====
section
set_option Elab.async false
/-! PROOFS. QUERY and the seventy-one bytes of its payload (O33). -/

namespace Sys2Proof.Machine

variable {s : State} {i : SlotIx} {r : Record}

/-! ## The parts of the payload -/

/-- The first eight bytes of QUERY's payload (R184). -/
def State.queryHead (s : State) (i : SlotIx) (r : Record) : List Byte :=
  [slotByte i, (s.slots[i]'i.isLt).generation, stateCode r.state, byteOf r.fixed.pin.val, kindCode r.fixed.kind, r.fixed.sense.setWidth 8,
    byteOf r.fixed.base.val, s.queryFlags r]

/-- The counters and the measurement in QUERY's payload (R184). -/
def Record.queryCounters (r : Record) : List Byte :=
  [byteOf r.strikes, byteOf r.recoveryRun, byteOf r.settleRemaining, byteOf r.dependents, phaseCode r.context.phase,
    byteOf r.context.silence]

/-- The statistics in QUERY's payload (R184). -/
def Statistics.bytes (x : Statistics) : List Byte :=
  be16 (BitVec.ofNat 16 x.observations) ++ be16 (BitVec.ofNat 16 x.outOfWindow) ++ be32Opt x.minValue ++ be32Opt x.maxValue

/-- The staged amendment in QUERY's payload (R184). -/
def stagedBytes : Option Limits → List Byte
  | some a => limitsBytes a
  | none => List.replicate 18 0x00

theorem State.queryPayload_eq (s : State) (i : SlotIx) (r : Record) : s.queryPayload i r =
    s.queryHead i r ++ (handleBytes r.fixed.parent ++ (limitsBytes r.limits ++ (r.queryCounters ++
      (lastBytes r.last ++ (r.stats.bytes ++ stagedBytes r.staged))))) := by
  simp only [State.queryPayload, State.queryHead, Record.queryCounters, Statistics.bytes, List.append_assoc]
  rfl

theorem be32Opt_length (w : Option Word32) : (be32Opt w).length = 4 := by cases w <;> rfl
theorem handleBytes_length (h : Option Handle) : (handleBytes h).length = 2 := by cases h <;> rfl
theorem stagedBytes_length (a : Option Limits) : (stagedBytes a).length = 18 := by cases a <;> rfl

theorem lastBytes_length (o : Option LastObservation) : (lastBytes o).length = 7 := by
  cases o with
  | none => rfl
  | some o => simp [lastBytes, be32Opt_length, be16]

theorem Statistics.bytes_length (x : Statistics) : x.bytes.length = 12 := by
  simp [Statistics.bytes, be32Opt_length, be16]

/-- Where the parts of QUERY's payload stand. -/
theorem query_sections {a b c d e f g : List Byte} (ha : a.length = 8) (hb : b.length = 2) (hc : c.length = 18) (hd : d.length = 6)
    (he : e.length = 7) (hf : f.length = 12) (hg : g.length = 18) :
    (a ++ (b ++ (c ++ (d ++ (e ++ (f ++ g)))))).length = 71 ∧
    (a ++ (b ++ (c ++ (d ++ (e ++ (f ++ g)))))).take 7 = a.take 7 ∧
    (a ++ (b ++ (c ++ (d ++ (e ++ (f ++ g))))))[7]? = a[7]? ∧
    ((a ++ (b ++ (c ++ (d ++ (e ++ (f ++ g)))))).drop 8).take 2 = b ∧
    ((a ++ (b ++ (c ++ (d ++ (e ++ (f ++ g)))))).drop 10).take 18 = c ∧
    ((a ++ (b ++ (c ++ (d ++ (e ++ (f ++ g)))))).drop 28).take 6 = d ∧
    ((a ++ (b ++ (c ++ (d ++ (e ++ (f ++ g)))))).drop 34).take 7 = e ∧
    ((a ++ (b ++ (c ++ (d ++ (e ++ (f ++ g)))))).drop 41).take 12 = f ∧
    (a ++ (b ++ (c ++ (d ++ (e ++ (f ++ g)))))).drop 53 = g := by
  have gone {x : List Byte} {n : Nat} (h : x.length ≤ n) : x.drop n = [] := List.drop_of_length_le h
  refine ⟨by simp [ha, hb, hc, hd, he, hf, hg], ?_, ?_, ?_, ?_, ?_, ?_, ?_, ?_⟩
  · simp [List.take_append, ha]
  · simp [List.getElem?_append, ha]
  all_goals simp [List.drop_append, ha, hb, hc, hd, he, hf, gone]

/-! ## The flags and the statistics -/

theorem flagBit_lt (b : Bool) {n m : Nat} (hn : n < m) : (flagBit b n).toNat < 2 ^ m := by
  cases b
  · simp [flagBit]
  · have : 2 ^ n < 2 ^ m := Nat.pow_lt_pow_right (by decide) hn
    simp only [flagBit, if_true, BitVec.toNat_shiftLeft, BitVec.toNat_ofNat, Nat.shiftLeft_eq]
    exact Nat.lt_of_le_of_lt (Nat.mod_le _ _) (by simpa using this)

theorem State.queryFlags_lt (s : State) (r : Record) : (s.queryFlags r).toNat < 64 := by
  have flag := fun (b : Bool) (n : Nat) (hn : n < 6) => flagBit_lt b hn
  simp only [State.queryFlags, BitVec.toNat_or]
  exact Nat.or_lt_two_pow (Nat.or_lt_two_pow (Nat.or_lt_two_pow (Nat.or_lt_two_pow (Nat.or_lt_two_pow
    (flag _ 0 (by decide)) (flag _ 1 (by decide))) (flag _ 2 (by decide))) (flag _ 3 (by decide))) (flag _ 4 (by decide)))
    (flag _ 5 (by decide))

theorem State.frozen_iff (s : State) (r : Record) :
    s.frozen r = true ↔ r.state = .violated ∧ (s.baseRunning r = false ∨ s.parentAllows r = false) := by
  simp [State.frozen, -Bool.not_eq_true, or_iff_not_imp_left]

theorem State.queryFlags_bits (s : State) (r : Record) :
    (s.queryFlags r).getLsbD 0 = r.fixed.oneshot ∧ (s.queryFlags r).getLsbD 1 = r.fixed.latching ∧
      (s.queryFlags r).getLsbD 2 = r.suspended ∧ (s.queryFlags r).getLsbD 3 = r.recovered ∧
      (s.queryFlags r).getLsbD 4 = s.frozen r ∧ (s.queryFlags r).getLsbD 5 = r.staged.isSome := by
  have bit : ∀ k, (s.queryFlags r).getLsbD k = _ := fun k => by
    simp only [State.queryFlags, BitVec.getLsbD_or, getLsbD_flagBit]
    rfl
  refine ⟨?_, ?_, ?_, ?_, ?_, ?_⟩ <;> rw [bit] <;> simp

theorem State.mapRecord_of_some (hr : s.recordAt i = some r) (f : Record → Record) :
    s.mapRecord i f = s.setSlot i ⟨(s.slots[i]'i.isLt).generation, .live (f r)⟩ := by
  have live : (s.slots[i]'i.isLt).body = .live r := State.recordAt_eq_some.1 hr
  simp only [State.mapRecord, live]

theorem limitsBytes_eq (a : Limits) : limitsBytes a = be32 a.lo ++ be32 a.hi ++ be32 a.margin ++
    [BitVec.ofNat 8 a.tolerance.toNat, BitVec.ofNat 8 a.recoveryCount.toNat, BitVec.ofNat 8 a.silenceLimit.toNat,
      BitVec.ofNat 8 a.settle.toNat, BitVec.ofNat 8 a.tripMask.toNat, BitVec.ofNat 8 a.noticeMask.toNat] := by
  simp only [limitsBytes, BitVec.ofNat_toNat]

end Sys2Proof.Machine

section
open Sys2Proof Sys2Proof.Machine

/-- Settles O33: the payload is the seven parts of `query_sections`, each as R184 lists it. -/
theorem queryReports : Obligations.QueryReports := by
  intro f h x s i r hs hi hx hg hr two four fourIf limits state kind phase outcome
  have block := queryBlock_of_live (s := s.frameEnded (6 + f.fill)) hx hi hg hr
  obtain ⟨length, head, flags, parent, inForce, counters, last, stats, staged⟩ := query_sections (a := s.queryHead i r)
    (b := handleBytes r.fixed.parent) (c := limitsBytes r.limits) (d := r.queryCounters) (e := lastBytes r.last)
    (f := r.stats.bytes) (g := stagedBytes r.staged) rfl (handleBytes_length _) rfl rfl (lastBytes_length _)
    (Statistics.bytes_length _) (stagedBytes_length _)
  rw [← State.queryPayload_eq] at length head flags parent inForce counters last stats staged
  have slot : slotByte i = h.slot := by
    rw [slotByte, byteOf, ← hi, BitVec.ofNat_toNat, BitVec.setWidth_eq]
  obtain ⟨b0, b1, b2, b3, b4, b5⟩ := s.queryFlags_bits r
  refine ⟨s.queryPayload i r, ?_, length, head.trans ?_,
    ⟨s.queryFlags r, flags, b0, b1, b2, b3, b4 ▸ s.frozen_iff r, b5, s.queryFlags_lt r⟩, parent.trans ?_, inForce.trans ?_, counters,
    last.trans ?_, stats.trans ?_, staged.trans ?_⟩
  · refine congrArg Host.Outcome.next ((serve_answer hs .query f block).trans ?_)
    by_cases h1 : x = 1
    · rw [if_pos ((optionSet_iff x hx).2 h1), if_pos h1, State.mapRecord_of_some (s := s.frameEnded (6 + f.fill)) hr]
      rfl
    · rw [if_neg (mt (optionSet_iff x hx).1 h1), if_neg h1]
      rfl
  · show [slotByte i, (s.slots[i]'i.isLt).generation, _, _, _, r.fixed.sense.setWidth 8, _] = _
    rw [slot, hg, ← BitVec.ofNat_toNat]
    rfl
  · cases r.fixed.parent <;> rfl
  · exact limitsBytes_eq _
  · cases r.last with
    | none => rfl
    | some o => cases o.value <;> rfl
  · simp only [Statistics.bytes]
    cases r.stats.minValue <;> cases r.stats.maxValue <;> rfl
  · cases r.staged with
    | none => rfl
    | some a => exact limitsBytes_eq a

end
end

