-- ==== Sys2Proof/Proofs/Taking.lean ====
section
set_option Elab.async false
/-! PROOFS. The events that a measuring context takes: edges, boundaries, and the boundary at the silence limit (O43 to O45). -/

namespace Sys2Proof.Machine

variable {s : State} {i : SlotIx} {r : Record} {dir : EdgeDir} {st : Stamp} {n : Word16} {before after : List ContextEvent}

/-! ## The event that comes next -/

theorem nextEdgeEvent_append (hb : ∀ e ∈ before, e = .boundary st.serial) (hc : before ≠ [] → st.counter = 0) :
    nextEdgeEvent (before ++ .edge dir st :: after) = some ((dir, st), before ++ after) := by
  induction before with
  | nil => rfl
  | cons e t ih =>
    obtain ⟨rfl, ht⟩ := List.forall_mem_cons.1 hb
    have zero : st.counter = 0 := hc (List.cons_ne_nil _ _)
    rw [List.cons_append, nextEdgeEvent, ih ht fun _ => zero]
    simp [sameTick, zero]

theorem nextBoundaryEvent_append (hb : ∀ e ∈ before, ∃ dir, e = .edge dir { serial := n, counter := 0 }) :
    nextBoundaryEvent (before ++ .boundary n :: after) = some (n, before ++ after) := by
  induction before with
  | nil => rfl
  | cons e t ih =>
    obtain ⟨⟨dir, rfl⟩, ht⟩ := List.forall_mem_cons.1 hb
    rw [List.cons_append, nextBoundaryEvent, ih ht]
    simp [sameTick]

/-- The level that is sampled, by the first edge that waits (R76). -/
theorem levelSeen_eq (now : Bool) (l : List ContextEvent) : levelSeen now l =
    match firstEdge l with
    | none => now
    | some .rise => false
    | some .fall => true := by
  induction l with
  | nil => rfl
  | cons e t ih =>
    cases e with
    | boundary => exact ih
    | edge dir st => cases dir <;> rfl

theorem firstEdge_without_boundary (before after : List ContextEvent) :
    firstEdge (before ++ .boundary n :: after) = firstEdge (before ++ after) := by
  induction before with
  | nil => rfl
  | cons e t ih =>
    cases e with
    | boundary => exact ih
    | edge => rfl

/-! ## What a taking leaves -/

theorem State.afterStep_none (hr : s.recordAt i = some r) (n : Word16) (c : Context) :
    s.afterStep i n (c, none) = s.setSlot i ⟨(s.slots[i]'i.isLt).generation, .live { r with context := c }⟩ :=
  State.mapRecord_of_some hr _

theorem State.afterStep_some (hr : s.recordAt i = some r) (n : Word16) (c : Context) (v : Option Word32) :
    s.afterStep i n (c, some v) = State.setSlot { s with observations := s.observations ++ [⟨s.handleOf i, v, n⟩] } i
      ⟨(s.slots[i]'i.isLt).generation, .live { r with context := c }⟩ := by
  unfold State.afterStep
  rw [State.mapRecord_of_some hr]
  rfl

theorem State.takeEdge_eq (hr : s.recordAt i = some r) (hm : s.measures r = true) (hi : r.context.inbox = before ++ .edge dir st :: after)
    (hb : ∀ e ∈ before, e = .boundary st.serial) (hc : before ≠ [] → st.counter = 0) : s.takeEdge i = s.afterStep i st.serial
      (stepEdge r.fixed.kind r.fixed.sense (s.bases[r.fixed.base]'r.fixed.base.isLt).modulus dir st { r.context with inbox := before ++ after }) := by
  simp only [State.takeEdge, hr, hm, Bool.not_true, Bool.false_eq_true, if_false, hi, nextEdgeEvent_append hb hc]

/-- A boundary that its condition lets a context take now. -/
theorem State.takeBoundary_eq (hr : s.recordAt i = some r) (hm : s.measures r = true)
    (hi : r.context.inbox = before ++ .boundary n :: after) (hb : ∀ e ∈ before, ∃ dir, e = .edge dir { serial := n, counter := 0 })
    (cond : Record → Word16 → Bool) : s.takeBoundary i cond =
      if cond r n then s.afterStep i n (stepBoundary r.fixed.kind r.limits.silenceLimit
        (levelSeen (s.pins[r.fixed.pin]'r.fixed.pin.isLt).level (before ++ after)) n { r.context with inbox := before ++ after })
      else s := by
  have level : levelSeen (s.pins[r.fixed.pin]'r.fixed.pin.isLt).level (before ++ .boundary n :: after) =
      levelSeen (s.pins[r.fixed.pin]'r.fixed.pin.isLt).level (before ++ after) := by
    rw [levelSeen_eq, levelSeen_eq, firstEdge_without_boundary]
  simp only [State.takeBoundary, hr, hm, Bool.not_true, Bool.false_eq_true, if_false, hi, nextBoundaryEvent_append hb, level]

theorem exec_edgeTaken_of_running (hs : s.inReset = false) : exec (.edgeTaken i) s = .next (s.takeEdge i) :=
  congrArg Host.Outcome.next (State.whileOperating_of_running hs _)

theorem exec_boundaryTaken_of_running (hs : s.inReset = false) : exec (.boundaryTaken i) s = .next (s.takeBoundary i fun _ _ => true) :=
  congrArg Host.Outcome.next (State.whileOperating_of_running hs _)

theorem exec_silenceLimit_of_running (hs : s.inReset = false) : exec (.silenceLimit i) s =
    .next (s.takeBoundary i fun r n => reachesSilence r.fixed.kind r.limits.silenceLimit n r.context) :=
  congrArg Host.Outcome.next (State.whileOperating_of_running hs _)

/-! ## Boundaries by kind and phase -/

section
variable {kind : Kind} {limit : BitVec 4} {level : Bool} {c : Context}

theorem stepBoundary_of_waiting (hw : isWaiting kind c.phase = true) (ha : addsSilence c n = true) :
    stepBoundary kind limit level n c = if limit.toNat ≤ c.silence + 1 then (Context.begin .opening c.inbox, some none)
      else ({ c with silence := c.silence + 1 }, none) := by
  have hp : c.phase ≠ .waitGate := fun e => by rw [e] at hw; cases kind <;> cases hw
  simp only [stepBoundary, if_neg hp, hw, ha, if_true, Bool.not_true, Bool.false_eq_true, if_false]

theorem stepBoundary_of_opening_tick (hw : isWaiting kind c.phase = true) (ha : addsSilence c n = false) :
    stepBoundary kind limit level n c = (c, none) := by
  have hp : c.phase ≠ .waitGate := fun e => by rw [e] at hw; cases kind <;> cases hw
  simp only [stepBoundary, if_neg hp, hw, ha, if_true, Bool.not_false]

theorem addsSilence_of_ne (hp : c.phase ≠ .counting) : addsSilence c n = true := by
  unfold addsSilence
  split
  · rename_i h _; exact absurd h hp
  · rfl

theorem addsSilence_of_counting {o : Stamp} (hp : c.phase = .counting) (ho : c.opening = some o) :
    addsSilence c n = decide (o.serial ≠ n) := by
  simp only [addsSilence, hp, ho]

end

end Sys2Proof.Machine

section
open Sys2Proof Sys2Proof.Machine

/-- Settles O43: what the context of each kind does with an edge in each of its phases. -/
theorem edgesTaken : Obligations.EdgesTaken := by
  intro i r dir st before after s hs hr hm hi hb hc c qualifying pos counted stay active goesOn closes
  have taken : exec (.edgeTaken i) s = .next (s.afterStep i st.serial
      (stepEdge r.fixed.kind r.fixed.sense (s.bases[r.fixed.base]'r.fixed.base.isLt).modulus dir st c)) := by
    rw [exec_edgeTaken_of_running hs, State.takeEdge_eq hr hm hi hb hc]
  have qualifies_eq : qualifies r.fixed.sense dir = qualifying := by cases dir <;> rfl
  have going : ∀ c', stepEdge r.fixed.kind r.fixed.sense (s.bases[r.fixed.base]'r.fixed.base.isLt).modulus dir st c = (c', none) → goesOn c' :=
    fun c' h => by rw [h, State.afterStep_none hr] at taken; exact taken
  have closing : ∀ v, stepEdge r.fixed.kind r.fixed.sense (s.bases[r.fixed.base]'r.fixed.base.isLt).modulus dir st c = closeAtEdge c v → closes v :=
    fun v h => by rw [h, closeAtEdge, State.afterStep_some hr] at taken; exact taken
  refine ⟨fun hp => going _ ?_, fun hk hp => ⟨fun hq => going _ ?_, fun hq => going _ ?_⟩, fun hk => ⟨fun hp hq => going _ ?_,
    fun hp hq => closing _ ?_, fun hp hq => going _ ?_⟩, fun hk hp => ⟨fun hq => closing _ ?_, fun hq => going _ ?_⟩,
    fun hk hp => ⟨fun hq => closing _ ?_, fun hq => going _ ?_⟩, fun hk => ⟨fun hp hq => going _ ?_, fun hp hq => going _ ?_,
      fun hp hq => ⟨fun h0 => going _ ?_, fun h0 => closing _ ?_⟩⟩, fun hk hp => ⟨fun hq => going _ ?_, fun hq => going _ ?_⟩,
    fun hk hp => going _ ?_⟩
  · unfold stepEdge
    rw [hp]
    cases r.fixed.kind <;> rfl
  · obtain hk | hk | hk | hk := hk <;> simp only [stepEdge, hk, hp, qualifies_eq.trans hq, if_true] <;> rfl
  · obtain hk | hk | hk | hk := hk <;> simp only [stepEdge, hk, hp, qualifies_eq.trans hq, if_false, Bool.false_eq_true]
  · simp only [stepEdge, hk, hp, qualifies_eq.trans hq, if_true] <;> rfl
  · simp only [stepEdge, hk, hp, qualifies_eq.trans hq, if_true] <;> rfl
  · obtain hp | hp := hp <;> simp only [stepEdge, hk, hp, qualifies_eq.trans hq, if_false, Bool.false_eq_true]
  · simp only [stepEdge, hk, hp, qualifies_eq.trans hq, if_true] <;> rfl
  · simp only [stepEdge, hk, hp, qualifies_eq.trans hq, if_false, Bool.false_eq_true]
  · simp only [stepEdge, hk, hp, qualifies_eq.trans hq, if_false, Bool.false_eq_true] <;> rfl
  · simp only [stepEdge, hk, hp, qualifies_eq.trans hq, if_true]
  · obtain hp | hp := hp <;> simp only [stepEdge, hk, hp, qualifies_eq.trans hq, if_false, Bool.false_eq_true] <;> rfl
  · simp only [stepEdge, hk, hp, qualifies_eq.trans hq, if_true] <;> rfl
  · have zero : position (s.bases[r.fixed.base]'r.fixed.base.isLt).modulus c.opening st = 0 := h0
    simp only [stepEdge, hk, hp, qualifies_eq.trans hq, zero, if_true]
  · have positive : position (s.bases[r.fixed.base]'r.fixed.base.isLt).modulus c.opening st ≠ 0 := Nat.ne_of_gt h0
    simp only [stepEdge, hk, hp, qualifies_eq.trans hq, if_neg positive, if_true] <;> rfl
  · simp only [stepEdge, hk, hp, qualifies_eq.trans hq, if_true] <;> rfl
  · simp only [stepEdge, hk, hp, qualifies_eq.trans hq, if_false, Bool.false_eq_true]
  · simp only [stepEdge, hk, hp]

/-- Settles O44: what the context of each kind does with a boundary in each of its phases. -/
theorem boundariesTaken : Obligations.BoundariesTaken := by
  intro i r n before after s hs hr hm hi hb c begun goesOn closes
  have taken : exec (.boundaryTaken i) s = .next (s.afterStep i n (stepBoundary r.fixed.kind r.limits.silenceLimit
      (levelSeen (s.pins[r.fixed.pin]'r.fixed.pin.isLt).level c.inbox) n c)) := by
    rw [exec_boundaryTaken_of_running hs, State.takeBoundary_eq hr hm hi hb, if_pos rfl]
  have seen := levelSeen_eq (s.pins[r.fixed.pin]'r.fixed.pin.isLt).level c.inbox
  generalize levelSeen (s.pins[r.fixed.pin]'r.fixed.pin.isLt).level c.inbox = level at taken seen
  have going : ∀ c', stepBoundary r.fixed.kind r.limits.silenceLimit level n c = (c', none) → goesOn c' :=
    fun c' h => by rw [h, State.afterStep_none hr] at taken; exact taken
  have closing : ∀ v p, stepBoundary r.fixed.kind r.limits.silenceLimit level n c = (begun p, some (some (BitVec.ofNat 32 v))) →
      closes v p := fun v p h => by rw [h, State.afterStep_some hr] at taken; exact taken
  have waiting : isWaiting r.fixed.kind c.phase = true → addsSilence c n = true → c.silence + 1 < r.limits.silenceLimit.toNat →
      goesOn { c with silence := c.silence + 1 } := fun hw ha h =>
    going _ ((stepBoundary_of_waiting hw ha).trans (if_neg (Nat.not_le.2 h)))
  refine ⟨fun hp => going _ ?_, fun hk hp => going _ ?_, fun hk hp => closing _ _ ?_, fun hk hp => ⟨fun he => closing _ _ ?_,
    fun he => closing _ _ ?_, fun he => closing _ _ ?_⟩, fun hw h => waiting ?_ (addsSilence_of_ne ?_) h,
    fun hk hp o ho => ⟨fun e => going _ (stepBoundary_of_opening_tick ?_ ?_), fun e h => waiting ?_ ?_ h⟩⟩
  · unfold stepBoundary
    rw [if_pos hp]
    cases r.fixed.kind <;> rfl
  · obtain hk | hk := hk <;> simp [stepBoundary, hk, hp, isWaiting]
  · simp [stepBoundary, hk, hp, isWaiting]
    exact ⟨rfl, rfl⟩
  · rw [he] at seen
    subst seen
    simp only [stepBoundary, hk, hp, isWaiting]
    cases (s.pins[r.fixed.pin]'r.fixed.pin.isLt).level <;> rfl
  · rw [he] at seen
    subst seen
    simp only [stepBoundary, hk, hp, isWaiting] <;> rfl
  · rw [he] at seen
    subst seen
    simp only [stepBoundary, hk, hp, isWaiting] <;> rfl
  · obtain ⟨hp, hk | hk | hk | hk⟩ | ⟨hp, hk | hk⟩ := hw <;> rw [hk, hp] <;> rfl
  · obtain ⟨hp, -⟩ | ⟨hp, -⟩ := hw <;> rw [hp] <;> decide
  · obtain hk | hk := hk <;> rw [hk, hp] <;> rfl
  · rw [addsSilence_of_counting hp ho, e]; simp
  · obtain hk | hk := hk <;> rw [hk, hp] <;> rfl
  · rw [addsSilence_of_counting hp ho]; simpa using e

/-- Settles O45: in a waiting phase the boundary at the limit is the one that `reachesSilence` names. -/
theorem silenceEndsAMeasurement : Obligations.SilenceEndsAMeasurement := by
  intro i r n before after s hs hr hm hi hb edgeKind waits
  have boundary := exec_boundaryTaken_of_running (i := i) hs
  have silence := exec_silenceLimit_of_running (i := i) hs
  rw [State.takeBoundary_eq hr hm hi hb] at boundary silence
  refine ⟨fun hw limit => ?_, fun short => ?_⟩
  · have waiting : isWaiting r.fixed.kind r.context.phase = true ∧ addsSilence r.context n = true := by
      obtain ⟨hp, hk⟩ | ⟨hp, hk⟩ | ⟨hp, hk, o, ho, e⟩ := hw
      · refine ⟨?_, addsSilence_of_ne (by rw [hp]; decide)⟩
        obtain hk | hk | hk | hk := hk <;> rw [hk, hp] <;> rfl
      · refine ⟨?_, addsSilence_of_ne (by rw [hp]; decide)⟩
        obtain hk | hk := hk <;> rw [hk, hp] <;> rfl
      · refine ⟨?_, by rw [addsSilence_of_counting hp ho]; simpa using e⟩
        obtain hk | hk := hk <;> rw [hk, hp] <;> rfl
    have reaches : reachesSilence r.fixed.kind r.limits.silenceLimit n r.context = true := by
      simp [reachesSilence, waiting, limit]
    rw [if_pos rfl] at boundary
    rw [if_pos reaches] at silence
    refine ⟨silence.trans (congrArg Host.Outcome.next ?_), boundary.trans silence.symm⟩
    rw [stepBoundary_of_waiting (c := { r.context with inbox := before ++ after }) waiting.1 waiting.2, if_pos limit,
      State.afterStep_some hr]
    rfl
  · rw [if_neg] at silence
    · exact silence
    · simp [reachesSilence, Nat.not_le.2 short]

end
end

