-- ==== Sys2Proof/Proofs/BasesAndPins.lean ====
section
set_option Elab.async false
/-! PROOFS. The registers of a time base, its ticks and boundaries, and the samples and edges of a pin (O46, O49, O51, O52). -/

namespace Sys2Proof.Machine

variable {s : State} {f : Frame} {i j : SlotIx} {r : Record}

/-! ## The base number -/

theorem withBase_of_above {b : Byte} (h : 3 < b.toNat) (act : BaseIx → Answer) : withBase s b act = refuse s .badField [1] := by
  simp only [withBase, indexOf_eq_none.2 h]

theorem withBase_of_base {base : Byte} {b : BaseIx} (h : base.toNat = b.val) (act : BaseIx → Answer) : withBase s base act = act b := by
  simp only [withBase, indexOf_eq_some.2 h]

theorem setTimebaseError_of_tap {tap : Byte} {modulus : Word16} (h : 7 < tap.toNat) : setTimebaseError tap modulus = some 2 := by
  simp [setTimebaseError, firstFailing, h]

theorem setTimebaseError_of_modulus {tap : Byte} {modulus : Word16} (ht : tap.toNat ≤ 7) (h : modulus.toNat < 16) :
    setTimebaseError tap modulus = some 3 := by
  simp [setTimebaseError, firstFailing, Nat.not_lt.2 ht, h]

theorem setTimebaseError_of_passes {tap : Byte} {modulus : Word16} (ht : tap.toNat ≤ 7) (h : 16 ≤ modulus.toNat) :
    setTimebaseError tap modulus = none := by
  simp [setTimebaseError, firstFailing, Nat.not_lt.2 ht, Nat.not_lt.2 h]

/-! ## An event handed on -/

/-- The record with an event last in its inbox, when it measures (R87, R104). -/
def State.handedIn (s : State) (ev : Record → ContextEvent) (r : Record) : Record :=
  if s.measures r then r.withInbox (r.context.inbox ++ [ev r]) else r

theorem State.handTo_slot (s : State) (i : SlotIx) (ev : Record → ContextEvent) (j : SlotIx) :
    (s.handTo i ev).slots[j.val]'j.isLt = if j = i then (s.slots[j.val]'j.isLt).edit (s.handedIn ev) else s.slots[j.val]'j.isLt := by
  by_cases e : j = i
  · subst e
    rw [if_pos rfl]
    unfold State.handTo
    split
    · rename_i h
      unfold State.recordAt at h
      unfold Slot.edit
      cases hb : (s.slots[j.val]'j.isLt).body <;> simp_all
    · rename_i r h
      have hb : (s.slots[j.val]'j.isLt).body = .live r := State.recordAt_eq_some.1 h
      by_cases hm : s.measures r = true
      · simp [hm, State.mapRecord_slot, Slot.edit, hb, State.handedIn, Record.withInbox]
      · simp only [hm, Bool.false_eq_true, if_false, Slot.edit, hb, State.handedIn]
        exact congrArg (Slot.mk _) hb
  · rw [if_neg e]
    obtain h | ⟨r, -, -, h⟩ := State.handTo_cases s i ev <;> rw [h]
    rw [State.mapRecord_slot, if_neg e]

theorem State.handTo_handedIn (s : State) (i : SlotIx) (ev ev' : Record → ContextEvent) :
    (s.handTo i ev').handedIn ev = s.handedIn ev := by
  funext r
  rw [State.handedIn, State.handTo_measures, State.handedIn]

theorem State.handOn_slot (s : State) {ms : List SlotIx} (nd : ms.Nodup) (ev : Record → ContextEvent) (j : SlotIx) :
    (s.handOn ms ev).slots[j.val]'j.isLt = if j ∈ ms then (s.slots[j.val]'j.isLt).edit (s.handedIn ev) else s.slots[j.val]'j.isLt := by
  rw [State.handOn_eq]
  induction ms generalizing s with
  | nil => simp
  | cons a t ih =>
    obtain ⟨ha, nt⟩ := List.nodup_cons.1 nd
    rw [List.foldl_cons, ih _ nt, State.handTo_slot, State.handTo_handedIn]
    by_cases e : j = a
    · subst e; simp [ha]
    · simp [e]

theorem State.handOn_frame (s : State) (ms : List SlotIx) (ev : Record → ContextEvent) :
    s.handOn ms ev = { s with slots := (s.handOn ms ev).slots } := by
  have bases := s.handOn_bases ms ev
  have pins := s.handOn_pins ms ev
  have trips := s.handOn_trips ms ev
  have notices := s.handOn_notices ms ev
  have observations := s.handOn_observations ms ev
  have ref := s.handOn_ref ms ev
  have scrub := s.handOn_scrub ms ev
  have port := s.handOn_port ms ev
  have supply := s.handOn_supply ms ev
  have inReset := s.handOn_inReset ms ev
  have pending := s.handOn_pending ms ev
  generalize s.handOn ms ev = t at *
  cases t
  simp_all

/-- What handing on to a duplicate-free set leaves in a slot, as the statements write it. -/
theorem State.handOn_slot_eq (s t : State) {ms : List SlotIx} (nd : ms.Nodup) (ev : Record → ContextEvent)
    (slots : t.slots = s.slots) (measures : ∀ r, t.measures r = s.measures r) (j : SlotIx) :
    (t.handOn ms ev).slots[j]'j.isLt =
      match s.recordAt j with
      | some r =>
        if j ∈ ms ∧ s.measures r = true then
          ⟨(s.slots[j]'j.isLt).generation, .live { r with context := { r.context with inbox := r.context.inbox ++ [ev r] } }⟩
        else (s.slots[j]'j.isLt)
      | none => (s.slots[j]'j.isLt) := by
  rw [Fin.getElem_fin, t.handOn_slot nd ev j, slots]
  unfold State.recordAt Slot.edit State.handedIn
  simp only [Fin.getElem_fin, measures]
  cases hb : (s.slots[j.val]'j.isLt).body with
  | free => simp
  | draining => simp
  | live r =>
    by_cases hj : j ∈ ms
    · by_cases hm : s.measures r = true
      · simp [hj, hm, Record.withInbox]
      · simp [hj, hm, ← hb]
    · simp [hj]

theorem State.setBase_measures {b : BaseIx} {y : TimeBase} (h : y.state = (s.bases[b.val]'b.isLt).state) (r : Record) :
    (s.setBase b y).measures r = s.measures r := by
  have runs : (s.setBase b y).runs = s.runs := by
    funext a
    rw [State.setBase_runs_eq]
    split
    · rename_i e; subst e; rw [h]; rfl
    · rfl
  rw [State.measures_eq, State.measures_eq, runs]
  rfl

theorem State.setChannel_measures (s : State) (p : PinIx) (c : PinChannel) (r : Record) :
    (s.setChannel p c).measures r = s.measures r := rfl

/-! ## Ticks and samples -/

theorem TimeBase.tickDue_iff (t : TimeBase) : t.tickDue = true ↔ t.state = .running ∧ 2 ^ t.tap.val ≤ t.divider := by
  simp [TimeBase.tickDue]

section
variable {b : BaseIx} {p : PinIx} {level : Bool}

theorem exec_baseTickEnd_of_running (hs : s.inReset = false) : exec (.baseTickEnd b) s =
    .next (if (s.bases[b]'b.isLt).tickDue = true ∧ (s.bases[b]'b.isLt).counter.toNat + 1 < (s.bases[b]'b.isLt).modulus.toNat then
      s.setBase b { (s.bases[b]'b.isLt) with counter := (s.bases[b]'b.isLt).counter + 1, divider := 0 } else s) :=
  congrArg Host.Outcome.next (State.whileOperating_of_running hs _)

theorem exec_gateBoundary_of_running (hs : s.inReset = false) : exec (.gateBoundary b) s =
    .next (if (s.bases[b]'b.isLt).tickDue = true ∧ (s.bases[b]'b.isLt).modulus.toNat ≤ (s.bases[b]'b.isLt).counter.toNat + 1 then
      (s.setBase b { (s.bases[b]'b.isLt) with counter := 0, serial := (s.bases[b]'b.isLt).serial + 1, divider := 0 }).handOn
        (s.bases[b]'b.isLt).subscribers (fun _ => .boundary ((s.bases[b]'b.isLt).serial + 1)) else s) :=
  congrArg Host.Outcome.next (State.whileOperating_of_running hs _)

theorem exec_pinSample_of_running (hs : s.inReset = false) : exec (.pinSample p level) s =
    .next (s.setChannel p ((s.pins[p]'p.isLt).sample level)) :=
  congrArg Host.Outcome.next (State.whileOperating_of_running hs _)

theorem exec_edgeProduced_of_running (hs : s.inReset = false) : exec (.edgeProduced p) s =
    .next (if (s.pins[p]'p.isLt).due = true ∧ (s.pins[p]'p.isLt).initialized = true ∧ 2 ^ (s.pins[p]'p.isLt).filter.val ≤ (s.pins[p]'p.isLt).runCount + 1 ∧
        s.anyTickDue = false then
      (s.setChannel p { (s.pins[p]'p.isLt) with raw := !(s.pins[p]'p.isLt).level, level := !(s.pins[p]'p.isLt).level, runCount := 0, due := false }).handOn
        (s.pins[p]'p.isLt).subscribers (fun r => .edge (s.pins[p]'p.isLt).nextEdge (s.bases[r.fixed.base]'r.fixed.base.isLt).stamp) else s) :=
  congrArg Host.Outcome.next (State.whileOperating_of_running hs _)

theorem exec_firstSample_of_running {levels : BitVec 24} (hs : s.inReset = false) : exec (.firstSample levels) s =
    .next (allPins.foldl (fun s p => s.setChannel p ((s.pins[p]'p.isLt).firstSample (levels.getLsbD p.val))) s) :=
  congrArg Host.Outcome.next (State.whileOperating_of_running hs _)

theorem State.setChannel_self (s : State) (p : PinIx) : s.setChannel p (s.pins[p]'p.isLt) = s := by
  cases s
  simp [State.setChannel]

theorem PinChannel.sample_of_idle {c : PinChannel} (h : ¬ (c.initialized = true ∧ c.due = true)) : c.sample level = c := by
  rw [PinChannel.sample, if_pos]
  cases hd : c.due <;> simp_all

theorem PinChannel.sample_of_equal {c : PinChannel} (h : c.initialized = true ∧ c.due = true) (hl : level = c.level) :
    c.sample level = { c with raw := level, runCount := 0, due := false } := by
  rw [PinChannel.sample, if_neg (by simp [h]), if_pos hl]

theorem PinChannel.sample_of_differs {c : PinChannel} (h : c.initialized = true ∧ c.due = true) (hl : level ≠ c.level) :
    c.sample level = if c.runCount + 1 < 2 ^ c.filter.val then
      { c with raw := level, runCount := c.runCount + 1, due := false } else c := by
  rw [PinChannel.sample, if_neg (by simp [h]), if_neg hl]

/-- Channels edited one after the other leave everything but the pins. -/
theorem State.foldl_setChannel_frame (l : List PinIx) (g : State → PinIx → PinChannel) (s : State) :
    l.foldl (fun s p => s.setChannel p (g s p)) s =
      { s with pins := (l.foldl (fun s p => s.setChannel p (g s p)) s).pins } := by
  induction l generalizing s with
  | nil => rfl
  | cons p t ih => exact ih (s.setChannel p (g s p))

theorem State.getLsbD_pinLevels (s : State) (p : PinIx) : s.pinLevels.getLsbD p.val = (s.pins[p]'p.isLt).level := by
  rw [State.pinLevels, getLsbD_foldl_or, Bool.eq_iff_iff]
  simp only [BitVec.ofNat_eq_ofNat, BitVec.getLsbD_zero, Bool.false_or, List.any_eq_true]
  constructor
  · rintro ⟨q, -, hq⟩
    by_cases hl : (s.pins[q]'q.isLt).level = true
    · rw [if_pos hl, BitVec.getLsbD_shiftLeft] at hq
      simp at hq
      obtain rfl : p = q := Fin.ext (by omega)
      exact hl
    · rw [if_neg hl] at hq; simp at hq
  · intro hl
    refine ⟨p, List.mem_finRange p, ?_⟩
    rw [if_pos hl]
    simp

end

end Sys2Proof.Machine

section
open Sys2Proof Sys2Proof.Machine

/-- Settles O46: the base is checked first, then tap and modulus, then the state. -/
theorem setAndReadTimebase : Obligations.SetAndReadTimebase := by
  intro f base tap modulus s hs refusedWith
  have refused : ∀ {e p}, setTimebaseBlock base tap modulus (s.frameEnded (7 + f.fill)) = refuse (s.frameEnded (7 + f.fill)) e p →
      refusedWith e p := fun h => congrArg Host.Outcome.next (serve_refuse hs .setTimebase f h)
  refine ⟨fun above => ⟨refused (withBase_of_above above _), congrArg Host.Outcome.next
    (serve_refuse hs .readTimebase f (withBase_of_above above _))⟩, fun b hb => ?_⟩
  have block : setTimebaseBlock base tap modulus (s.frameEnded (7 + f.fill)) = _ := withBase_of_base hb _
  refine ⟨fun ht => refused ?_, fun ht hm => refused ?_, fun ht hm hst => refused ?_, fun k hk hm hst => ?_, ?_⟩
  · rw [block, setTimebaseError_of_tap ht]
  · rw [block, setTimebaseError_of_modulus ht hm]
  · rw [block, setTimebaseError_of_passes ht hm]
    exact if_neg hst
  · refine congrArg Host.Outcome.next (serve_answer hs .setTimebase f (a := ok ((s.frameEnded (7 + f.fill)).setBase b
      { (s.bases[b]'b.isLt) with tap := k, modulus := modulus })) (block.trans ?_))
    rw [setTimebaseError_of_passes (by omega) hm, fin_ofNat_eq hk]
    exact if_pos hst
  · exact congrArg Host.Outcome.next (serve_answer hs .readTimebase f (a := ok (s.frameEnded (4 + f.fill)) (s.bases[b]'b.isLt).payload)
      (withBase_of_base hb _))

/-- Settles O49. -/
theorem ticksAndBoundaries : Obligations.TicksAndBoundaries := by
  intro b s hs t tickEnds
  have due : (s.bases[b]'b.isLt).tickDue = true ↔ tickEnds := TimeBase.tickDue_iff _
  have tick := exec_baseTickEnd_of_running (b := b) hs
  have boundary := exec_gateBoundary_of_running (b := b) hs
  refine ⟨fun h short => ⟨?_, ?_⟩, fun h full canonical => ⟨?_, ?_⟩, fun h => ⟨?_, ?_⟩⟩
  · rw [tick, if_pos ⟨due.2 h, short⟩]
  · rw [boundary, if_neg fun h' => Nat.not_le.2 short h'.2]
  · rw [tick, if_neg fun h' => Nat.not_le.2 h'.2 full]
  · rw [if_pos ⟨due.2 h, full⟩] at boundary
    have frame := State.handOn_frame (s.setBase b { (s.bases[b]'b.isLt) with counter := 0, serial := (s.bases[b]'b.isLt).serial + 1, divider := 0 })
      (s.bases[b]'b.isLt).subscribers (fun _ => .boundary ((s.bases[b]'b.isLt).serial + 1))
    have slots := State.handOn_slot_eq s (s.setBase b { (s.bases[b]'b.isLt) with
      counter := 0, serial := (s.bases[b]'b.isLt).serial + 1, divider := 0 }) canonical.nodup
      (fun _ => .boundary ((s.bases[b]'b.isLt).serial + 1)) rfl (State.setBase_measures rfl)
    generalize State.handOn _ _ _ = u at boundary frame slots
    exact ⟨u, boundary, frame, slots⟩
  · rw [tick, if_neg fun h' => h (due.1 h'.1)]
  · rw [boundary, if_neg fun h' => h (due.1 h'.1)]

/-- Settles O51: a sample edits its channel alone, and an edge is handed on as a boundary is. -/
theorem samplesAndEdges : Obligations.SamplesAndEdges := by
  intro p level s hs c sampling ticksCounted
  have counted : s.anyTickDue = false ↔ ticksCounted := s.anyTickDue_eq_false
  have sample := exec_pinSample_of_running (p := p) (level := level) hs
  have edge := exec_edgeProduced_of_running (p := p) hs
  refine ⟨fun h hl => ?_, fun h hl short => ⟨?_, ?_⟩, fun h full hl => ?_, fun h full ticks canonical => ?_, fun h => ?_,
    fun h => ⟨?_, ?_⟩⟩
  · rw [sample, PinChannel.sample_of_equal h hl]
  · rw [sample, PinChannel.sample_of_differs h hl, if_pos short]
  · rw [edge, if_neg fun h' => Nat.not_le.2 short h'.2.2.1]
  · rw [sample, PinChannel.sample_of_differs h hl, if_neg (Nat.not_lt.2 full), State.setChannel_self]
  · rw [if_pos ⟨h.2, h.1, full, counted.2 ticks⟩] at edge
    have frame := State.handOn_frame (s.setChannel p { (s.pins[p]'p.isLt) with
      raw := !(s.pins[p]'p.isLt).level, level := !(s.pins[p]'p.isLt).level, runCount := 0, due := false })
      (s.pins[p]'p.isLt).subscribers (fun r => .edge (s.pins[p]'p.isLt).nextEdge (s.bases[r.fixed.base]'r.fixed.base.isLt).stamp)
    have slots := State.handOn_slot_eq s (s.setChannel p { (s.pins[p]'p.isLt) with
      raw := !(s.pins[p]'p.isLt).level, level := !(s.pins[p]'p.isLt).level, runCount := 0, due := false }) canonical.nodup
      (fun r => .edge (s.pins[p]'p.isLt).nextEdge (s.bases[r.fixed.base]'r.fixed.base.isLt).stamp) rfl (s.setChannel_measures p _)
    generalize State.handOn _ _ _ = u at edge frame slots
    exact ⟨u, edge, frame, slots⟩
  · rw [edge, if_neg fun h' => h (counted.1 h'.2.2.2)]
  · rw [sample, PinChannel.sample_of_idle h, State.setChannel_self]
  · rw [edge, if_neg fun h' => h ⟨h'.2.1, h'.1⟩]

/-- Settles O52. -/
theorem firstSampleAndReadPins : Obligations.FirstSampleAndReadPins := by
  refine ⟨fun levels s hs => ⟨_, exec_firstSample_of_running hs, State.foldl_setChannel_frame _ _ s, fun p => ?_⟩, fun f s hs =>
    ⟨s.pinLevels.extractLsb' 16 8, s.pinLevels.extractLsb' 8 8, s.pinLevels.extractLsb' 0 8,
      congrArg Host.Outcome.next (serve_answer hs .readPins f rfl), fun p => ?_⟩⟩
  · refine (foldl_get_all (fun s (p : PinIx) => (s.pins[p.val]'p.isLt)) _ (fun p c => c.firstSample (levels.getLsbD p.val)) (fun s p => by simp)
      (fun s p q h => by simp [State.setChannel_get_ne, h]) s p).trans ?_
    unfold PinChannel.firstSample
    by_cases h : (s.pins[p]'p.isLt).initialized = true ∨ (s.pins[p]'p.isLt).due = false
    · rw [if_pos h, if_neg]
      · rfl
      · obtain h | h := h <;> simp_all
    · rw [if_neg h, if_pos]
      · rfl
      · simp_all
  · rw [← s.getLsbD_pinLevels p]
    congr 1
    generalize s.pinLevels = x
    ext k hk
    simp
    grind

end
end

