-- ==== Sys2Proof/Proofs/NoticesAndScrubber.lean ====
section
set_option Elab.async false
/-! PROOFS. Observations that are discarded or void, the notice commands, RELEASE_TRIP, changes in storage and the scrubber
(O35, O55, O57, O59). -/

namespace Sys2Proof.Machine

variable {s : State} {f : Frame} {i j : SlotIx} {r : Record} {h : Handle} {q : List NoticeEntry}

/-! ## OBSERVATION_TAKEN -/

theorem exec_observationTaken_of_none (hs : s.inReset = false) (hx : ∀ o ∈ s.observations, o.handle ≠ h) :
    exec (.observationTaken h) s = .next s := by
  refine congrArg Host.Outcome.next ((State.whileOperating_of_running hs _).trans ?_)
  rw [firstObservation_of_none hx]

theorem exec_observationTaken_of_split {older newer : List Observation} {o : Observation} (hs : s.inReset = false)
    (ho : s.observations = older ++ o :: newer) (hx : ∀ x ∈ older, x.handle ≠ o.handle) :
    exec (.observationTaken o.handle) s = .next ((s.without (older ++ newer)).takeObservation o) := by
  refine congrArg Host.Outcome.next ((State.whileOperating_of_running hs _).trans ?_)
  rw [ho, firstObservation_of_split rfl hx]
  rfl

section
variable {o : Observation}

theorem State.takeObservation_of_none (hr : s.contractAt o.handle = none) : s.takeObservation o = s := by
  simp only [State.takeObservation, hr]

theorem State.takeObservation_of_idle (hr : s.contractAt o.handle = some r) (hm : s.measures r = false) : s.takeObservation o = s := by
  simp only [State.takeObservation, hr, hm, Bool.not_false, if_true]

theorem State.takeObservation_of_settling (hr : s.contractAt o.handle = some r) (hst : r.state = .arming) (h0 : 0 < r.settleRemaining) :
    s.takeObservation o = s.mapRecord o.handle.slot (fun r => { r with settleRemaining := r.settleRemaining - 1 }) := by
  have hm : s.measures r = true := by simp [State.measures, isMeasuring, hst]
  simp only [State.takeObservation, hr, hm, Bool.not_true, Bool.false_eq_true, if_false, hst, h0, and_self, if_true]

theorem State.takeObservation_of_counted (hr : s.contractAt o.handle = some r) (hm : s.measures r = true)
    (settled : r.state = .arming → r.settleRemaining = 0) : s.takeObservation o = s.judge o.handle.slot o := by
  simp only [State.takeObservation, hr, hm, Bool.not_true, Bool.false_eq_true, if_false]
  exact if_neg fun h => by rw [settled h.1] at h; exact absurd h.2 (by decide)

end

/-! ## The entries of the queue -/

/-- An entry, with the kinds that ACK_NOTICE leaves when it is the device's (R140). -/
def NoticeEntry.ackedDevice (left : BitVec 3) : NoticeEntry → Option NoticeEntry
  | .device _ => if left = 0 then none else some (.device left)
  | .contract j g ks => some (.contract j g ks)

/-- An entry, with the kinds that ACK_NOTICE leaves when it is slot i's (R140). -/
def NoticeEntry.ackedContract (i : SlotIx) (left : BitVec 7) : NoticeEntry → Option NoticeEntry
  | .contract j g ks => if j = i then (if left = 0 then none else some (.contract j g left)) else some (.contract j g ks)
  | .device ks => some (.device ks)

theorem filterMap_eq_self {α : Type} {g : α → Option α} {l : List α} (h : ∀ a ∈ l, g a = some a) : l.filterMap g = l :=
  (List.filterMap_congr h).trans List.filterMap_some

theorem filterMap_ackedDevice (left : BitVec 3) (h : none ∉ q.map NoticeEntry.owner) :
    q.filterMap (NoticeEntry.ackedDevice left) = q := by
  refine filterMap_eq_self fun e he => ?_
  cases e with
  | contract => rfl
  | device => exact absurd (List.mem_map_of_mem he) h

theorem filterMap_ackedContract (left : BitVec 7) (h : some i ∉ q.map NoticeEntry.owner) :
    q.filterMap (NoticeEntry.ackedContract i left) = q := by
  refine filterMap_eq_self fun e he => ?_
  cases e with
  | device => rfl
  | contract j g ks =>
    have ne : j ≠ i := by rintro rfl; exact h (List.mem_map_of_mem he)
    exact if_neg ne

theorem leaveDeviceKinds_eq (left : BitVec 3) (nodup : (q.map NoticeEntry.owner).Nodup) :
    leaveDeviceKinds left q = q.filterMap (NoticeEntry.ackedDevice left) := by
  induction q with
  | nil => rfl
  | cons e t ih =>
    obtain ⟨first, rest⟩ := List.nodup_cons.1 nodup
    cases e with
    | contract j g ks => exact congrArg _ (ih rest)
    | device ks =>
      rw [leaveDeviceKinds, List.filterMap_cons, filterMap_ackedDevice _ first, NoticeEntry.ackedDevice]
      split <;> rfl

theorem leaveContractKinds_eq (i : SlotIx) (left : BitVec 7) (nodup : (q.map NoticeEntry.owner).Nodup) :
    leaveContractKinds i left q = q.filterMap (NoticeEntry.ackedContract i left) := by
  induction q with
  | nil => rfl
  | cons e t ih =>
    obtain ⟨first, rest⟩ := List.nodup_cons.1 nodup
    cases e with
    | device ks => exact congrArg _ (ih rest)
    | contract j g ks =>
      by_cases hj : j = i
      · subst hj
        rw [leaveContractKinds, if_pos rfl, List.filterMap_cons, filterMap_ackedContract _ first, NoticeEntry.ackedContract, if_pos rfl]
        split <;> rfl
      · rw [leaveContractKinds, if_neg hj, List.filterMap_cons, NoticeEntry.ackedContract, if_neg hj, ih rest]

theorem contractKinds_of_absent (h : some i ∉ q.map NoticeEntry.owner) : contractKinds i q = none := by
  induction q with
  | nil => rfl
  | cons e t ih =>
    obtain ⟨first, rest⟩ := not_or.1 (mt List.mem_cons.2 h)
    cases e with
    | device => exact ih rest
    | contract j g ks =>
      have ne : j ≠ i := by rintro rfl; exact first rfl
      exact (if_neg ne).trans (ih rest)

/-! ## READ_NOTICES and ACK_NOTICE -/

theorem State.entryBytes_length (s : State) (e : NoticeEntry) : (s.entryBytes e).length = 4 := by cases e <;> rfl

theorem State.noticesPayload_length (s : State) : s.noticesPayload.length = 1 + 4 * min s.notices.length 8 := by
  simp [State.noticesPayload, List.length_flatMap, State.entryBytes_length]
  omega

theorem State.noticesPayload_entry {k : Fin 8} {e : NoticeEntry} (he : s.notices[k.val]? = some e) :
    (s.noticesPayload.drop (1 + 4 * k.val)).take 4 = s.entryBytes e := by
  rw [State.noticesPayload, Nat.add_comm, List.drop_succ_cons]
  exact take_drop_flatMap s.entryBytes_length (by rw [List.getElem?_take_of_lt k.isLt, he])

theorem and_0xF8_eq_zero (b : Byte) : b &&& 0xF8 = 0 ↔ b.toNat ≤ 7 := (and_highBits_eq_zero b 3).trans Nat.lt_succ_iff

theorem and_0x80_eq_zero (b : Byte) : b &&& 0x80 = 0 ↔ b.toNat ≤ 127 := (and_highBits_eq_zero b 7).trans Nat.lt_succ_iff

theorem State.ackContract_frame (s : State) (i : SlotIx) (left : BitVec 7) : s.ackContract i left = { s with
    slots := if left = 0 ∧ (s.slots[i]'i.isLt).body = .draining then s.slots.set i.val ⟨(s.slots[i]'i.isLt).generation, .free⟩ i.isLt else s.slots
    notices := leaveContractKinds i left s.notices } := by
  rw [State.ackContract_eq]
  by_cases h0 : left = 0
  · rw [if_pos h0]
    by_cases hb : (s.slots[i]'i.isLt).body = .draining
    · rw [if_pos ⟨h0, hb⟩]
      exact State.releaseSlot_of_draining (s := { s with notices := leaveContractKinds i left s.notices }) hb
    · rw [if_neg fun h => hb h.2]
      exact State.releaseSlot_of_ne (s := { s with notices := leaveContractKinds i left s.notices }) hb
  · rw [if_neg h0, if_neg fun h => h0 h.1]

section
variable {h : HandleBytes} {kinds : Byte}

theorem ackNoticeBlock_of_device (hd : h.slot = 0xFF) : ackNoticeBlock h kinds s = ackDeviceBlock kinds s := if_pos hd

theorem ackNoticeBlock_of_above (hd : h.slot ≠ 0xFF) (above : 63 < h.slot.toNat) :
    ackNoticeBlock h kinds s = refuse s .badField [1] := by
  simp only [ackNoticeBlock, if_neg hd, indexOf_eq_none.2 above]

theorem slot_named (hi : h.slot.toNat = i.val) : h.slot ≠ 0xFF := by
  intro e
  rw [e] at hi
  have := i.isLt
  simp at hi
  omega

theorem ackNoticeBlock_of_field (hi : h.slot.toNat = i.val) (hk : 127 < kinds.toNat) :
    ackNoticeBlock h kinds s = refuse s .badField [2] := by
  rw [ackNoticeBlock, if_neg (slot_named hi), indexOf_eq_some.2 hi]
  exact if_pos (mt (and_0x80_eq_zero _).1 (Nat.not_le.2 hk))

theorem ackNoticeBlock_of_stale (hi : h.slot.toNat = i.val) (hk : kinds.toNat ≤ 127) (hg : (s.slots[i]'i.isLt).generation ≠ h.generation) :
    ackNoticeBlock h kinds s = refuse s .staleHandle := by
  rw [ackNoticeBlock, if_neg (slot_named hi), indexOf_eq_some.2 hi]
  exact (if_neg (not_not_intro ((and_0x80_eq_zero _).2 hk))).trans (if_pos hg)

theorem ackNoticeBlock_of_absent (hi : h.slot.toNat = i.val) (hk : kinds.toNat ≤ 127) (hg : (s.slots[i]'i.isLt).generation = h.generation)
    (absent : contractKinds i s.notices = none) : ackNoticeBlock h kinds s = refuse s .noContract := by
  rw [ackNoticeBlock, if_neg (slot_named hi), indexOf_eq_some.2 hi]
  refine (if_neg (not_not_intro ((and_0x80_eq_zero _).2 hk))).trans ((if_neg (not_not_intro hg)).trans ?_)
  rw [absent]

theorem ackNoticeBlock_of_entry {ks left : BitVec 7} (hi : h.slot.toNat = i.val) (hk : kinds.toNat ≤ 127)
    (hg : (s.slots[i]'i.isLt).generation = h.generation) (entry : contractKinds i s.notices = some ks)
    (hleft : ks &&& ~~~(kinds.setWidth 7) = left) : ackNoticeBlock h kinds s =
      ok { s with
        slots := if left = 0 ∧ (s.slots[i]'i.isLt).body = .draining then s.slots.set i.val ⟨(s.slots[i]'i.isLt).generation, .free⟩ i.isLt else s.slots
        notices := leaveContractKinds i left s.notices }
        [left.setWidth 8, if left = 0 ∧ (s.slots[i]'i.isLt).body = .draining then 0x00 else slotCode (s.slots[i]'i.isLt).body] := by
  rw [ackNoticeBlock, if_neg (slot_named hi), indexOf_eq_some.2 hi]
  refine (if_neg (not_not_intro ((and_0x80_eq_zero _).2 hk))).trans ((if_neg (not_not_intro hg)).trans ?_)
  rw [entry]
  simp only [hleft, State.ackContract_frame]
  split
  · simp [slotCode]
  · rfl

end

theorem exec_ackNotice_taken {h : HandleBytes} {kinds : Byte} {slots : Vector Slot 64} {p : List Byte} (hs : s.receiving)
    (hb : ackNoticeBlock h kinds (s.frameEnded (6 + f.fill)) = ok { s.frameEnded (6 + f.fill) with slots := slots, notices := q } p) :
    exec (.ackNotice f h kinds) s =
      .next (State.replied { s with slots := slots, notices := q } (6 + f.fill) ⟨.ok, f.tag, 0x19, p⟩) :=
  congrArg Host.Outcome.next (serve_answer hs .ackNotice f hb)

/-! ## RELEASE_TRIP -/

theorem State.lineByte_of_released {l : LineIx} (h : s.lineReleased l) : s.lineByte l = policyCode (s.trips[l]'l.isLt).policy := by
  have asserted : s.lineAsserted l = false := Bool.eq_false_iff.2 fun h' => (s.lineAsserted_iff l).1 h' h
  obtain ⟨-, held, forced, -⟩ := h
  rw [State.lineByte, asserted, held, forced]
  simp [flagBit]

theorem exec_releaseTrip_refuse (hs : s.receiving) {line : Byte} {e : ResultCode} {p : List Byte}
    (hb : releaseTripBlock line (s.frameEnded (4 + f.fill)) = refuse (s.frameEnded (4 + f.fill)) e p) :
    exec (.releaseTrip f line) s = .next (s.replied (4 + f.fill) ⟨e, f.tag, 0x31, p⟩) :=
  congrArg Host.Outcome.next (serve_refuse hs .releaseTrip f hb)

/-! ## Storage and the scrubber -/

theorem exec_storageChange_of_record (hr : s.recordAt i = some r) (x : StorageFault) : exec (.storageChange i x) s =
    .next (s.setSlot i ⟨(StorageFault.apply (s.slots[i]'i.isLt).generation r x).1, .live (StorageFault.apply (s.slots[i]'i.isLt).generation r x).2⟩) := by
  unfold exec execStorageChange
  simp only [hr]

theorem State.visitReport_eq (s : State) (i : SlotIx) : s.visitReport i =
    match s.recordAt i with
    | none => []
    | some r => if r.state ≠ .corrupt ∧ r.checkCode ≠ r.freshCode (s.slots[i]'i.isLt).generation then [s.handleOf i] else [] := by
  unfold State.visitReport State.codeAgrees
  cases s.recordAt i with
  | none => rfl
  | some r =>
    by_cases hc : r.state = .corrupt
    · simp [hc]
    · by_cases ha : r.checkCode = r.freshCode (s.slots[i]'i.isLt).generation <;> simp [hc, ha]

end Sys2Proof.Machine

section
open Sys2Proof Sys2Proof.Machine

/-- Settles O35. -/
theorem observationsDiscardedOrVoid : Obligations.ObservationsDiscardedOrVoid := by
  intro h s hs
  refine ⟨exec_observationTaken_of_none hs, ?_⟩
  rintro older newer o ho rfl hx
  have taken := exec_observationTaken_of_split hs ho hx
  refine ⟨fun hr => ?_, fun r hr hm => ?_, fun r hr hst h0 => ?_⟩
  · rw [taken, State.takeObservation_of_none (s := s.without (older ++ newer)) hr]
    rfl
  · rw [taken, State.takeObservation_of_idle (s := s.without (older ++ newer)) hr hm]
    rfl
  · obtain ⟨hg, hlive⟩ := State.contractAt_eq_some.1 hr
    rw [taken, State.takeObservation_of_settling (s := s.without (older ++ newer)) hr hst h0,
      State.mapRecord_of_some (s := s.without (older ++ newer)) hlive,
      show ((s.without (older ++ newer)).slots[o.handle.slot]'o.handle.slot.isLt).generation = o.handle.generation from
        (congrArg Handle.generation hg).symm]
    rfl

/-- Settles O55. -/
theorem noticesReadAndAcknowledged : Obligations.NoticesReadAndAcknowledged := by
  refine ⟨fun f s hs => ⟨s.noticesPayload, congrArg Host.Outcome.next (serve_answer hs .readNotices f
    (a := ok (s.frameEnded (3 + f.fill)) s.noticesPayload) rfl), s.noticesPayload_length, rfl,
    fun k e he => (State.noticesPayload_entry he).trans (by cases e <;> rfl)⟩, ?_⟩
  intro f h kinds s hs hn refusedWith
  obtain ⟨differ, -⟩ := hn
  have nodup := (pairwise_differ_iff _).1 differ
  have refused : ∀ {e p}, ackNoticeBlock h kinds (s.frameEnded (6 + f.fill)) = refuse (s.frameEnded (6 + f.fill)) e p →
      refusedWith e p := fun hb => congrArg Host.Outcome.next (serve_refuse hs .ackNotice f hb)
  refine ⟨fun above hd => refused (ackNoticeBlock_of_above hd above), fun hd => ?_, fun i hi => ?_⟩
  · have block := ackNoticeBlock_of_device (s := s.frameEnded (6 + f.fill)) (kinds := kinds) hd
    refine ⟨fun hk => refused (block.trans (if_pos (mt (and_0xF8_eq_zero _).1 (Nat.not_le.2 hk)))), fun hk none => refused ?_,
      fun ks hk some => ?_⟩
    · rw [block, ackDeviceBlock, if_neg (not_not_intro ((and_0xF8_eq_zero _).2 hk)),
        show deviceKinds (s.frameEnded (6 + f.fill)).notices = _ from none]
    · refine exec_ackNotice_taken (slots := s.slots) hs (block.trans ?_)
      rw [ackDeviceBlock, if_neg (not_not_intro ((and_0xF8_eq_zero _).2 hk)),
        show deviceKinds (s.frameEnded (6 + f.fill)).notices = _ from some]
      refine congrArg (fun q => ok { s.frameEnded (6 + f.fill) with notices := q } _) ?_
      exact (leaveDeviceKinds_eq _ nodup).trans (List.filterMap_congr fun e _ => by cases e <;> rfl)
  · refine ⟨fun hk => refused (ackNoticeBlock_of_field hi hk), fun hk hg => refused (ackNoticeBlock_of_stale hi hk hg),
      fun hk hg absent => refused (ackNoticeBlock_of_absent hi hk hg ?_), fun ks hk hg entry => exec_ackNotice_taken hs ?_⟩
    · exact contractKinds_of_absent (mt (s.hasEntry_iff i).2 (by rw [absent]; decide))
    · refine (ackNoticeBlock_of_entry (s := s.frameEnded (6 + f.fill)) hi hk hg entry rfl).trans ?_
      refine congrArg (fun q => ok { s.frameEnded (6 + f.fill) with slots := _, notices := q } _) ?_
      exact (leaveContractKinds_eq _ _ nodup).trans (List.filterMap_congr fun e _ => by cases e <;> rfl)

/-- Settles O57. -/
theorem releaseTrip : Obligations.ReleaseTrip := by
  intro f line s hs refusedWith
  refine ⟨fun above => exec_releaseTrip_refuse hs (withLine_of_above above _), fun l hl => ?_⟩
  have block : releaseTripBlock line (s.frameEnded (4 + f.fill)) = _ := withLine_of_line hl _
  refine ⟨fun hf => exec_releaseTrip_refuse hs (block.trans (if_pos hf)), fun hf hc => exec_releaseTrip_refuse hs (block.trans ?_),
    fun hf hc => ?_⟩
  · exact (if_neg (not_not_intro hf)).trans (if_pos hc)
  · have released : (s.setLine l { (s.trips[l]'l.isLt) with held := false, forced := false }).lineReleased l := by
      simpa [State.lineReleased, hf] using hc
    refine ⟨released, congrArg Host.Outcome.next ((serve_answer hs .releaseTrip f
      (block.trans ((if_neg (not_not_intro hf)).trans (if_neg (not_not_intro hc))))).trans ?_)⟩
    refine (s.served_ok_setLine _ l { (s.trips[l]'l.isLt) with held := false, forced := false } .releaseTrip f).trans ?_
    rw [State.lineByte_of_released released]
    simp [commandByte]

/-- Settles O59. -/
theorem storageAndScrubber : Obligations.StorageAndScrubber := by
  refine ⟨fun i x s hr => ?_, ?_, ?_⟩
  · unfold exec execStorageChange
    simp only [hr]
  · intro i x s r hr becomes change
    have changed := exec_storageChange_of_record hr x
    have limits : ∀ a c, LimitChange.apply a c = change c a := fun a c => by cases c <;> rfl
    cases x with
    | inForce c => rw [StorageFault.apply, limits] at changed; exact changed
    | staged c => simp only [StorageFault.apply, limits] at changed; exact changed
    | stagedPresence v =>
      cases v with
      | none => simpa [StorageFault.apply, becomes] using changed
      | some a =>
        rw [StorageFault.apply] at changed
        cases hs : r.staged <;> simpa [hs, becomes] using changed
    | _ => exact changed
  · intro s hs p
    refine congrArg Host.Outcome.next ((State.whileOperating_of_running hs _).trans ?_)
    have next : s.scrub.position + 1 = Fin.ofNat 64 (s.scrub.position.val + 1) := by
      ext; simp [Fin.val_add]
    rw [next, State.visitReport_eq]
    rfl

end
end

