-- ==== Sys2Proof/Proofs/OneContractCommands.lean ====
section
set_option Elab.async false
/-! PROOFS. SUSPEND, RESUME and CLEAR (O39, O40), and what a command on one contract leaves alone. -/

namespace Sys2Proof.Machine

variable {m : SlotIx → Prop} {s t u : State} {i j : SlotIx} {r q : Record} {v : View} {f : Frame} {h : HandleBytes}

/-! ## What stands beside one contract -/

/-- A slot that is not below the contract that acted stands. -/
theorem Losses.not_below (h : Losses (· = i) s t) (sh : s.shallow) (hj : j ≠ i) (hb : ¬ s.below j i) : t.view j = s.view j := by
  obtain ⟨-, hv⟩ | ⟨as, at', -⟩ := h.cases hj
  · exact hv
  · obtain ⟨p, hp, hps, hpt⟩ := h.tree.lost as at'
    have hpi : p ≠ i := by rintro rfl; exact hb (.inl hp)
    obtain ⟨-, hv⟩ | ⟨bs, bt, -⟩ := h.cases hpi
    · exact absurd ((State.healthyAt_of_view hv).2 hps) hpt
    · obtain ⟨p', hp', hps', hpt'⟩ := h.tree.lost bs bt
      have hpi' : p' ≠ i := by rintro rfl; exact hb (.inr ⟨p, hp, hp'⟩)
      obtain ⟨-, hv⟩ | ⟨cs, ct, -⟩ := h.cases hpi'
      · exact absurd ((State.healthyAt_of_view hv).2 hps') hpt'
      · obtain ⟨p'', hp'', -⟩ := h.tree.lost cs ct
        exact absurd hp'' (sh _ _ _ _ hp hp')

/-- Everything but the contract table is kept, and of the table the generations and the kinds of the device entry. -/
def State.tableKept (s t : State) : Prop :=
  s.sameOutsideTable t ∧ deviceKinds t.notices = deviceKinds s.notices ∧
    ∀ j : SlotIx, (t.slots[j.val]'j.isLt).generation = (s.slots[j.val]'j.isLt).generation

theorem TableFrame.kept (frame : TableFrame m s t) : s.tableKept t :=
  ⟨frame.outside, frame.notices.deviceKinds, frame.generation⟩

theorem onlyBelow_of_losses (kept : s.tableKept t) (h : Losses (· = i) s t) (sh : s.shallow) : s.onlyBelow t i := by
  obtain ⟨outside, device, generation⟩ := kept
  exact ⟨outside, device, generation, fun _ hj hb => State.stands_iff.2 (h.not_below sh hj hb)⟩

theorem onlyBelow_of_gains (kept : s.tableKept t) (h : Gains i s t) : s.onlyBelow t i := by
  obtain ⟨outside, device, generation⟩ := kept
  exact ⟨outside, device, generation, fun j hj hb => State.stands_iff.2 (h.rest j hj fun hd => absurd (.inl hd) hb)⟩

theorem onlySlot_of_losses (kept : s.tableKept t) (h : Losses (· = i) s t) (sh : s.shallow)
    (own : s.healthyAt i → t.healthyAt i) : s.onlySlot t i := by
  obtain ⟨outside, device, generation⟩ := kept
  exact ⟨outside, device, generation i, fun j hj => State.stands_iff.2 ((h.spares sh fun _ e => e ▸ own).2 j hj)⟩

theorem onlySlot_of_gains (kept : s.tableKept t) (h : Gains i s t) (hs : s.healthyAt i) : s.onlySlot t i := by
  obtain ⟨outside, device, generation⟩ := kept
  exact ⟨outside, device, generation i, fun j hj => State.stands_iff.2 (h.rest j hj fun _ => hs)⟩

theorem State.not_healthyAt (hr : s.recordAt i = some r) (hh : isHealthy r.state = false) : ¬ s.healthyAt i := by
  rw [State.healthyAt_iff hr, hh]; simp

theorem State.stateByte_of_record (hr : s.recordAt i = some r) : s.stateByte i = stateCode r.state := by
  have body : (s.slots[i]'i.isLt).body = .live r := State.recordAt_eq_some.1 hr
  rw [State.stateByte, body]
  rfl

/-- Armed is a matter of the generation before, and of the state after. -/
theorem State.armed_congr (hg : (u.slots[i.val]'i.isLt).generation = (s.slots[i.val]'i.isLt).generation) (h : u.armed t i q) : s.armed t i q := by
  unfold State.armed State.codeAgrees at h ⊢
  simp only [Fin.getElem_fin, hg] at h ⊢
  exact h

theorem View.post_kinds_congr {v w : View} (h : v.kinds = w.kinds) {k : BitVec 7} : (v.post k).kinds = (w.post k).kinds := by
  unfold View.post
  split
  · exact h
  · simp only [h]

theorem View.setAside_suspended_kinds (hr : v.record = some r) : (v.setAside i .suspended).kinds = v.kinds := by
  rw [View.setAside_of_record hr, if_pos rfl, View.post_none, View.edit_kinds]
  split <;> rfl

/-! ## SUSPEND -/

theorem suspendBlock_of_live (hi : h.slot.toNat = i.val) (hg : (s.slots[i]'i.isLt).generation = h.generation) (hr : s.recordAt i = some r) :
    suspendBlock h s =
      if isMeasuring r.state || decide (r.state = .held) || decide (r.state = .dormant) then
        ok ((s.mapRecord i (fun r => { r with suspended := true })).enterBlocked i .suspended)
          [((s.mapRecord i (fun r => { r with suspended := true })).enterBlocked i .suspended).stateByte i]
      else if r.state = .violated then refuse s .inViolation
      else refuse s .wrongState :=
  withContract_of_live hi hg hr _

theorem resumeBlock_of_live (hi : h.slot.toNat = i.val) (hg : (s.slots[i]'i.isLt).generation = h.generation) (hr : s.recordAt i = some r) :
    resumeBlock h s =
      if r.state = .suspended then
        ok ((s.mapRecord i (fun r => { r with suspended := false })).recompute i)
          [((s.mapRecord i (fun r => { r with suspended := false })).recompute i).stateByte i]
      else refuse s .wrongState :=
  withContract_of_live hi hg hr _

theorem clearBlock_of_live (hi : h.slot.toNat = i.val) (hg : (s.slots[i]'i.isLt).generation = h.generation) (hr : s.recordAt i = some r) :
    clearBlock h s =
      if r.state = .violated then
        if !r.recovered then refuse s .stillViolating
        else ok (if s.frozen r then s.clearFrozen i r else s.clearToConforming i r.limits)
          [(if s.frozen r then s.clearFrozen i r else s.clearToConforming i r.limits).stateByte i]
      else refuse s .wrongState :=
  withContract_of_live hi hg hr _

/-- What SUSPEND leaves (R47). -/
structure Suspended (i : SlotIx) (r : Record) (s u : State) : Prop where
  record : u.recordAt i = some { r.asideIn .suspended with suspended := true }
  kinds : s.posted u i 0
  pending : isMeasuring r.state = true → u.nonePending i
  trips : u.trips = s.trips
  slot : isHealthy r.state = false → s.onlySlot u i
  below : s.onlyBelow u i
  port : u.port = s.port

theorem suspended_of_open (sh : s.shallow) (hr : s.recordAt i = some r) (ho : isOpen r.state = true) :
    Suspended i r s ((s.mapRecord i (fun r => { r with suspended := true })).enterBlocked i .suspended) := by
  obtain ⟨losses, view, -⟩ := suspend_loses sh hr ho
  have hr' : (s.mapRecord i (fun r => { r with suspended := true })).recordAt i = some { r with suspended := true } := by simp [hr]
  have flag : TableFrame (fun _ => True) s (s.mapRecord i (fun r => { r with suspended := true })) := .setSuspended true
  have turn := Turn.enterBlocked (target := .suspended) (flag.shallow sh) hr' ho rfl
  have frame := flag.trans (.enterBlocked (target := .suspended) hr' ho rfl)
  have hv : ((s.view i).edit (fun r => { r with suspended := true })).record = some { r with suspended := true } := by simp [hr]
  refine ⟨?_, ?_, fun hm => ?_, turn.trips.trans (by simp), fun hh => ?_, onlyBelow_of_losses frame.kept losses sh, frame.port⟩
  · rw [← State.view_record, view, View.setAside_record, hv]; rfl
  · rw [State.posted_iff, view, View.setAside_suspended_kinds hv, View.post_none]; rfl
  · exact State.nonePending_of_view view (View.setAside_none hv hm _ _)
  · exact onlySlot_of_losses frame.kept losses sh fun hs => absurd hs (State.not_healthyAt hr hh)

/-! ## RESUME -/

/-- What RESUME leaves (R48). -/
structure Resumed (i : SlotIx) (r : Record) (s u : State) : Prop where
  trips : u.trips = s.trips
  slot : s.onlySlot u i
  port : u.port = s.port
  held : s.baseRunning r = false → u.recordAt i = some { r with suspended := false, state := .held } ∧
    s.posted u i (askedFor r.limits.noticeMask 0x04)
  dormant : s.baseRunning r = true → s.parentAllows r = false →
    u.recordAt i = some { r with suspended := false, state := .dormant } ∧ s.posted u i (askedFor r.limits.noticeMask 0x04)
  arming : s.baseRunning r = true → s.parentAllows r = true → s.armed u i { r with suspended := false } ∧ s.posted u i 0

theorem resumed_of_suspended (sh : s.shallow) (hr : s.recordAt i = some r) (hst : r.state = .suspended) :
    Resumed i r s ((s.mapRecord i (fun r => { r with suspended := false })).recompute i) := by
  obtain ⟨losses, view, -⟩ := resume_loses sh hr hst
  have flag : TableFrame (fun _ => True) s (s.mapRecord i (fun r => { r with suspended := false })) := .setSuspended false
  have hr' : (s.mapRecord i (fun r => { r with suspended := false })).recordAt i = some { r with suspended := false } := by simp [hr]
  have turn := Turn.recompute (flag.shallow sh) i
  have frame := flag.trans (.recompute i)
  have hv : ((s.view i).edit (fun r => { r with suspended := false })).record = some { r with suspended := false } := by simp [hr]
  have ho : isOpen r.state = true := by rw [hst]; rfl
  have hm : isMeasuring r.state = false := by rw [hst]; rfl
  -- the recomputation at the record with the flag clear
  rw [View.recompute_of_record hv, if_pos (by exact ho)] at view
  have aside : ∀ c, isBlocked c = true → c ≠ .suspended →
      ({ r with suspended := false } : Record).blockedTo s.runs (s.allows i) = c →
      ((s.mapRecord i (fun r => { r with suspended := false })).recompute i).recordAt i =
          some { r with suspended := false, state := c } ∧
        s.posted ((s.mapRecord i (fun r => { r with suspended := false })).recompute i) i (askedFor r.limits.noticeMask 0x04) := by
    intro c hb hc result
    rw [result, if_neg (by rintro rfl; cases hb), if_neg (by rw [hst]; exact hc.symm)] at view
    refine ⟨?_, ?_⟩
    · rw [← State.view_record, view, View.setAside_record, hv]
      simp [Record.asideIn, hm]
    · rw [State.posted_iff, view, View.setAside_kinds hv hc]
      exact View.post_kinds_congr (v := View.edit _ _) (w := s.view i) rfl
  refine ⟨turn.trips.trans (by simp), onlySlot_of_losses frame.kept losses sh fun hs => absurd hs (State.not_healthyAt hr (by rw [hst]; rfl)),
    frame.port, fun hb => aside .held rfl (by decide) ?_, fun hb hp => aside .dormant rfl (by decide) ?_, fun hb hp => ?_⟩
  · exact Record.blockedTo_held.2 ⟨rfl, hb⟩
  · exact Record.blockedTo_dormant.2 ⟨rfl, hb, (State.allows_of_record hr).trans hp⟩
  · rw [if_pos (Record.blockedTo_arming.2 ⟨rfl, hb, (State.allows_of_record hr).trans hp⟩),
      if_neg (by exact Bool.eq_false_iff.1 hm)] at view
    refine ⟨State.armed_congr (State.mapRecord_generation _ _ _ _) (armed_of_view hr' ?_), ?_⟩
    · rw [view, State.mapRecord_view_self]
    · rw [State.posted_iff, view, View.post_none]; rfl

/-! ## CLEAR -/

theorem clearFrozen_line (hr : s.recordAt i = some r) (hv : r.state = .violated) (l : LineIx) : (s.clearFrozen i r).trips[l.val]'l.isLt =
    if r.limits.tripMask.getLsbD l.val then (s.trips[l.val]'l.isLt).leave i else s.trips[l.val]'l.isLt := by
  unfold State.clearFrozen
  rw [State.enterBlocked_of_violated (r := { r with recovered := false, recoveryRun := 0 }) (by simp [hr]) hv, if_neg (by split <;> simp),
    State.postMasked_trips, State.mapRecord_trips, State.leaveMask_line, State.mapRecord_trips]

theorem State.frozen_eq_false_iff (hv : r.state = .violated) :
    s.frozen r = false ↔ s.baseRunning r = true ∧ s.parentAllows r = true := by
  rw [← Bool.not_eq_true, State.frozen_iff]
  simp [hv]

/-- What CLEAR of a violation whose recovered flag is set leaves (R40). -/
structure Cleared (i : SlotIx) (r : Record) (s u : State) : Prop where
  below : s.onlyBelow u i
  obs : u.observationsOf i = s.observationsOf i
  slot : (s.baseRunning r = false ∨ s.parentAllows r = false) → s.onlySlot u i
  line : ∀ l : LineIx, u.trips[l.val]'l.isLt =
    if r.limits.tripMask.getLsbD l.val then (s.trips[l.val]'l.isLt).leave i else (s.trips[l.val]'l.isLt)
  port : u.port = s.port
  conforming : s.baseRunning r = true → s.parentAllows r = true → s.posted u i 0 ∧
    u.recordAt i = some { r with state := .conforming, recovered := false, recoveryRun := 0, strikes := 0 }
  blocked : (s.baseRunning r = false ∨ s.parentAllows r = false) → s.posted u i (askedFor r.limits.noticeMask 0x04) ∧
    u.recordAt i = some (r.clearedTo (r.clearTarget s.runs))

theorem cleared_of_frozen (sh : s.shallow) (hr : s.recordAt i = some r) (hv : r.state = .violated) (hf : s.frozen r = true) :
    Cleared i r s (s.clearFrozen i r) := by
  obtain ⟨losses, -⟩ := clearFrozen_loses hr hv hf
  have view := State.clearFrozen_view hr hv i
  rw [if_pos rfl] at view
  have frame : TableFrame (fun _ => True) s (s.clearFrozen i r) := .clearFrozen hr trivial hv
  have thawed : ¬ (s.baseRunning r = true ∧ s.parentAllows r = true) := fun h => by
    rw [(State.frozen_eq_false_iff hv).2 h] at hf; cases hf
  have unhealthy : ¬ s.healthyAt i := State.not_healthyAt hr (by rw [hv]; rfl)
  refine ⟨onlyBelow_of_losses frame.kept losses sh, ?_, fun _ => onlySlot_of_losses frame.kept losses sh fun hs => absurd hs unhealthy,
    clearFrozen_line hr hv, frame.port, fun hb hp => absurd ⟨hb, hp⟩ thawed, fun _ => ⟨?_, clearFrozen_recordAt hr hv⟩⟩
  · rw [← State.view_obs, view, View.post_obs]; rfl
  · rw [State.posted_iff, view]
    exact View.post_kinds_congr (v := View.edit _ _) (w := s.view i) rfl

theorem cleared_of_running (sh : s.shallow) (hr : s.recordAt i = some r) (hv : r.state = .violated) (hf : s.frozen r = false) :
    Cleared i r s (s.clearToConforming i r.limits) := by
  obtain ⟨gains, -, view, trips⟩ := clearToConforming_gains sh hr hv hf
  have frame : TableFrame (fun _ => True) s (s.clearToConforming i r.limits) := .clearToConforming hr trivial hv _
  obtain ⟨hb, hp⟩ := (State.frozen_eq_false_iff hv).1 hf
  have thawed : ¬ (s.baseRunning r = false ∨ s.parentAllows r = false) := by rw [hb, hp]; simp
  refine ⟨onlyBelow_of_gains frame.kept gains, ?_, fun h => absurd h thawed, fun l => ?_, frame.port,
    fun _ _ => ⟨?_, clearToConforming_recordAt hr _⟩, fun h => absurd h thawed⟩
  · rw [← State.view_obs, view]; rfl
  · rw [trips, State.leaveMask_line]
  · rw [State.posted_iff, view, View.post_none]; rfl

theorem cleared (sh : s.shallow) (hr : s.recordAt i = some r) (hv : r.state = .violated) :
    Cleared i r s (if s.frozen r then s.clearFrozen i r else s.clearToConforming i r.limits) := by
  cases hf : s.frozen r
  · exact cleared_of_running sh hr hv hf
  · exact cleared_of_frozen sh hr hv hf

end Sys2Proof.Machine

section
open Sys2Proof Sys2Proof.Machine

/-- Settles O39: SUSPEND is `suspended_of_open`, RESUME `resumed_of_suspended`. -/
theorem suspendAndResume : Obligations.SuspendAndResume := by
  intro f h s i r hs ht hi hg hr
  have sh := ht.shallow
  have suspend := suspendBlock_of_live (s := s.frameEnded (5 + f.fill)) hi hg hr
  have resume := resumeBlock_of_live (s := s.frameEnded (5 + f.fill)) hi hg hr
  have suspendRefused : ∀ {e}, suspendBlock h (s.frameEnded (5 + f.fill)) = refuse (s.frameEnded (5 + f.fill)) e →
      exec (.suspend f h) s = .next (s.replied (5 + f.fill) ⟨e, f.tag, 0x0A, []⟩) := fun h =>
    congrArg Host.Outcome.next (serve_refuse hs .suspend f h)
  refine ⟨fun hst => ?_, fun hst => suspendRefused ?_, fun hst => suspendRefused ?_, fun hst => ?_, fun hst => ?_⟩
  · have hopen : isOpen r.state = true := by
      obtain h | h | h := hst
      · exact isMeasuring_isOpen h
      · rw [h]; rfl
      · rw [h]; rfl
    rw [if_pos (by simpa [or_assoc] using hst)] at suspend
    have left := suspended_of_open (s := s.frameEnded (5 + f.fill)) sh hr hopen
    generalize State.enterBlocked _ i .suspended = u at suspend left
    rw [State.stateByte_of_record left.record] at suspend
    exact ⟨_, congrArg Host.Outcome.next (serve_answer hs .suspend f suspend), answered_served left.port .suspend f, left.record,
      left.kinds, left.pending, left.trips, left.slot, left.below⟩
  · rw [suspend, hst]
    rfl
  · rw [suspend]
    obtain h | h | h := hst <;> rw [h] <;> rfl
  · rw [if_pos hst] at resume
    have left := resumed_of_suspended (s := s.frameEnded (5 + f.fill)) sh hr hst
    generalize State.recompute _ i = u at resume left
    have taken : exec (.resume f h) s = .next _ := congrArg Host.Outcome.next (serve_answer hs .resume f resume)
    have reply : ∀ {q}, u.recordAt i = some q → s.answered ((ok u [u.stateByte i]).served .resume f) (5 + f.fill)
        ⟨.ok, f.tag, 0x0B, [stateCode q.state]⟩ := fun hq => by
      rw [← State.stateByte_of_record hq]; exact answered_served left.port .resume f
    refine ⟨_, taken, left.trips, left.slot, fun hb => ?_, fun hb hp => ?_, fun hb hp => ?_⟩
    · exact ⟨reply (left.held hb).1, left.held hb⟩
    · exact ⟨reply (left.dormant hb hp).1, left.dormant hb hp⟩
    · obtain ⟨q, hq, e, -⟩ := (left.arming hb hp).1
      have code := reply hq
      rw [e] at code
      exact ⟨code, left.arming hb hp⟩
  · exact congrArg Host.Outcome.next (serve_refuse hs .resume f (resume.trans (if_neg hst)))

/-- Settles O40. -/
theorem clearEndsAViolation : Obligations.ClearEndsAViolation := by
  intro f h s i r hs ht hi hg hr
  have block := clearBlock_of_live (s := s.frameEnded (5 + f.fill)) hi hg hr
  have refused : ∀ {e}, clearBlock h (s.frameEnded (5 + f.fill)) = refuse (s.frameEnded (5 + f.fill)) e →
      exec (.clear f h) s = .next (s.replied (5 + f.fill) ⟨e, f.tag, 0x0C, []⟩) := fun h =>
    congrArg Host.Outcome.next (serve_refuse hs .clear f h)
  refine ⟨fun hv hrec => ?_, fun hv hrec => refused ?_, fun hv => refused (block.trans (if_neg hv))⟩
  · rw [if_pos hv, if_neg (by simp [hrec])] at block
    have left := cleared (s := s.frameEnded (5 + f.fill)) ht.shallow hr hv
    generalize (if (s.frameEnded (5 + f.fill)).frozen r = true then _ else _ : State) = u at block left
    have taken : exec (.clear f h) s = .next _ := congrArg Host.Outcome.next (serve_answer hs .clear f block)
    have reply : ∀ {q}, u.recordAt i = some q → s.answered ((ok u [u.stateByte i]).served .clear f) (5 + f.fill)
        ⟨.ok, f.tag, 0x0C, [stateCode q.state]⟩ := fun hq => by
      rw [← State.stateByte_of_record hq]; exact answered_served left.port .clear f
    refine ⟨_, taken, left.below, left.obs, left.slot, left.line, fun hb hp => ?_, fun hb => ?_, fun hb hp => ?_⟩
    · obtain ⟨posted, record⟩ := left.conforming hb hp
      exact ⟨reply record, posted, record⟩
    · obtain ⟨posted, record⟩ := left.blocked (.inl hb)
      have target : r.clearTarget s.runs = .held := if_neg (Bool.eq_false_iff.1 hb)
      have record' : u.recordAt i = some (r.clearedTo .held) := target ▸ record
      exact ⟨reply record', posted, record'⟩
    · obtain ⟨posted, record⟩ := left.blocked (.inr hp)
      have target : r.clearTarget s.runs = .dormant := if_pos hb
      have record' : u.recordAt i = some (r.clearedTo .dormant) := target ▸ record
      exact ⟨reply record', posted, record'⟩
  · rw [block, if_pos hv, hrec]
    rfl

end
end

