-- ==== Sys2Proof/Proofs/CountedObservations.lean ====
section
set_option Elab.async false
/-! PROOFS. A counted observation: what is recorded, the state rule of each state, its notices and its lines (O36 to O38). -/

namespace Sys2Proof.Machine

variable {s t x : State} {i j : SlotIx} {r r' q : Record} {o : Observation} {older newer : List Observation} {d : Verdict}
variable {band : Bool} {a : Limits} {l : LineIx}

/-! ## Classification -/

theorem classify_silent : classify a o.value = .silent ↔ o.value = none := by
  cases o.value with
  | none => simp [classify]
  | some v =>
    simp only [classify]
    repeat' split
    all_goals simp

theorem classify_value {v : Word32} : (classify a (some v) = .below ↔ v.toNat < a.lo.toNat) ∧
    (classify a (some v) = .above ↔ a.lo.toNat ≤ v.toNat ∧ a.hi.toNat < v.toNat) ∧
    (classify a (some v) = .inWindow ↔ a.lo.toNat ≤ v.toNat ∧ v.toNat ≤ a.hi.toNat) := by
  simp only [classify]
  split
  · simp; omega
  · split <;> simp <;> omega

theorem classify_inWindow {w : Option Word32} :
    classify a w = .inWindow ↔ ∃ v, w = some v ∧ a.lo.toNat ≤ v.toNat ∧ v.toNat ≤ a.hi.toNat := by
  cases w with
  | none => simp [classify]
  | some v => rw [classify_value.2.2]; simp

theorem inBand_iff {w : Option Word32} : inBand a w = true ↔
    ∃ v, w = some v ∧ a.lo.toNat + a.margin.toNat ≤ v.toNat ∧ v.toNat + a.margin.toNat ≤ a.hi.toNat := by
  cases w <;> simp [inBand]

/-! ## The record -/

/-- All that a staged amendment put in force changes of a record. -/
theorem Record.amended_shape (r : Record) (g : Byte) : ∃ code, (r.amended g) =
      { r with limits := r.staged.getD r.limits, staged := none, checkCode := code } ∧
    (r.checkCode = r.freshCode g → code = (r.amended g).freshCode g) := by
  unfold Record.amended
  cases hs : r.staged with
  | none => exact ⟨r.checkCode, by cases r; dsimp only at hs; subst hs; rfl, id⟩
  | some a => exact ⟨_, rfl, fun _ => rfl⟩

/-- All that the state rule, or the entry into DONE, changes of a record. -/
def Record.ruledOnly (q r' : Record) : Prop :=
  ∃ st k n b c, r' = { q with state := st, strikes := k, recoveryRun := n, recovered := b, context := c }

theorem Record.ruled_ruledOnly (d : Verdict) (band : Bool) (q : Record) : q.ruledOnly (q.ruled d band) := by
  have struck : q.ruledOnly q.firstStruck := by
    unfold Record.firstStruck
    split <;> exact ⟨_, _, _, _, _, rfl⟩
  unfold Record.ruled
  cases q.state with
  | arming => dsimp only; split <;> [exact ⟨_, _, _, _, _, rfl⟩; exact struck]
  | conforming => dsimp only; split <;> [exact ⟨_, _, _, _, _, rfl⟩; exact struck]
  | suspect => dsimp only; split <;> [exact ⟨_, _, _, _, _, rfl⟩; split <;> exact ⟨_, _, _, _, _, rfl⟩]
  | violated =>
    unfold Record.ruledViolated
    dsimp only
    repeat' split
    all_goals exact ⟨_, _, _, _, _, rfl⟩
  | _ => exact ⟨_, _, _, _, _, rfl⟩

/-- What is recorded of a counted observation, whatever the state rule does (R10, R27, R126). -/
structure Record.Recorded (s t : State) (i : SlotIx) (o : Observation) (r r' : Record) (d : Verdict) : Prop where
  limits : r'.limits = r.staged.getD r.limits
  staged : r'.staged = none
  fixed : r'.fixed = r.fixed
  dependents : r'.dependents = r.dependents
  suspended : r'.suspended = r.suspended
  settle : r'.settleRemaining = r.settleRemaining
  code : s.codeAgrees i r = true → t.codeAgrees i r' = true
  last : r'.last = some { verdict := d, value := o.value, serial := o.serial }
  stats : r'.stats = r.stats.count d o.value

theorem Record.recorded_of_ruledOnly (hg : (t.slots[i.val]'i.isLt).generation = (s.slots[i.val]'i.isLt).generation)
    (h : (r.counted (s.slots[i.val]'i.isLt).generation o).ruledOnly r') :
    Record.Recorded s t i o r r' (classify (r.staged.getD r.limits) o.value) := by
  obtain ⟨code, amended, agrees⟩ := r.amended_shape (s.slots[i.val]'i.isLt).generation
  obtain ⟨st, k, n, b, c, rfl⟩ := h
  have limits := r.amended_limits (s.slots[i.val]'i.isLt).generation
  refine ⟨limits, ?_, ?_, ?_, ?_, ?_, fun h => ?_, ?_, ?_⟩
  · show (r.amended _).staged = _
    rw [amended]
  · show (r.amended _).fixed = _
    rw [amended]
  · show (r.amended _).dependents = _
    rw [amended]
  · show (r.amended _).suspended = _
    rw [amended]
  · show (r.amended _).settleRemaining = _
    rw [amended]
  · simp only [State.codeAgrees, Fin.getElem_fin, decide_eq_true_eq, hg] at h ⊢
    exact (congrArg Record.checkCode amended).trans (agrees h)
  · rw [← limits]; rfl
  · have stats : (r.amended (s.slots[i.val]'i.isLt).generation).stats = r.stats := by rw [amended]
    show (r.amended _).stats.count (classify (r.amended _).limits o.value) o.value = _
    rw [stats, limits]

/-! ## The judgement of a counted observation -/

/-- What a judgement leaves: the record, the kinds posted, and the health that the others see change. -/
structure Judged (i : SlotIx) (s t : State) (r' : Record) (n : BitVec 7) : Prop where
  record : t.recordAt i = some r'
  posted : s.posted t i n
  change : (t.healthyAt i ∧ Gains i s t) ∨ (¬ t.healthyAt i ∧ Losses (· = i) s t)
  kept : s.tableKept t
  port : t.port = s.port

theorem Judged.below (h : Judged i s t r' n) (sh : s.shallow) : s.onlyBelow t i := by
  obtain ⟨-, gains⟩ | ⟨-, losses⟩ := h.change
  · exact onlyBelow_of_gains h.kept gains
  · exact onlyBelow_of_losses h.kept losses sh

theorem Judged.slot (h : Judged i s t r' n) (sh : s.shallow) (hr : s.recordAt i = some r)
    (same : isHealthy r'.state = isHealthy r.state) : s.onlySlot t i := by
  have own : t.healthyAt i ↔ s.healthyAt i := by rw [State.healthyAt_iff h.record, State.healthyAt_iff hr, same]
  obtain ⟨ht, gains⟩ | ⟨ht, losses⟩ := h.change
  · exact onlySlot_of_gains h.kept gains (own.1 ht)
  · exact onlySlot_of_losses h.kept losses sh own.2

theorem exec_observationTaken_of_counted (hs : s.inReset = false) (ho : s.observations = older ++ o :: newer)
    (hx : ∀ x ∈ older, x.handle ≠ o.handle) (hr : s.contractAt o.handle = some r) (hm : s.measures r = true)
    (settled : r.state = .arming → r.settleRemaining = 0) :
    exec (.observationTaken o.handle) s = .next ((s.without (older ++ newer)).judge o.handle.slot o) := by
  rw [exec_observationTaken_of_split hs ho hx]
  exact congrArg Host.Outcome.next (State.takeObservation_of_counted (s := s.without (older ++ newer)) hr hm settled)

section
variable (sh : s.shallow) (hr : s.recordAt i = some r) (ho : s.observations = older ++ o :: newer) (hi : o.handle.slot = i)

theorem judge_tableKept (s : State) (l : List Observation) (i : SlotIx) (o : Observation) :
    s.tableKept ((s.without l).judge i o) ∧ ((s.without l).judge i o).port = s.port := by
  have frame : TableFrame (fun _ => True) (s.without l) ((s.without l).judge i o) := .judge trivial o
  exact ⟨frame.kept, frame.port⟩

include sh hr ho hi in
theorem judged_of_ruled (hdone : ¬ (r.state = .arming ∧ r.fixed.oneshot = true)) :
    let q := r.counted (s.slots[i.val]'i.isLt).generation o
    let d := classify q.limits o.value
    let band := inBand q.limits o.value
    let t := (s.without (older ++ newer)).judge i o
    Judged i s t (q.ruled d band) (q.ruledKinds d band) ∧
      t.observationsOf i = (older ++ newer).filter (fun x => decide (x.handle.slot = i)) ∧
      t.trips = ((s.without (older ++ newer)).counted i r o).ruledLines i d band q := by
  intro q d band t
  obtain ⟨ruling, one, own⟩ := judge_ruled sh hr ho hi hdone
  have view : ((s.without (older ++ newer)).counted i r o).view i = ((s.without (older ++ newer)).view i).put q := by
    rw [State.counted_view (s := s.without (older ++ newer)) hr, if_pos rfl]; rfl
  have after := ruling.view
  rw [view] at after
  obtain ⟨kept, port⟩ := judge_tableKept s (older ++ newer) i o
  refine ⟨⟨?_, ?_, ruling.left one own sh, kept, port⟩, ?_, ruling.trips⟩
  · rw [← State.view_record, after, View.post_record, View.put_record, View.put_record, State.view_record, State.without_recordAt, hr]
    rfl
  · rw [State.posted_iff, after]
    exact View.post_kinds_congr (v := View.put _ _) (w := s.view i) rfl
  · rw [← State.view_obs, after, View.post_obs, View.put_obs, View.put_obs]
    rfl

include sh hr ho hi in
theorem judged_of_done (hst : r.state = .arming) (hone : r.fixed.oneshot = true) :
    let q := r.counted (s.slots[i.val]'i.isLt).generation o
    let t := (s.without (older ++ newer)).judge i o
    Judged i s t { q.idle with state := .done } (noticeBit .done) ∧ t.nonePending i ∧ t.trips = s.trips := by
  intro q t
  obtain ⟨ruling, one, own⟩ := judge_done hr ho hi hst hone
  have view : ((s.without (older ++ newer)).counted i r o).view i = ((s.without (older ++ newer)).view i).put q := by
    rw [State.counted_view (s := s.without (older ++ newer)) hr, if_pos rfl]; rfl
  have after := ruling.view
  rw [view] at after
  obtain ⟨kept, port⟩ := judge_tableKept s (older ++ newer) i o
  refine ⟨⟨?_, ?_, ruling.left one own sh, kept, port⟩, State.nonePending_of_view after ?_, ?_⟩
  · rw [← State.view_record, after, View.post_record, View.edit_record, View.abandon_record, View.put_record, State.view_record,
      State.without_recordAt, hr]
    rfl
  · rw [State.posted_iff, after]
    exact View.post_kinds_congr (v := View.edit _ _) (w := s.view i) rfl
  · rw [View.post_obs, View.edit_obs, View.post_slot, View.edit_generation]
    exact View.abandon_none _ _
  · rw [ruling.trips, State.counted_trips, State.applyStaged_trips (s := s.without (older ++ newer)) hr (by rw [hst]; decide)]
    rfl

end

/-! ## The state rule of a measuring contract -/

/-- The strikes that an out-of-window observation brings (R33 to R35). -/
def Record.struckTo (r : Record) : Nat := if r.state = .suspect then r.strikes + 1 else 1

theorem Record.ruled_of_inWindow (hm : isMeasuring r.state = true) (hd : d = .inWindow) : r.ruled d band =
    { r with state := .conforming, strikes := if r.state = .conforming then r.strikes else 0 } := by
  unfold Record.ruled
  cases hst : r.state with
  | arming => simp [hd]
  | conforming => simp [hd, ← hst]
  | suspect => simp [hd]
  | _ => rw [hst] at hm; cases hm

theorem Record.ruled_of_short (hm : isMeasuring r.state = true) (hd : d ≠ .inWindow) (ht : r.struckTo < r.limits.tolerance.toNat) :
    r.ruled d band = { r with state := .suspect, strikes := r.struckTo } := by
  have first : r.state ≠ .suspect → 2 ≤ r.limits.tolerance.toNat ∧ r.struckTo = 1 := fun h => by
    rw [Record.struckTo, if_neg h] at ht ⊢
    exact ⟨ht, rfl⟩
  unfold Record.ruled
  cases hst : r.state with
  | arming => simp [hd, Record.firstStruck, first (by simp [hst])]
  | conforming => simp [hd, Record.firstStruck, first (by simp [hst])]
  | suspect =>
    rw [Record.struckTo, if_pos hst] at ht ⊢
    simp [hd, Nat.not_le.2 ht, ← hst]
  | _ => rw [hst] at hm; cases hm

theorem Record.ruled_of_reached (hm : isMeasuring r.state = true) (hd : d ≠ .inWindow) (ht : r.limits.tolerance.toNat ≤ r.struckTo) :
    r.ruled d band = r.violating := by
  have first : r.state ≠ .suspect → ¬ 2 ≤ r.limits.tolerance.toNat := fun h => by
    rw [Record.struckTo, if_neg h] at ht
    omega
  unfold Record.ruled
  cases hst : r.state with
  | arming => simp [hd, Record.firstStruck, first (by simp [hst])]
  | conforming => simp [hd, Record.firstStruck, first (by simp [hst])]
  | suspect =>
    rw [Record.struckTo, if_pos hst] at ht
    simp [hd, ht]
  | _ => rw [hst] at hm; cases hm

/-- The three ways of the state rule in ARMING, CONFORMING and SUSPECT. -/
theorem Record.ruled_cases (d : Verdict) (band : Bool) (hm : isMeasuring r.state = true) :
    (d = .inWindow ∧ r.ruled d band =
      { r with state := .conforming, strikes := if r.state = .conforming then r.strikes else 0 }) ∨
    (d ≠ .inWindow ∧ r.struckTo < r.limits.tolerance.toNat ∧
      r.ruled d band = { r with state := .suspect, strikes := r.struckTo }) ∨
    (d ≠ .inWindow ∧ r.limits.tolerance.toNat ≤ r.struckTo ∧ r.ruled d band = r.violating) := by
  by_cases hd : d = .inWindow
  · exact .inl ⟨hd, Record.ruled_of_inWindow hm hd⟩
  · obtain ht | ht := Nat.lt_or_ge r.struckTo r.limits.tolerance.toNat
    · exact .inr (.inl ⟨hd, ht, Record.ruled_of_short hm hd ht⟩)
    · exact .inr (.inr ⟨hd, ht, Record.ruled_of_reached hm hd ht⟩)

/-- The counters of recovery are 0 and false at an entry into VIOLATED, and stand otherwise (R36). -/
theorem Record.ruled_recovery (d : Verdict) (band : Bool) (hm : isMeasuring r.state = true) :
    (r.ruled d band).recoveryRun = (if (r.ruled d band).state = .violated then 0 else r.recoveryRun) ∧
      (r.ruled d band).recovered = if (r.ruled d band).state = .violated then false else r.recovered := by
  obtain ⟨-, e⟩ | ⟨-, -, e⟩ | ⟨-, -, e⟩ := Record.ruled_cases d band hm <;> rw [e] <;> exact ⟨rfl, rfl⟩

/-- The kinds posted by a judgement of a contract that was not VIOLATED. -/
theorem Record.ruledKinds_of_measuring (hv : r.state ≠ .violated) : r.ruledKinds d band =
    if (r.ruled d band).state = .violated then 0x08
    else if (r.ruled d band).state = .suspect ∧ r.state ≠ .suspect then askedFor r.limits.noticeMask 0x01 else 0 := if_neg hv

theorem State.ruledLines_of_measuring (hv : r.state ≠ .violated) : x.ruledLines i d band r =
    if (r.ruled d band).state = .violated then (x.joinMask i r.limits.tripMask).trips else x.trips := by
  unfold State.ruledLines
  simp only [hv, ne_eq, not_false_eq_true, true_and, false_and, if_false]

theorem Record.counted_counters (r : Record) (g : Byte) (o : Observation) : (r.counted g o).strikes = r.strikes ∧
    (r.counted g o).recoveryRun = r.recoveryRun ∧ (r.counted g o).recovered = r.recovered := by
  obtain ⟨code, amended, -⟩ := r.amended_shape g
  unfold Record.counted
  rw [amended]
  exact ⟨rfl, rfl, rfl⟩

/-- The lines of a contract that has joined those of a mask. -/
theorem State.joined_lines {mask : BitVec 4} (h : t.trips = (x.joinMask i mask).trips) (hx : x.trips = s.trips) :
    s.linesOfOthersKept t i ∧ ∀ l : LineIx,
      (i ∈ (t.trips[l]'l.isLt).contributors ↔ mask.getLsbD l.val = true ∨ i ∈ (s.trips[l]'l.isLt).contributors) ∧
      ((t.trips[l]'l.isLt).held = true ↔ (s.trips[l]'l.isLt).held = true ∨
        (mask.getLsbD l.val = true ∧ (s.trips[l]'l.isLt).policy = .hold ∧ (s.trips[l]'l.isLt).contributors = [])) := by
  have line : ∀ l : LineIx, t.trips[l.val]'l.isLt = if mask.getLsbD l.val then (s.trips[l.val]'l.isLt).join i else s.trips[l.val]'l.isLt := fun l => by
    rw [h, State.joinMask_line, hx]
  refine ⟨fun l => ?_, fun l => ?_⟩ <;> simp only [Fin.getElem_fin, line] <;> cases mask.getLsbD l.val
  · simp
  · refine ⟨rfl, rfl, fun j hj => by simp [hj]⟩
  · simp
  · simp [TripLine.join_held]

/-- One line brought from an old mask to a new one (R127). -/
def TripLine.changed (L : TripLine) (i : SlotIx) (old new : Bool) : TripLine :=
  if old && !new then L.leave i else if !old && new then L.join i else L

section
variable {L : TripLine} {old new : Bool}

theorem TripLine.changed_same (L : TripLine) (i : SlotIx) (b : Bool) : L.changed i b b = L := by
  cases b <;> rfl

theorem TripLine.changed_policy : (L.changed i old new).policy = L.policy := by
  cases old <;> cases new <;> rfl

theorem TripLine.changed_forced : (L.changed i old new).forced = L.forced := by
  cases old <;> cases new <;> rfl

theorem TripLine.changed_others (hj : j ≠ i) : j ∈ (L.changed i old new).contributors ↔ j ∈ L.contributors := by
  cases old <;> cases new <;> simp [TripLine.changed, hj]

theorem TripLine.changed_own : i ∈ (L.changed i old new).contributors ↔
    i ∈ L.contributors ∧ ¬ (old = true ∧ new = false) ∨ (old = false ∧ new = true) := by
  cases old <;> cases new <;> simp [TripLine.changed]

theorem TripLine.changed_held : (L.changed i old new).held = true ↔
    L.held = true ∨ (old = false ∧ new = true ∧ L.policy = .hold ∧ L.contributors = []) := by
  cases old <;> cases new <;> simp [TripLine.changed, TripLine.join_held]

/-- A line brought from an old mask to a new one, and left where a violation ends that the new mask names it in (R40, R127). -/
structure TripLine.Brought (L K : TripLine) (i : SlotIx) (old new : Bool) (ends : Prop) : Prop where
  others : K.policy = L.policy ∧ K.forced = L.forced ∧ ∀ j : SlotIx, j ≠ i → (j ∈ K.contributors ↔ j ∈ L.contributors)
  own : (i ∈ K.contributors ↔ (i ∈ L.contributors ∧ ¬ (old = true ∧ new = false) ∨ (old = false ∧ new = true)) ∧
      ¬ (ends ∧ new = true)) ∧
    (K.held = true ↔ L.held = true ∨ (old = false ∧ new = true ∧ L.policy = .hold ∧ L.contributors = []))

theorem TripLine.Brought.of_ite {p ends : Prop} [Decidable p] (hp : p ↔ ends) :
    TripLine.Brought L (if p ∧ new = true then (L.changed i old new).leave i else L.changed i old new) i old new ends := by
  by_cases h : p ∧ new = true
  · rw [if_pos h]
    refine ⟨⟨changed_policy, changed_forced, fun j hj => ?_⟩, ?_, changed_held⟩
    · rw [leave_contributors, SlotSet.mem_erase, changed_others hj, and_iff_right hj]
    · rw [leave_contributors, SlotSet.mem_erase, ← hp]
      simp [h]
  · rw [if_neg h]
    exact ⟨⟨changed_policy, changed_forced, fun j hj => changed_others hj⟩,
      changed_own.trans (and_iff_left (mt (and_congr_left' hp).2 h)).symm, changed_held⟩

end

theorem State.applyStaged_line (hr : s.recordAt i = some r) (hv : r.state = .violated) (l : LineIx) :
    (s.applyStaged i).trips[l.val]'l.isLt =
      (s.trips[l.val]'l.isLt).changed i (r.limits.tripMask.getLsbD l.val) ((r.staged.getD r.limits).tripMask.getLsbD l.val) := by
  cases hst : r.staged with
  | none =>
    have same : s.applyStaged i = s := by simp only [State.applyStaged, hr, hst]
    rw [same]
    exact (TripLine.changed_same _ _ _).symm
  | some a =>
    have changed : (s.applyStaged i).trips = ((s.mapRecord i (fun r =>
        ({ r with limits := a, staged := none } : Record).recode (s.slots[i]'i.isLt).generation)).changeMask i r.limits.tripMask a.tripMask).trips := by
      simp only [State.applyStaged, hr, hst, hv, if_true]
    rw [changed, State.changeMask_line, State.mapRecord_trips]
    rfl

/-! ## The state rule of a VIOLATED contract -/

section
variable (hd : d = .inWindow) (hb : band = true)

theorem Record.ruledViolated_of_out (hd : d ≠ .inWindow) :
    r.ruledViolated d band = { r with recoveryRun := 0, recovered := false } := if_pos hd

include hd in
theorem Record.ruledViolated_of_outside (hb : band = false) : r.ruledViolated d band = { r with recoveryRun := 0 } := by
  rw [Record.ruledViolated, if_neg (not_not_intro hd), if_pos (by simp [hb])]

include hd hb in
theorem Record.ruledViolated_of_recovered (hrec : r.recovered = true) : r.ruledViolated d band = r := by
  rw [Record.ruledViolated, if_neg (not_not_intro hd), if_neg (by simp [hb]), if_pos hrec]

include hd hb in
theorem Record.ruledViolated_of_short (hrec : r.recovered = false) (hn : r.recoveryRun + 1 < r.limits.recoveryCount.toNat) :
    r.ruledViolated d band = { r with recoveryRun := r.recoveryRun + 1 } := by
  rw [Record.ruledViolated, if_neg (not_not_intro hd), if_neg (by simp [hb]), if_neg (by simp [hrec]), if_pos hn]

include hd hb in
theorem Record.ruledViolated_of_latching (hrec : r.recovered = false) (hn : r.limits.recoveryCount.toNat ≤ r.recoveryRun + 1)
    (hl : r.fixed.latching = true) : r.ruledViolated d band = { r with recovered := true, recoveryRun := 0 } := by
  rw [Record.ruledViolated, if_neg (not_not_intro hd), if_neg (by simp [hb]), if_neg (by simp [hrec]), if_neg (Nat.not_lt.2 hn),
    if_pos hl]

include hd hb in
theorem Record.ruledViolated_of_ends (hrec : r.recovered = false) (hn : r.limits.recoveryCount.toNat ≤ r.recoveryRun + 1)
    (hl : r.fixed.latching = false) :
    r.ruledViolated d band = { r with state := .conforming, strikes := 0, recoveryRun := 0 } := by
  rw [Record.ruledViolated, if_neg (not_not_intro hd), if_neg (by simp [hb]), if_neg (by simp [hrec]), if_neg (Nat.not_lt.2 hn),
    if_neg (by simp [hl])]

end

theorem Record.ruled_of_violated (hv : r.state = .violated) : r.ruled d band = r.ruledViolated d band := by
  simp [Record.ruled, hv]

/-- The recovery of a non-latching contract is complete (R38). -/
def Record.recovers (d : Verdict) (band : Bool) (r : Record) : Prop :=
  d = .inWindow ∧ band = true ∧ r.recovered = false ∧ r.limits.recoveryCount.toNat ≤ r.recoveryRun + 1 ∧ r.fixed.latching = false

theorem Record.ruledViolated_conforming (hv : r.state = .violated) :
    (r.ruledViolated d band).state = .conforming ↔ r.recovers d band := by
  constructor
  · unfold Record.ruledViolated Record.recovers
    repeat' split
    all_goals first
      | (intro h; exact absurd (h.symm.trans hv) (by decide))
      | (intro _; simp_all)
  · rintro ⟨h1, h2, h3, h4, h5⟩
    rw [Record.ruledViolated_of_ends h1 h2 h3 h4 h5]

/-- The kinds posted while VIOLATED: RECOVERED at the recovery count, when the mask asks. -/
theorem Record.ruledKinds_of_violated (hv : r.state = .violated) : r.ruledKinds d band =
    if (r.ruledViolated d band).state = .conforming ∨ (r.recovered = false ∧ (r.ruledViolated d band).recovered = true) then
      askedFor r.limits.noticeMask 0x02 else 0 := if_pos hv

/-- The lines after a judgement of a VIOLATED contract. -/
theorem State.ruledLines_of_violated (hv : r.state = .violated) (l : LineIx) : (x.ruledLines i d band r)[l.val]'l.isLt =
    if (r.ruledViolated d band).state = .conforming ∧ r.limits.tripMask.getLsbD l.val = true then (x.trips[l.val]'l.isLt).leave i
    else x.trips[l.val]'l.isLt := by
  unfold State.ruledLines
  rw [if_neg (fun h => h.1 hv), Record.ruled_of_violated hv]
  by_cases hc : (r.ruledViolated d band).state = .conforming
  · simp only [hv, hc, and_self, if_true, true_and, State.leaveMask_line]
  · simp only [hc, and_false, if_false, false_and]

end Sys2Proof.Machine

section
open Sys2Proof Sys2Proof.Machine

/-- Settles O36: `Record.Recorded` in both kinds of judgement. -/
theorem countedObservationRecorded : Obligations.CountedObservationRecorded := by
  intro o older newer r s hs ht ho hx hr hm settled
  obtain ⟨-, live⟩ := State.contractAt_eq_some.1 hr
  have exec := exec_observationTaken_of_counted hs ho hx hr hm settled
  have left : ∃ r' n, Judged o.handle.slot s ((s.without (older ++ newer)).judge o.handle.slot o) r' n ∧
      (r.counted (s.slots[o.handle.slot.val]'o.handle.slot.isLt).generation o).ruledOnly r' ∧
      (r'.state ≠ .done → ((s.without (older ++ newer)).judge o.handle.slot o).observationsOf o.handle.slot =
        (older ++ newer).filter fun x => decide (x.handle.slot = o.handle.slot)) := by
    by_cases hdone : r.state = .arming ∧ r.fixed.oneshot = true
    · exact ⟨_, _, (judged_of_done ht.shallow live ho rfl hdone.1 hdone.2).1, ⟨_, _, _, _, _, rfl⟩, fun h => absurd rfl h⟩
    · obtain ⟨judged, obs, -⟩ := judged_of_ruled ht.shallow live ho rfl hdone
      exact ⟨_, _, judged, Record.ruled_ruledOnly _ _ _, fun _ => obs⟩
  obtain ⟨r', n, judged, only, obs⟩ := left
  generalize (s.without (older ++ newer)).judge o.handle.slot o = t at exec judged obs
  have recorded := Record.recorded_of_ruledOnly (judged.kept.2.2 _) only
  refine ⟨t, r', classify (r.staged.getD r.limits) o.value, exec, judged.record, recorded.limits, recorded.staged, recorded.fixed,
    recorded.dependents, recorded.suspended, recorded.settle, recorded.code, recorded.last, classify_silent, fun v hv => ?_, ?_, ?_,
    fun hv => ?_, fun v hv => ?_, obs, judged.slot ht.shallow live, judged.below ht.shallow, judged.port⟩
  · rw [recorded.limits, hv]
    exact classify_value
  · rw [recorded.stats]; rfl
  · rw [recorded.stats]; rfl
  · rw [recorded.stats, hv]
    exact ⟨rfl, rfl⟩
  · rw [recorded.stats, hv]
    exact ⟨rfl, rfl⟩

/-- Settles O37. -/
theorem judgedBeforeViolation : Obligations.JudgedBeforeViolation := by
  intro o older newer r s hs ht ho hx hr hm settled i a inWindow strikes
  obtain ⟨-, live⟩ := State.contractAt_eq_some.1 hr
  have exec := exec_observationTaken_of_counted hs ho hx hr (by simp [State.measures, hm]) settled
  have hv : r.state ≠ .violated := fun e => by rw [e] at hm; cases hm
  obtain ⟨strikes0, run0, recovered0⟩ := r.counted_counters (s.slots[i.val]'i.isLt).generation o
  have limits0 := r.counted_limits (s.slots[i.val]'i.isLt).generation o
  have state0 := r.counted_state (s.slots[i.val]'i.isLt).generation o
  have context0 := r.counted_context (s.slots[i.val]'i.isLt).generation o
  have lines0 : ((s.without (older ++ newer)).counted i r o).trips = s.trips :=
    (State.counted_trips _ _ _ _).trans (State.applyStaged_trips (s := s.without (older ++ newer)) live hv)
  by_cases hdone : r.state = .arming ∧ r.fixed.oneshot = true
  · obtain ⟨judged, pending, trips⟩ := judged_of_done ht.shallow live ho rfl hdone.1 hdone.2
    refine ⟨_, _, exec, judged.record, run0, recovered0, fun _ _ => ⟨rfl, strikes0, rfl, pending, judged.posted, trips⟩, fun h => ?_⟩
    obtain h | h := h
    · rw [h] at hdone; cases hdone.2
    · exact absurd hdone.1 h
  · obtain ⟨judged, -, trips⟩ := judged_of_ruled ht.shallow live ho rfl hdone
    have within := classify_inWindow (a := (r.counted (s.slots[i.val]'i.isLt).generation o).limits) (w := o.value)
    generalize (s.without (older ++ newer)).counted i r o = x at trips lines0
    generalize (s.without (older ++ newer)).judge o.handle.slot o = t at exec judged trips
    generalize r.counted (s.slots[i.val]'i.isLt).generation o = q at *
    generalize classify q.limits o.value = d at *
    generalize inBand q.limits o.value = band at *
    have hmq : isMeasuring q.state = true := by rw [state0]; exact hm
    have hvq : q.state ≠ .violated := by rw [state0]; exact hv
    obtain ⟨run, recovered⟩ := Record.ruled_recovery d band hmq
    have struck : q.struckTo = strikes := by rw [Record.struckTo, state0, strikes0]
    have kinds := Record.ruledKinds_of_measuring (d := d) (band := band) hvq
    rw [State.ruledLines_of_measuring hvq] at trips
    have posted := judged.posted
    rw [kinds] at posted
    refine ⟨t, q.ruled d band, exec, judged.record, run0 ▸ run, recovered0 ▸ recovered, fun h1 h2 => absurd ⟨h2, h1⟩ hdone,
      fun _ => ⟨(Record.ruled_context _ _ _).trans context0, ?_⟩⟩
    rw [limits0] at within
    obtain ⟨hd, e⟩ | ⟨hd, hs', e⟩ | ⟨hd, hs', e⟩ := Record.ruled_cases d band hmq <;> rw [e] at posted trips ⊢
    · refine ⟨fun _ => ⟨rfl, ?_, posted, trips.trans lines0⟩, fun h => absurd (within.1 hd) h, fun h => absurd (within.1 hd) h⟩
      rw [state0, strikes0]
    · refine ⟨fun h => absurd (within.2 h) hd, fun _ _ => ⟨rfl, struck, trips.trans lines0, ?_⟩, fun _ h => ?_⟩
      · rw [state0, limits0] at posted
        by_cases h : r.state = .suspect
        · simpa [h] using posted
        · simpa [h] using posted
      · rw [struck, limits0] at hs'
        exact absurd h (Nat.not_le.2 hs')
    · refine ⟨fun h => absurd (within.2 h) hd, fun _ h => ?_, fun _ _ => ?_⟩
      · rw [struck, limits0] at hs'
        exact absurd h (Nat.not_lt.2 hs')
      · obtain ⟨others, lines⟩ := State.joined_lines (trips.trans (if_pos rfl)) lines0
        rw [limits0] at lines
        exact ⟨rfl, rfl, posted, others, lines⟩

/-- Settles O38: the lines are first brought to the mask then in force, and left at a recovery. -/
theorem judgedInViolation : Obligations.JudgedInViolation := by
  intro o older newer r s hs ht ho hx hr hm hv i a inWindow inBand counted ends
  obtain ⟨-, live⟩ := State.contractAt_eq_some.1 hr
  have exec := exec_observationTaken_of_counted hs ho hx hr hm (by rw [hv]; rintro ⟨⟩)
  obtain ⟨strikes0, run0, recovered0⟩ := r.counted_counters (s.slots[i.val]'i.isLt).generation o
  have limits0 := r.counted_limits (s.slots[i.val]'i.isLt).generation o
  have state0 := r.counted_state (s.slots[i.val]'i.isLt).generation o
  have context0 := r.counted_context (s.slots[i.val]'i.isLt).generation o
  have fixed0 := r.counted_fixed (s.slots[i.val]'i.isLt).generation o
  have lines0 : ∀ l : LineIx, ((s.without (older ++ newer)).counted i r o).trips[l.val]'l.isLt = (s.trips[l.val]'l.isLt).changed i
      (r.limits.tripMask.getLsbD l.val) (a.tripMask.getLsbD l.val) := fun l => by
    rw [State.counted_trips]
    exact State.applyStaged_line (s := s.without (older ++ newer)) live hv l
  obtain ⟨judged, -, trips⟩ := judged_of_ruled ht.shallow live ho rfl (fun h => by rw [hv] at h; cases h.1)
  have within := classify_inWindow (a := (r.counted (s.slots[i.val]'i.isLt).generation o).limits) (w := o.value)
  have inside := inBand_iff (a := (r.counted (s.slots[i.val]'i.isLt).generation o).limits) (w := o.value)
  generalize (s.without (older ++ newer)).counted i r o = x at trips lines0
  generalize (s.without (older ++ newer)).judge o.handle.slot o = t at exec judged trips
  generalize r.counted (s.slots[i.val]'i.isLt).generation o = q at *
  generalize classify q.limits o.value = d at *
  generalize Machine.inBand q.limits o.value = band at *
  have hvq : q.state = .violated := state0.trans hv
  have context := (q.ruled_context d band).trans context0
  rw [limits0] at within inside
  have posted := judged.posted
  have record := judged.record
  rw [Record.ruledKinds_of_violated hvq, limits0] at posted
  rw [Record.ruled_of_violated hvq] at record context
  have ends_iff : (q.ruledViolated d band).state = .conforming ↔ ends := by
    rw [Record.ruledViolated_conforming hvq, Record.recovers, within, inside, recovered0, limits0, run0, fixed0]
    simp [ends, counted, and_assoc, inWindow, inBand, a]
  have line : ∀ l : LineIx, TripLine.Brought (s.trips[l.val]'l.isLt) (t.trips[l.val]'l.isLt) i (r.limits.tripMask.getLsbD l.val)
      (a.tripMask.getLsbD l.val) ends := fun l => by
    rw [trips, State.ruledLines_of_violated hvq, limits0, lines0]
    exact .of_ite ends_iff
  refine ⟨t, _, exec, record, context, fun l => (line l).others, fun hn => ?_, fun hw hn => ?_, fun hw hb hrec => ?_,
    fun ⟨hw, hb, hrec⟩ hn => ?_, fun ⟨hw, hb, hrec⟩ hn hl => ?_, fun ⟨⟨hw, hb, hrec⟩, hn, hl⟩ => ?_, fun l => (line l).own⟩
  · rw [Record.ruledViolated_of_out fun h => hn (within.1 h)] at posted ⊢
    exact ⟨hvq, strikes0, rfl, rfl, by simpa [hvq] using posted⟩
  · rw [Record.ruledViolated_of_outside (within.2 hw) (Bool.eq_false_iff.2 fun h => hn (inside.1 h))] at posted ⊢
    exact ⟨hvq, strikes0, rfl, recovered0, by simpa [hvq] using posted⟩
  · have flag : q.recovered = true := recovered0.trans hrec
    rw [Record.ruledViolated_of_recovered (within.2 hw) (inside.2 hb) flag] at posted ⊢
    exact ⟨hvq, strikes0, run0, flag, by simpa [hvq, flag] using posted⟩
  · have flag : q.recovered = false := recovered0.trans hrec
    rw [Record.ruledViolated_of_short (within.2 hw) (inside.2 hb) flag (by rw [run0, limits0]; exact hn)] at posted ⊢
    exact ⟨hvq, strikes0, congrArg (· + 1) run0, flag, by simpa [hvq, flag] using posted⟩
  · have flag : q.recovered = false := recovered0.trans hrec
    rw [Record.ruledViolated_of_latching (within.2 hw) (inside.2 hb) flag (by rw [run0, limits0]; exact hn) (by rw [fixed0]; exact hl)]
      at posted ⊢
    exact ⟨hvq, strikes0, rfl, rfl, by simpa [flag] using posted⟩
  · have flag : q.recovered = false := recovered0.trans hrec
    rw [Record.ruledViolated_of_ends (within.2 hw) (inside.2 hb) flag (by rw [run0, limits0]; exact hn) (by rw [fixed0]; exact hl)]
      at posted ⊢
    exact ⟨rfl, rfl, rfl, flag, by simpa using posted⟩

end
end

