-- ==== Sys2Proof/Proofs/Amendments.lean ====
section
set_option Elab.async false
/-! PROOFS. AMEND in staged and in immediate mode (O54). -/

namespace Sys2Proof.Machine

variable {s t u : State} {i j : SlotIx} {r q : Record} {f : Frame} {o : AmendBytes} {a : Limits}

/-! ## The record that AMEND leaves -/

theorem State.stage_recordAt (hr : s.recordAt i = some r) (a : Limits) :
    (s.stage i a).recordAt i = some (r.staging (s.slots[i.val]'i.isLt).generation a) := by
  rw [← State.view_record, s.stage_view, View.edit_record, State.view_record, hr]
  rfl

theorem amendNow_posted (sh : s.shallow) (hr : s.recordAt i = some r) (a : Limits) : s.posted (s.amendNow i r a) i 0 := by
  rw [State.posted_iff, (amendNow_loses sh hr a).2, View.amend_of_record (v := s.view i) hr, View.post_none]
  split
  · rfl
  · split
    · split <;> rfl
    · rfl

/-- Immediate mode on a measuring contract: it enters ARMING under the new limits. -/
theorem amendNow_of_measuring (sh : s.shallow) (hr : s.recordAt i = some r) (hm : isMeasuring r.state = true) (a : Limits) :
    (s.amendNow i r a).recordAt i = some ((r.under (s.slots[i.val]'i.isLt).generation a).idle.rearmedAt (s.slots[i.val]'i.isLt).generation) ∧
      (s.amendNow i r a).nonePending i ∧ (s.amendNow i r a).trips = s.trips := by
  have view := (amendNow_loses sh hr a).2
  rw [View.amend_of_record (v := s.view i) hr, if_pos hm] at view
  refine ⟨?_, State.nonePending_of_view view ?_, ?_⟩
  · rw [← State.view_record, view]; simp [hr]
  · rw [View.edit_generation]
    exact View.abandon_none i _
  · have now : s.amendNow i r a = ((s.mapRecord i (Record.under (s.slots[i.val]'i.isLt).generation a)).abandon i).enterArming i := if_pos hm
    have force : OneSlot i s (s.mapRecord i (Record.under (s.slots[i.val]'i.isLt).generation a)) := .mapRecord fun _ => by rfl
    have ended := Turn.abandon (s.mapRecord i (Record.under (s.slots[i.val]'i.isLt).generation a)) i
    have armed := Turn.enterArming (s := (s.mapRecord i (Record.under (s.slots[i.val]'i.isLt).generation a)).abandon i) (i := i)
      (r := (r.under (s.slots[i.val]'i.isLt).generation a).idle) (ended.losses.tree.shallow (force.tree.shallow sh)) (by simp [hr]; rfl)
      (isMeasuring_isOpen hm)
    rw [now, armed.trips, ended.trips, State.mapRecord_trips]

/-- Immediate mode on a VIOLATED contract: its recovery restarts, and its lines are brought to the new mask. -/
theorem amendNow_of_violated (sh : s.shallow) (hr : s.recordAt i = some r) (hv : r.state = .violated) (a : Limits) :
    (s.amendNow i r a).recordAt i = some { r.under (s.slots[i.val]'i.isLt).generation a with
        recoveryRun := 0, context := if s.measures r then Context.initial else r.context } ∧
      (s.measures r = true → (s.amendNow i r a).nonePending i) ∧
      ∀ l : LineIx, (s.amendNow i r a).trips[l.val]'l.isLt =
        (s.trips[l.val]'l.isLt).changed i (r.limits.tripMask.getLsbD l.val) (a.tripMask.getLsbD l.val) := by
  have hm : isMeasuring r.state = false := by rw [hv]; rfl
  have view := (amendNow_loses sh hr a).2
  rw [View.amend_of_record (v := s.view i) hr, if_neg (by rw [hm]; simp), if_pos hv] at view
  have measured : s.measures r = (s.runs r.fixed.base && s.allows i) := by
    rw [State.measures_eq, State.allows_of_record hr]; simp [Record.measuresIn, hv, isMeasuring]
  rw [measured]
  refine ⟨?_, fun h => State.nonePending_of_view view ?_, fun l => ?_⟩
  · rw [← State.view_record, view]
    cases s.runs r.fixed.base && s.allows i
    · simp [hr]; rfl
    · simp only [if_true, View.edit_record, View.abandon_record, State.view_record, hr, Option.map_some]; rfl
  · rw [if_pos h, View.edit_generation]
    exact View.abandon_none i _
  · have now : s.amendNow i r a =
        ((s.mapRecord i (Record.under (s.slots[i.val]'i.isLt).generation a)).restartRecovery i r).changeMask i r.limits.tripMask a.tripMask := by
      unfold State.amendNow
      exact (if_neg (by rw [hm]; simp)).trans (if_pos hv)
    rw [now, State.changeMask_line, State.restartRecovery_trips, State.mapRecord_trips]
    rfl

/-- Immediate mode on a blocked contract: the limits alone change. -/
theorem amendNow_of_blocked (hb : isBlocked r.state = true) (a : Limits) :
    s.amendNow i r a = s.mapRecord i (Record.under (s.slots[i.val]'i.isLt).generation a) := by
  unfold State.amendNow
  rw [if_neg (by intro h; revert hb h; cases r.state <;> simp [isBlocked, isMeasuring]), if_neg (by rintro h; rw [h] at hb; cases hb)]
  rfl

/-- A record with no staged amendment entering ARMING. -/
theorem Record.rearmedAt_under (g : Byte) (a : Limits) (r : Record) : (r.under g a).idle.rearmedAt g =
    ({ r with limits := a, staged := none } : Record).armedFrom ((r.under g a).idle.rearmedAt g).checkCode :=
  (Record.rearmedAt_eq g (r.under g a).idle).trans rfl

theorem LimitBytes.fieldFails_of_setFails {n : Nat} (h : o.limits.setFails n) : o.fieldFails n := by
  unfold AmendBytes.fieldFails
  split
  · exact absurd h (by simp [LimitBytes.setFails])
  · exact h

end Sys2Proof.Machine

section
open Sys2Proof Sys2Proof.Machine

/-- Settles O54. -/
theorem amendStagedOrImmediate : Obligations.AmendStagedOrImmediate := by
  intro f o s i r hs ht hi hf hg hr hd hc hk result
  have sh : (s.frameEnded (24 + f.fill)).shallow := ht.shallow
  have live : (s.frameEnded (24 + f.fill)).recordAt i = some r := hr
  have gives : o.limits.gives (limitsOf o.limits) := gives_limitsOf fun n hn => hf n (LimitBytes.fieldFails_of_setFails hn)
  have code : (if r.staged.isSome then ResultCode.okReplaced else .ok) = result := by
    show _ = if r.staged = none then ResultCode.ok else .okReplaced
    cases r.staged <;> rfl
  have block := amendBlock_of_live (s := s.frameEnded (24 + f.fill)) hi hf hg hr
  rw [if_neg (by rintro (h | h) <;> contradiction),
    show amendRecordError r.fixed o.limits = none from (amendRecord_checks r.fixed o.limits).none hk] at block
  dsimp only at block
  rw [code] at block
  generalize limitsOf o.limits = a at block gives
  have reply : ∀ {u q c}, u.port = (s.frameEnded (24 + f.fill)).port → u.recordAt i = some q → stateCode q.state = c →
      s.answered (Answer.served { state := u, result := result, payload := [u.stateByte i] } .amend f) (24 + f.fill)
        ⟨result, f.tag, 0x09, [c]⟩ := fun port record state => by
    rw [← state, ← State.stateByte_of_record record]; exact answered_served port .amend f
  by_cases mode : o.mode = 1
  · -- staged
    have record := State.stage_recordAt live a
    have frame : TableFrame (fun _ => True) (s.frameEnded (24 + f.fill)) ((s.frameEnded (24 + f.fill)).stage i a) := .stage a
    have view := (s.frameEnded (24 + f.fill)).stage_view i a
    have losses := (stage_loses live a).1
    have trips : ((s.frameEnded (24 + f.fill)).stage i a).trips = s.trips := State.mapRecord_trips ..
    have pending : ((s.frameEnded (24 + f.fill)).stage i a).observations = s.observations := State.mapRecord_observations ..
    rw [if_pos mode] at block
    generalize (s.frameEnded (24 + f.fill)).stage i a = u at *
    have taken : exec (.amend f o) s = .next _ := congrArg Host.Outcome.next (serve_answer hs .amend f block)
    refine ⟨_, _, taken, record, ?_, ?_, fun _ => ?_, fun mode' => ?_⟩
    · rw [State.codeAgrees_iff]
      show _ = Record.freshCode _ (u.slots[i.val]'i.isLt).generation
      rw [frame.generation]
      rfl
    · exact State.posted_iff.2 ((congrArg View.kinds view).trans (View.post_none (s.view i) ▸ rfl))
    · have slot := onlySlot_of_losses frame.kept losses sh fun h => by
        rw [State.healthyAt_iff record]; rwa [State.healthyAt_iff live] at h
      have answered := reply frame.port record rfl
      exact ⟨a, rfl, gives, rfl, answered, trips, pending, slot⟩
    · rw [mode] at mode'; simp at mode'
  · -- immediate
    have frame : TableFrame (fun _ => True) (s.frameEnded (24 + f.fill)) ((s.frameEnded (24 + f.fill)).amendNow i r a) :=
      .amendNow live a
    have losses := (amendNow_loses sh live a).1
    have posted : s.posted ((s.frameEnded (24 + f.fill)).amendNow i r a) i 0 := amendNow_posted sh live a
    have slot : isHealthy r.state = false → (s.frameEnded (24 + f.fill)).onlySlot ((s.frameEnded (24 + f.fill)).amendNow i r a) i :=
      fun hh => onlySlot_of_losses frame.kept losses sh fun h => absurd h (State.not_healthyAt live hh)
    have below := onlyBelow_of_losses frame.kept losses sh
    have agrees : ∀ {q}, q.checkCode = q.freshCode (s.slots[i.val]'i.isLt).generation →
        ((s.frameEnded (24 + f.fill)).amendNow i r a).codeAgrees i q = true := fun h => by
      rw [State.codeAgrees_iff, frame.generation]; exact h
    rw [if_neg mode] at block
    have taken : exec (.amend f o) s = .next _ := congrArg Host.Outcome.next (serve_answer hs .amend f block)
    have cases : isMeasuring r.state = true ∨ r.state = .violated ∨ isBlocked r.state = true := by
      revert hd hc; cases r.state <;> simp [isMeasuring, isBlocked]
    obtain hm | hv | hb := cases
    · obtain ⟨record, none, trips⟩ := amendNow_of_measuring sh live hm a
      have notViolated : r.state ≠ .violated := fun h => by rw [h] at hm; cases hm
      have notBlocked : isBlocked r.state ≠ true := by revert hm; cases r.state <;> simp [isMeasuring, isBlocked]
      generalize (s.frameEnded (24 + f.fill)).amendNow i r a = u at *
      have answered := reply frame.port record rfl
      refine ⟨_, _, taken, record, agrees (Record.rearmedAt_code _ _ rfl), posted, fun h => absurd h mode, fun _ =>
        ⟨?_, fun _ => ⟨Record.rearmedAt_under _ a r, none, answered, trips, slot, below⟩, fun h => absurd h notViolated,
          fun h => absurd h notBlocked⟩⟩
      rw [Record.rearmedAt_under]; exact gives
    · obtain ⟨record, none, lines⟩ := amendNow_of_violated sh live hv a
      have notMeasuring : isMeasuring r.state ≠ true := by rw [hv]; simp [isMeasuring]
      have notBlocked : isBlocked r.state ≠ true := by rw [hv]; simp [isBlocked]
      have code4 : stateCode r.state = 0x04 := by rw [hv]; rfl
      have only := slot (by rw [hv]; rfl)
      generalize (s.frameEnded (24 + f.fill)).amendNow i r a = u at *
      have answered := reply frame.port record code4
      refine ⟨_, _, taken, record, agrees rfl, posted, fun h => absurd h mode, fun _ => ⟨gives, fun h => absurd h notMeasuring,
        fun _ => ⟨rfl, none, answered, only, fun l => ?_, fun l => ?_⟩, fun h => absurd h notBlocked⟩⟩
      · rw [Fin.getElem_fin, show (Answer.served _ _ _).trips[l.val] = _ from lines l]
        exact ⟨TripLine.changed_policy, TripLine.changed_forced, fun j hj => TripLine.changed_others hj⟩
      · intro old new
        rw [Fin.getElem_fin, show (Answer.served _ _ _).trips[l.val] = _ from lines l]
        exact ⟨TripLine.changed_own, TripLine.changed_held⟩
    · have now := amendNow_of_blocked (s := s.frameEnded (24 + f.fill)) (i := i) hb a
      have record : ((s.frameEnded (24 + f.fill)).amendNow i r a).recordAt i = some (r.under (s.slots[i.val]'i.isLt).generation a) := by
        rw [now, State.mapRecord_recordAt, live]; rfl
      have trips : ((s.frameEnded (24 + f.fill)).amendNow i r a).trips = s.trips := by rw [now]; exact State.mapRecord_trips ..
      have pending : ((s.frameEnded (24 + f.fill)).amendNow i r a).observations = s.observations := by
        rw [now]; exact State.mapRecord_observations ..
      have notMeasuring : isMeasuring r.state ≠ true := by revert hb; cases r.state <;> simp [isMeasuring, isBlocked]
      have notViolated : r.state ≠ .violated := fun h => by rw [h] at hb; cases hb
      have only := slot (by revert hb; cases r.state <;> simp [isHealthy, isBlocked])
      clear now
      generalize (s.frameEnded (24 + f.fill)).amendNow i r a = u at *
      have answered := reply frame.port record rfl
      exact ⟨_, _, taken, record, agrees rfl, posted, fun h => absurd h mode, fun _ => ⟨gives, fun h => absurd h notMeasuring,
        fun h => absurd h notViolated, fun _ => ⟨rfl, answered, trips, pending, only⟩⟩⟩

end
end

