-- ==== Sys2Proof/Proofs/MismatchReports.lean ====
section
set_option Elab.async false
/-! PROOFS. The entry into CORRUPT that a mismatch report brings (O60). -/

namespace Sys2Proof.Machine

variable {C : SlotIx → Prop} {s t u : State} {i j k : SlotIx} {r q : Record} {h : Handle}

/-! ## What a health change reaches -/

/-- A parent that no longer allows was reached by the health change of a contract in the set, or was in it. -/
theorem Losses.reached (h : Losses C s t) (sh : s.shallow) (as : s.allows j = true) (at' : t.allows j = false) :
    ∃ k, C k ∧ s.reaches k j := by
  obtain ⟨p, hp, hps, hpt⟩ := h.tree.lost as at'
  by_cases hpC : C p
  · exact ⟨p, hpC, hps, .inl hp⟩
  · obtain ⟨-, hv⟩ | ⟨bs, bt, -⟩ := h.cases hpC
    · exact absurd ((State.healthyAt_of_view hv).2 hps) hpt
    · obtain ⟨p', hp', hps', hpt'⟩ := h.tree.lost bs bt
      by_cases hpC' : C p'
      · exact ⟨p', hpC', hps', .inr ⟨p, hps, hp, hp'⟩⟩
      · obtain ⟨-, hv⟩ | ⟨cs, ct, -⟩ := h.cases hpC'
        · exact absurd ((State.healthyAt_of_view hv).2 hps') hpt'
        · obtain ⟨p'', hp'', -⟩ := h.tree.lost cs ct
          exact absurd hp'' (sh _ _ _ _ hp hp')

/-- A slot that the health change of no contract in the set reaches stands. -/
theorem Losses.unreached (h : Losses C s t) (sh : s.shallow) (hj : ¬ C j) (hn : ∀ k, C k → ¬ s.reaches k j) :
    t.view j = s.view j := by
  obtain ⟨-, hv⟩ | ⟨as, at', -⟩ := h.cases hj
  · exact hv
  · obtain ⟨k, hk, hr⟩ := h.reached sh as at'
    exact absurd hr (hn k hk)

/-! ## The entry into CORRUPT -/

theorem enterCorrupt_recordAt (sh : s.shallow) (hr : s.recordAt i = some r) : (s.enterCorrupt i r).recordAt i =
    some { r with state := .corrupt, context := if s.measures r then Context.initial else r.context } := by
  obtain ⟨-, view, -⟩ := enterCorrupt_loses sh hr
  rw [← State.view_record, view, View.corrupt_record (v := s.view i) hr]
  split <;> rfl

theorem enterCorrupt_nonePending (sh : s.shallow) (hr : s.recordAt i = some r) (hm : s.measures r = true) :
    (s.enterCorrupt i r).nonePending i := by
  obtain ⟨-, view, -⟩ := enterCorrupt_loses sh hr
  refine State.nonePending_of_view view ?_
  rw [View.corrupt, if_pos hm, View.post_obs, View.post_slot, View.edit_generation, View.edit_obs]
  exact View.abandon_none i _

theorem enterCorrupt_posted (sh : s.shallow) (hr : s.recordAt i = some r) : s.posted (s.enterCorrupt i r) i (noticeBit .corrupt) := by
  obtain ⟨-, view, -⟩ := enterCorrupt_loses sh hr
  rw [State.posted_iff, view, View.corrupt]
  refine View.post_kinds_congr ?_
  rw [View.edit_kinds]
  split <;> rfl

/-- Beside the table, an entry into CORRUPT changes the sets and the lines alone. -/
structure LeftSets (i : SlotIx) (s t : State) : Prop where
  base : ∀ b : BaseIx, t.bases[b.val]'b.isLt = { (s.bases[b.val]'b.isLt) with subscribers := SlotSet.erase i (s.bases[b.val]'b.isLt).subscribers }
  channel : ∀ p : PinIx, t.pins[p.val]'p.isLt = { (s.pins[p.val]'p.isLt) with subscribers := SlotSet.erase i (s.pins[p.val]'p.isLt).subscribers }
  line : ∀ l : LineIx, t.trips[l.val]'l.isLt = (s.trips[l.val]'l.isLt).join i
  rest : t.scrub = s.scrub ∧ t.ref = s.ref ∧ t.port = s.port ∧ t.supply = s.supply ∧ t.inReset = s.inReset ∧
    t.pending = s.pending ∧ deviceKinds t.notices = deviceKinds s.notices

theorem deviceKinds_addContractKinds (i : SlotIx) (g : Byte) (k : BitVec 7) (l : List NoticeEntry) :
    deviceKinds (addContractKinds i g k l) = deviceKinds l := by
  induction l with
  | nil => rfl
  | cons a t ih =>
    cases a with
    | device ks => rfl
    | contract a b ks =>
      simp only [addContractKinds]
      split
      · rfl
      · exact ih

theorem enterCorrupt_leftSets (sh : s.shallow) (hr : s.recordAt i = some r) : LeftSets i s (s.enterCorrupt i r) := by
  have calm := (State.becameUnhealthy_view ((markCorrupt_oneSlot hr).tree.shallow sh) r.state i).1
  obtain ⟨⟨bases, pins, ref, scrub, supply, inReset, pending⟩, notices, port⟩ :=
    And.intro calm.frame.outside (And.intro calm.frame.notices.deviceKinds calm.frame.port)
  rw [State.enterCorrupt_eq]
  generalize (s.markCorrupt i r).becameUnhealthy r.state i = t at *
  refine ⟨fun b => ?_, fun p => ?_, fun l => ?_, ?_⟩
  · rw [bases, State.markCorrupt_base]
  · rw [pins, State.markCorrupt_channel]
  · rw [calm.trips, State.markCorrupt_line]
  · rw [scrub, ref, port, supply, inReset, pending, notices, State.markCorrupt_notices, deviceKinds_addContractKinds]
    simp

theorem State.takeReport_of_none (hc : s.contractAt h = none) : s.takeReport h = s := by
  simp only [State.takeReport, hc]

theorem State.takeReport_of_record (hc : s.contractAt h = some r) :
    s.takeReport h = if r.state = .corrupt then s else s.enterCorrupt h.slot r := by
  simp only [State.takeReport, hc]

end Sys2Proof.Machine

section
open Sys2Proof Sys2Proof.Machine

/-- Settles O60. -/
theorem mismatchMakesCorrupt : Obligations.MismatchMakesCorrupt := by
  intro h s hs
  have event : exec (.mismatchReport h) s = .next (if s.scrub.reports.contains h then
      State.takeReport { s with scrub := { s.scrub with reports := s.scrub.reports.erase h } } h else s) :=
    congrArg Host.Outcome.next (State.whileOperating_of_running hs _)
  refine ⟨fun hn => ?_, fun hm => ?_⟩
  · rw [event, if_neg (by simpa using hn)]
  · rw [if_pos (by simpa using hm)] at event
    intro scrub
    refine ⟨fun hc => ?_, fun r hc hst => ?_, fun r hc hst ht => ?_⟩
    · exact event.trans (congrArg Host.Outcome.next (State.takeReport_of_none (s := { s with scrub := scrub }) hc))
    · exact event.trans (congrArg Host.Outcome.next
        ((State.takeReport_of_record (s := { s with scrub := scrub }) hc).trans (if_pos hst)))
    · have entered := event.trans (congrArg Host.Outcome.next
        ((State.takeReport_of_record (s := { s with scrub := scrub }) hc).trans (if_neg hst)))
      have hr := (State.contractAt_eq_some.1 hc).2
      have sh : State.shallow { s with scrub := scrub } := ht.shallow
      have losses := (enterCorrupt_loses (s := { s with scrub := scrub }) sh hr).1
      have record := enterCorrupt_recordAt (s := { s with scrub := scrub }) sh hr
      have none := enterCorrupt_nonePending (s := { s with scrub := scrub }) sh hr
      have posted := enterCorrupt_posted (s := { s with scrub := scrub }) sh hr
      obtain ⟨bases, channels, lines, scrub', ref, port, supply, inReset, pending, device⟩ :=
        enterCorrupt_leftSets (s := { s with scrub := scrub }) sh hr
      generalize State.enterCorrupt _ h.slot r = t at *
      have ill : ¬ t.healthyAt h.slot := fun ⟨q, hq, hh⟩ => by
        obtain rfl := Option.some.inj (record.symm.trans hq); cases hh
      refine ⟨t, entered, record, none, posted, bases, channels, fun l => ?_, fun l => ?_, scrub', ref, port, supply,
        inReset, pending, device, fun d q hh hd hq => ?_, fun j hj hn => ?_⟩
      · rw [Fin.getElem_fin, lines]
        exact ⟨rfl, rfl, fun j hj => by simp [hj]⟩
      · rw [Fin.getElem_fin, lines]
        exact ⟨by simp, by simp [TripLine.join_held]⟩
      · have ne : d ≠ h.slot := fun e => sh.not_self h.slot (by rw [e] at hd; exact hd)
        refine cascadeSetsAside_of_view hq ?_
        rw [losses.runs]
        exact losses.below_lost ne hd ⟨r, hr, hh⟩ ill
      · exact State.stands_iff.2 (losses.unreached sh hj fun k e => by rw [e]; exact hn)

end
end

