-- ==== Sys2Proof/Proofs/RunNotices.lean ====
section
set_option Elab.async false
/-! PROOFS. The run notice, and the commands that start bases: START_TIMEBASE and CLEAR_FAULT (O47). -/

namespace Sys2Proof.Machine

variable {s t u x : State} {i j : SlotIx} {r q : Record} {v : View} {run : BaseIx → Bool} {al : Bool} {b : BaseIx}
variable {named : BaseIx → Bool}

/-! ## A run notice at one subscriber -/

/-- A HELD contract is not healthy, so its recomputation brings no cascade. -/
theorem State.recompute_of_held (hr : s.recordAt i = some r) (hh : r.state = .held) : s.recompute i =
    if s.blockingResult r = .arming then s.rearm i
    else if r.state = s.blockingResult r then s
    else s.setAside i (s.blockingResult r) := by
  have calm : ∀ y : State, y.becameUnhealthy r.state i = y := fun y => if_neg (by rw [hh]; simp [isHealthy])
  have open' : (isMeasuring r.state || isBlocked r.state) = true := by rw [hh]; rfl
  have idle : ¬ isMeasuring r.state = true := by rw [hh]; simp [isMeasuring]
  unfold State.recompute State.enterArming State.enterBlocked
  simp only [hr, calm]
  rw [if_pos open', if_neg idle]

theorem View.recompute_of_held (hr : v.record = some r) (hh : r.state = .held) : v.recompute run al i =
    if r.blockedTo run al = .arming then v.edit (Record.rearmedAt v.slot.generation)
    else if r.state = r.blockedTo run al then v
    else v.setAside i (r.blockedTo run al) := by
  have open' : isOpen r.state = true := by rw [hh]; rfl
  have idle : ¬ isMeasuring r.state = true := by rw [hh]; simp [isMeasuring]
  rw [View.recompute_of_record hr, if_pos open', if_neg idle]

theorem State.setAside_trips (hr : s.recordAt i = some r) (target : ContractState) : (s.setAside i target).trips = s.trips := by
  unfold State.setAside
  simp only [hr]
  split <;> split <;> simp

theorem State.setAside_observations (hr : s.recordAt i = some r) (hm : isMeasuring r.state = false) (target : ContractState) :
    (s.setAside i target).observations = s.observations := by
  unfold State.setAside
  simp only [hr, hm]
  split <;> simp

theorem State.applyStaged_observations (s : State) (i : SlotIx) : (s.applyStaged i).observations = s.observations := by
  unfold State.applyStaged
  repeat' split
  all_goals simp

/-- A run notice reaches its subscriber alone. -/
structure RunAlone (s t : State) : Prop where
  frame : TableFrame (fun _ => False) s t
  trips : t.trips = s.trips
  observations : t.observations = s.observations
  health : ∀ j, t.healthyAt j ↔ s.healthyAt j

theorem RunAlone.allows (h : RunAlone s t) (j : SlotIx) : t.allows j = s.allows j :=
  h.frame.sameTree.allows_eq fun p _ => h.health p

theorem runSubscriber_view (s : State) (i j : SlotIx) :
    (s.runSubscriber i).view j = if j = i then (s.view j).run s.runs (s.allows j) j else s.view j := by
  by_cases e : j = i
  · subst e
    rw [if_pos rfl]
    unfold State.runSubscriber
    cases hr : s.recordAt j with
    | none => simp [View.run, hr]
    | some r =>
      have form := View.run_of_record (v := s.view j) hr s.runs (s.allows j) j
      rw [form]
      dsimp only
      by_cases hh : r.state = .held
      · have result : s.blockingResult r = r.blockedTo s.runs (s.allows j) := by
          rw [State.blockingResult_eq, State.allows_of_record hr]
        rw [if_pos hh, if_pos hh, State.recompute_of_held hr hh, result,
          View.recompute_of_held (v := s.view j) hr hh]
        split
        · rw [State.rearm_view, if_pos rfl]; rfl
        · split
          · rfl
          · rw [State.setAside_view, if_pos rfl]
      · rw [if_neg hh, if_neg hh, State.allows_of_record hr]
        split
        · rw [State.unfreeze, State.mapRecord_view, if_pos rfl]; rfl
        · rfl
  · rw [if_neg e]
    unfold State.runSubscriber
    cases hr : s.recordAt i with
    | none => rfl
    | some r =>
      dsimp only
      split
      · rename_i hh
        rw [State.recompute_of_held hr hh]
        split
        · rw [State.rearm_view, if_neg e]
        · split
          · rfl
          · rw [State.setAside_view, if_neg e]
      · split
        · rw [State.unfreeze, State.mapRecord_view, if_neg e]
        · rfl

theorem View.run_healthy (hr : v.record = some r) (hh : isHealthy r.state = true) : v.run run al i = v := by
  rw [View.run_of_record hr, if_neg (by rintro e; rw [e] at hh; cases hh), if_neg (by rintro ⟨e, -⟩; rw [e] at hh; cases hh)]

/-- A run notice heals no contract. -/
theorem View.run_unhealthy (hr : v.record = some r) (hq : (v.run run al i).record = some q) (hh : isHealthy r.state = false) :
    isHealthy q.state = false := by
  rw [View.run_of_record hr] at hq
  split at hq
  · rw [View.recompute_of_record hr] at hq
    split at hq
    · split at hq
      · split at hq
        · obtain rfl := Option.some.inj (hr.symm.trans hq); exact hh
        · rw [View.edit_record, hr] at hq
          obtain rfl := Option.some.inj hq
          rfl
      · rename_i ha
        split at hq
        · obtain rfl := Option.some.inj (hr.symm.trans hq); exact hh
        · rw [View.setAside_record, hr] at hq
          obtain rfl := Option.some.inj hq
          have blocked := (r.blockedTo_cases run al).resolve_left ha
          rw [Record.asideIn_state]
          revert blocked
          cases r.blockedTo run al <;> simp [isBlocked, isHealthy]
    · obtain rfl := Option.some.inj (hr.symm.trans hq); exact hh
  · split at hq
    · rw [View.edit_record, hr] at hq
      obtain rfl := Option.some.inj hq
      exact hh
    · obtain rfl := Option.some.inj (hr.symm.trans hq); exact hh

theorem runSubscriber_alone (s : State) (i : SlotIx) : RunAlone s (s.runSubscriber i) := by
  refine ⟨.runSubscriber i, ?_, ?_, fun j => ?_⟩
  · unfold State.runSubscriber
    cases hr : s.recordAt i with
    | none => rfl
    | some r =>
      dsimp only
      split
      · rename_i hh
        rw [State.recompute_of_held hr hh]
        split
        · rw [State.rearm, State.mapRecord_trips, State.applyStaged_trips hr (by rw [hh]; simp)]
        · split <;> [rfl; exact State.setAside_trips hr _]
      · split <;> [simp [State.unfreeze]; rfl]
  · unfold State.runSubscriber
    cases hr : s.recordAt i with
    | none => rfl
    | some r =>
      dsimp only
      split
      · rename_i hh
        rw [State.recompute_of_held hr hh]
        split
        · rw [State.rearm, State.mapRecord_observations, State.applyStaged_observations]
        · split <;> [rfl; exact State.setAside_observations hr (by rw [hh]; rfl) _]
      · split <;> [simp [State.unfreeze]; rfl]
  · have view := runSubscriber_view s i j
    have frame : TableFrame (fun _ => False) s (s.runSubscriber i) := .runSubscriber i
    by_cases e : j = i
    · rw [if_pos e] at view
      constructor
      · rintro ⟨q, hq, hh⟩
        obtain ⟨r, hr, -⟩ := frame.record hq
        rw [← State.view_record, view] at hq
        cases hr' : isHealthy r.state
        · rw [View.run_unhealthy (v := s.view j) hr hq hr'] at hh; cases hh
        · exact ⟨r, hr, hr'⟩
      · rintro ⟨r, hr, hh⟩
        rw [View.run_healthy (v := s.view j) hr hh] at view
        exact (State.healthyAt_of_view view).2 ⟨r, hr, hh⟩
    · rw [if_neg e] at view
      exact State.healthyAt_of_view view

/-! ## A run notice -/

theorem RunAlone.trans (h : RunAlone s t) (k : RunAlone t u) : RunAlone s u :=
  ⟨h.frame.trans k.frame, k.trips.trans h.trips, k.observations.trans h.observations, fun j => (k.health j).trans (h.health j)⟩

theorem runSubscribers_view (l : List SlotIx) (nodup : l.Nodup) (s : State) : RunAlone s (l.foldl State.runSubscriber s) ∧
    ∀ j, (l.foldl State.runSubscriber s).view j = if j ∈ l then (s.view j).run s.runs (s.allows j) j else s.view j := by
  induction l generalizing s with
  | nil => exact ⟨⟨.refl _ s, rfl, rfl, fun _ => Iff.rfl⟩, fun j => (if_neg (List.not_mem_nil)).symm⟩
  | cons a l ih =>
    obtain ⟨ha, nodup'⟩ := List.nodup_cons.1 nodup
    have first := runSubscriber_alone s a
    obtain ⟨later, view⟩ := ih nodup' (s.runSubscriber a)
    refine ⟨first.trans later, fun j => (view j).trans ?_⟩
    rw [runSubscriber_view, first.frame.runs, first.allows]
    by_cases e : j = a
    · subst e; rw [if_neg ha, if_pos rfl, if_pos List.mem_cons_self]
    · rw [if_neg e]; simp only [List.mem_cons, e, false_or]

theorem runNotice_view (s : State) (named : BaseIx → Bool) : RunAlone s (s.runNotice named) ∧
    ∀ j, (s.runNotice named).view j =
      if j ∈ s.subscribersOf named then (s.view j).run s.runs (s.allows j) j else s.view j :=
  runSubscribers_view _ (subscribersOf_nodup s named) s

/-- A run notice at a subscriber of a base that runs, in the words of the statements. -/
theorem runReaches_of_view (hr : s.recordAt i = some r) (hb : run r.fixed.base = true) (hf : r.suspensionFits)
    (hv : t.view i = (s.view i).run run (s.parentAllows r) i) : s.runReaches t i r := by
  have hv' : (s.view i).record = some r := hr
  rw [View.run_of_record hv'] at hv
  unfold State.runReaches
  by_cases hh : r.state = .held
  · have awake : r.suspended = false := Bool.eq_false_iff.2 fun e => by
      obtain h | h := hf e <;> rw [hh] at h <;> cases h
    rw [if_pos hh, View.recompute_of_held hv' hh] at hv
    rw [if_pos hh]
    cases hp : s.parentAllows r
    · have result : r.blockedTo run false = .dormant := Record.blockedTo_dormant.2 ⟨awake, hb, rfl⟩
      rw [hp, result, if_neg (by simp), if_neg (by rw [hh]; simp)] at hv
      rw [if_neg (by simp)]
      refine ⟨?_, ?_⟩
      · rw [← State.view_record, hv, View.setAside_record, hv']
        simp [Record.asideIn, hh, isMeasuring]
      · rw [State.posted_iff, hv, View.setAside_kinds hv' (by simp)]; rfl
    · have result : r.blockedTo run true = .arming := Record.blockedTo_arming.2 ⟨awake, hb, rfl⟩
      rw [hp, if_pos result] at hv
      rw [if_pos rfl]
      exact ⟨armed_of_view hr (by rw [hv]), by rw [State.posted_iff, hv, View.edit_kinds, View.post_none]⟩
  · rw [if_neg hh] at hv ⊢
    by_cases hx : r.state = .violated ∧ s.parentAllows r = true
    · rw [if_pos hx] at hv ⊢
      refine ⟨?_, by rw [State.posted_iff, hv, View.edit_kinds, View.post_none]⟩
      rw [← State.view_record, hv, View.edit_record, hv']; rfl
    · rw [if_neg hx] at hv ⊢
      exact State.stands_iff.2 hv

/-- What a run notice does that follows a change of the bases which leaves the slots alone. -/
theorem runNotice_reaches (view : ∀ j, x.view j = s.view j)
    (members : ∀ b : BaseIx, (x.bases[b.val]'b.isLt).subscribers = (s.bases[b.val]'b.isLt).subscribers)
    (runs : ∀ b, named b = true → x.runs b = true) :
    (∀ (b : BaseIx) (i : SlotIx) (r : Record), named b = true → i ∈ (s.bases[b.val]'b.isLt).subscribers → s.recordAt i = some r →
      r.fixed.base = b → r.suspensionFits → s.runReaches (x.runNotice named) i r) ∧
    ∀ i : SlotIx, (∀ b : BaseIx, named b = true → i ∉ (s.bases[b.val]'b.isLt).subscribers) → s.stands (x.runNotice named) i := by
  obtain ⟨-, after⟩ := runNotice_view x named
  rw [subscribersOf_congr members] at after
  refine ⟨fun b i r hn hi hr hb hf => ?_, fun i hi => State.stands_iff.2 ?_⟩
  · have own := after i
    have al : x.allows i = s.parentAllows r := by
      rw [← State.allows_of_record hr]
      exact (SameTree.of_view view).allows_eq fun p _ => State.healthyAt_of_view (view p)
    rw [if_pos (mem_subscribersOf.2 ⟨b, hn, hi⟩), view, al] at own
    exact runReaches_of_view hr (runs _ (hb ▸ hn)) hf own
  · rw [after, if_neg fun h => ?_, view]
    obtain ⟨b, hn, hm⟩ := mem_subscribersOf.1 h
    exact hi b hn hm

/-- The byte of four bases, bit by bit. -/
def bitsOfFour (a b c d : Bool) : Byte := flagBit a 0 ||| flagBit b 1 ||| flagBit c 2 ||| flagBit d 3

theorem baseSetByte_eq (named : BaseIx → Bool) : baseSetByte named = bitsOfFour (named 0) (named 1) (named 2) (named 3) := by
  have form : baseSetByte named = 0#8 ||| flagBit (named 0) 0 ||| flagBit (named 1) 1 ||| flagBit (named 2) 2 |||
      flagBit (named 3) 3 := rfl
  rw [form, BitVec.zero_or]
  rfl

theorem getLsbD_baseSetByte (named : BaseIx → Bool) (b : BaseIx) : (baseSetByte named).getLsbD b.val = named b := by
  have four : ∀ a b c d : Bool, ∀ k : BaseIx, (bitsOfFour a b c d).getLsbD k.val = ![a, b, c, d] k := by decide
  rw [baseSetByte_eq, four]
  fin_cases b <;> rfl

theorem baseSetByte_lt (named : BaseIx → Bool) : (baseSetByte named).toNat < 16 := by
  have four : ∀ a b c d : Bool, (bitsOfFour a b c d).toNat < 16 := by decide
  rw [baseSetByte_eq]
  exact four ..

theorem TimeBase.resume_subscribers (y : TimeBase) : y.resume.subscribers = y.subscribers := by
  unfold TimeBase.resume; split <;> rfl

theorem TimeBase.resume_of_stalled {y : TimeBase} (h : y.state = .stalled) : y.resume.state = .running := by
  rw [TimeBase.resume, if_pos h]

/-- CLEAR_FAULT taken is a change of the checker and the bases, and then the run notice. -/
theorem clearFaultTaken_eq (s : State) : ∃ x : State, (∀ b : BaseIx, x.bases[b.val]'b.isLt = (s.bases[b.val]'b.isLt).resume) ∧
    x.ref = { s.ref with supervision := .normal } ∧ x.pins = s.pins ∧ x.trips = s.trips ∧ x.observations = s.observations ∧
    x.notices = s.notices ∧ (x.scrub = s.scrub ∧ x.port = s.port ∧ x.supply = s.supply ∧ x.inReset = s.inReset ∧
      x.pending = s.pending) ∧ (∀ j, x.view j = s.view j) ∧
    s.clearFaultTaken = x.runNotice fun b => decide ((s.bases[b]'b.isLt).state = .stalled) := by
  have keep : ∀ {β : Type} (get : State → β) (_ : ∀ s b y, get (State.setBase s b y) = get s),
      get (allBases.foldl (fun s b => s.setBase b (s.bases[b]'b.isLt).resume) (s.setSupervision .normal)) = get (s.setSupervision .normal) :=
    fun get h => State.mapBases_keeps get h _ _
  have slots := keep State.slots fun _ _ _ => rfl
  have notices := keep State.notices fun _ _ _ => rfl
  have observations := keep State.observations fun _ _ _ => rfl
  exact ⟨_, State.mapBases_base (s.setSupervision .normal) TimeBase.resume, keep State.ref fun _ _ _ => rfl,
    keep State.pins fun _ _ _ => rfl, keep State.trips fun _ _ _ => rfl, observations, notices,
    ⟨keep State.scrub fun _ _ _ => rfl, keep State.port fun _ _ _ => rfl, keep State.supply fun _ _ _ => rfl,
      keep State.inReset fun _ _ _ => rfl, keep State.pending fun _ _ _ => rfl⟩,
    State.view_congr slots notices observations, rfl⟩

end Sys2Proof.Machine

section
open Sys2Proof Sys2Proof.Machine

theorem startTimebase_taken {f : Frame} {base : Byte} {s : State} {b : BaseIx} (hs : s.receiving) (hb : base.toNat = b.val)
    (hst : (s.bases[b]'b.isLt).state = .stopped) (hn : s.ref.supervision = .normal) : exec (.startTimebase f base) s =
      .next ((ok ((s.frameEnded (4 + f.fill)).startBase b)).served .startTimebase f) := by
  refine congrArg Host.Outcome.next (serve_answer hs .startTimebase f ?_)
  refine (withBase_of_base hb _).trans ((if_neg ?_).trans (if_neg ?_))
  · exact not_not.2 hst
  · exact not_not.2 hn

/-- Settles O47. -/
theorem startTimebaseAndClearFault : Obligations.StartTimebaseAndClearFault := by
  refine ⟨fun f base s hs => ?_, fun f s hs => ?_⟩
  · have refused : ∀ {e p}, startTimebaseBlock base (s.frameEnded (4 + f.fill)) = refuse (s.frameEnded (4 + f.fill)) e p →
        exec (.startTimebase f base) s = .next (s.replied (4 + f.fill) ⟨e, f.tag, 0x21, p⟩) := fun h =>
      congrArg Host.Outcome.next (serve_refuse hs .startTimebase f h)
    refine ⟨fun above => refused (withBase_of_above above _), fun b hb => ⟨fun hst => refused ?_, fun hst hn => refused ?_,
      fun hst hn => ?_⟩⟩
    · exact (withBase_of_base hb _).trans (if_pos hst)
    · exact (withBase_of_base hb _).trans ((if_neg (not_not.2 hst)).trans (if_pos hn))
    · let x := (s.frameEnded (4 + f.fill)).setBase b { (s.bases[b]'b.isLt) with state := .running, counter := 0, serial := 0, divider := 0 }
      have alone := (runNotice_view x fun c => decide (c = b)).1
      obtain ⟨reaches, stands⟩ := runNotice_reaches (s := s) (x := x) (named := fun c => decide (c = b)) (fun _ => rfl)
        (State.setBase_subscribers (s := s.frameEnded (4 + f.fill)) rfl) fun c hc => by
          rw [State.setBase_runs_eq, if_pos (of_decide_eq_true hc)]; rfl
      have started : (s.frameEnded (4 + f.fill)).startBase b = x.runNotice fun c => decide (c = b) := rfl
      have taken := startTimebase_taken (f := f) hs hb hst hn
      rw [started] at taken
      generalize x.runNotice (fun c => decide (c = b)) = u at *
      obtain ⟨bases, pins, ref, scrub, supply, inReset, pending⟩ := alone.frame.outside
      exact ⟨_, taken, answered_served alone.frame.port .startTimebase f, bases, pins, alone.trips, alone.observations, ref, scrub,
        supply, inReset, pending, alone.frame.notices.deviceKinds,
        fun i r hi hr hb hf => reaches b i r (decide_eq_true rfl) hi hr hb hf,
        fun i hi => stands i fun c hc => of_decide_eq_true hc ▸ hi⟩
  · have refused : ∀ {e}, clearFaultBlock (s.frameEnded (3 + f.fill)) = refuse (s.frameEnded (3 + f.fill)) e →
        exec (.clearFault f) s = .next (s.replied (3 + f.fill) ⟨e, f.tag, 0x38, []⟩) := fun h =>
      congrArg Host.Outcome.next (serve_refuse hs .clearFault f h)
    refine ⟨fun hf => refused ?_, fun hn => refused ?_, fun hl => ?_⟩
    · simp only [clearFaultBlock, State.frameEnded_ref, hf]
    · simp only [clearFaultBlock, State.frameEnded_ref, hn]
    · have block : clearFaultBlock (s.frameEnded (3 + f.fill)) = ok (s.frameEnded (3 + f.fill)).clearFaultTaken
          [baseSetByte fun b => decide ((s.bases[b]'b.isLt).state = .stalled)] := by
        simp only [clearFaultBlock, State.frameEnded_ref, hl]
        rfl
      obtain ⟨x, base, ref, pins, trips, observations, notices, rest, view, form⟩ := clearFaultTaken_eq (s.frameEnded (3 + f.fill))
      have taken : exec (.clearFault f) s = .next _ := congrArg Host.Outcome.next (serve_answer hs .clearFault f block)
      have alone := (runNotice_view x fun b => decide (((s.frameEnded (3 + f.fill)).bases[b]'b.isLt).state = .stalled)).1
      obtain ⟨reaches, stands⟩ := runNotice_reaches (s := s) (x := x)
        (named := fun b => decide (((s.frameEnded (3 + f.fill)).bases[b]'b.isLt).state = .stalled)) view
        (fun b => (congrArg TimeBase.subscribers (base b)).trans (TimeBase.resume_subscribers _)) fun b hb => by
          rw [State.runs_iff, base]; exact TimeBase.resume_of_stalled (of_decide_eq_true hb)
      rw [form] at taken
      generalize x.runNotice _ = u at *
      obtain ⟨bases', pins', ref', scrub', supply', inReset', pending'⟩ := alone.frame.outside
      obtain ⟨scrub, port, supply, inReset, pending⟩ := rest
      refine ⟨_, _, taken, answered_served (alone.frame.port.trans port) .clearFault f, getLsbD_baseSetByte _, baseSetByte_lt _,
        fun b => ?_, ref'.trans ref, pins'.trans pins, alone.trips.trans trips, alone.observations.trans observations,
        scrub'.trans scrub, supply'.trans supply, inReset'.trans inReset, pending'.trans pending,
        alone.frame.notices.deviceKinds.trans (congrArg deviceKinds notices),
        fun b i r hb hi hr he hf => reaches b i r (decide_eq_true hb) hi hr he hf,
        fun i hi => stands i fun b hb => hi b (of_decide_eq_true hb)⟩
      exact (congrArg (fun v : Vector TimeBase 4 => (v[b.val]'b.isLt)) bases').trans (base b)

end
end

