-- ==== Sys2Proof/Proofs/StopNotices.lean ====
section
set_option Elab.async false
/-! PROOFS. The stop notice, and STOP_TIMEBASE (O48). -/

namespace Sys2Proof.Machine

variable {s t u x : State} {i j : SlotIx} {r q : Record} {v : View} {run : BaseIx → Bool} {al : Bool} {b : BaseIx}
variable {named : BaseIx → Bool} {l : List SlotIx}

/-! ## A stop notice at one subscriber -/

/-- What a stop notice leaves of a subscriber whose base has stopped (R49, R50). -/
def View.stopped (i : SlotIx) (v : View) : View :=
  match v.record with
  | some r =>
    if isMeasuring r.state = true ∨ r.state = .dormant then v.setAside i .held
    else if r.state = .violated then v.abandon i
    else v
  | none => v

theorem View.stopped_of_record (hr : v.record = some r) : v.stopped i =
    if isMeasuring r.state = true ∨ r.state = .dormant then v.setAside i .held
    else if r.state = .violated then v.abandon i
    else v := by
  simp only [View.stopped, hr]

section
variable (hr : v.record = some r) (hb : run r.fixed.base = false) (hf : r.suspensionFits)
include hr hb hf

theorem View.stop_eq_stopped : v.stop run al i = v.stopped i := by
  rw [View.stop_of_record hr, View.stopped_of_record hr]
  split
  · rename_i ho
    have awake : r.suspended = false := Bool.eq_false_iff.2 fun e => by
      obtain h | h := hf e <;> rw [h] at ho <;> simp [isMeasuring] at ho
    have result : r.blockedTo run al = .held := Record.blockedTo_held.2 ⟨awake, hb⟩
    have open' : isOpen r.state = true := by obtain h | h := ho <;> [exact isMeasuring_isOpen h; (rw [h]; rfl)]
    have elsewhere : r.state ≠ .held := by rintro h; rw [h] at ho; simp [isMeasuring] at ho
    rw [View.recompute_of_record hr, if_pos open', result, if_neg (by simp), if_neg elsewhere]
  · rfl

end

theorem View.post_post (v : View) (k : BitVec 7) : (v.post k).post k = v.post k := by
  unfold View.post
  by_cases h : k = 0
  · simp only [h, if_true]
  · simp only [if_neg h, Option.getD_some, BitVec.or_assoc, BitVec.or_self]

theorem View.edit_post (v : View) (f : Record → Record) (k : BitVec 7) : (v.post k).edit f = (v.edit f).post k := by
  unfold View.post; split <;> rfl

/-- A contract that the cascade has set aside and that is then held is as one that was held at once. -/
theorem View.setAside_setAside (hr : v.record = some r) :
    (v.setAside i .dormant).setAside i .held = v.setAside i .held := by
  have aside : (v.setAside i .dormant).record = some (r.asideIn .dormant) := by rw [View.setAside_record, hr]; rfl
  rw [View.setAside_of_record aside, View.setAside_of_record hr, View.setAside_of_record hr]
  have idle : isMeasuring (r.asideIn .dormant).state = false := rfl
  simp only [idle, Bool.false_eq_true, if_false, reduceCtorEq]
  rw [View.edit_post, show (r.asideIn .dormant).limits = r.limits from rfl, View.post_post, View.edit_edit]
  rfl

section
variable (hr : v.record = some r) (hb : run r.fixed.base = false)
include hr hb

/-- The cascade on a contract whose base does not run. -/
theorem View.cascade_of_stopped : v.cascade run i = if isMeasuring r.state = true then v.setAside i .dormant else v := by
  rw [View.cascade_of_record hr]
  split
  · rfl
  · rw [if_neg (by rintro ⟨-, h⟩; rw [hb] at h; cases h)]

/-- The cascade before the notice makes no difference to a subscriber. -/
theorem View.cascade_stop (hf : r.suspensionFits) : (v.cascade run i).stop run al i = v.stopped i := by
  rw [View.cascade_of_stopped hr hb]
  split
  · rename_i hm
    have aside : (v.setAside i .dormant).record = some (r.asideIn .dormant) := by rw [View.setAside_record, hr]; rfl
    have awake : (r.asideIn .dormant).suspensionFits := fun e => by
      obtain h | h := hf e <;> rw [h] at hm <;> cases hm
    rw [View.stop_eq_stopped aside hb awake, View.stopped_of_record aside, if_pos (.inr rfl), View.setAside_setAside hr,
      View.stopped_of_record hr, if_pos (.inl hm)]
  · exact View.stop_eq_stopped hr hb hf

/-- Nor does the cascade after it. -/
theorem View.stopped_cascade : (v.stopped i).cascade run i = v.stopped i := by
  have form := View.stopped_of_record (i := i) hr
  split at form
  · have aside : (v.stopped i).record = some (r.asideIn .held) := by rw [form, View.setAside_record, hr]; rfl
    rw [View.cascade_of_stopped aside hb, if_neg (by simp [isMeasuring])]
  · rename_i ho
    split at form
    · have idle : (v.stopped i).record = some r.idle := by rw [form, View.abandon_record, hr]; rfl
      rw [View.cascade_of_stopped idle hb, if_neg (show ¬ isMeasuring r.idle.state = true from fun h => ho (.inl h))]
    · rw [form, View.cascade_of_stopped hr hb, if_neg fun h => ho (.inl h)]

end

/-! ## A stop notice -/

theorem stopSubscribers_losses (l : List SlotIx) (sh : s.shallow) : Losses (· ∈ l) s (l.foldl State.stopSubscriber s) :=
  .foldl (fun _ i h => (Turn.stopSubscriber h i).losses) l sh

theorem stopSubscribers_trips (l : List SlotIx) (sh : s.shallow) : (l.foldl State.stopSubscriber s).trips = s.trips := by
  induction l generalizing s with
  | nil => rfl
  | cons a l ih =>
    have turn := Turn.stopSubscriber sh a
    exact (ih (turn.losses.tree.shallow sh)).trans turn.trips

/-- Outside the set a slot stands, or the cascade has reached it. -/
theorem Losses.view_cases {C : SlotIx → Prop} (h : Losses C s t) (hj : ¬ C j) :
    t.view j = s.view j ∨ t.view j = (s.view j).cascade s.runs j :=
  (h.cases hj).imp And.right fun h => h.2.2

/-- A subscriber whose base has stopped is stopped, whatever cascades reach it before or after its turn. -/
theorem stopSubscribers_own (sh : s.shallow) (nodup : l.Nodup) (hi : i ∈ l) (hr : s.recordAt i = some r)
    (hb : s.runs r.fixed.base = false) (hf : r.suspensionFits) : (l.foldl State.stopSubscriber s).view i = (s.view i).stopped i := by
  obtain ⟨before, after, rfl⟩ := List.append_of_mem hi
  have apart := List.nodup_append.1 nodup
  have notBefore : i ∉ before := fun h => apart.2.2 i h i List.mem_cons_self rfl
  have notAfter : i ∉ after := (List.nodup_cons.1 apart.2.1).1
  have hv : (s.view i).record = some r := hr
  have first := stopSubscribers_losses before sh
  have sh1 := first.tree.shallow sh
  have turn := Turn.stopSubscriber sh1 i
  have last := stopSubscribers_losses after (turn.losses.tree.shallow sh1)
  have turned : ((before.foldl State.stopSubscriber s).stopSubscriber i).view i = (s.view i).stopped i := by
    rw [turn.own, first.runs]
    obtain e | e := first.view_cases notBefore <;> rw [e]
    · exact View.stop_eq_stopped hv hb hf
    · exact View.cascade_stop hv hb hf
  have runs : ((before.foldl State.stopSubscriber s).stopSubscriber i).runs = s.runs := turn.losses.runs.trans first.runs
  rw [List.foldl_append, List.foldl_cons]
  obtain e | e := last.view_cases notAfter <;> rw [e, turned]
  rw [runs, View.stopped_cascade hv hb]

/-- A subscriber that is stopped, in the words of the statements. -/
theorem stopReaches_of_view (hr : s.recordAt i = some r) (hv : t.view i = (s.view i).stopped i) : s.stopReaches t i r := by
  have hv' : (s.view i).record = some r := hr
  rw [View.stopped_of_record hv'] at hv
  unfold State.stopReaches
  by_cases ho : isMeasuring r.state = true ∨ r.state = .dormant
  · rw [if_pos ho] at hv ⊢
    refine ⟨?_, ?_, fun hm => State.nonePending_of_view hv (View.setAside_none hv' hm _ _)⟩
    · rw [← State.view_record, hv, View.setAside_record, hv']; rfl
    · rw [State.posted_iff, hv, View.setAside_kinds hv' (by simp)]; rfl
  · rw [if_neg ho] at hv ⊢
    by_cases hx : r.state = .violated
    · rw [if_pos hx] at hv ⊢
      refine ⟨?_, ?_, State.nonePending_of_view hv (View.abandon_none _ _)⟩
      · rw [← State.view_record, hv, View.abandon_record, hv']; rfl
      · rw [State.posted_iff, hv, View.abandon_kinds, View.post_none]
    · rw [if_neg hx] at hv ⊢
      exact State.stands_iff.2 hv

theorem State.cascadesTo_of_view (view : ∀ j, x.view j = s.view j) (h : x.reaches j i) : s.reaches j i := by
  obtain ⟨hh, hd | ⟨k, hk, hd, hd'⟩⟩ := h
  · rw [(SameTree.of_view view).dependsOn] at hd
    exact ⟨(State.healthyAt_of_view (view j)).1 hh, .inl hd⟩
  · rw [(SameTree.of_view view).dependsOn] at hd hd'
    exact ⟨(State.healthyAt_of_view (view j)).1 hh, .inr ⟨k, (State.healthyAt_of_view (view k)).1 hk, hd, hd'⟩⟩

/-- What a stop notice does that follows a change of the bases which leaves the slots alone, read off the views it leaves. -/
theorem stopNotice_reaches (sh : s.shallow) (view : ∀ j, x.view j = s.view j)
    (members : ∀ b : BaseIx, (x.bases[b.val]'b.isLt).subscribers = (s.bases[b.val]'b.isLt).subscribers)
    (stops : ∀ b, named b = true → x.runs b = false) (result : ∀ j, t.view j = (x.stopNotice named).view j) :
    (∀ (b : BaseIx) (i : SlotIx) (r : Record), named b = true → i ∈ (s.bases[b.val]'b.isLt).subscribers → s.recordAt i = some r →
      r.fixed.base = b → r.suspensionFits → s.stopReaches t i r) ∧
    ∀ i : SlotIx, (∀ b : BaseIx, named b = true → ∀ k ∈ (s.bases[b.val]'b.isLt).subscribers, i ≠ k ∧ ¬ s.reaches k i) → s.stands t i := by
  have shx : x.shallow := (SameTree.of_view view).shallow sh
  have listed := subscribersOf_congr members named
  have member : ∀ {k}, k ∈ x.subscribersOf named → ∃ b : BaseIx, named b = true ∧ k ∈ (s.bases[b.val]'b.isLt).subscribers := fun h =>
    mem_subscribersOf.1 (listed ▸ h)
  refine ⟨fun b i r hn hi hr hb hf => stopReaches_of_view hr ?_, fun i hi => State.stands_iff.2 ?_⟩
  · have hr' : x.recordAt i = some r := (State.recordAt_of_view (view i)).trans hr
    have mem : i ∈ x.subscribersOf named := listed ▸ mem_subscribersOf.2 ⟨b, hn, hi⟩
    rw [result, ← view]
    exact stopSubscribers_own shx (subscribersOf_nodup x named) mem hr' (stops _ (hb ▸ hn)) hf
  · have losses := stopSubscribers_losses (x.subscribersOf named) shx
    refine (result i).trans ((losses.unreached shx (fun h => ?_) fun k h hk => ?_).trans (view i))
    · obtain ⟨b, hn, hm⟩ := member h
      exact (hi b hn i hm).1 rfl
    · obtain ⟨b, hn, hm⟩ := member h
      exact (hi b hn k hm).2 (State.cascadesTo_of_view view hk)

end Sys2Proof.Machine

section
open Sys2Proof Sys2Proof.Machine

theorem stopTimebase_taken {f : Frame} {base : Byte} {s : State} {b : BaseIx} (hs : s.receiving) (hb : base.toNat = b.val)
    (hst : (s.bases[b]'b.isLt).state ≠ .stopped) : exec (.stopTimebase f base) s =
      .next ((ok ((s.frameEnded (4 + f.fill)).stopBase b) [baseStateCode (s.bases[b]'b.isLt).state]).served .stopTimebase f) :=
  congrArg Host.Outcome.next (serve_answer hs .stopTimebase f ((withBase_of_base hb _).trans (if_neg hst)))

/-- Settles O48. -/
theorem stopTimebase : Obligations.StopTimebase := by
  intro f base s hs
  have refused : ∀ {e p}, stopTimebaseBlock base (s.frameEnded (4 + f.fill)) = refuse (s.frameEnded (4 + f.fill)) e p →
      exec (.stopTimebase f base) s = .next (s.replied (4 + f.fill) ⟨e, f.tag, 0x22, p⟩) := fun h =>
    congrArg Host.Outcome.next (serve_refuse hs .stopTimebase f h)
  refine ⟨fun above => refused (withBase_of_above above _), fun b hb => ⟨fun hst => refused ?_, fun hst => ?_, fun hst ht => ?_⟩⟩
  · exact (withBase_of_base hb _).trans (if_pos hst)
  · have stopped : (s.frameEnded (4 + f.fill)).stopBase b = (s.frameEnded (4 + f.fill)).setBase b { (s.bases[b]'b.isLt) with state := .stopped } :=
      if_neg (by rw [State.frameEnded_bases, hst]; simp)
    rw [stopTimebase_taken hs hb (by rw [hst]; simp), stopped, hst]
    rfl
  · let x := (s.frameEnded (4 + f.fill)).setBase b { (s.bases[b]'b.isLt) with state := .stopped }
    have stopped : (s.frameEnded (4 + f.fill)).stopBase b = x.stopNotice fun c => decide (c = b) := if_pos hst
    have taken := stopTimebase_taken (f := f) hs hb (by rw [hst]; simp)
    have frame : TableFrame (fun _ => False) x (x.stopNotice fun c => decide (c = b)) := .stopNotice _
    have trips : (x.stopNotice fun c => decide (c = b)).trips = s.trips := stopSubscribers_trips (x.subscribersOf _) (s := x) ht.shallow
    obtain ⟨reaches, stands⟩ := stopNotice_reaches (s := s) (x := x) (named := fun c => decide (c = b)) ht.shallow (fun _ => rfl)
      (State.setBase_subscribers (s := s.frameEnded (4 + f.fill)) rfl)
      (fun c hc => by rw [State.setBase_runs_eq, if_pos (of_decide_eq_true hc)]; rfl) fun _ => rfl
    rw [stopped, hst] at taken
    generalize x.stopNotice (fun c => decide (c = b)) = u at *
    obtain ⟨bases, pins, ref, scrub, supply, inReset, pending⟩ := frame.outside
    refine ⟨_, taken, answered_served frame.port .stopTimebase f, bases, pins, trips, ref, scrub, supply, inReset, pending,
      frame.notices.deviceKinds, fun i r hi hr hb hf => reaches b i r (decide_eq_true rfl) hi hr hb hf, fun i hi hn => stands i ?_⟩
    intro c hc k hk
    obtain rfl := of_decide_eq_true hc
    exact ⟨fun e => hi (e ▸ hk), hn k hk⟩

end
end

