-- ==== Sys2Proof/Proofs/ReferenceEvents.lean ====
section
set_option Elab.async false
/-! PROOFS. The loss of REFCLK, its edges and its return (O58). -/

namespace Sys2Proof.Machine

variable {s t u x : State} {i j : SlotIx}

/-! ## The device entry -/

theorem addDeviceKinds_of_none {q : List NoticeEntry} (h : deviceKinds q = none) (k : BitVec 3) :
    addDeviceKinds k q = q ++ [.device k] := by
  induction q with
  | nil => rfl
  | cons a l ih =>
    cases a with
    | device ks => cases h
    | contract a b ks => rw [addDeviceKinds, ih h, List.cons_append]

theorem filter_isDevice_of_none {q : List NoticeEntry} (h : deviceKinds q = none) : q.filter NoticeEntry.isDevice = [] := by
  induction q with
  | nil => rfl
  | cons a l ih =>
    cases a with
    | device ks => cases h
    | contract a b ks => exact ih h

theorem State.postDevice_view (s : State) (k : DeviceKind) (j : SlotIx) : (s.postDevice k).view j = s.view j :=
  congrArg (fun kinds => (⟨s.slots[j.val]'j.isLt, kinds, s.observationsOf j⟩ : View)) (contractKinds_addDeviceKinds j (deviceBit k) s.notices)

/-- A device entry keeps its place and its kinds while contracts are posted for. -/
theorem device_stays {m : SlotIx → Prop} {k : BitVec 3} {q : List NoticeEntry} (frame : TableFrame m s t)
    (order : s.owners <+: t.owners) (hs : s.notices = q ++ [.device k]) (hq : deviceKinds q = none) :
    t.notices[q.length]? = some (.device k) := by
  have owner : t.owners[q.length]? = some none := by
    obtain ⟨later, e⟩ := order
    rw [← e, State.owners, hs]
    simp [NoticeEntry.owner]
  obtain ⟨e, he, hn⟩ : ∃ e, t.notices[q.length]? = some e ∧ e.owner = none := by
    simpa [State.owners] using owner
  have kinds : t.notices.filter NoticeEntry.isDevice = [.device k] := by
    rw [frame.notices.device, hs, List.filter_append]
    rw [filter_isDevice_of_none hq]
    rfl
  cases e with
  | contract => cases hn
  | device ks =>
    have mem : NoticeEntry.device ks ∈ t.notices.filter NoticeEntry.isDevice :=
      List.mem_filter.2 ⟨List.mem_of_getElem? he, rfl⟩
    rw [kinds, List.mem_singleton] at mem
    rw [he, mem]

/-! ## A loss -/

theorem TripLine.lose_eq (y : TripLine) : y.lose = { y with held := y.held || decide (y.policy = .hold) } := by
  unfold TripLine.lose
  by_cases h : y.policy = .hold <;> simp [h]

theorem TimeBase.stall_subscribers (y : TimeBase) : y.stall.subscribers = y.subscribers := by
  unfold TimeBase.stall; split <;> rfl

theorem TimeBase.stall_state (y : TimeBase) : y.stall.state ≠ .running := by
  unfold TimeBase.stall
  split
  · simp
  · assumption

/-- What a loss does before its two messages to the Table Controller (R97, R148). -/
structure Lost (s x : State) : Prop where
  base : ∀ b : BaseIx, x.bases[b.val]'b.isLt = (s.bases[b.val]'b.isLt).stall
  line : ∀ l : LineIx, x.trips[l.val]'l.isLt = (s.trips[l.val]'l.isLt).lose
  ref : x.ref = { s.ref with supervision := .referenceFault }
  notices : x.notices = s.notices
  view : ∀ j, x.view j = s.view j
  rest : x.pins = s.pins ∧ x.scrub = s.scrub ∧ x.port = s.port ∧ x.supply = s.supply ∧ x.inReset = s.inReset ∧
    x.pending = s.pending

theorem handOnLoss_eq (s : State) : ∃ x, Lost s x ∧ ∀ postFirst, s.handOnLoss postFirst =
    if postFirst then (x.postDevice .referenceLost).stopNotice fun b => decide ((s.bases[b]'b.isLt).state = .running)
    else (x.stopNotice fun b => decide ((s.bases[b]'b.isLt).state = .running)).postDevice .referenceLost := by
  let x1 : State := allLines.foldl (fun s l => s.setLine l (s.trips[l]'l.isLt).lose) (s.setSupervision .referenceFault)
  have keep : ∀ {β : Type} (get : State → β) (_ : ∀ s b y, get (State.setBase s b y) = get s)
      (_ : ∀ s l y, get (State.setLine s l y) = get s),
      get (allBases.foldl (fun s b => s.setBase b (s.bases[b]'b.isLt).stall) x1) = get (s.setSupervision .referenceFault) :=
    fun get h h' => (State.mapBases_keeps get h _ _).trans (State.mapLines_keeps get h' _ _)
  have notices := keep State.notices (fun _ _ _ => rfl) fun _ _ _ => rfl
  refine ⟨allBases.foldl (fun s b => s.setBase b (s.bases[b]'b.isLt).stall) x1, ⟨fun b => ?_, fun l => ?_,
    keep State.ref (fun _ _ _ => rfl) fun _ _ _ => rfl, notices,
    State.view_congr (keep State.slots (fun _ _ _ => rfl) fun _ _ _ => rfl) notices
      (keep State.observations (fun _ _ _ => rfl) fun _ _ _ => rfl),
    keep State.pins (fun _ _ _ => rfl) fun _ _ _ => rfl, keep State.scrub (fun _ _ _ => rfl) fun _ _ _ => rfl,
    keep State.port (fun _ _ _ => rfl) fun _ _ _ => rfl, keep State.supply (fun _ _ _ => rfl) fun _ _ _ => rfl,
    keep State.inReset (fun _ _ _ => rfl) fun _ _ _ => rfl, keep State.pending (fun _ _ _ => rfl) fun _ _ _ => rfl⟩, fun _ => rfl⟩
  · exact (State.mapBases_base x1 TimeBase.stall b).trans
      (congrArg (fun v : Vector TimeBase 4 => (v[b.val]'b.isLt).stall) (State.mapLines_keeps State.bases (fun _ _ _ => rfl) _ _))
  · exact (congrArg (fun v : Vector TripLine 4 => (v[l.val]'l.isLt)) (State.mapBases_keeps State.trips (fun _ _ _ => rfl) x1 TimeBase.stall)).trans
      (State.mapLines_line (s.setSupervision .referenceFault) TripLine.lose l)

/-- What a loss leaves that is handed on (R97, R148, R157, R159). -/
structure LossTaken (postFirst : Bool) (s t : State) : Prop where
  ref : t.ref = { s.ref with supervision := .referenceFault }
  base : ∀ b : BaseIx, t.bases[b.val]'b.isLt = (s.bases[b.val]'b.isLt).stall
  line : ∀ l : LineIx, t.trips[l.val]'l.isLt = (s.trips[l.val]'l.isLt).lose
  rest : t.pins = s.pins ∧ t.scrub = s.scrub ∧ t.port = s.port ∧ t.supply = s.supply ∧ t.inReset = s.inReset ∧
    t.pending = s.pending
  kinds : deviceKinds t.notices = some ((deviceKinds s.notices).getD 0 ||| 0x2)
  place : deviceKinds s.notices = none →
    if postFirst then t.notices[s.notices.length]? = some (.device 0x2) else t.notices.getLast? = some (.device 0x2)
  reaches : ∀ (b : BaseIx) (i : SlotIx) (r : Record), (s.bases[b.val]'b.isLt).state = .running → i ∈ (s.bases[b.val]'b.isLt).subscribers →
    s.recordAt i = some r → r.fixed.base = b → r.suspensionFits → s.stopReaches t i r
  stands : ∀ i : SlotIx,
    (∀ b : BaseIx, (s.bases[b.val]'b.isLt).state = .running → ∀ k ∈ (s.bases[b.val]'b.isLt).subscribers, i ≠ k ∧ ¬ s.reaches k i) → s.stands t i

theorem lossTaken (sh : s.shallow) (postFirst : Bool) : LossTaken postFirst s (s.handOnLoss postFirst) := by
  obtain ⟨x, lost, form⟩ := handOnLoss_eq s
  let named : BaseIx → Bool := fun b => decide ((s.bases[b]'b.isLt).state = .running)
  have members : ∀ b : BaseIx, (x.bases[b.val]'b.isLt).subscribers = (s.bases[b.val]'b.isLt).subscribers := fun b =>
    (congrArg TimeBase.subscribers (lost.base b)).trans (TimeBase.stall_subscribers _)
  have stops : ∀ b, x.runs b = false := fun b => by
    rw [← Bool.not_eq_true, State.runs_iff, lost.base]; exact TimeBase.stall_state _
  have shx : x.shallow := (SameTree.of_view lost.view).shallow sh
  obtain ⟨pins, scrub, port, supply, inReset, pending⟩ := lost.rest
  cases postFirst
  · -- the stop notice, then REFERENCE_LOST
    rw [show s.handOnLoss false = (x.stopNotice named).postDevice .referenceLost from form false]
    have frame : TableFrame (fun _ => False) x (x.stopNotice named) := .stopNotice named
    have trips : (x.stopNotice named).trips = x.trips := stopSubscribers_trips (x.subscribersOf named) shx
    obtain ⟨bases', pins', ref', scrub', supply', inReset', pending'⟩ := frame.outside
    obtain ⟨reaches, stands⟩ := stopNotice_reaches (named := named) (t := (x.stopNotice named).postDevice .referenceLost) sh lost.view
      members (fun b _ => stops b) (State.postDevice_view _ _)
    have kept : deviceKinds (x.stopNotice named).notices = deviceKinds s.notices :=
      frame.notices.deviceKinds.trans (congrArg deviceKinds lost.notices)
    refine ⟨ref'.trans lost.ref, fun b => ?_, fun l => ?_, ⟨pins'.trans pins, scrub'.trans scrub, frame.port.trans port,
      supply'.trans supply, inReset'.trans inReset, pending'.trans pending⟩, ?_, fun hn => ?_,
      fun b i r hb => reaches b i r (decide_eq_true hb), fun i hi => stands i fun b hb => hi b (of_decide_eq_true hb)⟩
    · exact (congrArg (fun v : Vector TimeBase 4 => (v[b.val]'b.isLt)) bases').trans (lost.base b)
    · exact (congrArg (fun v : Vector TripLine 4 => (v[l.val]'l.isLt)) trips).trans (lost.line l)
    · rw [← kept]; exact deviceKinds_addDeviceKinds _ _
    · have tail : ((x.stopNotice named).postDevice .referenceLost).notices = (x.stopNotice named).notices ++ [.device 2] :=
        addDeviceKinds_of_none (kept.trans hn) _
      rw [if_neg (by simp)]
      exact (congrArg List.getLast? tail).trans List.getLast?_concat
  · -- REFERENCE_LOST, then the stop notice
    rw [show s.handOnLoss true = (x.postDevice .referenceLost).stopNotice named from form true]
    have frame : TableFrame (fun _ => False) (x.postDevice .referenceLost) ((x.postDevice .referenceLost).stopNotice named) :=
      .stopNotice named
    have trips : ((x.postDevice .referenceLost).stopNotice named).trips = x.trips :=
      stopSubscribers_trips ((x.postDevice .referenceLost).subscribersOf named) (s := x.postDevice .referenceLost) shx
    obtain ⟨bases', pins', ref', scrub', supply', inReset', pending'⟩ := frame.outside
    obtain ⟨reaches, stands⟩ := stopNotice_reaches (named := named) (x := x.postDevice .referenceLost) sh
      (fun j => (x.postDevice_view _ j).trans (lost.view j)) members (fun b _ => stops b) fun _ => rfl
    have follows : Follows (x.postDevice .referenceLost) ((x.postDevice .referenceLost).stopNotice named) := .stopNotice named
    refine ⟨ref'.trans lost.ref, fun b => ?_, fun l => ?_, ⟨pins'.trans pins, scrub'.trans scrub, frame.port.trans port,
      supply'.trans supply, inReset'.trans inReset, pending'.trans pending⟩, ?_, fun hn => ?_,
      fun b i r hb => reaches b i r (decide_eq_true hb), fun i hi => stands i fun b hb => hi b (of_decide_eq_true hb)⟩
    · exact (congrArg (fun v : Vector TimeBase 4 => (v[b.val]'b.isLt)) bases').trans (lost.base b)
    · exact (congrArg (fun v : Vector TripLine 4 => (v[l.val]'l.isLt)) trips).trans (lost.line l)
    · rw [frame.notices.deviceKinds, ← lost.notices]; exact deviceKinds_addDeviceKinds _ _
    · rw [← lost.notices] at hn ⊢
      exact device_stays frame follows.owners (addDeviceKinds_of_none hn _) hn

/-! ## An edge -/

theorem RefChecker.edge_eq (c : RefChecker) : c.edge = { c with
    gap := .running
    goodPeriods := if c.gap = .running then min (c.goodPeriods + 1) 1024 else c.goodPeriods } := by
  obtain ⟨v, g, n⟩ := c
  cases g <;> rfl

theorem State.edgeArrives_frame (s : State) :
    s.edgeArrives = { s with bases := s.edgeArrives.bases, pins := s.edgeArrives.pins, ref := s.ref.edge } := by
  have slots := s.edgeArrives_slots
  have trips := s.edgeArrives_trips
  have notices := s.edgeArrives_notices
  have observations := s.edgeArrives_observations
  have ref := s.edgeArrives_ref
  have scrub := s.edgeArrives_scrub
  have port := s.edgeArrives_port
  have supply := s.edgeArrives_supply
  have inReset := s.edgeArrives_inReset
  have pending := s.edgeArrives_pending
  generalize s.edgeArrives = t at *
  cases t
  simp_all

theorem setSupervision_postDevice_of_frame {c : RefChecker} (h : t = { s with bases := t.bases, pins := t.pins, ref := c }) :
    (t.setSupervision .faultLatched).postDevice .referenceBack = { s with
      bases := t.bases
      pins := t.pins
      ref := { c with supervision := .faultLatched }
      notices := addDeviceKinds 4 s.notices } :=
  (congrArg (fun t : State => (t.setSupervision .faultLatched).postDevice .referenceBack) h).trans rfl

/-- The edge that a return comes with. -/
theorem refclkEdge_return (hs : s.inReset = false) (ho : s.edgeOutstanding = false) (hf : s.ref.supervision = .referenceFault)
    (hc : s.ref.edge.goodPeriods = 1024) : s.refclkEdge = { s with
      bases := s.edgeArrives.bases
      pins := s.edgeArrives.pins
      ref := { s.ref.edge with supervision := .faultLatched }
      notices := addDeviceKinds 4 s.notices } := by
  have supervision : s.ref.edge.supervision = s.ref.supervision := by rw [RefChecker.edge_eq]
  have returned : s.refclkEdge = (s.edgeArrives.setSupervision .faultLatched).postDevice .referenceBack := by
    obtain ⟨h, -⟩ | ⟨-, h, -⟩ | ⟨-, -, e⟩ := s.refclkEdge_cases
    · rw [hs] at h; cases h
    · rw [ho] at h; cases h
    · rw [e]
      exact if_pos ⟨supervision.trans hf, hc⟩
  exact returned.trans (setSupervision_postDevice_of_frame s.edgeArrives_frame)

/-- The edge that no return comes with. -/
theorem refclkEdge_plain (hs : s.inReset = false) (ho : s.edgeOutstanding = false)
    (hn : s.ref.supervision ≠ .referenceFault ∨ s.ref.edge.goodPeriods ≠ 1024) : s.refclkEdge = s.edgeArrives := by
  have supervision : s.ref.edge.supervision = s.ref.supervision := by rw [RefChecker.edge_eq]
  obtain ⟨h, -⟩ | ⟨-, h, -⟩ | ⟨-, -, e⟩ := s.refclkEdge_cases
  · rw [hs] at h; cases h
  · rw [ho] at h; cases h
  · rw [e]
    exact if_neg fun h => hn.elim (fun h' => h' (supervision.symm.trans h.1)) fun h' => h' h.2

theorem exec_referenceReturn_of_running (hs : s.inReset = false) : exec .referenceReturn s =
    .next (if s.ref.supervision = .referenceFault ∧ s.ref.edge.goodPeriods = 1024 then s.refclkEdge else s) :=
  congrArg Host.Outcome.next (State.whileOperating_of_running hs _)

theorem exec_referenceReturn_of_none
    (hn : s.ref.supervision ≠ .referenceFault ∨ s.ref.edge.goodPeriods ≠ 1024 ∨ s.inReset = true) :
    exec .referenceReturn s = .next s := by
  cases hs : s.inReset
  · rw [exec_referenceReturn_of_running hs, if_neg]
    rintro ⟨hf, hc⟩
    rw [hs] at hn
    obtain h | h | h := hn
    · exact h hf
    · exact h hc
    · cases h
  · exact congrArg Host.Outcome.next (State.whileOperating_of_reset hs _)

end Sys2Proof.Machine

section
open Sys2Proof Sys2Proof.Machine

/-- Settles O58. -/
theorem referenceLossAndReturn : Obligations.ReferenceLossAndReturn := by
  unfold Obligations.ReferenceLossAndReturn
  intro edgeTaken counted reachesAll
  have outstanding : ∀ s, edgeTaken s ↔ s.edgeOutstanding = false := fun s => (State.edgeOutstanding_eq_false s).symm
  have count : ∀ s, s.ref.edge.goodPeriods = counted s := fun s => RefChecker.edge_goodPeriods s.ref
  have loss : ∀ first s, s.inReset = false → exec (.referenceLoss first) s = .next
      (if s.edgeOutstanding then s
        else if s.ref.supervision = .referenceFault then { s with ref := s.ref.expire }
        else State.handOnLoss { s with ref := s.ref.expire } first) := fun first s hs =>
    congrArg Host.Outcome.next (if_neg (by rw [hs]; simp))
  have reached : ∀ s, reachesAll s s.edgeArrives := fun s =>
    ⟨State.edgeArrives_base s, fun p => (State.edgeArrives_channel s p).trans rfl⟩
  refine ⟨fun first s h => ?_, fun first s hs he hf ht => ?_, fun s hs he hf hc => ?_, fun s h => ?_, fun s hs he hn => ?_, fun s hs => ?_,
    fun first s hs he => ?_⟩
  · by_cases hs : s.inReset = true
    · exact congrArg Host.Outcome.next (if_pos hs)
    · obtain ⟨hf, he⟩ := h.resolve_left hs
      rw [loss first s (Bool.eq_false_iff.2 hs), if_neg (by rw [(outstanding s).1 he]; simp), if_pos hf]
      rfl
  · have taken := loss first s hs
    rw [if_neg (by rw [(outstanding s).1 he]; simp), if_neg hf] at taken
    have left := lossTaken (s := { s with ref := s.ref.expire }) ht.shallow first
    generalize State.handOnLoss { s with ref := s.ref.expire } first = t at taken left
    obtain ⟨pins, scrub, port, supply, inReset, pending⟩ := left.rest
    refine ⟨t, taken, left.ref, left.base, fun l => (left.line l).trans (TripLine.lose_eq _), pins, scrub, port, supply, inReset,
      pending, left.kinds, fun hn hfirst => ?_, fun hn hfirst => ?_, left.reaches, left.stands⟩
    · subst hfirst; exact left.place hn
    · subst hfirst; exact left.place hn
  · have edge := refclkEdge_return hs ((outstanding s).1 he) hf ((count s).trans hc)
    have taken : exec .goodPeriod s = .next s.refclkEdge := rfl
    have returned : exec .referenceReturn s = .next s.refclkEdge := by
      rw [exec_referenceReturn_of_running hs, if_pos ⟨hf, (count s).trans hc⟩]
    have ref : s.ref.edge = { s.ref with gap := .running, goodPeriods := 1024 } := by
      rw [RefChecker.edge_eq]; exact congrArg (fun n => ({ s.ref with gap := .running, goodPeriods := n } : RefChecker)) hc
    rw [ref] at edge
    have same := reached s
    clear loss reached count outstanding
    generalize s.edgeArrives = a at edge same
    generalize s.refclkEdge = t at edge taken returned
    subst edge
    refine ⟨_, returned, taken, rfl, same, addDeviceKinds_of_none (k := 4), deviceKinds_addDeviceKinds _ _,
      fun j => contractKinds_addDeviceKinds _ _ _⟩
  · exact exec_referenceReturn_of_none (by rwa [count])
  · refine ⟨s.edgeArrives, congrArg Host.Outcome.next (refclkEdge_plain hs ((outstanding s).1 he) (by rwa [count])), ?_, reached s⟩
    have frame := s.edgeArrives_frame
    rw [RefChecker.edge_eq] at frame
    exact frame
  · have inReset : s.refclkEdge = { s with ref := s.ref.edge } := if_pos hs
    refine congrArg Host.Outcome.next (inReset.trans ?_)
    rw [RefChecker.edge_eq]
  · have waits : s.edgeOutstanding = true := by
      rw [← Bool.not_eq_false]; exact fun h => he ((outstanding s).2 h)
    have stays : s.refclkEdge = s := (if_neg (by rw [hs]; simp)).trans (if_pos waits)
    refine ⟨congrArg Host.Outcome.next stays, ?_, ?_⟩
    · rw [exec_referenceReturn_of_running hs, stays, ite_self]
    · rw [loss first s hs, if_pos waits]

end
end

