-- ==== Sys2Proof/Proofs/PinSettings.lean ====
section
set_option Elab.async false
/-! PROOFS. SET_PIN (O50): what the turns of a pin's members do to one another. -/

namespace Sys2Proof.Machine

variable {s t u x : State} {i j k : SlotIx} {r q : Record} {v : View} {run : BaseIx → Bool} {al : Bool}
variable {l before after : List SlotIx}

/-! ## One turn -/

/-- A contract whose measurement begins anew (R108). -/
def View.restarted (i : SlotIx) (v : View) : View := (v.abandon i).edit (Record.rearmedAt v.slot.generation)

/-- A contract whose recovery begins anew, with its measurement gone when it measured (R108). -/
def View.recovering (measured : Bool) (i : SlotIx) (v : View) : View :=
  (if measured = true then v.abandon i else v).edit (fun r => { r with recoveryRun := 0 })

theorem View.restart_unhealthy (hr : (v.restart run al i).record = some q) : isHealthy q.state = false := by
  cases hv : v.record with
  | none => rw [show v.restart run al i = v by simp only [View.restart, hv], hv] at hr; cases hr
  | some r =>
    rw [View.restart_of_record hv] at hr
    split at hr
    · rw [View.edit_record, View.abandon_record, hv] at hr
      obtain rfl := Option.some.inj hr
      rfl
    · rename_i hm
      have ill : isHealthy r.state = false := by
        revert hm; cases r.state <;> simp [isMeasuring, isHealthy]
      split at hr
      · have same : q.state = r.state := by
          revert hr
          split
          · rw [View.edit_record, View.abandon_record, hv]; rintro ⟨⟩; rfl
          · rw [View.edit_record, hv]; rintro ⟨⟩; rfl
        rw [same, ill]
      · obtain rfl := Option.some.inj (hv.symm.trans hr)
        exact ill

theorem View.abandon_edit {f : Record → Record} (h : ∀ r, f r.idle = (f r).idle) : (v.edit f).abandon i = (v.abandon i).edit f := by
  have swap : (v.edit f).withdraw i = (v.withdraw i).edit f := by simp [View.withdraw, View.edit]
  rw [View.abandon, View.abandon, swap, View.edit_edit, View.edit_edit]
  exact View.edit_congr fun r _ => (h r).symm

theorem View.recovering_record (hr : v.record = some r) (measured : Bool) : (v.recovering measured i).record =
    some { r with recoveryRun := 0, context := if measured then Context.initial else r.context } := by
  cases measured <;> simp [View.recovering, hr, Record.idle]

/-- A VIOLATED member that the cascade has frozen before its turn. -/
theorem View.cascade_restart (hr : v.record = some r) (hv : r.state = .violated) :
    (v.cascade run i).restart run false i = v.recovering (run r.fixed.base) i := by
  have hm : ¬ isMeasuring r.state = true := by rw [hv]; simp [isMeasuring]
  rw [View.cascade_of_record hr, if_neg hm]
  cases hb : run r.fixed.base
  · rw [if_neg (by simp), View.restart_of_record hr, if_neg hm, if_pos hv, Bool.and_false]
    rfl
  · have idle : (v.abandon i).record = some r.idle := by rw [View.abandon_record, hr]; rfl
    rw [if_pos ⟨hv, rfl⟩, View.restart_of_record idle, if_neg (by exact hm), if_pos (by exact hv), Bool.and_false]
    rfl

/-- A VIOLATED member that the cascade freezes after its turn. -/
theorem View.recovering_cascade (hr : v.record = some r) (hv : r.state = .violated) :
    (v.recovering (run r.fixed.base) i).cascade run i = v.recovering (run r.fixed.base) i := by
  have hm : ¬ isMeasuring r.state = true := by rw [hv]; simp [isMeasuring]
  rw [View.cascade_of_record (View.recovering_record hr _), if_neg (by exact hm)]
  cases hb : run r.fixed.base
  · rw [if_neg (by rintro ⟨-, h⟩; cases h)]
  · rw [if_pos ⟨hv, rfl⟩, View.recovering, if_pos rfl, View.abandon_edit (f := fun r => { r with recoveryRun := 0 }) fun _ => rfl,
      View.abandon_abandon]

/-! ## The turns of a set -/

theorem restartMembers_losses (l : List SlotIx) (sh : s.shallow) : Losses (· ∈ l) s (l.foldl State.restartMember s) :=
  .foldl (fun _ i h => (Turn.restartMember h i).losses) l sh

theorem restartMembers_trips (l : List SlotIx) (sh : s.shallow) : (l.foldl State.restartMember s).trips = s.trips := by
  induction l generalizing s with
  | nil => rfl
  | cons a l ih =>
    have turn := Turn.restartMember sh a
    exact (ih (turn.losses.tree.shallow sh)).trans turn.trips

/-- A member is not healthy after the turns. -/
theorem restartMembers_unhealthy (sh : s.shallow) (hk : k ∈ l) : ¬ (l.foldl State.restartMember s).healthyAt k := by
  induction l generalizing s with
  | nil => cases hk
  | cons a l ih =>
    have turn := Turn.restartMember sh a
    have sh' := turn.losses.tree.shallow sh
    obtain rfl | hk := List.mem_cons.1 hk
    · intro h
      obtain ⟨q, hq, hh⟩ := (restartMembers_losses l sh').falls k h
      rw [← State.view_record, turn.own] at hq
      rw [View.restart_unhealthy hq] at hh
      cases hh
    · exact ih sh' hk

/-- What the health change of a member reaches has no healthy parent after the turns. -/
theorem restartMembers_reach (sh : s.shallow) (hk : k ∈ l) (hr : s.reaches k i) :
    s.allows i = true ∧ (l.foldl State.restartMember s).allows i = false := by
  have losses := restartMembers_losses l sh
  have ill := fun {j} (hj : j ∈ l) => restartMembers_unhealthy sh hj
  generalize l.foldl State.restartMember s = t at *
  have below : ∀ {p}, s.dependsOn i p = true → s.healthyAt p → ¬ t.healthyAt p → s.allows i = true ∧ t.allows i = false :=
    fun hd hs ht => ⟨(State.allows_of_dependsOn hd).2 hs,
      Bool.eq_false_iff.2 fun h => ht ((State.allows_of_dependsOn (by rw [losses.tree.dependsOn]; exact hd)).1 h)⟩
  obtain ⟨hs, hd | ⟨p, hp, hd, hpk⟩⟩ := hr
  · exact below hd hs (ill hk)
  · refine below hd hp ?_
    by_cases hl : p ∈ l
    · exact ill hl
    · refine Losses.unhealthy_of_view (losses.below_lost hl hpk hs (ill hk))

/-- A slot outside the set: struck by the cascade of a member that reaches it, or standing. -/
theorem restartMembers_outside (sh : s.shallow) (hi : i ∉ l) :
    ((∃ k ∈ l, s.reaches k i) ∧ s.allows i = true ∧ (l.foldl State.restartMember s).allows i = false ∧
      (l.foldl State.restartMember s).view i = (s.view i).cascade s.runs i) ∨
    ((∀ k ∈ l, ¬ s.reaches k i) ∧ (l.foldl State.restartMember s).allows i = s.allows i ∧
      (l.foldl State.restartMember s).view i = s.view i) := by
  have losses := restartMembers_losses l sh
  obtain ⟨same, view⟩ | ⟨as, at', view⟩ := losses.cases hi
  · refine .inr ⟨fun k hk hr => ?_, same, view⟩
    obtain ⟨as, at'⟩ := restartMembers_reach sh hk hr
    rw [as, at'] at same
    cases same
  · exact .inl ⟨losses.reached sh as at', as, at', view⟩

/-! ## A member -/

section
variable (sh : s.shallow) (hb : i ∉ before) (ha : i ∉ after) (hr : s.recordAt i = some r)
include sh hb ha hr

/-- A member that neither measures nor is VIOLATED stands. -/
theorem restartMembers_stands (hm : isMeasuring r.state = false) (hv : r.state ≠ .violated) :
    ((before ++ i :: after).foldl State.restartMember s).view i = s.view i := by
  have first := restartMembers_losses before sh
  have turn := Turn.restartMember (first.tree.shallow sh) i
  have last := restartMembers_losses after (turn.losses.tree.shallow (first.tree.shallow sh))
  have idle : ∀ run, (s.view i).cascade run i = s.view i := fun run =>
    View.cascade_of_settled (v := s.view i) hr hm hv run i
  have still : ∀ run al, (s.view i).restart run al i = s.view i := fun run al => by
    rw [View.restart_of_record (v := s.view i) hr, if_neg (Bool.eq_false_iff.1 hm), if_neg hv]
  have view1 : (before.foldl State.restartMember s).view i = s.view i := by
    obtain e | e := first.view_cases hb <;> rw [e]
    exact idle _
  have view2 := turn.own
  rw [view1, still] at view2
  rw [List.foldl_append, List.foldl_cons]
  obtain e | e := last.view_cases ha <;> rw [e, view2]
  exact idle _

/-- A measuring member that a member before it reaches is DORMANT as the cascade left it. -/
theorem restartMembers_struck_before (hm : isMeasuring r.state = true) (hk : k ∈ before) (hh : s.reaches k i) :
    ((before ++ i :: after).foldl State.restartMember s).view i = (s.view i).setAside i .dormant := by
  have first := restartMembers_losses before sh
  have turn := Turn.restartMember (first.tree.shallow sh) i
  have last := restartMembers_losses after (turn.losses.tree.shallow (first.tree.shallow sh))
  have aside : ((s.view i).setAside i .dormant).record = some (r.asideIn .dormant) := by
    rw [View.setAside_record, State.view_record, hr]; rfl
  have view1 : (before.foldl State.restartMember s).view i = (s.view i).setAside i .dormant := by
    obtain ⟨-, -, -, e⟩ | ⟨no, -⟩ := restartMembers_outside sh hb
    · rw [e, View.cascade_of_record (v := s.view i) hr, if_pos hm]
    · exact absurd hh (no k hk)
  have view2 := turn.own
  rw [view1, View.restart_of_record aside, if_neg (by simp [isMeasuring]), if_neg (by simp)] at view2
  rw [List.foldl_append, List.foldl_cons]
  obtain e | e := last.view_cases ha <;> rw [e, view2]
  exact View.cascade_of_settled aside rfl (by simp) _ _

/-- A measuring member that no member before it reaches begins anew, and is then set aside when one after it reaches it. -/
theorem restartMembers_measuring (hm : isMeasuring r.state = true) (hn : ∀ k ∈ before, ¬ s.reaches k i) :
    ((∀ k ∈ before ++ i :: after, ¬ s.reaches k i) →
      ((before ++ i :: after).foldl State.restartMember s).view i = (s.view i).restarted i) ∧
    (∀ k ∈ before ++ i :: after, s.reaches k i →
      ((before ++ i :: after).foldl State.restartMember s).view i = ((s.view i).restarted i).setAside i .dormant) := by
  have first := restartMembers_losses before sh
  have turn := Turn.restartMember (first.tree.shallow sh) i
  have sh2 := turn.losses.tree.shallow (first.tree.shallow sh)
  obtain ⟨⟨k, hk, h⟩, -⟩ | ⟨-, al1, view1⟩ := restartMembers_outside sh hb
  · exact absurd h (hn k hk)
  have view2 := turn.own
  have begun : ((s.view i).restarted i).record = some (r.idle.rearmedAt (s.view i).slot.generation) := by
    rw [View.restarted, View.edit_record, View.abandon_record, State.view_record, hr]; rfl
  rw [view1, View.restart_of_record (v := s.view i) hr, if_pos hm] at view2
  have al2 := turn.losses.allows_own (first.tree.shallow sh)
  have all := restartMembers_losses (before ++ i :: after) sh
  have last := restartMembers_outside sh2 ha
  have reach := fun {k} (hk : k ∈ before ++ i :: after) => restartMembers_reach (i := i) sh hk
  rw [List.foldl_append, List.foldl_cons] at *
  refine ⟨fun none => ?_, fun k hk hh => ?_⟩
  · obtain ⟨-, as, at', -⟩ | ⟨-, -, e⟩ := last
    · obtain ⟨k, hk, hh⟩ := all.reached sh (al1 ▸ al2 ▸ as) at'
      exact absurd hh (none k hk)
    · exact e.trans view2
  · obtain ⟨as, at'⟩ := reach hk hh
    obtain ⟨-, -, -, e⟩ | ⟨-, same, -⟩ := last
    · rw [e, view2]
      exact (View.cascade_of_record begun _ _).trans (if_pos rfl)
    · rw [at', al2, al1, as] at same
      cases same

/-- A VIOLATED member restarts its recovery, whatever cascades reach it. -/
theorem restartMembers_violated (hv : r.state = .violated) :
    ((before ++ i :: after).foldl State.restartMember s).view i = (s.view i).recovering (s.measures r) i := by
  have first := restartMembers_losses before sh
  have turn := Turn.restartMember (first.tree.shallow sh) i
  have sh2 := turn.losses.tree.shallow (first.tree.shallow sh)
  have hm : ¬ isMeasuring r.state = true := by rw [hv]; simp [isMeasuring]
  have measured : s.measures r = (s.runs r.fixed.base && s.allows i) := by
    rw [State.measures_eq, State.allows_of_record hr]; simp [Record.measuresIn, hv, isMeasuring]
  have runs2 : ((before.foldl State.restartMember s).restartMember i).runs = s.runs := turn.losses.runs.trans first.runs
  have al2 := turn.losses.allows_own (first.tree.shallow sh)
  have view2 : ((before.foldl State.restartMember s).restartMember i).view i = (s.view i).recovering (s.measures r) i := by
    rw [turn.own, first.runs, measured]
    obtain ⟨-, as, at', e⟩ | ⟨-, same, e⟩ := restartMembers_outside sh hb
    · rw [e, at', as, Bool.and_true]
      exact View.cascade_restart (v := s.view i) hr hv
    · rw [e, same, View.restart_of_record (v := s.view i) hr, if_neg hm, if_pos hv]
      rfl
  rw [List.foldl_append, List.foldl_cons]
  obtain ⟨-, as, -, e⟩ | ⟨-, -, e⟩ := restartMembers_outside sh2 ha
  · rw [e, view2, runs2, measured, first.allows (al2 ▸ as), Bool.and_true]
    exact View.recovering_cascade (v := s.view i) hr hv
  · exact e.trans view2

end

theorem SlotSet.Canonical.split (hc : SlotSet.Canonical l) (hi : i ∈ l) :
    ∃ before after, l = before ++ i :: after ∧ i ∉ before ∧ i ∉ after ∧ (∀ k ∈ before, k < i) ∧ ∀ k ∈ l, k < i → k ∈ before := by
  obtain ⟨before, after, rfl⟩ := List.append_of_mem hi
  obtain ⟨-, behind, less⟩ := List.pairwise_append.1 hc
  have greater := (List.pairwise_cons.1 behind).1
  have less' : ∀ k ∈ before, k < i := fun k hk => less k hk i List.mem_cons_self
  refine ⟨before, after, rfl, fun h => lt_irrefl _ (less' i h), fun h => lt_irrefl _ (greater i h), less', fun k hk lt => ?_⟩
  obtain h | h := List.mem_append.1 hk
  · exact h
  · obtain rfl | h := List.mem_cons.1 h
    · exact absurd lt (lt_irrefl _)
    · exact absurd lt (lt_asymm (greater k h))

/-! ## The words of the statement -/

theorem Record.idle_rearmedAt (r : Record) (g : Byte) : r.idle.rearmedAt g = r.rearmedAt g := by
  unfold Record.rearmedAt Record.amended
  rw [show r.idle.staged = r.staged from rfl]
  cases r.staged <;> rfl

theorem View.restarted_slot (i : SlotIx) (v : View) : (v.restarted i).slot = (v.edit (Record.rearmedAt v.slot.generation)).slot := by
  have whole : v.restarted i = (v.withdraw i).edit (Record.rearmedAt v.slot.generation) := by
    rw [View.restarted, View.abandon, View.edit_edit]
    exact View.edit_congr fun r _ => Record.idle_rearmedAt r _
  rw [whole]
  rfl

theorem View.restarted_record (hr : v.record = some r) : (v.restarted i).record = some (r.rearmedAt v.slot.generation) := by
  rw [View.record_of_slot (View.restarted_slot i v), View.edit_record, hr]
  rfl

theorem View.restarted_none (i : SlotIx) (v : View) : ∀ o ∈ (v.restarted i).obs, o.handle ≠ ⟨i, (v.restarted i).slot.generation⟩ := by
  rw [View.restarted, View.edit_generation, View.edit_obs]
  exact View.abandon_none i v

theorem armed_of_restarted (hr : s.recordAt i = some r) (hv : t.view i = (s.view i).restarted i) :
    t.nonePending i ∧ s.armed t i r ∧ s.posted t i 0 :=
  ⟨State.nonePending_of_view hv (View.restarted_none i _), armed_of_view hr (hv ▸ View.restarted_slot i _),
    by rw [State.posted_iff, hv, View.post_none]; rfl⟩

theorem dormant_of_restarted (hr : s.recordAt i = some r) (hv : t.view i = ((s.view i).restarted i).setAside i .dormant) :
    t.nonePending i ∧ ∃ r', t.recordAt i = some r' ∧ r' = r.dormantFrom r'.checkCode ∧
      s.posted t i (askedFor r'.limits.noticeMask 0x04) ∧ (s.codeAgrees i r = true → t.codeAgrees i r' = true) := by
  have begun := View.restarted_record (i := i) (v := s.view i) hr
  refine ⟨State.nonePending_of_view hv (View.setAside_none begun rfl _ _), (r.rearmedAt (s.slots[i.val]'i.isLt).generation).asideIn .dormant,
    ?_, ?_, ?_, fun h => ?_⟩
  · rw [← State.view_record, hv, View.setAside_record, begun]; rfl
  · exact (congrArg (fun q => q.asideIn .dormant) (Record.rearmedAt_eq (s.slots[i.val]'i.isLt).generation r)).trans rfl
  · rw [State.posted_iff, hv, View.setAside_kinds begun (by simp)]
    exact View.post_kinds_congr (v := View.restarted _ _) (w := s.view i) rfl
  · have generation : (t.slots[i.val]'i.isLt).generation = (s.slots[i.val]'i.isLt).generation := by
      rw [← State.view_slot, hv, View.setAside_generation, View.restarted_slot, View.edit_generation]; rfl
    rw [State.codeAgrees_iff] at h ⊢
    rw [generation]
    exact Record.rearmedAt_code _ _ h

theorem dormant_of_struck (hr : s.recordAt i = some r) (hm : isMeasuring r.state = true)
    (hv : t.view i = (s.view i).setAside i .dormant) : t.nonePending i ∧ t.recordAt i = some (r.asideIn .dormant) ∧
      s.posted t i (askedFor r.limits.noticeMask 0x04) := by
  have hv' : (s.view i).record = some r := hr
  refine ⟨State.nonePending_of_view hv (View.setAside_none hv' hm _ _), ?_, ?_⟩
  · rw [← State.view_record, hv, View.setAside_record, hv']; rfl
  · rw [State.posted_iff, hv, View.setAside_kinds hv' (by simp)]; rfl

theorem recovery_restarted (hr : s.recordAt i = some r) {measured : Bool} (hv : t.view i = (s.view i).recovering measured i) :
    t.recordAt i = some { r with recoveryRun := 0, context := if measured then Context.initial else r.context } ∧
      s.posted t i 0 ∧ (measured = true → t.nonePending i) := by
  refine ⟨?_, ?_, fun h => State.nonePending_of_view hv ?_⟩
  · rw [← State.view_record, hv, View.recovering_record (v := s.view i) hr]
  · rw [State.posted_iff, hv, View.post_none, View.recovering, View.edit_kinds]
    split <;> rfl
  · rw [View.recovering, if_pos h, View.edit_generation, View.edit_obs]
    exact View.abandon_none i _

/-- What the turns of a pin's members leave of one of them (R108, R116). -/
structure Restarted (l : List SlotIx) (i : SlotIx) (r : Record) (s t : State) : Prop where
  ended : isMeasuring r.state = true → t.nonePending i
  armed : isMeasuring r.state = true → (∀ k ∈ l, ¬ s.reaches k i) → s.armed t i r ∧ s.posted t i 0
  struck : isMeasuring r.state = true → ∀ k ∈ l, s.reaches k i → k < i →
    t.recordAt i = some (r.asideIn .dormant) ∧ s.posted t i (askedFor r.limits.noticeMask 0x04)
  late : isMeasuring r.state = true → ∀ k ∈ l, s.reaches k i → (∀ k' ∈ l, s.reaches k' i → i < k') →
    ∃ r', t.recordAt i = some r' ∧ r' = r.dormantFrom r'.checkCode ∧ s.posted t i (askedFor r'.limits.noticeMask 0x04) ∧
      (s.codeAgrees i r = true → t.codeAgrees i r' = true)
  recovery : r.state = .violated →
    t.recordAt i = some { r with recoveryRun := 0, context := if s.measures r then Context.initial else r.context } ∧
      s.posted t i 0 ∧ (s.measures r = true → t.nonePending i)
  stands : isMeasuring r.state = false → r.state ≠ .violated → s.stands t i

theorem restartMembers_member (sh : s.shallow) (hc : SlotSet.Canonical l) (hi : i ∈ l) (hr : s.recordAt i = some r) :
    Restarted l i r s (l.foldl State.restartMember s) := by
  obtain ⟨before, after, rfl, hb, ha, less, lower⟩ := hc.split hi
  have struck := fun {k} hm hk hh => dormant_of_struck hr hm (restartMembers_struck_before (k := k) sh hb ha hr hm hk hh)
  have begins := fun hm hn => restartMembers_measuring sh hb ha hr hm hn
  have within : ∀ {k}, k ∈ before → k ∈ before ++ i :: after := fun h => List.mem_append_left _ h
  refine ⟨fun hm => ?_, fun hm hn => ?_, fun hm k hk hh lt => ?_, fun hm k hk hh above => ?_, fun hv => ?_, fun hm hv => ?_⟩
  · by_cases first : ∃ k ∈ before, s.reaches k i
    · obtain ⟨k, hk, hh⟩ := first
      exact (struck hm hk hh).1
    · push Not at first
      by_cases later : ∃ k ∈ before ++ i :: after, s.reaches k i
      · obtain ⟨k, hk, hh⟩ := later
        exact (dormant_of_restarted hr ((begins hm first).2 k hk hh)).1
      · push Not at later
        exact (armed_of_restarted hr ((begins hm first).1 later)).1
  · exact (armed_of_restarted hr ((begins hm fun k hk => hn k (within hk)).1 hn)).2
  · exact (struck hm (lower k hk lt) hh).2
  · exact (dormant_of_restarted hr ((begins hm fun k' hk' hh' =>
      lt_asymm (less k' hk') (above k' (within hk') hh')).2 k hk hh)).2
  · exact recovery_restarted hr (restartMembers_violated sh hb ha hr hv)
  · exact State.stands_iff.2 (restartMembers_stands sh hb ha hr hm hv)

end Sys2Proof.Machine

section
open Sys2Proof Sys2Proof.Machine

theorem setPin_taken {f : Frame} {pin setting : Byte} {s : State} {p : PinIx} {n : Fin 8} (hs : s.receiving) (hp : pin.toNat = p.val)
    (hn : setting.toNat = n.val) : exec (.setPin f pin setting) s = .next ((ok ((s.frameEnded (5 + f.fill)).setFilter p n)
      [BitVec.ofNat 8 (s.pins[p]'p.isLt).subscribers.length]).served .setPin f) := by
  refine congrArg Host.Outcome.next (serve_answer hs .setPin f ?_)
  simp only [setPinBlock, indexOf_eq_some.2 hp, indexOf_eq_some.2 hn]
  rfl

/-- Settles O50. -/
theorem setPinRestartsMeasurements : Obligations.SetPinRestartsMeasurements := by
  intro f pin setting s hs
  have refused : ∀ {e p}, setPinBlock pin setting (s.frameEnded (5 + f.fill)) = refuse (s.frameEnded (5 + f.fill)) e p →
      exec (.setPin f pin setting) s = .next (s.replied (5 + f.fill) ⟨e, f.tag, 0x28, p⟩) := fun h =>
    congrArg Host.Outcome.next (serve_refuse hs .setPin f h)
  refine ⟨fun above => refused ?_, fun hp above => refused ?_, fun p n hp hn hc ht => ?_⟩
  · simp only [setPinBlock, indexOf_eq_none.2 above]
  · obtain ⟨p, hp'⟩ : ∃ p : PinIx, pin.toNat = p.val := ⟨⟨pin.toNat, by omega⟩, rfl⟩
    simp only [setPinBlock, indexOf_eq_some.2 hp', indexOf_eq_none.2 above]
  · have taken := setPin_taken (f := f) hs hp hn
    let x := (s.frameEnded (5 + f.fill)).setChannel p { (s.pins[p]'p.isLt) with filter := n, runCount := 0 }
    have sh : x.shallow := ht.shallow
    have turns : (s.frameEnded (5 + f.fill)).setFilter p n = (s.pins[p]'p.isLt).subscribers.foldl State.restartMember x := rfl
    have frame : TableFrame (fun _ => False) x ((s.pins[p]'p.isLt).subscribers.foldl State.restartMember x) :=
      .foldl (fun _ i => .restartMember i) _ x
    have trips : ((s.pins[p]'p.isLt).subscribers.foldl State.restartMember x).trips = s.trips := restartMembers_trips _ sh
    have losses := restartMembers_losses (s.pins[p]'p.isLt).subscribers sh
    have member := fun i r hi (hr : x.recordAt i = some r) => restartMembers_member sh (hc.2.1 p).1 hi hr
    rw [turns] at taken
    obtain ⟨bases, pins, ref, scrub, supply, inReset, pending⟩ := frame.outside
    refine ⟨_, taken, answered_served frame.port .setPin f, pins, bases, trips, ref, scrub, supply, inReset, pending,
      frame.notices.deviceKinds, fun i r hi hr => ?_, fun i hi hn => State.stands_iff.2 (losses.unreached sh hi hn)⟩
    intro heads
    obtain ⟨ended, armed, struck, late, recovery, stands⟩ := member i r hi hr
    refine ⟨fun hm => ⟨ended hm, fun hn => armed hm fun k hk hh => hn k ⟨hk, hh⟩, fun k hk => struck hm k hk.1 hk.2,
      fun k hk above => late hm k hk.1 hk.2 fun k' h h' => above k' ⟨h, h'⟩⟩, fun hv hm => ?_, fun hv hm => ?_, stands⟩
    · obtain ⟨record, posted, none⟩ := recovery hv
      have measured : x.measures r = true := hm
      rw [measured, if_pos rfl] at record
      exact ⟨record, none hm, posted⟩
    · obtain ⟨record, posted, -⟩ := recovery hv
      have idle : x.measures r = false := hm
      rw [idle, if_neg (by simp)] at record
      exact ⟨record, posted⟩

end
end
